-- ==== Sys2Proof/Word.lean ====
section
/-! DEFINITION. The word types of the block: 32-bit values (R13, R38), bytes (R33), and the plain
indexes the manual counts with (register identifiers, core indexes, line addresses, sequence IDs). -/

namespace Sys2Proof

/-- `u32` (R13): register values, program-counter values and data addresses as the oracle gives
them; arithmetic is modulo 2^32. -/
abbrev Word := BitVec 32

/-- One byte of data memory (R33). -/
abbrev Byte := BitVec 8

/-- A register identifier (R38). It is a plain number: a descriptor may name any, and only
well-formedness (R104) bounds it by the register count. -/
abbrev RegId := Nat

/-- A core index `0 .. NUM_CORES-1` (R30). -/
abbrev CoreId := Nat

/-- The address of the first byte of a data or instruction-cache line (R152, R286). -/
abbrev LineAddr := Nat

/-- A sequence ID (R172), an unbounded natural (R13). -/
abbrev Seq := Nat

/-- NREGS = 32 (R8, R38): fixed, not a parameter (93_implementation_defined.md section 2). -/
abbrev NREGS : Nat := 32

/-- The register file's contents, `RegId → u32` for the identifiers below NREGS (R38, R101 `View`). -/
abbrev Regs := Vector Word NREGS

end Sys2Proof
end

