-- ==== Sys2Proof/Config.lean ====
section
/-! DEFINITION. What an implementation or a host fixes: the configuration record `Cfg` of R8, the
test configuration T, and the instruction oracle of R12. The oracle is the external collaborator
that says what an instruction computes: an entry whose key is `external` is interpreted by opaque
constants of this file, so a statement about it holds for every oracle there is. -/

namespace Sys2Proof

/-- BYTE_ORDER (R8, R74): the byte order the instruction oracle uses. The block has none. -/
inductive ByteOrder where
  | little
  | big
deriving DecidableEq, Repr

/-- The configuration record `Cfg` (R8), a parameter fixed for the whole run (R40, R52). NREGS and
XLEN are 32 in every configuration and are no fields. -/
structure Cfg where
  /-- NUM_CORES -/
  numCores : Nat
  /-- IW, instruction width in bytes (pc step) -/
  iw : Nat
  /-- MEM_SIZE, data memory size in bytes -/
  memSize : Nat
  /-- BUS_CAP, slots per bus position -/
  busCap : Nat
  /-- PQ_CAP, issue pending-queue capacity -/
  pqCap : Nat
  /-- ROB_CAP, retirement-buffer capacity -/
  robCap : Nat
  /-- FETCH_WIDTH -/
  fetchWidth : Nat
  /-- DECODE_WIDTH -/
  decodeWidth : Nat
  /-- ISSUE_WIDTH -/
  issueWidth : Nat
  /-- N_EU, execute units per core -/
  nEu : Nat
  /-- WB_UNITS, results drained and commits per cycle -/
  wbUnits : Nat
  /-- FORWARDING -/
  fwdEnabled : Bool
  /-- RENAMING -/
  renameEnabled : Bool
  /-- NPHYS, physical rename slots -/
  nPhys : Nat
  /-- BTB_CAP (0 = prediction off) -/
  btbCap : Nat
  /-- L1I_LINES -/
  l1iLines : Nat
  /-- L1I_LINE, instruction-cache line size in bytes -/
  l1iLine : Nat
  /-- L1D_PRESENT -/
  l1dPresent : Bool
  /-- L1D_LINES -/
  l1dLines : Nat
  /-- LINE_SIZE, data line size in bytes -/
  lineSize : Nat
  /-- L3_LINES (0 = absent) -/
  l3Lines : Nat
  /-- MEM_LAT -/
  memLat : Nat
  /-- L1_LAT -/
  l1Lat : Nat
  /-- L3_LAT -/
  l3Lat : Nat
  /-- BYTE_ORDER -/
  byteOrder : ByteOrder
deriving DecidableEq, Repr

/-- The test configuration T of R8. It is the configuration of `State.reset`
(DESIGN CHOICE, notes/assumptions/1.md); every other configuration is a value of the field
`State.cfg`. -/
def Cfg.T : Cfg where
  numCores := 1
  iw := 4
  memSize := 64
  busCap := 1
  pqCap := 4
  robCap := 16
  fetchWidth := 1
  decodeWidth := 1
  issueWidth := 1
  nEu := 1
  wbUnits := 1
  fwdEnabled := true
  renameEnabled := true
  nPhys := 4
  btbCap := 2
  l1iLines := 4
  l1iLine := 8
  l1dPresent := true
  l1dLines := 2
  lineSize := 4
  l3Lines := 0
  memLat := 3
  l1Lat := 1
  l3Lat := 2
  byteOrder := .little

/-- `ExecutionResult` (R105): what one execution of an instruction reports. -/
structure ExecutionResult where
  /-- the changed register and its new value -/
  regChange : Option (RegId × Word)
  /-- the changed bytes, in the order they are applied (R75) -/
  memChange : List (Word × Byte)
  /-- the new program counter, when control flow changed -/
  pcChange : Option Word
  /-- the program is terminating -/
  terminate : Bool
deriving DecidableEq, Repr, Inhabited

/-- The empty result: the effect of a no-operation (R117). -/
def ExecutionResult.empty : ExecutionResult where
  regChange := none
  memChange := []
  pcChange := none
  terminate := false

/-- `OracleError` (R105): an opaque value of the oracle, such as "division by zero". -/
abbrev OracleError := String

/-- `ExecutionResult ⊎ OracleError`, the answer of `exec` (R101). -/
inductive OracleOut where
  | ok (o : ExecutionResult)
  | err (e : OracleError)
deriving DecidableEq, Repr, Inhabited

/-- The label table of a program (R11), passed to the oracle unchanged (R106). -/
abbrev Labels := List (String × Word)

/-- A partial map from data addresses to bytes, `Addr ⇀ Byte` (R48, R101), kept with rising
addresses. -/
abbrev ByteMap := List (Nat × Byte)

/-- The `ops` of a descriptor (R101) together with the choice of its three oracle functions
memRead, memWrite and exec. `external` stands for any instruction of the external instruction set;
the other constructors are the concrete oracles of 95_test_vectors.md section 0, and `const` is an
oracle whose answers do not depend on its inputs. -/
inductive Oracle where
  /-- any oracle: the functions are the opaque constants below, at this key -/
  | external (key : Nat)
  /-- fixed address lists and a fixed answer (`nop`, `div` by zero, `ret`) -/
  | const (reads writes : List Word) (out : OracleOut)
  /-- `addi rd, rs, imm` -/
  | addi (rd rs : RegId) (imm : Word)
  /-- `add rd, ra, rb` -/
  | add (rd ra rb : RegId)
  /-- `lw rd, off(rs)` -/
  | lw (rd : RegId) (off : Word) (rs : RegId)
  /-- `sw rt, off(rs)` -/
  | sw (rt : RegId) (off : Word) (rs : RegId)
  /-- `sb rt, off(rs)` -/
  | sb (rt : RegId) (off : Word) (rs : RegId)
  /-- `beq ra, rb, off` -/
  | beq (ra rb : RegId) (off : Word)
  /-- `bne ra, rb, off` -/
  | bne (ra rb : RegId) (off : Word)
  /-- `jal rd, off` with a link register -/
  | jal (rd : RegId) (off : Word)
  /-- `jal x0, off`: no link register is written -/
  | jump (off : Word)
deriving DecidableEq, Repr

/-- The oracle of a `nop` (95_test_vectors.md section 0): no addresses, the empty result. -/
def Oracle.nop : Oracle := .const [] [] (.ok .empty)

/-- The oracle of the terminating `ret` (95_test_vectors.md section 0). -/
def Oracle.ret : Oracle :=
  .const [] [] (.ok ⟨none, [], none, true⟩)

/-- The oracle of `div rd, ra, ra` with x[ra] = 0 (95_test_vectors.md section 0). -/
def Oracle.divByZero : Oracle := .const [] [] (.err "division by zero")

/-- `memory_read_addresses(context)` of an external instruction (R101): unconstrained. -/
opaque Config.memRead (key : Nat) (order : ByteOrder) (view : Regs) : List Word

/-- `memory_write_addresses(context)` of an external instruction (R101): unconstrained. -/
opaque Config.memWrite (key : Nat) (order : ByteOrder) (view : Regs) : List Word

/-- `execute(context, label_table, program_counter, memory_bytes)` of an external instruction (R12,
R101): unconstrained, but for the contract R223 that the execute unit checks on every answer. -/
opaque Config.execute (key : Nat) (order : ByteOrder) (view : Regs) (labels : Labels) (pc : Word)
    (got : ByteMap) : OracleOut

end Sys2Proof
end

