-- ==== Sys2Proof/Syntax.lean ====
section
/-! DEFINITION. The abstract syntax of instructions: the six classes of R102, one constructor per
row of the opcode table, each with the static part of its descriptor (R101): the list R of registers
it reads and the list W of registers it writes. What an instruction computes is no part of it
(R12). -/

namespace Sys2Proof

/-- The static part of an instruction descriptor (R101, R102): its class and its register lists.
Lists longer than the header format holds are allowed: such an instruction is "represented by the
record of rule R101 only" (R103). -/
inductive Instr where
  /-- class 0, no memory access and no control transfer (R230) -/
  | alu (r w : List RegId)
  /-- class 1, reads memory and writes its W registers (R231) -/
  | load (r w : List RegId)
  /-- class 2, writes memory (R232) -/
  | store (r w : List RegId)
  /-- class 3, conditional branch (R233) -/
  | cbr (r w : List RegId)
  /-- class 4, unconditional branch, may write a link register (R234) -/
  | jmp (r w : List RegId)
  /-- class 5, return: terminates the program or transfers control (R238) -/
  | ret (r w : List RegId)
deriving DecidableEq, Repr

/-- `read_registers()`: the list R of the descriptor (R101). -/
def Instr.reads : Instr → List RegId
  | .alu r _ => r
  | .load r _ => r
  | .store r _ => r
  | .cbr r _ => r
  | .jmp r _ => r
  | .ret r _ => r

/-- `write_registers()`: the list W of the descriptor (R101). -/
def Instr.writes : Instr → List RegId
  | .alu _ w => w
  | .load _ w => w
  | .store _ w => w
  | .cbr _ w => w
  | .jmp _ w => w
  | .ret _ w => w

/-- The 3-bit class code (R102, R116). -/
def Instr.code : Instr → Nat
  | .alu _ _ => 0
  | .load _ _ => 1
  | .store _ _ => 2
  | .cbr _ _ => 3
  | .jmp _ _ => 4
  | .ret _ _ => 5

end Sys2Proof
end

