-- ==== Sys2Proof/WellFormed.lean ====
section
/-! DEFINITION. Well-formedness: of an instruction (R104), of its header form (R103), of a
configuration (R8, R9) and of a program's extent (R150). -/

namespace Sys2Proof

/-- Every element of a register list is below NREGS (R104). -/
def registersExist (l : List RegId) : Bool := l.all (fun q => decide (q < NREGS))

/-- A register list has no repeated element (R104). -/
def registersDistinct (l : List RegId) : Bool := decide l.Nodup

/-- R104: "every element of R and W is below NREGS; R has no repeated element and W has no repeated
element". The class of an `Instr` is never reserved. -/
def Instr.wf (i : Instr) : Bool :=
  registersExist i.reads && registersExist i.writes &&
    registersDistinct i.reads && registersDistinct i.writes

/-- R103: an instruction has a header word when it reads at most two registers and writes at most
one. -/
def Instr.hasHeader (i : Instr) : Bool :=
  decide (i.reads.length ≤ 2) && decide (i.writes.length ≤ 1)

/-- R8, R9: every constraint of the parameter table holds, L1I_LINE is a multiple of IW, and there
is no shared cache without data caches. -/
def Cfg.wf (g : Cfg) : Bool :=
  decide (1 ≤ g.numCores) && decide (g.iw = 4) &&
  decide (1 ≤ g.memSize) && decide (g.memSize ≤ 2 ^ 32) &&
  decide (1 ≤ g.busCap) && decide (1 ≤ g.pqCap) && decide (1 ≤ g.robCap) &&
  decide (1 ≤ g.fetchWidth) && decide (1 ≤ g.decodeWidth) && decide (1 ≤ g.issueWidth) &&
  decide (1 ≤ g.nEu) && decide (1 ≤ g.wbUnits) &&
  decide (1 ≤ g.l1iLines) && decide (g.iw ≤ g.l1iLine) && decide (g.l1iLine % g.iw = 0) &&
  decide (1 ≤ g.l1dLines) && decide (1 ≤ g.lineSize) && decide (g.memSize % g.lineSize = 0) &&
  decide (1 ≤ g.memLat) && decide (1 ≤ g.l1Lat) && decide (1 ≤ g.l3Lat) &&
  (g.l1dPresent || decide (g.l3Lines = 0))

/-- R150: `END = N * IW` is below 2^32 and the entry address is a multiple of IW. -/
def programWf (g : Cfg) (n : Nat) (entry : Word) : Bool :=
  decide (n * g.iw < 2 ^ 32) && decide (entry.toNat % g.iw = 0)

end Sys2Proof
end

