-- ==== Sys2Proof/Decode.lean ====
section
/-! DEFINITION. The descriptor header `DH` (R103): reading a 32-bit header word as an instruction,
and writing an instruction of header form as its word. Every word that is no header of a well-formed
descriptor is rejected by name (R104, R117). -/

namespace Sys2Proof

/-- Why a header word is no descriptor (R104, R117). Each is the refusal DESC. -/
inductive DecodeError where
  /-- class code 6 or 7 -/
  | reservedClass
  /-- `rsv ≠ 0` -/
  | reservedBits
  /-- a register field is not 0 although its valid bit is 0 -/
  | unusedField
  /-- R has a second element but no first one (DEDUCED, notes/assumptions/8.md) -/
  | secondWithoutFirst
  /-- R names one register twice -/
  | repeatedRegister
deriving DecidableEq, Repr

/-- `h[lo+len-1 : lo]` as a number (R13). -/
def headerField (h : BitVec 32) (lo len : Nat) : Nat := (h.extractLsb' lo len).toNat

/-- The instruction of a class code and register lists (R102); codes 6 and 7 are reserved. -/
def instrOfCode (code : Nat) (r w : List RegId) : Option Instr :=
  match code with
  | 0 => some (.alu r w)
  | 1 => some (.load r w)
  | 2 => some (.store r w)
  | 3 => some (.cbr r w)
  | 4 => some (.jmp r w)
  | 5 => some (.ret r w)
  | _ => none

/-- A register field with its valid bit: the list of the registers it names (R103). -/
def fieldList (valid reg : Nat) : List RegId := if valid = 1 then [reg] else []

/-- Reading a header word by the table of R103. -/
def decodeHeader (h : BitVec 32) : Except DecodeError Instr :=
  let cls := headerField h 0 3
  let wv := headerField h 3 1
  let wd := headerField h 4 5
  let r1v := headerField h 9 1
  let r1 := headerField h 10 5
  let r2v := headerField h 15 1
  let r2 := headerField h 16 5
  let rsv := headerField h 21 11
  if rsv ≠ 0 then .error .reservedBits
  else if (wv = 0 ∧ wd ≠ 0) ∨ (r1v = 0 ∧ r1 ≠ 0) ∨ (r2v = 0 ∧ r2 ≠ 0) then .error .unusedField
  else if r2v = 1 ∧ r1v = 0 then .error .secondWithoutFirst
  else if r2v = 1 ∧ r1 = r2 then .error .repeatedRegister
  else
    match instrOfCode cls (fieldList r1v r1 ++ fieldList r2v r2) (fieldList wv wd) with
    | some i => .ok i
    | none => .error .reservedClass

/-- The valid bit and the register field of position `k` of a register list (R103). -/
def listField (l : List RegId) (k : Nat) : Nat :=
  match l[k]? with
  | some q => 1 + 2 * q
  | none => 0

/-- The header word of an instruction by the table of R103: the class code in bits 2:0, the written
register and its valid bit in 8:3, the two read registers and theirs in 14:9 and 20:15, zeros above.
An ill-formed instruction, and one with larger register sets, has none. -/
def encodeHeader (i : Instr) : Option (BitVec 32) :=
  if i.wf && i.hasHeader then
    some (BitVec.ofNat 32
      (i.code + 2 ^ 3 * listField i.writes 0 + 2 ^ 9 * listField i.reads 0
        + 2 ^ 15 * listField i.reads 1))
  else none

/-- The instruction the decoder reads from a table row's bits: one 32-bit header word, bit 0 its
least significant bit; more bits than a header has are no instruction. -/
def decodeTableWord (nbits w : Nat) : Option Instr :=
  if nbits ≤ 32 then (decodeHeader (BitVec.ofNat 32 (w % 2 ^ nbits))).toOption else none

end Sys2Proof
end

