-- ==== Sys2Proof/Machine/State.lean ====
section
/-! DEFINITION. The state of the machine as plain data: every record of 10_state.md and
30_encoding.md, the program the host loads, and the reset state (R56). Two fields are the model's
own, `State.focus` and `State.raised`: both are empty between steps (notes/assumptions/3.md). -/

namespace Sys2Proof.Machine

/-! ### Outcomes -/

/-- The faults of R115: invariant violations of the block itself, never of the program (R365). Each
stops the run with the state before the faulting step, so every one of them is safe. -/
inductive Fault where
  /-- F_MSI (16): two cores Modified, or Modified beside Shared, on one line. Raised by the cache
  controller and by the check after a step (R55 (a), R311). Safe. -/
  | msi
  /-- F_LINE (17): a line expected present is missing, or L1D presence disagrees with the directory.
  Raised by the line stores, the snoop step and the check after a step (R55 (b), R285). Safe. -/
  | line
  /-- F_SEM (18): a semaphore released without a hold. Raised by the semaphore operations and the
  check after a step (R55 (c), R294). Safe. -/
  | sem
  /-- F_PW (19): a pending-write count would go negative or disagrees with the buffer. Raised by
  commit, flush and the check after a step (R55 (d)). Safe. -/
  | pw
  /-- F_CAP (20): a capacity bound broken, or a program index out of range. Raised by the pending
  queue, the decode unit and the check after a step (R55 (e), R139, R171). Safe. -/
  | cap
  /-- F_BUS (21): `add` on a full bus, or `get` on an empty one (R132, R134). Raised by the bus
  operations. Safe. -/
  | bus
  /-- F_ORACLE (22): the oracle broke its contract (R223). Raised by the meanings. Safe. -/
  | oracle
  /-- F_UNREACH (23): an unreachable state (R115). Raised by the controller, the branch unit, the
  execute units and the arbiter. Safe. -/
  | unreach
deriving DecidableEq, Repr

/-- The fault codes of R115. -/
def Fault.code : Fault → Nat
  | .msi => 16
  | .line => 17
  | .sem => 18
  | .pw => 19
  | .cap => 20
  | .bus => 21
  | .oracle => 22
  | .unreach => 23

/-- `refuse(reason)` (R16, R367): the model gives no run to an ill-formed input. -/
inductive Refusal where
  /-- an instruction whose meaning is not written yet; raised by no arm of this model. Safe. -/
  | notModelled (mnemonic : String)
  /-- an ill-formed configuration (R9). Raised by the step before anything runs. Safe. -/
  | config
  /-- PROG: `END ≥ 2^32` or a misaligned entry (R150) of this core's program. Raised by the step
  before anything runs. Safe. -/
  | program (core : CoreId)
  /-- DESC: an ill-formed or reserved descriptor (R104, R117) at this index of this core's program.
  Raised by the step before anything runs. Safe. -/
  | descriptor (core : CoreId) (index : Nat)
  /-- the state does not hold NUM_CORES cores and programs with N_EU execute units each: it is no
  state of a machine of its configuration. Raised by the step before anything runs. Safe. -/
  | shape
  /-- a meaning is asked for while no execute unit holds a work item, so there is no instruction to
  run. Raised by the meanings; the step never asks so. Safe. -/
  | noUnit
deriving DecidableEq, Repr

/-- What ends a unit's operation early: a fault or a refusal. -/
inductive Stop where
  | fault (f : Fault)
  | refused (r : Refusal)
deriving DecidableEq, Repr

/-- The answer of an operation that can fault. -/
abbrev Res (α : Type) := Except Stop α

/-- The program errors of R114 with the info each carries. -/
inductive ProgramError where
  /-- E_EXEC (1): the oracle returned an OracleError -/
  | exec (e : OracleError)
  /-- E_ALIGN (2): a control-transfer target that is not a multiple of IW -/
  | align (target : Word)
  /-- E_ADDR (3): the first read or written address at or above MEM_SIZE -/
  | addr (a : Word)
deriving DecidableEq, Repr

/-- The program-error codes of R114. -/
def ProgramError.code : ProgramError → Nat
  | .exec _ => 1
  | .align _ => 2
  | .addr _ => 3

/-- The run outcome `status` (R31). -/
inductive Status where
  | running
  | completed
  | error (core : CoreId) (e : ProgramError)
  | fault (f : Fault)
deriving DecidableEq, Repr

/-! ### Descriptors and programs -/

/-- `Descriptor` (R101): class and register lists, and the oracle with its `ops`. -/
structure Descriptor where
  instr : Instr
  ops : Oracle
deriving DecidableEq, Repr

/-- The static part of a program entry: a header word (R103), or a record for a descriptor that may
have larger register sets (R103, last sentence). -/
inductive Static where
  | header (h : BitVec 32)
  | record (i : Instr)
deriving DecidableEq, Repr

/-- One entry of the instruction store (R70): "the functions memRead, memWrite and exec stay with the
program entry" (R103). -/
structure ProgEntry where
  static : Static
  ops : Oracle
deriving DecidableEq, Repr

/-- The host's inputs for one core (R381): program, label table, entry address, initial registers.
No step changes them (R52). -/
structure CoreInput where
  prog : List ProgEntry
  labels : Labels
  entry : Word
  initRegs : Regs
deriving DecidableEq, Repr

/-- Every register 0 (R38, D3). -/
def zeroRegs : Regs := Vector.replicate NREGS 0

/-- The defaults of R381 with a program in which nothing stands. -/
def CoreInput.blank : CoreInput where
  prog := []
  labels := []
  entry := 0
  initRegs := zeroRegs

/-! ### Bus payloads -/

/-- `Runner` (R107): a descriptor in flight with its pc and sequence ID. -/
structure Runner where
  desc : Descriptor
  pc : Word
  seq : Seq
deriving DecidableEq, Repr

/-- `Issued` (R107): a runner sent to execute, with the forwarding it waits for. -/
structure Issued where
  run : Runner
  fwd : Option (Seq × RegId)
deriving DecidableEq, Repr

/-- The `out` of a `Result` (R107). -/
inductive ResultOut where
  | ok (o : ExecutionResult)
  | err (e : ProgramError)
deriving DecidableEq, Repr

/-- `Result` (R107). -/
structure Result where
  seq : Seq
  out : ResultOut
deriving DecidableEq, Repr

/-- `Flush` (R108). -/
structure Flush where
  seq : Seq
  target : Option Word
deriving DecidableEq, Repr

/-- A bus with its three positions, oldest value first (R130). -/
structure Bus (α : Type) where
  entry : List α
  buffer : List α
  visible : List α
deriving DecidableEq, Repr

/-- The empty bus (R130). -/
def Bus.empty {α : Type} : Bus α := ⟨[], [], []⟩

/-! ### Pipeline records -/

/-- The status of a retirement-buffer entry (R47). -/
inductive RobStatus where
  | issued
  | executed
  | completed (out : ResultOut)
deriving DecidableEq, Repr

/-- A retirement-buffer entry (R47). -/
structure RobEntry where
  seq : Seq
  pc : Word
  desc : Descriptor
  status : RobStatus
  slots : Nat
deriving DecidableEq, Repr

/-- A forwarding link with its one-shot cell (R46, R109). -/
structure Link where
  prod : Seq
  cons : Seq
  reg : RegId
  cell : Option Word
deriving DecidableEq, Repr

/-- `Work` (R220): the instruction an execute unit works on, with its forwarded overlay. -/
structure Work where
  run : Runner
  fwd : Option (Seq × RegId)
  ov : Option (RegId × Word)
deriving DecidableEq, Repr

/-- `EuState` (R48, R220). -/
inductive EuState where
  | idle
  | waitFwd (w : Work)
  | memRd (w : Work) (todo : List LineAddr) (got : ByteMap)
  | push (w : Work) (res : Result)
deriving DecidableEq, Repr

/-- `Expect` (R113). -/
inductive Expect where
  | known (t : Word) (redirected : Bool)
  | unknown
deriving DecidableEq, Repr

/-- The fetch unit's `fstate` (R42). -/
inductive FetchState where
  | idle
  | miss (n : Nat)
deriving DecidableEq, Repr

/-- `StoreProg` (R51). -/
structure StoreProg where
  seq : Seq
  todo : List LineAddr
  wait : Nat
deriving DecidableEq, Repr

/-! ### Cache controller and coherence records -/

/-- An LRU line store, least recently used line first (R285). -/
abbrev LruStore (α : Type) := List (LineAddr × α)

/-- MSI directory states (R35, R112). -/
inductive Msi where
  | i
  | s
  | m
deriving DecidableEq, Repr

/-- The MSI state codes (R112). -/
def Msi.code : Msi → Nat
  | .i => 0
  | .s => 1
  | .m => 2

/-- A per-line semaphore (R36). -/
structure Sem where
  readers : Nat
  writer : Bool
deriving DecidableEq, Repr

/-- The semaphore nobody holds (R36). -/
def Sem.free : Sem := ⟨0, false⟩

/-- Snoop-command kinds (R111). -/
inductive CmdKind where
  | evict
  | writeBack
deriving DecidableEq, Repr

/-- The snoop-command codes (R111). -/
def CmdKind.code : CmdKind → Nat
  | .evict => 0
  | .writeBack => 1

/-- `CmdKey` (R111). -/
structure CmdKey where
  target : CoreId
  line : LineAddr
  kind : CmdKind
deriving DecidableEq, Repr

/-- The status of a snoop command (R111). -/
inductive CmdStatus where
  | pending
  | done
deriving DecidableEq, Repr

/-- Kinds of controller request (R110). -/
inductive ReqKind where
  | read
  | write
deriving DecidableEq, Repr

/-- Requesters (R110). -/
inductive Requester where
  | eu (i : Nat)
  | wb
deriving DecidableEq, Repr

/-- Lock modes (R110). -/
inductive LockMode where
  | read
  | write
deriving DecidableEq, Repr

/-- The level that serves an access (R110). -/
inductive Source where
  | l1
  | l3
  | mem
deriving DecidableEq, Repr

/-- The phases of a request (R110). -/
inductive Phase where
  | locking
  | waiting (keys : List CmdKey)
  | access (n : Nat) (src : Source)
  | finished (data : List Host.Cell)
deriving DecidableEq, Repr

/-- `ReqState` (R110). -/
structure ReqState where
  kind : ReqKind
  line : LineAddr
  who : Requester
  seq : Seq
  bytes : List Host.Cell
  mode : Option LockMode
  phase : Phase
deriving DecidableEq, Repr

/-! ### Memory -/

/-- Data memory (R33) as the list of its bytes that differ from what an unlisted address reads as,
addresses strictly rising. -/
abbrev Memory := List Host.Cell

/-- What an address that is not listed reads as: "where the host gives none, every byte is 0"
(R33, D53). -/
def unlistedByte : Byte := 0

/-- The keys of a list of pairs rise strictly. -/
def keysRise {α : Type} (m : List (Nat × α)) : Bool :=
  decide ((m.map Prod.fst).Pairwise (· < ·))

/-- The canonical form of a map whose unlisted keys read as `d`: keys strictly rising, no entry equal
to `d`. -/
def canonical {α : Type} [DecidableEq α] (d : α) (m : List (Nat × α)) : Bool :=
  keysRise m && m.all (fun e => decide (e.2 ≠ d))

/-- The canonical form of data memory. -/
def Memory.wf (m : Memory) : Bool := canonical unlistedByte m

/-! ### The state -/

/-- The private state of one core (R38 to R51). -/
structure Core where
  /-- `x`, the register file (R38) -/
  x : Regs
  /-- `pw`, the pending-write counts, registers with count 0 not listed (R41) -/
  pw : List (RegId × Nat)
  /-- `pc` (R42) -/
  pc : Word
  /-- `complete` (R42) -/
  complete : Bool
  /-- `fstate` (R42) -/
  fstate : FetchState
  /-- `l1i`, line addresses with no data (R42) -/
  l1i : LruStore Unit
  /-- `FD`, fetch to decode (R43) -/
  fd : Bus Word
  /-- `DI`, decode to issue (R43) -/
  di : Bus Runner
  /-- `IE`, issue to execute (R43) -/
  ie : Bus Issued
  /-- `EW`, execute to write-back (R43) -/
  ew : Bus Result
  /-- `pendingBranch` (R44) -/
  pendingBranch : Bool
  /-- `nextSeq` (R44) -/
  nextSeq : Seq
  /-- `pendingQ` (R45) -/
  pendingQ : List Runner
  /-- `prevIssued` (R45) -/
  prevIssued : List Seq
  /-- `curIssued` (R45) -/
  curIssued : List Seq
  /-- `freePhys` (R45) -/
  freePhys : Nat
  /-- `links` (R46) -/
  links : List Link
  /-- `rob`, in ascending seq (R47) -/
  rob : List RobEntry
  /-- `eu[0 .. N_EU-1]` (R48) -/
  eu : List EuState
  /-- `btb`, oldest entry first (R49) -/
  btb : List (Word × Word)
  /-- `expect`, keys rising (R49) -/
  expect : List (Seq × Expect)
  /-- `l1d` (R50) -/
  l1d : LruStore (List Byte)
  /-- `req` (R50) -/
  req : Option ReqState
  /-- `sprog` (R51) -/
  sprog : Option StoreProg
  /-- `done` (R51) -/
  done : Bool
  /-- `fwdCount` (R51, R372) -/
  fwdCount : Nat
  /-- `stallCount` (R51, R372) -/
  stallCount : Nat
  /-- `flushCount` (R51, R372) -/
  flushCount : Nat
deriving DecidableEq, Repr

/-- The work item an execute unit is running at this moment of its step: the model's own record of
"core in context" (R14), unit index and read bytes, which `run(i, w, got)` takes as arguments (R225).
`got` is none before the memory read of R224. -/
structure Focus where
  core : CoreId
  unit : Nat
  work : Work
  got : Option ByteMap
deriving DecidableEq, Repr

/-- The machine state `M` (R30), with the parameters and host inputs of the run (R52) and the two
fields of the model's own. -/
structure State where
  /-- the configuration (R8): constant -/
  cfg : Cfg
  /-- per core, the host's inputs (R381), the instruction store among them (R70): constant -/
  inputs : List CoreInput
  /-- `cycle` (R32) -/
  cycle : Nat
  /-- `status` (R31) -/
  status : Status
  /-- `mem` (R33) -/
  mem : Memory
  /-- `l3` (R34) -/
  l3 : LruStore (List Byte)
  /-- `dir`, per core its lines that are not I, cores without one not listed (R35) -/
  dir : List (CoreId × List (LineAddr × Msi))
  /-- `sem`, lines nobody holds not listed (R36) -/
  sem : List (LineAddr × Sem)
  /-- `cmds`, in the order keys were armed (R37) -/
  cmds : List (CmdKey × CmdStatus)
  /-- `core[0 .. NUM_CORES-1]` (R30) -/
  cores : List Core
  /-- the model's own: the work item being run, none between steps -/
  focus : Option Focus
  /-- the model's own: the driver's list F of the flush signals raised in this cycle (R341), empty
  between steps -/
  raised : List Flush
deriving DecidableEq, Repr

/-- The reset values of a core (R56), given its inputs. -/
def Core.init (g : Cfg) (inp : CoreInput) : Core where
  x := inp.initRegs
  pw := []
  pc := inp.entry
  complete := false
  fstate := .idle
  l1i := []
  fd := .empty
  di := .empty
  ie := .empty
  ew := .empty
  pendingBranch := false
  nextSeq := 0
  pendingQ := []
  prevIssued := []
  curIssued := []
  freePhys := g.nPhys
  links := []
  rob := []
  eu := List.replicate g.nEu .idle
  btb := []
  expect := []
  l1d := []
  req := none
  sprog := none
  done := false
  fwdCount := 0
  stallCount := 0
  flushCount := 0

/-- The reset values of the machine (R56, R380), given a configuration, one input per core and the
initial memory in canonical form. -/
def State.init (g : Cfg) (inputs : List CoreInput) (image : Memory) : State where
  cfg := g
  inputs := inputs
  cycle := 0
  status := .running
  mem := image
  l3 := []
  dir := []
  sem := []
  cmds := []
  cores := inputs.map (Core.init g)
  focus := none
  raised := []

/-- The machine right after reset, with every host input at its default (R381), no program given, in
configuration T (DESIGN CHOICE, notes/assumptions/1.md and 2.md). -/
def State.reset : State := State.init Cfg.T [CoreInput.blank] []

end Sys2Proof.Machine
end

