-- ==== Sys2Proof/Machine/Ops.lean ====
section
/-! DEFINITION. The named operations over registers, memory, maps, buses, queues, line stores,
semaphores and cores, and the two shared operations of a program error: recording it at execute
(R226) and taking it at commit (R361). There is no trap entry and no trap return in this block
(R370). -/

namespace Sys2Proof.Machine

/-- `fault F(f)` (R16). -/
def faultWith {α : Type} (f : Fault) : Res α := .error (.fault f)

/-- The three outcomes of a meaning from the answer of an operation. -/
def toOutcome : Res State → Host.Outcome State Fault Refusal
  | .ok s => .next s
  | .error (.fault f) => .fault f
  | .error (.refused r) => .refused r

/-- The answer of an operation from the outcome of a meaning. -/
def ofOutcome : Host.Outcome State Fault Refusal → Res State
  | .next s => .ok s
  | .fault f => .error (.fault f)
  | .refused r => .error (.refused r)

/-! ### Maps from naturals, kept with rising keys -/

/-- The value listed at a key. -/
def assocFind {α : Type} (k : Nat) : List (Nat × α) → Option α
  | [] => none
  | (j, v) :: m => if j = k then some v else assocFind k m

/-- List `v` at `k`, in the place of whatever was listed there. -/
def assocInsert {α : Type} (k : Nat) (v : α) : List (Nat × α) → List (Nat × α)
  | [] => [(k, v)]
  | (j, u) :: m =>
    if k < j then (k, v) :: (j, u) :: m
    else if j = k then (k, v) :: m
    else (j, u) :: assocInsert k v m

/-- List nothing at `k`. -/
def assocErase {α : Type} (k : Nat) (m : List (Nat × α)) : List (Nat × α) :=
  m.filter (fun e => decide (e.1 ≠ k))

/-- Read a map whose unlisted keys read as `d`. -/
def mapGet {α : Type} (d : α) (m : List (Nat × α)) (k : Nat) : α := (assocFind k m).getD d

/-- Write a map whose unlisted keys read as `d`: writing `d` removes the entry, so that equal maps
are equal lists. -/
def mapSet {α : Type} [DecidableEq α] (d : α) (m : List (Nat × α)) (k : Nat) (v : α) :
    List (Nat × α) :=
  if v = d then assocErase k m else assocInsert k v m

/-! ### Data memory (R33) -/

/-- The byte at an address of the backing store. -/
def Memory.read (m : Memory) (a : Nat) : Byte := mapGet unlistedByte m a

/-- Write one byte of the backing store. -/
def Memory.write (m : Memory) (a : Nat) (b : Byte) : Memory := mapSet unlistedByte m a b

/-- Write bytes in list order, so that the later of two for one address stays (R75). -/
def Memory.writeAll (m : Memory) (cells : List Host.Cell) : Memory :=
  cells.foldl (fun acc c => Memory.write acc c.1 c.2) m

/-- The cells of a line: byte `j` of the data at address `l + j` (R290, R303). -/
def lineCells (l : LineAddr) (data : List Byte) : List Host.Cell :=
  (List.range data.length).zip data |>.map (fun p => (l + p.1, p.2))

/-- The bytes `mem[l .. l+size-1]` (R289). -/
def Memory.readLine (m : Memory) (size : Nat) (l : LineAddr) : List Byte :=
  (List.range size).map (fun j => Memory.read m (l + j))

/-- `mem[l + j] <- data[j]` for every j (R290, R291). -/
def Memory.writeLine (m : Memory) (l : LineAddr) (data : List Byte) : Memory :=
  Memory.writeAll m (lineCells l data)

/-- `line(a) = a - (a mod size)` (R152, R286). -/
def lineOf (size a : Nat) : LineAddr := a - a % size

/-! ### Registers (R14, R38) -/

/-- `x[q]`. No register is hardwired (R38). -/
def regRead (x : Regs) (q : RegId) : Word := (x[q]?).getD 0

/-- `x[q] <- v`. -/
def regWrite (x : Regs) (q : RegId) (v : Word) : Regs := x.setIfInBounds q v

/-! ### Buses (R130 to R136) -/

/-- R131. -/
def Bus.canAdd {α : Type} (cap : Nat) (b : Bus α) : Bool := decide (b.entry.length < cap)

/-- R132. -/
def Bus.add {α : Type} (cap : Nat) (b : Bus α) (v : α) : Res (Bus α) :=
  if b.entry.length < cap then .ok { b with entry := b.entry ++ [v] } else faultWith .bus

/-- R133, steps 1 to 3: buffered values fill free visible slots, then entry values do, then entry
values that find the visible position full wait in the buffer. -/
def Bus.connect {α : Type} (cap : Nat) (b : Bus α) : Bus α :=
  let n1 := cap - b.visible.length
  let v1 := b.visible ++ b.buffer.take n1
  let b1 := b.buffer.drop n1
  let n2 := cap - v1.length
  let v2 := v1 ++ b.entry.take n2
  let e2 := b.entry.drop n2
  let n3 := cap - b1.length
  { entry := e2.drop n3, buffer := b1 ++ e2.take n3, visible := v2 }

/-- `has_visible(B)` (R134). -/
def Bus.hasVisible {α : Type} (b : Bus α) : Bool := !b.visible.isEmpty

/-- `peek(B)` (R134). -/
def Bus.peek {α : Type} (b : Bus α) : Res α :=
  match b.visible with
  | [] => faultWith .bus
  | v :: _ => .ok v

/-- `get(B)` (R134): the head of the visible position, and the bus without it. -/
def Bus.get {α : Type} (b : Bus α) : Res (α × Bus α) :=
  match b.visible with
  | [] => faultWith .bus
  | v :: rest => .ok (v, { b with visible := rest })

/-- `clean(B)` (R135). -/
def Bus.clean {α : Type} (_ : Bus α) : Bus α := .empty

/-- `filter(B, keep)` (R135). -/
def Bus.filter {α : Type} (keep : α → Bool) (b : Bus α) : Bus α where
  entry := b.entry.filter keep
  buffer := b.buffer.filter keep
  visible := b.visible.filter keep

/-- `is_empty(B)` (R136). -/
def Bus.isEmpty {α : Type} (b : Bus α) : Bool :=
  b.entry.isEmpty && b.buffer.isEmpty && b.visible.isEmpty

/-! ### The pending queue (R139, R140) -/

/-- `push(Q, r)` (R139). -/
def pendingPush (cap : Nat) (q : List Runner) (r : Runner) : Res (List Runner) :=
  if q.length < cap then .ok (q ++ [r]) else faultWith .cap

/-- `remove(Q, r)` (R140). -/
def pendingRemove (q : List Runner) (r : Runner) : List Runner :=
  q.eraseP (fun e => decide (e.seq = r.seq))

/-! ### LRU line stores (R285) -/

/-- `contains(l)`: no recency change. -/
def lruContains {α : Type} (st : LruStore α) (l : LineAddr) : Bool :=
  st.any (fun e => decide (e.1 = l))

/-- The data of a line, without a recency change (the memory view of R86 reads so). -/
def lruFind {α : Type} (st : LruStore α) (l : LineAddr) : Option α := assocFind l st

/-- `remove(l)`. -/
def lruRemove {α : Type} (st : LruStore α) (l : LineAddr) : LruStore α := assocErase l st

/-- `touch(l)`. -/
def lruTouch {α : Type} (st : LruStore α) (l : LineAddr) : Res (LruStore α) :=
  match lruFind st l with
  | some d => .ok (lruRemove st l ++ [(l, d)])
  | none => faultWith .line

/-- `read(l)`. -/
def lruRead {α : Type} (st : LruStore α) (l : LineAddr) : Res (α × LruStore α) :=
  match lruFind st l with
  | some d => .ok (d, lruRemove st l ++ [(l, d)])
  | none => faultWith .line

/-- The data of line `l` with bytes set in list order. -/
def setLineBytes (l : LineAddr) (data : List Byte) (cells : List Host.Cell) : List Byte :=
  cells.foldl (fun d c => d.set (c.1 - l) c.2) data

/-- `write(l, bytes)`. -/
def lruWrite (st : LruStore (List Byte)) (l : LineAddr) (cells : List Host.Cell) :
    Res (LruStore (List Byte)) :=
  match lruFind st l with
  | some d => .ok (lruRemove st l ++ [(l, setLineBytes l d cells)])
  | none => faultWith .line

/-- `push(l, d)` into a store of capacity `cap`: the store and the evicted victim. -/
def lruPush {α : Type} (cap : Nat) (st : LruStore α) (l : LineAddr) (d : α) :
    LruStore α × Option (LineAddr × α) :=
  if lruContains st l then (lruRemove st l ++ [(l, d)], none)
  else if st.length = cap then
    match st with
    | [] => ([(l, d)], none)
    | v :: rest => (rest ++ [(l, d)], some v)
  else (st ++ [(l, d)], none)

/-! ### Semaphores (R294) -/

/-- `tryRead`: none when the lock is not granted. -/
def Sem.tryRead (v : Sem) : Option Sem :=
  if v.writer then none else some { v with readers := v.readers + 1 }

/-- `tryWrite`: none when the lock is not granted. -/
def Sem.tryWrite (v : Sem) : Option Sem :=
  if v.readers = 0 ∧ v.writer = false then some { v with writer := true } else none

/-- `releaseRead`. -/
def Sem.releaseRead (v : Sem) : Res Sem :=
  if v.readers = 0 then faultWith .sem else .ok { v with readers := v.readers - 1 }

/-- `releaseWrite`. -/
def Sem.releaseWrite (v : Sem) : Res Sem :=
  if v.writer then .ok { v with writer := false } else faultWith .sem

/-- The lock a mode asks for. -/
def Sem.tryLock (v : Sem) : LockMode → Option Sem
  | .read => v.tryRead
  | .write => v.tryWrite

/-- Release in the mode the lock was taken in (R295). -/
def Sem.release (v : Sem) : LockMode → Res Sem
  | .read => v.releaseRead
  | .write => v.releaseWrite

/-! ### Cores and shared tables -/

/-- `core[c]`; a core that does not exist reads as a blank one. -/
def State.core (s : State) (c : CoreId) : Core :=
  (s.cores[c]?).getD (Core.init s.cfg CoreInput.blank)

/-- Replace `core[c]`. -/
def State.setCore (s : State) (c : CoreId) (k : Core) : State :=
  { s with cores := s.cores.set c k }

/-- The host's inputs of core c. -/
def State.input (s : State) (c : CoreId) : CoreInput := (s.inputs[c]?).getD CoreInput.blank

/-- `dir(c, l)`: I for an entry never created (R35). -/
def State.dirGet (s : State) (c : CoreId) (l : LineAddr) : Msi :=
  mapGet .i (mapGet [] s.dir c) l

/-- `dir(c, l) <- v`. -/
def State.dirSet (s : State) (c : CoreId) (l : LineAddr) (v : Msi) : State :=
  { s with dir := mapSet [] s.dir c (mapSet .i (mapGet [] s.dir c) l v) }

/-- `sem[l]` (R36). -/
def State.semGet (s : State) (l : LineAddr) : Sem := mapGet .free s.sem l

/-- `sem[l] <- v`. -/
def State.semSet (s : State) (l : LineAddr) (v : Sem) : State :=
  { s with sem := mapSet .free s.sem l v }

/-- `cmds[k]`: absent for a key never used (R37). -/
def cmdFind (k : CmdKey) : List (CmdKey × CmdStatus) → Option CmdStatus
  | [] => none
  | (j, v) :: m => if j = k then some v else cmdFind k m

/-- `arm(d, L, k)`: a key that is not Pending becomes Pending and stands last (R302, R313). -/
def armCmd (k : CmdKey) (t : List (CmdKey × CmdStatus)) : List (CmdKey × CmdStatus) :=
  if cmdFind k t = some .pending then t
  else t.filter (fun e => decide (e.1 ≠ k)) ++ [(k, .pending)]

/-- `cmds[k] <- Done` (R312): the key keeps its place. -/
def cmdDone (k : CmdKey) (t : List (CmdKey × CmdStatus)) : List (CmdKey × CmdStatus) :=
  t.map (fun e => if e.1 = k then (e.1, .done) else e)

/-! ### Pending-write counts (R41) -/

/-- `pw[q]`. -/
def pwGet (pw : List (RegId × Nat)) (q : RegId) : Nat := mapGet 0 pw q

/-- `pw[q] <- pw[q] + 1` for every q of W (R198). -/
def pwRaise (pw : List (RegId × Nat)) (w : List RegId) : List (RegId × Nat) :=
  w.foldl (fun acc q => mapSet 0 acc q (pwGet acc q + 1)) pw

/-- `pw[q] <- pw[q] - 1` for every q of W (R271, R346); a count that would go negative faults
F_PW. -/
def pwLower (pw : List (RegId × Nat)) : List RegId → Res (List (RegId × Nat))
  | [] => .ok pw
  | q :: w => if pwGet pw q = 0 then faultWith .pw else pwLower (mapSet 0 pw q (pwGet pw q - 1)) w

/-! ### Retirement buffer (R47) -/

/-- The entry of a sequence ID. -/
def robFind (rob : List RobEntry) (b : Seq) : Option RobEntry :=
  rob.find? (fun e => decide (e.seq = b))

/-- Set the status of the entry of a sequence ID. -/
def robSetStatus (rob : List RobEntry) (b : Seq) (st : RobStatus) : List RobEntry :=
  rob.map (fun e => if e.seq = b then { e with status := st } else e)

/-- Insert an entry, keeping ascending seq (R198). -/
def robInsert (e : RobEntry) : List RobEntry → List RobEntry
  | [] => [e]
  | f :: rest => if e.seq < f.seq then e :: f :: rest else f :: robInsert e rest

/-- Remove the entry of a sequence ID. -/
def robRemove (rob : List RobEntry) (b : Seq) : List RobEntry :=
  rob.filter (fun e => decide (e.seq ≠ b))

/-! ### Program errors -/

/-- `error(i, w, code, info)` (R226): the buffer entry becomes Executed, the branch expectation is
dropped (R254), the unit holds the error as its result, and a flush with no target is raised. Nothing
is forwarded. The error itself is taken at commit (R361). -/
def recordError (i : Nat) (w : Work) (e : ProgramError) (k : Core) : Core × Option Flush :=
  ({ k with
      rob := robSetStatus k.rob w.run.seq .executed
      expect := assocErase w.run.seq k.expect
      eu := k.eu.set i (.push w ⟨w.run.seq, .err e⟩) },
    some ⟨w.run.seq, none⟩)

/-- Taking a program error at the head of the retirement buffer (R275, R361): the run stops, and no
register and no memory byte is changed. -/
def takeError (c : CoreId) (e : ProgramError) (s : State) : State :=
  { s with status := .error c e }

end Sys2Proof.Machine
end

