-- ==== Sys2Proof/Machine/Oracle.lean ====
section
/-! DEFINITION. The oracle functions of a descriptor (R101): for an external instruction the opaque
constants of Config, for the concrete oracles the table of 95_test_vectors.md section 0. Values wrap
modulo 2^32. The spec's table is little-endian; under BYTE_ORDER big the same oracles combine their
bytes the other way round (DESIGN CHOICE, notes/assumptions/5.md). -/

namespace Sys2Proof.Machine

/-- The address `x[rs] + off`. -/
def baseAddr (view : Regs) (rs : RegId) (off : Word) : Word := regRead view rs + off

/-- The four byte addresses of a word. -/
def wordAddrs (a : Word) : List Word := [a, a + 1, a + 2, a + 3]

/-- The byte the oracle was given at an address; R224 gives it every byte of its read addresses. -/
def gotByte (got : ByteMap) (a : Word) : Byte := mapGet 0 got a.toNat

/-- A register value from four bytes, the first at the lowest address. -/
def wordOfBytes (order : ByteOrder) (b0 b1 b2 b3 : Byte) : Word :=
  match order with
  | .little => b3 ++ b2 ++ b1 ++ b0
  | .big => b0 ++ b1 ++ b2 ++ b3

/-- The four bytes of a register value, the first at the lowest address. -/
def bytesOfWord (order : ByteOrder) (v : Word) : List Byte :=
  let l := [v.extractLsb' 0 8, v.extractLsb' 8 8, v.extractLsb' 16 8, v.extractLsb' 24 8]
  match order with
  | .little => l
  | .big => l.reverse

/-- A result that changes one register. -/
def regResult (q : RegId) (v : Word) : ExecutionResult := ⟨some (q, v), [], none, false⟩

/-- `memRead(view)` (R101). -/
def oracleReads (order : ByteOrder) (o : Oracle) (view : Regs) : List Word :=
  match o with
  | .external key => Config.memRead key order view
  | .const reads _ _ => reads
  | .lw _ off rs => wordAddrs (baseAddr view rs off)
  | .addi _ _ _ | .add _ _ _ | .sw _ _ _ | .sb _ _ _ | .beq _ _ _ | .bne _ _ _ | .jal _ _
  | .jump _ => []

/-- `memWrite(view)` (R101). -/
def oracleWrites (order : ByteOrder) (o : Oracle) (view : Regs) : List Word :=
  match o with
  | .external key => Config.memWrite key order view
  | .const _ writes _ => writes
  | .sw _ off rs => wordAddrs (baseAddr view rs off)
  | .sb _ off rs => [baseAddr view rs off]
  | .addi _ _ _ | .add _ _ _ | .lw _ _ _ | .beq _ _ _ | .bne _ _ _ | .jal _ _ | .jump _ => []

/-- `exec(view, labels, pc, bytes)` (R12, R101). -/
def oracleExec (order : ByteOrder) (o : Oracle) (view : Regs) (labels : Labels) (pc : Word)
    (got : ByteMap) : OracleOut :=
  match o with
  | .external key => Config.execute key order view labels pc got
  | .const _ _ out => out
  | .addi rd rs imm => .ok (regResult rd (regRead view rs + imm))
  | .add rd ra rb => .ok (regResult rd (regRead view ra + regRead view rb))
  | .lw rd off rs =>
    let a := baseAddr view rs off
    .ok (regResult rd (wordOfBytes order (gotByte got a) (gotByte got (a + 1))
      (gotByte got (a + 2)) (gotByte got (a + 3))))
  | .sw rt off rs =>
    .ok ⟨none, (wordAddrs (baseAddr view rs off)).zip (bytesOfWord order (regRead view rt)), none,
      false⟩
  | .sb rt off rs =>
    .ok ⟨none, [(baseAddr view rs off, (regRead view rt).extractLsb' 0 8)], none, false⟩
  | .beq ra rb off =>
    .ok ⟨none, [], if regRead view ra = regRead view rb then some (pc + off) else none, false⟩
  | .bne ra rb off =>
    .ok ⟨none, [], if regRead view ra ≠ regRead view rb then some (pc + off) else none, false⟩
  | .jal rd off => .ok ⟨some (rd, pc + 4), [], some (pc + off), false⟩
  | .jump off => .ok ⟨none, [], some (pc + off), false⟩

end Sys2Proof.Machine
end

