-- ==== Sys2Proof/Machine/Operands.lean ====
section
/-! DEFINITION. The operand forms. Register operands are read through the register view of a work
item (R222); memory operands are the address lists the oracle computes from that view "before
executing" (R106, R224), split into lines (R76, R286). The block has no immediates (R106). -/

namespace Sys2Proof.Machine

/-- `view(w)` (R222): the committed registers with the forwarded overlay of the work item. -/
def viewOf (w : Work) (x : Regs) : Regs :=
  match w.ov with
  | some (q, v) => regWrite x q v
  | none => x

/-- `memRead(view(w))`. -/
def readAddrs (g : Cfg) (w : Work) (x : Regs) : List Word :=
  oracleReads g.byteOrder w.run.desc.ops (viewOf w x)

/-- `memWrite(view(w))`. -/
def writeAddrs (g : Cfg) (w : Work) (x : Regs) : List Word :=
  oracleWrites g.byteOrder w.run.desc.ops (viewOf w x)

/-- The first address of a list that is not legal, `a ≥ MEM_SIZE` (R72, R224). -/
def firstIllegal (g : Cfg) (addrs : List Word) : Option Word :=
  addrs.find? (fun a => decide (g.memSize ≤ a.toNat))

/-- Insert a line address into an ascending list of distinct ones. -/
def insertLine (l : LineAddr) : List LineAddr → List LineAddr
  | [] => [l]
  | j :: rest => if l < j then l :: j :: rest else if l = j then j :: rest
    else j :: insertLine l rest

/-- The distinct lines of a list of addresses in ascending order (R224, R268). -/
def linesOf (g : Cfg) (addrs : List Nat) : List LineAddr :=
  addrs.foldl (fun acc a => insertLine (lineOf g.lineSize a) acc) []

/-- `got ∪ D` (R221). -/
def addBytes (got : ByteMap) (data : List Host.Cell) : ByteMap :=
  data.foldl (fun acc c => assocInsert c.1 c.2 acc) got

/-- `got|A`: the bytes of the read addresses alone (R231). -/
def restrictBytes (got : ByteMap) (addrs : List Word) : ByteMap :=
  got.filter (fun e => addrs.any (fun a => decide (a.toNat = e.1)))

/-- The pc of the next instruction in program order, `pc + IW` (R233). -/
def nextPc (g : Cfg) (pc : Word) : Word := pc + BitVec.ofNat 32 g.iw

/-- A control transfer's actual target: `pcChange`, or `pc + IW` when there is none (R233, R234). -/
def actualTarget (g : Cfg) (pc : Word) (o : ExecutionResult) : Word :=
  (o.pcChange).getD (nextPc g pc)

/-- A target that is no multiple of IW (R236). -/
def misaligned (g : Cfg) (t : Word) : Bool := decide (t.toNat % g.iw ≠ 0)

end Sys2Proof.Machine
end

