-- ==== Sys2Proof/Machine/Fetch.lean ====
section
/-! DEFINITION. The fetch unit (41_fetch_unit.md). It reads and writes only its own core. -/

namespace Sys2Proof.Machine

/-- `END = N * IW` as a natural number (R150). -/
def endPc (g : Cfg) (n : Nat) : Nat := n * g.iw

/-- `lineI(a)` (R152). -/
def lineI (g : Cfg) (pc : Word) : LineAddr := lineOf g.l1iLine pc.toNat

/-- The loop of the fetch step (R153), at most `n` more addresses. -/
def fetchLoop (g : Cfg) (size : Nat) : Nat → Core → Res Core
  | 0, k => .ok (if endPc g size ≤ k.pc.toNat then { k with complete := true } else k)
  | n + 1, k =>
    if endPc g size ≤ k.pc.toNat then .ok { k with complete := true }
    else if !lruContains k.l1i (lineI g k.pc) then .ok { k with fstate := .miss g.memLat }
    else if !k.fd.canAdd g.busCap then .ok k
    else do
      let l1i ← lruTouch k.l1i (lineI g k.pc)
      let fd ← k.fd.add g.busCap k.pc
      fetchLoop g size n { k with l1i := l1i, fd := fd, pc := nextPc g k.pc }

/-- `fetch_step()` (R153) for a program of `size` entries. -/
def fetchStep (g : Cfg) (size : Nat) (k : Core) : Res Core :=
  if k.complete then .ok k
  else
    match k.fstate with
    | .idle => fetchLoop g size g.fetchWidth k
    | .miss n =>
      if 1 < n then .ok { k with fstate := .miss (n - 1) }
      else
        fetchLoop g size g.fetchWidth
          { k with l1i := (lruPush g.l1iLines k.l1i (lineI g k.pc) ()).1, fstate := .idle }

/-- `reset(t)` (R156): a redirection within a run; clearing `complete` follows 90_conflicts.md C4. -/
def fetchReset (t : Word) (k : Core) : Core :=
  { k with fd := k.fd.clean, pc := t, complete := false, fstate := .idle }

/-- `flush(t)` (R157). -/
def fetchFlush (t : Option Word) (k : Core) : Core :=
  match t with
  | some a => { k with fd := k.fd.clean, pc := a, complete := false, fstate := .idle }
  | none => { k with fd := k.fd.clean, complete := true, fstate := .idle }

end Sys2Proof.Machine
end

