-- ==== Sys2Proof/Machine/Flags.lean ====
section
/-! DEFINITION. Flags. The block has no flags or condition codes (R39) and no class writes any. The
one flag of a core is the decode unit's `pendingBranch` (R44); this file says who sets it and who
clears it (R173, R174). -/

namespace Sys2Proof.Machine

/-- R173: decoding a JMP or a RET sets the flag; decoding any other class leaves it. -/
def setsPendingBranch : Instr → Bool
  | .alu _ _ => false
  | .load _ _ => false
  | .store _ _ => false
  | .cbr _ _ => false
  | .jmp _ _ => true
  | .ret _ _ => true

/-- R174: the flag is cleared and decoding resumes. -/
def clearPendingBranch (k : Core) : Core := { k with pendingBranch := false }

end Sys2Proof.Machine
end

