-- ==== Sys2Proof/Machine/DecodeUnit.lean ====
section
/-! DEFINITION. The decode unit (42_decode_unit.md): it turns fetched addresses into runners and
assigns sequence IDs. It reads and writes only its own core. -/

namespace Sys2Proof.Machine

/-- The instruction of a program entry: its header word read by the decoder, or its record when that
is well formed (R103, R104). -/
def ProgEntry.instr? (e : ProgEntry) : Option Instr :=
  match e.static with
  | .header h => (decodeHeader h).toOption
  | .record i => if i.wf then some i else none

/-- The descriptor of a program entry, none for an ill-formed one. -/
def ProgEntry.descriptor? (e : ProgEntry) : Option Descriptor :=
  e.instr?.map (fun i => ⟨i, e.ops⟩)

/-- R171: the descriptor of address `a` is element `a / IW` of the program; an index out of range
faults F_CAP. An ill-formed entry is refused before the run and never met here. -/
def resolve (g : Cfg) (c : CoreId) (prog : List ProgEntry) (a : Word) : Res Descriptor :=
  match prog[a.toNat / g.iw]? with
  | none => faultWith .cap
  | some e =>
    match e.descriptor? with
    | some d => .ok d
    | none => .error (.refused (.descriptor c (a.toNat / g.iw)))

/-- The loop of the decode step (R170), at most `n` more instructions. -/
def decodeLoop (g : Cfg) (c : CoreId) (prog : List ProgEntry) : Nat → Core → Res Core
  | 0, k => .ok k
  | n + 1, k =>
    if k.pendingBranch || !k.fd.hasVisible || !k.di.canAdd g.busCap then .ok k
    else do
      let (a, fd) ← k.fd.get
      let d ← resolve g c prog a
      let di ← k.di.add g.busCap ⟨d, a, k.nextSeq⟩
      decodeLoop g c prog n
        { k with
          fd := fd
          di := di
          nextSeq := k.nextSeq + 1
          pendingBranch := k.pendingBranch || setsPendingBranch d.instr }

/-- `decode_step()` (R170). -/
def decodeStep (g : Cfg) (c : CoreId) (prog : List ProgEntry) (k : Core) : Res Core :=
  decodeLoop g c prog g.decodeWidth k

end Sys2Proof.Machine
end

