-- ==== Sys2Proof/Machine/Branch.lean ====
section
/-! DEFINITION. The branch unit and its branch-target buffer (45_branch_predictor.md). It reads and
writes its own core's branch unit, fetch unit and decode flag (R235). -/

namespace Sys2Proof.Machine

/-- `lookup(pc)` (R258). -/
def btbLookup (btb : List (Word × Word)) (pc : Word) : Option Word :=
  (btb.find? (fun e => decide (e.1 = pc))).map Prod.snd

/-- `record(from, to)` (R257), from `src` to `dst`, on a buffer of capacity `cap`: an entry for the
same source is updated in place, else the oldest entry goes when the buffer is full
(90_conflicts.md C9). -/
def btbRecord (cap : Nat) (btb : List (Word × Word)) (src dst : Word) : List (Word × Word) :=
  if cap = 0 then btb
  else if btb.any (fun e => decide (e.1 = src)) then
    btb.map (fun e => if e.1 = src then (src, dst) else e)
  else (if btb.length = cap then btb.drop 1 else btb) ++ [(src, dst)]

/-- `expect[s] <- e` (R250). -/
def setExpect (b : Seq) (e : Expect) (k : Core) : Core :=
  { k with expect := assocInsert b e k.expect }

/-- `drop(s)` (R254). -/
def dropExpect (b : Seq) (k : Core) : Core := { k with expect := assocErase b k.expect }

/-- `assert(run)` for a CBR (R251): "assume fall through to next instruction". -/
def assertCbr (g : Cfg) (r : Runner) (k : Core) : Core :=
  setExpect r.seq (.known (nextPc g r.pc) false) k

/-- `assert(run)` for a JMP (R251, R252): a BTB hit redirects fetch at once. -/
def assertJmp (r : Runner) (k : Core) : Core :=
  match btbLookup k.btb r.pc with
  | some t => fetchReset t (setExpect r.seq (.known t true) k)
  | none => setExpect r.seq .unknown k

/-- `assert(run)` for a RET (R251). -/
def assertRet (r : Runner) (k : Core) : Core := setExpect r.seq .unknown k

/-- `should_flush(s, actual)` (R253): the core without the expectation, and whether fetch guessed
wrong. -/
def shouldFlush (b : Seq) (actual : Word) (k : Core) : Res (Core × Bool) :=
  match assocFind b k.expect with
  | none => faultWith .unreach
  | some (.known t _) => .ok (dropExpect b k, decide (actual ≠ t))
  | some .unknown => .ok (dropExpect b k, true)

/-- `notify_jump_resolved(s, from, to)` (R255). -/
def notifyJumpResolved (g : Cfg) (b : Seq) (src dst : Word) (k : Core) : Core :=
  let k1 := { k with btb := btbRecord g.btbCap k.btb src dst }
  let k2 := if assocFind b k1.expect = some (.known dst true) then k1 else fetchReset dst k1
  clearPendingBranch k2

/-- `notify_conditional(s, taken)` (R256): changes no state; the outcome is carried by the flush and
by in-order commit. -/
def notifyConditional (_b : Seq) (_taken : Bool) (k : Core) : Core := k

end Sys2Proof.Machine
end

