-- ==== Sys2Proof/Machine/Cache.lean ====
section
/-! DEFINITION. The cache controller, the levels behind it, the MSI directory with its semaphores and
the snoop step (47_cache_controller_msi.md). -/

namespace Sys2Proof.Machine

/-! ### Levels (R288 to R291) -/

/-- `l3push(L, data)` (R291): a victim is written to memory, dirty or not. -/
def l3Push (l : LineAddr) (data : List Byte) (s : State) : State :=
  let (st, v) := lruPush s.cfg.l3Lines s.l3 l data
  match v with
  | none => { s with l3 := st }
  | some (vl, vd) => { s with l3 := st, mem := Memory.writeLine s.mem vl vd }

/-- `nextRead(L)` (R289): the data of a line from the next level; a line read from memory is
installed in the shared cache when there is one. -/
def nextRead (l : LineAddr) (s : State) : Res (List Byte × State) :=
  if lruContains s.l3 l then do
    let (d, st) ← lruRead s.l3 l
    .ok (d, { s with l3 := st })
  else
    let d := Memory.readLine s.mem s.cfg.lineSize l
    .ok (d, if 0 < s.cfg.l3Lines then l3Push l d s else s)

/-- `writeNext(L, data)` (R290). -/
def writeNext (l : LineAddr) (data : List Byte) (s : State) : State :=
  if 0 < s.cfg.l3Lines then l3Push l data s
  else { s with mem := Memory.writeLine s.mem l data }

/-! ### Locks and the L1D -/

/-- Write one core's L1D. -/
def setL1d (c : CoreId) (st : LruStore (List Byte)) (s : State) : State :=
  s.setCore c { s.core c with l1d := st }

/-- Write one core's request. -/
def setReq (c : CoreId) (r : Option ReqState) (s : State) : State :=
  s.setCore c { s.core c with req := r }

/-- The lock mode of a request (R295). -/
def lockMode (kind : ReqKind) (st : Msi) : LockMode :=
  match kind, st with
  | .write, _ => .write
  | .read, .m => .write
  | .read, _ => .read

/-- Release a line's lock in a mode (R294, R295). -/
def releaseLock (l : LineAddr) (m : LockMode) (s : State) : Res State := do
  let v ← (s.semGet l).release m
  .ok (s.semSet l v)

/-- `install(c, L, data)` (R296): a Modified victim is written to the next level, and the victim's
directory entry becomes I. -/
def install (c : CoreId) (l : LineAddr) (data : List Byte) (s : State) : State :=
  let (st, v) := lruPush s.cfg.l1dLines (s.core c).l1d l data
  let s1 := setL1d c st s
  match v with
  | none => s1
  | some (vl, vd) =>
    let s2 := if s1.dirGet c vl = .m then writeNext vl vd s1 else s1
    s2.dirSet c vl .i

/-! ### Requests (R298 to R311) -/

/-- `submit(kind, L, who, seq, bytes)` (R298). -/
def submit (kind : ReqKind) (l : LineAddr) (who : Requester) (b : Seq) (bytes : List Host.Cell)
    (k : Core) : Res Core :=
  match k.req with
  | some _ => faultWith .unreach
  | none => .ok { k with req := some ⟨kind, l, who, b, bytes, none, .locking⟩ }

/-- The command a peer's directory state asks for (R302). -/
def peerCommand (d : CoreId) (l : LineAddr) : Msi → List CmdKey
  | .m => [⟨d, l, .writeBack⟩]
  | .s => [⟨d, l, .evict⟩]
  | .i => []

/-- The peers of core c in index order (R302). -/
def peers (s : State) (c : CoreId) : List CoreId :=
  (List.range s.cfg.numCores).filter (fun d => decide (d ≠ c))

/-- The keys of the commands a request must wait for (R302). -/
def commandKeys (c : CoreId) (kind : ReqKind) (l : LineAddr) (s : State) : List CmdKey :=
  match kind, s.dirGet c l with
  | .read, .s => []
  | .read, .m => []
  | .write, .m => []
  | .read, .i => (peers s c).flatMap (fun d => peerCommand d l (s.dirGet d l))
  | .write, .i => (peers s c).flatMap (fun d => peerCommand d l (s.dirGet d l))
  | .write, .s => (peers s c).flatMap (fun d => peerCommand d l (s.dirGet d l))

/-- `commands(c, kind, L)` (R302): arm the commands and return their keys. A WRITE on a Shared line
that finds a Modified peer faults F_MSI (R311). -/
def commands (c : CoreId) (kind : ReqKind) (l : LineAddr) (s : State) :
    Res (State × List CmdKey) :=
  if kind = .write ∧ s.dirGet c l = .s ∧ (peers s c).any (fun d => decide (s.dirGet d l = .m)) then
    faultWith .msi
  else
    let keys := commandKeys c kind l s
    .ok ({ s with cmds := keys.foldl (fun t k => armCmd k t) s.cmds }, keys)

/-- `latency_and_source(c, kind, L)` (R304). -/
def latencyAndSource (c : CoreId) (l : LineAddr) (s : State) : Nat × Source :=
  match s.dirGet c l with
  | .s => (s.cfg.l1Lat, .l1)
  | .m => (s.cfg.l1Lat, .l1)
  | .i => if lruContains s.l3 l then (s.cfg.l3Lat, .l3) else (s.cfg.memLat, .mem)

/-- Entering Access (R299, R304). -/
def enterAccess (c : CoreId) (l : LineAddr) (s : State) : Phase :=
  let (n, src) := latencyAndSource c l s
  .access n src

/-- The data of a read from its source (R303), and the state with the line present and S when it was
fetched. -/
def readData (c : CoreId) (src : Source) (l : LineAddr) (s : State) : Res (List Byte × State) :=
  match src with
  | .l1 => do
    let (d, st) ← lruRead (s.core c).l1d l
    .ok (d, setL1d c st s)
  | .l3 | .mem => do
    let (d, s1) ← nextRead l s
    .ok (d, (install c l d s1).dirSet c l .s)

/-- The state with the line present in the L1D before a write (R305). -/
def fetchForWrite (c : CoreId) (src : Source) (l : LineAddr) (s : State) : Res State :=
  match src with
  | .l1 => .ok s
  | .l3 | .mem => do
    let (d, s1) ← nextRead l s
    .ok (install c l d s1)

/-- Completion of a READ (R303) or a WRITE (R305): the state and the data of `Finished`. A completion
without a lock mode faults F_UNREACH (R301); one that would set M while a peer is S or M faults
F_MSI (R311). The faults of R311 have no stated order: an absent line (F_LINE) comes before a peer
(F_MSI), because R305 writes the line before it sets M (DEDUCED, notes/assumptions/21.md). -/
def complete (c : CoreId) (r : ReqState) (src : Source) (s : State) :
    Res (State × List Host.Cell) :=
  match r.mode with
  | none => faultWith .unreach
  | some m =>
    match r.kind with
    | .read => do
      let (d, s1) ← readData c src r.line s
      let s2 ← releaseLock r.line m s1
      .ok (s2, lineCells r.line d)
    | .write => do
      let s1 ← fetchForWrite c src r.line s
      let st ← lruWrite (s1.core c).l1d r.line r.bytes
      if (peers s c).any (fun d => decide (s.dirGet d r.line ≠ .i)) then faultWith .msi
      else do
        let s2 := (setL1d c st s1).dirSet c r.line .m
        let s3 ← releaseLock r.line m s2
        .ok (s3, [])

/-- The request after a poll moved it to a phase. -/
def moveTo (c : CoreId) (r : ReqState) (ph : Phase) (s : State) : Res (State × Phase) :=
  .ok (setReq c (some { r with phase := ph }) s, ph)

/-- One transition of a request with data caches present (R299). -/
def advanceCached (c : CoreId) (r : ReqState) (s : State) : Res (State × Phase) :=
  match r.phase with
  | .locking =>
    let m := lockMode r.kind (s.dirGet c r.line)
    match (s.semGet r.line).tryLock m with
    | none => .ok (s, .locking)
    | some v => do
      let (s1, keys) ← commands c r.kind r.line (s.semSet r.line v)
      let r1 := { r with mode := some m }
      moveTo c r1 (if keys = [] then enterAccess c r.line s1 else .waiting keys) s1
  | .waiting keys =>
    if keys.any (fun k => decide (cmdFind k s.cmds = some .pending)) then .ok (s, .waiting keys)
    else moveTo c r (enterAccess c r.line s) s
  | .access n src =>
    if 1 < n then moveTo c r (.access (n - 1) src) s
    else do
      let (s1, data) ← complete c r src s
      moveTo c r (.finished data) s1
  | .finished data => .ok (s, .finished data)

/-- One transition of a request without data caches (R310). R310 lists the phases Locking and
Access(n, MEM) alone: a request in Waiting faults F_UNREACH, and an access from another source is
served from memory, the only level there is (DEDUCED, notes/assumptions/22.md). -/
def advanceUncached (c : CoreId) (r : ReqState) (s : State) : Res (State × Phase) :=
  match r.phase with
  | .locking => moveTo c r (.access s.cfg.memLat .mem) s
  | .waiting _ => faultWith .unreach
  | .access n _ =>
    if 1 < n then moveTo c r (.access (n - 1) .mem) s
    else
      match r.kind with
      | .read =>
        moveTo c r (.finished (lineCells r.line (Memory.readLine s.mem s.cfg.lineSize r.line))) s
      | .write => moveTo c r (.finished []) { s with mem := Memory.writeAll s.mem r.bytes }
  | .finished data => .ok (s, .finished data)

/-- `poll(who)` (R299, R310): one transition of core c's request and its new phase. -/
def poll (c : CoreId) (who : Requester) (s : State) : Res (State × Phase) :=
  match (s.core c).req with
  | none => faultWith .unreach
  | some r =>
    if r.who ≠ who then faultWith .unreach
    else if s.cfg.l1dPresent then advanceCached c r s
    else advanceUncached c r s

/-- `abandon(c)` (R307): a held lock is released and the request is gone; no line is installed. -/
def abandon (c : CoreId) (s : State) : Res State :=
  match (s.core c).req with
  | none => .ok s
  | some r =>
    match r.mode with
    | none => .ok (setReq c none s)
    | some m => do
      let s1 ← releaseLock r.line m s
      .ok (setReq c none s1)

/-! ### Snooping (R312) -/

/-- Core d's own request holds a lock on this line (R312, the deferral). -/
def holdsLock (k : Core) (l : LineAddr) : Bool :=
  match k.req with
  | none => false
  | some r => decide (r.line = l) && r.mode.isSome

/-- Carrying out one command (R312): dirty data goes to the next level and the line is dropped. A
directory entry S or M without its line faults F_LINE (R311). -/
def runCommand (key : CmdKey) (s : State) : Res State :=
  let finish (s1 : State) : State := { s1 with cmds := cmdDone key s1.cmds }
  match s.dirGet key.target key.line with
  | .i => .ok (finish s)
  | .s =>
    if lruContains (s.core key.target).l1d key.line then
      .ok (finish ((setL1d key.target (lruRemove (s.core key.target).l1d key.line) s).dirSet
        key.target key.line .i))
    else faultWith .line
  | .m => do
    let (d, st) ← lruRead (s.core key.target).l1d key.line
    let s1 := writeNext key.line d s
    .ok (finish ((setL1d key.target (lruRemove st key.line) s1).dirSet key.target key.line .i))

/-- The commands of a list of keys, in order, each one deferred while the target's own request holds
the line (R312). -/
def runCommands (d : CoreId) : List CmdKey → State → Res State
  | [], s => .ok s
  | key :: rest, s =>
    if holdsLock (s.core d) key.line then runCommands d rest s
    else do
      let s1 ← runCommand key s
      runCommands d rest s1

/-- The pending keys of a target in its snoop order (R313). -/
def pendingKeys (d : CoreId) (t : List (CmdKey × CmdStatus)) : List CmdKey :=
  (t.filter (fun e => decide (e.1.target = d) && decide (e.2 = .pending))).map Prod.fst

/-- `snoop_step(d)` (R312). -/
def snoopStep (d : CoreId) (s : State) : Res State := runCommands d (pendingKeys d s.cmds) s

/-- Reading an MSI state code (R112): a code that is none of I, S, M faults F_UNREACH. -/
def msiOfCode (n : Nat) : Res Msi :=
  match n with
  | 0 => .ok .i
  | 1 => .ok .s
  | 2 => .ok .m
  | _ => faultWith .unreach

end Sys2Proof.Machine
end

