-- ==== Sys2Proof/Machine/Execute.lean ====
section
/-! DEFINITION. The operations every instruction class shares in the execute stage
(44_execute_stage.md): the oracle contract (R223), the delivery of forwarded values (R228), running
instruction semantics (R225), and how a meaning runs in the unit the state has in focus. -/

namespace Sys2Proof.Machine

/-- R223 (a), (b): only a LOAD names read addresses and only a STORE names write addresses. -/
def addressContract (g : Cfg) (mayRead mayWrite : Bool) (w : Work) (x : Regs) : Bool :=
  (mayRead || (readAddrs g w x).isEmpty) && (mayWrite || (writeAddrs g w x).isEmpty)

/-- R223 (c), (d), (e): the changed register is in W, every changed byte's address is in
memWrite(V) and only a STORE changes bytes, and only a control class changes the pc. -/
def resultContract (g : Cfg) (mayWrite mayJump : Bool) (wl : List RegId) (w : Work) (x : Regs)
    (o : ExecutionResult) : Bool :=
  (match o.regChange with
    | some (q, _) => wl.contains q
    | none => true)
  && (mayWrite || o.memChange.isEmpty)
  && o.memChange.all (fun e => (writeAddrs g w x).contains e.1)
  && (mayJump || o.pcChange.isNone)

/-- The value a producer forwards in register q (R202): its result's, else the committed one. -/
def forwardValue (x : Regs) (q : RegId) (o : ExecutionResult) : Word :=
  match o.regChange with
  | some (p, v) => if p = q then v else regRead x q
  | none => regRead x q

/-- `deliver(s, o)` (R228): the cell of the link whose producer is s is written once. -/
def deliver (b : Seq) (o : ExecutionResult) (k : Core) : Res Core :=
  match k.links.find? (fun l => decide (l.prod = b)) with
  | none => .ok k
  | some l =>
    match l.cell with
    | some _ => faultWith .oracle
    | none =>
      .ok { k with
        links := k.links.map (fun j =>
          if j.prod = b then { j with cell := some (forwardValue k.x j.reg o) } else j) }

/-- `Push(w, Result{s, Ok(o)})`: the unit holds its result (R230 to R238). -/
def pushOk (i : Nat) (w : Work) (o : ExecutionResult) (k : Core) : Core :=
  { k with eu := k.eu.set i (.push w ⟨w.run.seq, .ok o⟩) }

/-- What a class adds to R225: its capabilities under the contract R223, and its class step (R230 to
R238) on the core, answering the core and the flush raised. -/
structure ClassRule where
  /-- the class reads memory -/
  mayRead : Bool
  /-- the class changes memory -/
  mayWrite : Bool
  /-- the class transfers control -/
  mayJump : Bool

/-- `run(i, w, got)` (R225): assert, the oracle, the buffer entry to Executed, the contract, the
delivery, the class step. A LOAD gives the oracle `got|A` (R231). -/
def runWork (g : Cfg) (labels : Labels) (cr : ClassRule) (wl : List RegId)
    (assertStep : Core → Core)
    (classStep : ExecutionResult → Core → Res (Core × Option Flush))
    (i : Nat) (w : Work) (got : ByteMap) (k : Core) : Res (Core × Option Flush) :=
  let k1 := assertStep k
  match oracleExec g.byteOrder w.run.desc.ops (viewOf w k.x) labels w.run.pc
      (restrictBytes got (readAddrs g w k.x)) with
  | .err e => .ok (recordError i w (.exec e) k1)
  | .ok o =>
    if addressContract g cr.mayRead cr.mayWrite w k.x
        && resultContract g cr.mayWrite cr.mayJump wl w k.x o then do
      let k2 ← deliver w.run.seq o
        { k1 with rob := robSetStatus k1.rob w.run.seq .executed }
      classStep o k2
    else faultWith .oracle

/-- R224 for a class that reads no memory: the contract on the address lists is checked "before
executing" (R223 (a), (b); DEDUCED, notes/assumptions/9.md), and the addresses a STORE will write
must be legal. -/
def startWork (g : Cfg) (labels : Labels) (cr : ClassRule) (wl : List RegId)
    (assertStep : Core → Core)
    (classStep : ExecutionResult → Core → Res (Core × Option Flush))
    (i : Nat) (w : Work) (k : Core) : Res (Core × Option Flush) :=
  if addressContract g cr.mayRead cr.mayWrite w k.x then
    match firstIllegal g (writeAddrs g w k.x) with
    | some a => .ok (recordError i w (.addr a) k)
    | none => runWork g labels cr wl assertStep classStep i w [] k
  else faultWith .oracle

/-- A class step that only pushes the result: ALU, LOAD and STORE (R230 to R232). -/
def plainStep (i : Nat) (w : Work) (o : ExecutionResult) (k : Core) : Res (Core × Option Flush) :=
  .ok (pushOk i w o k, none)

/-- Run a meaning's operation on the core of the unit in focus: the core it leaves, the flush it
raises, and the focus given up. -/
def onFocus (s : State)
    (op : Cfg → Labels → Focus → Core → Res (Core × Option Flush)) :
    Host.Outcome State Fault Refusal :=
  match s.focus with
  | none => .refused .noUnit
  | some f =>
    match op s.cfg (s.input f.core).labels f (s.core f.core) with
    | .error (.fault e) => .fault e
    | .error (.refused r) => .refused r
    | .ok (k, fl) =>
      .next { s.setCore f.core k with focus := none, raised := s.raised ++ fl.toList }

end Sys2Proof.Machine
end

