-- ==== Sys2Proof/Machine/Control.lean ====
section
/-! DEFINITION. The meanings of the control classes: CBR (R233), JMP (R234) and RET (R238). -/

namespace Sys2Proof.Machine

/-- A control class transfers control and accesses no memory (R102, R223). -/
def controlRule : ClassRule := ⟨false, false, true⟩

/-- Raise `Flush{s, some t}` and push the result (R233, R234, R238). -/
def flushTo (i : Nat) (w : Work) (o : ExecutionResult) (wrong : Bool) (t : Word) (k : Core) :
    Core × Option Flush :=
  (pushOk i w o k, if wrong then some ⟨w.run.seq, some t⟩ else none)

/-- The class step of a CBR (R233). -/
def cbrStep (g : Cfg) (i : Nat) (w : Work) (o : ExecutionResult) (k : Core) :
    Res (Core × Option Flush) :=
  let actual := actualTarget g w.run.pc o
  if misaligned g actual then .ok (recordError i w (.align actual) k)
  else do
    let k1 := notifyConditional w.run.seq (decide (actual ≠ nextPc g w.run.pc)) k
    let (k2, wrong) ← shouldFlush w.run.seq actual k1
    .ok (flushTo i w o wrong actual k2)

/-- The class step of a JMP (R234). -/
def jmpStep (g : Cfg) (i : Nat) (w : Work) (o : ExecutionResult) (k : Core) :
    Res (Core × Option Flush) :=
  let actual := actualTarget g w.run.pc o
  if misaligned g actual then .ok (recordError i w (.align actual) k)
  else do
    let k1 := notifyJumpResolved g w.run.seq w.run.pc actual k
    let (k2, wrong) ← shouldFlush w.run.seq actual k1
    .ok (flushTo i w o wrong actual k2)

/-- The class step of a RET (R238): terminate wins over a new pc; with neither, decoding resumes. -/
def retStep (g : Cfg) (i : Nat) (w : Work) (o : ExecutionResult) (k : Core) :
    Res (Core × Option Flush) :=
  if o.terminate then .ok (pushOk i w o (dropExpect w.run.seq k), none)
  else
    match o.pcChange with
    | some t =>
      if misaligned g t then .ok (recordError i w (.align t) k)
      else .ok (flushTo i w o true t (dropExpect w.run.seq k))
    | none => .ok (pushOk i w o (clearPendingBranch (dropExpect w.run.seq k)), none)

/-- R233. -/
def execCbr (w : List RegId) (s : State) : Host.Outcome State Fault Refusal :=
  onFocus s (fun g labels f k =>
    startWork g labels controlRule w (assertCbr g f.work.run) (cbrStep g f.unit f.work)
      f.unit f.work k)

/-- R234. -/
def execJmp (w : List RegId) (s : State) : Host.Outcome State Fault Refusal :=
  onFocus s (fun g labels f k =>
    startWork g labels controlRule w (assertJmp f.work.run) (jmpStep g f.unit f.work)
      f.unit f.work k)

/-- R238. -/
def execRet (w : List RegId) (s : State) : Host.Outcome State Fault Refusal :=
  onFocus s (fun g labels f k =>
    startWork g labels controlRule w (assertRet f.work.run) (retStep g f.unit f.work)
      f.unit f.work k)

end Sys2Proof.Machine
end

