-- ==== Sys2Proof/Machine/MemoryClasses.lean ====
section
/-! DEFINITION. The meanings of class 1, LOAD (R231), and class 2, STORE (R232). -/

namespace Sys2Proof.Machine

/-- A LOAD reads memory (R223). -/
def loadRule : ClassRule := ⟨true, false, false⟩

/-- A STORE writes memory (R223). -/
def storeRule : ClassRule := ⟨false, true, false⟩

/-- `start(i, w)` of a LOAD (R224): an illegal address is a program error; with no address the
instruction runs at once; else the first line is requested and the unit waits in MemRd. -/
def startLoad (g : Cfg) (labels : Labels) (wl : List RegId) (i : Nat) (w : Work) (k : Core) :
    Res (Core × Option Flush) :=
  let addrs := readAddrs g w k.x
  if addressContract g true false w k.x then
    match firstIllegal g addrs with
    | some a => .ok (recordError i w (.addr a) k)
    | none =>
      match linesOf g (addrs.map BitVec.toNat) with
      | [] => runWork g labels loadRule wl id (plainStep i w) i w [] k
      | l :: rest => do
        let k1 ← submit .read l (.eu i) w.run.seq [] k
        .ok ({ k1 with eu := k1.eu.set i (.memRd w (l :: rest) []) }, none)
  else faultWith .oracle

/-- R231: before its memory is read a LOAD starts (R224); with the bytes of its lines it runs. -/
def execLoad (w : List RegId) (s : State) : Host.Outcome State Fault Refusal :=
  onFocus s (fun g labels f k =>
    match f.got with
    | none => startLoad g labels w f.unit f.work k
    | some got =>
      runWork g labels loadRule w id (plainStep f.unit f.work) f.unit f.work got k)

/-- R232: the memory change rides in the result and is written at commit; nothing reaches the cache
in execute. -/
def execStore (w : List RegId) (s : State) : Host.Outcome State Fault Refusal :=
  onFocus s (fun g labels f k =>
    startWork g labels storeRule w id (plainStep f.unit f.work) f.unit f.work k)

end Sys2Proof.Machine
end

