-- ==== Sys2Proof/Machine/Plain.lean ====
section
/-! DEFINITION. The meaning of class 0, ALU (R230): every instruction that neither accesses memory
nor transfers control. -/

namespace Sys2Proof.Machine

/-- An ALU accesses no memory and transfers no control (R102, R223). -/
def aluRule : ClassRule := ⟨false, false, false⟩

/-- R230. The registers R are read by the oracle through the view; a changed register must be in
W. -/
def execAlu (w : List RegId) (s : State) : Host.Outcome State Fault Refusal :=
  onFocus s (fun g labels f k =>
    startWork g labels aluRule w id (plainStep f.unit f.work) f.unit f.work k)

end Sys2Proof.Machine
end

