-- ==== Sys2Proof/Machine/Dispatch.lean ====
section
/-! DEFINITION. The dispatch of an instruction to its meaning, one arm per class (R102, R230 to
R238). The register list R of an instruction is used by the hazard detector, and its values reach
the meaning through the register view (R222), so an arm passes on the list W alone. -/

namespace Sys2Proof.Machine

def exec (i : Instr) (s : State) : Host.Outcome State Fault Refusal :=
  match i with
  | .alu _ w => Sys2Proof.Machine.execAlu w s
  | .load _ w => Sys2Proof.Machine.execLoad w s
  | .store _ w => Sys2Proof.Machine.execStore w s
  | .cbr _ w => Sys2Proof.Machine.execCbr w s
  | .jmp _ w => Sys2Proof.Machine.execJmp w s
  | .ret _ w => Sys2Proof.Machine.execRet w s

end Sys2Proof.Machine
end

