-- ==== Sys2Proof/Machine/ExecUnit.lean ====
section
/-! DEFINITION. The execute-unit state machine (R220, R221). The loop of R221 goes through the states
Idle, WaitFwd, MemRd and Push in that order and stops at the first wait, so it is written as four
phases; a request just submitted never finishes in its first poll (R299, R310), so no state is
visited twice (`poll_locking_not_finished` in Laws). -/

namespace Sys2Proof.Machine

/-- The state of unit i of core c. -/
def State.euState (s : State) (c : CoreId) (i : Nat) : EuState := ((s.core c).eu[i]?).getD .idle

/-- Write the state of unit i of core c. -/
def State.setEu (s : State) (c : CoreId) (i : Nat) (e : EuState) : State :=
  s.setCore c { s.core c with eu := (s.core c).eu.set i e }

/-- `start(i, w)` (R224), with no bytes read yet, and `run(i, w, got)` (R225): the work item is
brought into focus and its instruction's meaning runs. -/
def runFocused (c : CoreId) (i : Nat) (w : Work) (got : Option ByteMap) (s : State) : Res State :=
  ofOutcome (exec w.run.desc.instr { s with focus := some ⟨c, i, w, got⟩ })

/-- R221, Idle: take the next instruction from IE; it starts at once unless it waits for a forwarded
value. -/
def unitTake (c : CoreId) (i : Nat) (s : State) : Res State :=
  match s.euState c i with
  | .idle =>
    if !(s.core c).ie.hasVisible then .ok s
    else do
      let (it, ie) ← (s.core c).ie.get
      let s1 := s.setCore c { s.core c with ie := ie }
      let w : Work := ⟨it.run, it.fwd, none⟩
      match it.fwd with
      | some _ => .ok (s1.setEu c i (.waitFwd w))
      | none => runFocused c i w none s1
  | .waitFwd _ => .ok s
  | .memRd _ _ _ => .ok s
  | .push _ _ => .ok s

/-- R221, WaitFwd: take the forwarded value when the producer has written it, remove the link and
start. A missing link faults F_UNREACH (DEDUCED, notes/assumptions/11.md). -/
def unitForward (c : CoreId) (i : Nat) (s : State) : Res State :=
  match s.euState c i with
  | .waitFwd w =>
    match (s.core c).links.find? (fun l => decide (l.cons = w.run.seq)) with
    | none => faultWith .unreach
    | some l =>
      match l.cell with
      | none => .ok s
      | some v =>
        let k := s.core c
        let s1 := s.setCore c
          { k with links := k.links.filter (fun j => decide (j.cons ≠ w.run.seq)) }
        runFocused c i { w with ov := some (l.reg, v) } none s1
  | .idle => .ok s
  | .memRd _ _ _ => .ok s
  | .push _ _ => .ok s

/-- R221, MemRd: poll the request; when a line arrives, request the next one (and poll it once in
this cycle, R299) or run the instruction. -/
def unitMemory (c : CoreId) (i : Nat) (s : State) : Res State :=
  match s.euState c i with
  | .memRd w todo got => do
    let (s1, ph) ← poll c (.eu i) s
    match ph with
    | .finished data =>
      let got1 := addBytes got data
      let s2 := setReq c none s1
      match todo.tail with
      | [] => runFocused c i w (some got1) s2
      | l :: rest => do
        let k ← submit .read l (.eu i) w.run.seq [] (s2.core c)
        let s3 := (s2.setCore c k).setEu c i (.memRd w (l :: rest) got1)
        let (s4, _) ← poll c (.eu i) s3
        .ok s4
    | .locking => .ok s1
    | .waiting _ => .ok s1
    | .access _ _ => .ok s1
  | .idle => .ok s
  | .waitFwd _ => .ok s
  | .push _ _ => .ok s

/-- R221, Push: the result leaves when EW has room; at most one instruction leaves a unit per
cycle. -/
def unitPush (c : CoreId) (i : Nat) (s : State) : Res State :=
  match s.euState c i with
  | .push _ res =>
    if (s.core c).ew.canAdd s.cfg.busCap then do
      let ew ← (s.core c).ew.add s.cfg.busCap res
      .ok ((s.setCore c { s.core c with ew := ew }).setEu c i .idle)
    else .ok s
  | .idle => .ok s
  | .waitFwd _ => .ok s
  | .memRd _ _ _ => .ok s

/-- The phases of `eu_step(i)` after Idle (R221). -/
def unitFinish (c : CoreId) (i : Nat) (s : State) : Res State := do
  let s1 ← unitForward c i s
  let s2 ← unitMemory c i s1
  unitPush c i s2

/-- `eu_step(i)` (R221). -/
def unitStep (c : CoreId) (i : Nat) (s : State) : Res State := do
  let s1 ← unitTake c i s
  unitFinish c i s1

/-- Every execute unit of core c in turn (R221, R341). -/
def unitsStep (c : CoreId) : List Nat → State → Res State
  | [], s => .ok s
  | i :: rest, s => do
    let s1 ← unitStep c i s
    unitsStep c rest s1

/-- The sequence ID of the instruction a unit works on. -/
def EuState.seq? : EuState → Option Seq
  | .idle => none
  | .waitFwd w => some w.run.seq
  | .memRd w _ _ => some w.run.seq
  | .push w _ => some w.run.seq

/-- A unit works on an instruction younger than the boundary (R240). -/
def EuState.younger (b : Seq) (e : EuState) : Bool :=
  match e.seq? with
  | some q => decide (b < q)
  | none => false

/-- The controller request of core c belongs to a unit whose instruction is younger than the boundary
(R240). -/
def requestYounger (b : Seq) (k : Core) : Bool :=
  match k.req with
  | none => false
  | some r =>
    match r.who with
    | .eu i => EuState.younger b ((k.eu[i]?).getD .idle)
    | .wb => false

/-- `eu_flush(b)` (R240). -/
def euFlush (c : CoreId) (b : Seq) (s : State) : Res State := do
  let s1 ← if requestYounger b (s.core c) then abandon c s else .ok s
  let k := s1.core c
  .ok (s1.setCore c { k with eu := k.eu.map (fun e => if EuState.younger b e then .idle else e) })

end Sys2Proof.Machine
end

