-- ==== Sys2Proof/Machine/Issue.lean ====
section
/-! DEFINITION. The issue unit: hazard detector, forwarding and renaming
(43_issue_hazard_forwarding.md). It reads and writes only its own core. -/

namespace Sys2Proof.Machine

/-- `isCtl(r)` (R185). -/
def isCtl : Instr → Bool
  | .alu _ _ => false
  | .load _ _ => false
  | .store _ _ => false
  | .cbr _ _ => true
  | .jmp _ _ => true
  | .ret _ _ => true

/-- `d.cls = LOAD`. -/
def isLoad : Instr → Bool
  | .alu _ _ => false
  | .load _ _ => true
  | .store _ _ => false
  | .cbr _ _ => false
  | .jmp _ _ => false
  | .ret _ _ => false

/-- `d.cls = STORE`. -/
def isStore : Instr → Bool
  | .alu _ _ => false
  | .load _ _ => false
  | .store _ _ => true
  | .cbr _ _ => false
  | .jmp _ _ => false
  | .ret _ _ => false

/-- `d.cls = RET`. -/
def isRet : Instr → Bool
  | .alu _ _ => false
  | .load _ _ => false
  | .store _ _ => false
  | .cbr _ _ => false
  | .jmp _ _ => false
  | .ret _ _ => true

/-- `isMem(r)` (R185). -/
def isMem (i : Instr) : Bool := isLoad i || isStore i

/-- Two register lists have an element in common. -/
def meets (a b : List RegId) : Bool := a.any (fun q => b.contains q)

/-- `regHaz(r, s)` (R185): a RAW, WAW or WAR conflict between two runners. -/
def regHaz (r s : Instr) : Bool :=
  meets r.reads s.writes || meets r.writes s.writes || meets r.writes s.reads

/-- `RAW(r)` against the pending-write set (R185). -/
def rawSet (k : Core) (i : Instr) : List RegId := i.reads.filter (fun q => decide (0 < pwGet k.pw q))

/-- `WAW(r)` against the pending-write set (R185). -/
def wawSet (k : Core) (i : Instr) : List RegId :=
  i.writes.filter (fun q => decide (0 < pwGet k.pw q))

/-- How a runner issues (R194). -/
inductive Grant where
  | plain
  | fwd (prod : Seq) (reg : RegId)
  | rename
deriving DecidableEq, Repr

/-- The answer of `verdict` (R189 to R194). -/
inductive Verdict where
  | stop
  | hold
  | issue (g : Grant)
deriving DecidableEq, Repr

/-- The issue step's local variables (R187) beside the core it works on. -/
structure Scan where
  core : Core
  skipped : List Runner
  issued : Nat
  ctlIssued : Bool
  held : Bool
deriving DecidableEq, Repr

/-- `fwdOK(r, q)` (R195): the producer when forwarding register q is allowed. -/
def fwdProducer (k : Core) (q : RegId) : Option Seq :=
  if pwGet k.pw q = 1 then
    match k.rob.find? (fun e => e.desc.instr.writes.contains q) with
    | none => none
    | some p =>
      if k.prevIssued.contains p.seq && decide (p.status = .issued)
          && !k.links.any (fun l => decide (l.prod = p.seq)) then some p.seq
      else none
  else none

/-- R194: classification against the pending-write set. -/
def classify (g : Cfg) (k : Core) (i : Instr) : Verdict :=
  match rawSet k i, wawSet k i with
  | [], [] => .issue .plain
  | [q], [] =>
    if g.fwdEnabled then
      match fwdProducer k q with
      | some p => .issue (.fwd p q)
      | none => .hold
    else .hold
  | [], _ :: _ =>
    if g.renameEnabled && decide (i.writes.length ≤ k.freePhys) then .issue .rename else .hold
  | _, _ => .hold

/-- The STOP conditions (R189). -/
def mustStop (g : Cfg) (sc : Scan) : Bool :=
  sc.ctlIssued || decide (sc.issued = g.issueWidth) || !sc.core.ie.canAdd g.busCap
    || decide (sc.core.rob.length = g.robCap)

/-- The memory-ordering hold (R193). -/
def memHeld (k : Core) (skipped : List Runner) (r : Runner) : Bool :=
  isMem r.desc.instr &&
    (skipped.any (fun s => isMem s.desc.instr)
      || k.rob.any (fun e =>
        decide (e.seq < r.seq) && isLoad e.desc.instr && decide (e.status = .issued))
      || k.rob.any (fun e => decide (e.seq < r.seq) && isStore e.desc.instr))

/-- The holds that do not look at the pending-write set (R190 to R193). -/
def mustHold (k : Core) (skipped : List Runner) (r : Runner) : Bool :=
  (isCtl r.desc.instr && !skipped.isEmpty)
    || (isRet r.desc.instr && (!k.rob.isEmpty || !skipped.isEmpty))
    || skipped.any (fun s => regHaz r.desc.instr s.desc.instr)
    || memHeld k skipped r

/-- `verdict(r, S)` (R189 to R194). -/
def verdict (g : Cfg) (sc : Scan) (r : Runner) : Verdict :=
  if mustStop g sc then .stop
  else if mustHold sc.core sc.skipped r then .hold
  else classify g sc.core r.desc.instr

/-- The forwarding an issued runner waits for (R198). -/
def Grant.forward : Grant → Option (Seq × RegId)
  | .plain => none
  | .fwd p q => some (p, q)
  | .rename => none

/-- The rename slots an issued runner takes (R198, R204). -/
def Grant.slots (w : List RegId) : Grant → Nat
  | .plain => 0
  | .fwd _ _ => 0
  | .rename => w.length

/-- The link a grant creates (R198, R201). -/
def Grant.links (r : Runner) : Grant → List Link
  | .plain => []
  | .fwd p q => [⟨p, r.seq, q, none⟩]
  | .rename => []

/-- `do_issue(r, k)` (R198) on the core. -/
def doIssue (g : Cfg) (gr : Grant) (r : Runner) (k : Core) : Res Core := do
  let ie ← k.ie.add g.busCap ⟨r, gr.forward⟩
  let slots := gr.slots r.desc.instr.writes
  .ok { k with
    ie := ie
    rob := robInsert ⟨r.seq, r.pc, r.desc, .issued, slots⟩ k.rob
    pw := pwRaise k.pw r.desc.instr.writes
    freePhys := k.freePhys - slots
    links := k.links ++ gr.links r
    fwdCount := k.fwdCount + (gr.links r).length
    curIssued := k.curIssued ++ [r.seq] }

/-- The scan after a runner issued (R198). -/
def Scan.granted (sc : Scan) (r : Runner) (k : Core) : Scan :=
  { sc with
    core := k
    issued := sc.issued + 1
    ctlIssued := sc.ctlIssued || isCtl r.desc.instr }

/-- The scan after a runner was held (R187). -/
def Scan.heldBack (sc : Scan) (r : Runner) : Scan :=
  { sc with skipped := sc.skipped ++ [r], held := true }

/-- Phase 1 of the issue step (R187), over the entries of the pending queue still to visit; the Bool
says that the step is over. -/
def issuePending (g : Cfg) : List Runner → Scan → Res (Scan × Bool)
  | [], sc => .ok (sc, false)
  | r :: rest, sc =>
    match verdict g sc r with
    | .stop => .ok (sc, true)
    | .hold => issuePending g rest (sc.heldBack r)
    | .issue gr => do
      let k ← doIssue g gr r { sc.core with pendingQ := pendingRemove sc.core.pendingQ r }
      issuePending g rest (sc.granted r k)

/-- R188: a runner held on DI moves to the pending queue when there is room. -/
def parkHeld (g : Cfg) (k : Core) : Res Core :=
  if k.pendingQ.length < g.pqCap then do
    let (r, di) ← k.di.get
    let q ← pendingPush g.pqCap k.pendingQ r
    .ok { k with di := di, pendingQ := q }
  else .ok k

/-- Phase 2 of the issue step (R187); `n` is the number of runners visible on DI at its start, which
bounds its rounds because each takes one. -/
def issueFresh (g : Cfg) : Nat → Scan → Res Scan
  | 0, sc => .ok sc
  | n + 1, sc =>
    if !sc.core.di.hasVisible then .ok sc
    else do
      let r ← sc.core.di.peek
      match verdict g sc r with
      | .stop => .ok sc
      | .hold => do
        let k ← parkHeld g sc.core
        .ok { sc with core := k, held := true }
      | .issue gr => do
        let (_, di) ← sc.core.di.get
        let k ← doIssue g gr r { sc.core with di := di }
        issueFresh g n (sc.granted r k)

/-- `issue_step()` (R187). -/
def issueStep (g : Cfg) (k : Core) : Res Core := do
  let sc : Scan := ⟨{ k with curIssued := [] }, [], 0, false, false⟩
  let (sc1, stopped) ← issuePending g k.pendingQ sc
  let sc2 ← if stopped then .ok sc1 else issueFresh g sc1.core.di.visible.length sc1
  .ok { sc2.core with
    prevIssued := sc2.core.curIssued
    stallCount := sc2.core.stallCount + (if sc2.held then 1 else 0) }

/-- `issue_flush(b)` (R207). -/
def issueFlush (b : Seq) (k : Core) : Core :=
  { k with
    pendingQ := k.pendingQ.filter (fun r => decide (r.seq ≤ b))
    prevIssued := []
    curIssued := [] }

end Sys2Proof.Machine
end

