-- ==== Sys2Proof/Machine/Flush.lean ====
section
/-! DEFINITION. The flush by sequence ID (48_core_cycle_flush.md section 2). -/

namespace Sys2Proof.Machine

/-- Discarding a list of buffer entries returns their pending-write counts and rename slots (R346):
the counts and the number of slots returned. -/
def discardEntries : List RobEntry → List (RegId × Nat) → Res (List (RegId × Nat))
  | [], pw => .ok pw
  | e :: rest, pw => do
    let pw1 ← pwLower pw e.desc.instr.writes
    discardEntries rest pw1

/-- The rename slots held by a list of buffer entries. -/
def heldSlots (l : List RobEntry) : Nat := (l.map (fun e => e.slots)).sum

/-- The part of R346 before the execute units: fetch, the decode flag, the buses and the issue
unit. -/
def flushFront (b : Seq) (t : Option Word) (k : Core) : Core :=
  let k1 := clearPendingBranch (fetchFlush t k)
  issueFlush b
    { k1 with
      di := k1.di.filter (fun r => decide (r.seq ≤ b))
      ie := k1.ie.filter (fun it => decide (it.run.seq ≤ b))
      ew := k1.ew.filter (fun res => decide (res.seq ≤ b)) }

/-- The part of R346 after the execute units: the retirement buffer, the links, the expectations and
the counter. -/
def flushBack (b : Seq) (t : Option Word) (k : Core) : Res Core := do
  let gone := k.rob.filter (fun e => decide (b < e.seq))
  let pw ← discardEntries gone k.pw
  .ok { k with
    pw := pw
    freePhys := k.freePhys + heldSlots gone
    rob := k.rob.filter (fun e => decide (e.seq ≤ b))
    links := k.links.filter (fun l => decide (l.prod ≤ b) && decide (l.cons ≤ b))
    expect := k.expect.filter (fun e => decide (e.1 ≤ b))
    flushCount := k.flushCount + (if t.isSome then 1 else 0) }

/-- `apply_flush(Flush{b, t})` on core c (R346). -/
def applyFlush (c : CoreId) (b : Seq) (t : Option Word) (s : State) : Res State := do
  let s1 ← euFlush c b (s.setCore c (flushFront b t (s.core c)))
  let k ← flushBack b t (s1.core c)
  .ok (s1.setCore c k)

/-- The flush signal with the smallest seq (R345). -/
def oldestFlush : List Flush → Option Flush
  | [] => none
  | f :: rest =>
    match oldestFlush rest with
    | none => some f
    | some f2 => if f2.seq < f.seq then some f2 else some f

/-- R345: the oldest flush raised in this cycle is applied, the others are dropped. -/
def applyRaised (c : CoreId) (s : State) : Res State :=
  match oldestFlush s.raised with
  | none => .ok s
  | some f => applyFlush c f.seq f.target { s with raised := [] }

end Sys2Proof.Machine
end

