-- ==== Sys2Proof/Machine/Writeback.lean ====
section
/-! DEFINITION. The write-back arbiter and in-order commit (46_writeback_arbiter.md). -/

namespace Sys2Proof.Machine

/-- The drain (R266), at most `n` more results. -/
def drainLoop : Nat → Core → Res Core
  | 0, k => .ok k
  | n + 1, k =>
    if !k.ew.hasVisible then .ok k
    else do
      let (res, ew) ← k.ew.get
      match robFind k.rob res.seq with
      | none => faultWith .unreach
      | some _ =>
        drainLoop n { k with ew := ew, rob := robSetStatus k.rob res.seq (.completed res.out) }

/-- The entry with the smallest seq. -/
def oldestEntry : List RobEntry → Option RobEntry
  | [] => none
  | e :: rest =>
    match oldestEntry rest with
    | none => some e
    | some f => if f.seq < e.seq then some f else some e

/-- A runner older than `b` has not issued yet: it is in the pending queue or on DI (R267). -/
def unissuedOlder (k : Core) (b : Seq) : Bool :=
  (k.pendingQ ++ k.di.visible ++ k.di.buffer ++ k.di.entry).any (fun r => decide (r.seq < b))

/-- The oldest live instruction, when it has issued (R267). -/
def commitHead (k : Core) : Option RobEntry :=
  match oldestEntry k.rob with
  | none => none
  | some e => if unissuedOlder k e.seq then none else some e

/-- The result of a completed entry. -/
def entryResult : RobStatus → Option ExecutionResult
  | .issued => none
  | .executed => none
  | .completed (.ok o) => some o
  | .completed (.err _) => none

/-- The bytes of a memory change that lie in a line, in list order (R273). -/
def lineBytes (g : Cfg) (l : LineAddr) (change : List (Word × Byte)) : List Host.Cell :=
  (change.filter (fun e => decide (lineOf g.lineSize e.1.toNat = l))).map
    (fun e => (e.1.toNat, e.2))

/-- Write one core's store progress. -/
def setSprog (c : CoreId) (p : Option StoreProg) (s : State) : State :=
  s.setCore c { s.core c with sprog := p }

/-- The WRITE request of the store being committed is there: submitted now unless it is already under
way (R273). -/
def ensureWrite (c : CoreId) (b : Seq) (l : LineAddr) (change : List (Word × Byte)) (s : State) :
    Res State :=
  match (s.core c).req with
  | some _ => .ok s
  | none => do
    let k ← submit .write l .wb b (lineBytes s.cfg l change) (s.core c)
    .ok (s.setCore c k)

/-- The loop of `store_step()` (R273) over the lines still to write; the Bool says that every line is
written. -/
def storeLines (c : CoreId) (b : Seq) (change : List (Word × Byte)) :
    List LineAddr → State → Res (State × Bool)
  | [], s => .ok (s, true)
  | l :: rest, s => do
    let s1 ← ensureWrite c b l change s
    let (s2, ph) ← poll c .wb s1
    match ph with
    | .finished _ => storeLines c b change rest (setSprog c (some ⟨b, rest, 0⟩) (setReq c none s2))
    | .locking => .ok (s2, false)
    | .waiting _ => .ok (s2, false)
    | .access _ _ => .ok (s2, false)

/-- The register file after a result commits (R272): one register at most. -/
def commitRegs (o : ExecutionResult) (x : Regs) : Regs :=
  match o.regChange with
  | some (q, v) => regWrite x q v
  | none => x

/-- The register and pending-write part of `finish(h)` (R271, R272): the only place that writes the
register file. -/
def retire (e : RobEntry) (o : ExecutionResult) (k : Core) : Res Core := do
  let pw ← pwLower k.pw e.desc.instr.writes
  .ok { k with
    x := commitRegs o k.x
    pw := pw
    freePhys := k.freePhys + e.slots
    rob := robRemove k.rob e.seq
    sprog := none }

/-- `terminate_cleanup(s)` (R274): the flush of R346 with no target. -/
def terminateCleanup (c : CoreId) (b : Seq) (s : State) : Res State := applyFlush c b none s

/-- `finish(h)` (R271). -/
def finish (c : CoreId) (e : RobEntry) (o : ExecutionResult) (s : State) : Res State := do
  let k ← retire e o (s.core c)
  if o.terminate then terminateCleanup c e.seq (s.setCore c { k with done := true })
  else .ok (s.setCore c k)

/-- Commit one completed instruction: a store first writes its memory change (R268). The Bool says
that it has committed. -/
def commitOk (c : CoreId) (e : RobEntry) (o : ExecutionResult) (s : State) :
    Res (State × Bool) :=
  if o.memChange = [] then do
    let s1 ← finish c e o s
    .ok (s1, true)
  else do
    let lines := linesOf s.cfg (o.memChange.map (fun p => p.1.toNat))
    let (s1, all) ← storeLines c e.seq o.memChange lines (setSprog c (some ⟨e.seq, lines, 0⟩) s)
    if all then do
      let s2 ← finish c e o s1
      .ok (s2, true)
    else .ok (s1, false)

/-- One round of the commit loop (R268); the Bool says that an instruction committed and the loop may
go on. A store under way whose sequence ID has no buffer entry, or whose entry is not completed with a
result, faults F_UNREACH (DEDUCED, notes/assumptions/25.md). -/
def commitOne (c : CoreId) (s : State) : Res (State × Bool) :=
  match (s.core c).sprog with
  | some p =>
    match robFind (s.core c).rob p.seq with
    | none => faultWith .unreach
    | some e =>
      match entryResult e.status with
      | none => faultWith .unreach
      | some o => do
        let (s1, all) ← storeLines c p.seq o.memChange p.todo s
        if all then do
          let s2 ← finish c e o s1
          .ok (s2, true)
        else .ok (s1, false)
  | none =>
    match commitHead (s.core c) with
    | none => .ok (s, false)
    | some e =>
      match e.status with
      | .issued => .ok (s, false)
      | .executed => .ok (s, false)
      | .completed (.err err) => .ok (takeError c err s, false)
      | .completed (.ok o) => commitOk c e o s

/-- The commit loop (R268), at most `n` more commits. -/
def commitLoop (c : CoreId) : Nat → State → Res State
  | 0, s => .ok s
  | n + 1, s =>
    if s.status = .running ∧ (s.core c).done = false then do
      let (s1, more) ← commitOne c s
      if more then commitLoop c n s1 else .ok s1
    else .ok s

/-- `wb_step()` (R265). -/
def wbStep (c : CoreId) (s : State) : Res State := do
  let k ← drainLoop s.cfg.wbUnits (s.core c)
  commitLoop c s.cfg.wbUnits (s.setCore c k)

end Sys2Proof.Machine
end

