-- ==== Sys2Proof/Machine/Cycle.lean ====
section
/-! DEFINITION. The driver: what is refused before a run (R367), one cycle of a core (R341), one
global step (R340), completion (R350 to R354) and the check after a step (R55). -/

namespace Sys2Proof.Machine

/-! ### Refusals before the run -/

/-- The index of the first ill-formed descriptor of a program (R104, R117). -/
def badDescriptor (prog : List ProgEntry) : Option Nat :=
  prog.findIdx? (fun e => e.descriptor?.isNone)

/-- The refusal of one core's inputs, if any (R150, R367). -/
def inputRefusal (g : Cfg) (c : CoreId) (inp : CoreInput) : Option Refusal :=
  if !programWf g inp.prog.length inp.entry then some (.program c)
  else (badDescriptor inp.prog).map (fun k => .descriptor c k)

/-- The first refusal of a list of inputs, the first of them core c's. -/
def inputsRefusal (g : Cfg) (c : CoreId) : List CoreInput → Option Refusal
  | [] => none
  | inp :: rest =>
    match inputRefusal g c inp with
    | some r => some r
    | none => inputsRefusal g (c + 1) rest

/-- The state holds as many cores, inputs and execute units as its configuration says. -/
def State.shaped (s : State) : Bool :=
  decide (s.cores.length = s.cfg.numCores) && decide (s.inputs.length = s.cfg.numCores)
    && s.cores.all (fun k => decide (k.eu.length = s.cfg.nEu))

/-- R367. The parts it reads never change in a run, so asking at every step is asking before the
first one (DESIGN CHOICE, notes/assumptions/14.md). R367 gives no order among refusals: the
configuration is asked first, then the shape, then the cores in index order, and of one core its
program's extent before its first ill-formed descriptor (DESIGN CHOICE, notes/assumptions/24.md). -/
def loadRefusal (s : State) : Option Refusal :=
  if !s.cfg.wf then some .config
  else if !s.shaped then some .shape
  else inputsRefusal s.cfg 0 s.inputs

/-! ### One cycle of a core -/

/-- The four connects (R137, R341). -/
def connectAll (g : Cfg) (k : Core) : Core :=
  { k with
    fd := k.fd.connect g.busCap
    di := k.di.connect g.busCap
    ie := k.ie.connect g.busCap
    ew := k.ew.connect g.busCap }

/-- The front of a core cycle, which touches only its own core: connects, fetch, decode, issue
(R341). -/
def frontEnd (g : Cfg) (c : CoreId) (prog : List ProgEntry) (k : Core) : Res Core := do
  let k1 ← fetchStep g prog.length (connectAll g k)
  let k2 ← decodeStep g c prog k1
  issueStep g k2

/-- `drained(c)` (R350): with the arbiter idle as R278 says, the units as R241 says and the fetch
unit as R159 says. -/
def drained (k : Core) : Bool :=
  k.complete && k.fd.isEmpty && k.di.isEmpty && k.ie.isEmpty && k.ew.isEmpty
    && k.pendingQ.isEmpty && k.eu.all (fun e => decide (e = .idle))
    && k.rob.isEmpty && k.sprog.isNone && k.req.isNone

/-- The end of a core cycle: `done` when the core has drained (R341, R352). -/
def settle (c : CoreId) (s : State) : State :=
  if s.status = .running ∧ (s.core c).done = false ∧ drained (s.core c) = true then
    s.setCore c { s.core c with done := true }
  else s

/-- The core cycle up to the snoop step (R341). -/
def beforeExecute (c : CoreId) (s : State) : Res State := do
  let k ← frontEnd s.cfg c (s.input c).prog (s.core c)
  snoopStep c (s.setCore c k)

/-- The core cycle after the execute units (R341). -/
def afterExecute (c : CoreId) (s : State) : Res State := do
  let s1 ← applyRaised c s
  let s2 ← wbStep c s1
  .ok (settle c s2)

/-- `core_cycle(c)` (R341). -/
def coreCycle (c : CoreId) (s : State) : Res State :=
  if (s.core c).done then snoopStep c s
  else do
    let s1 ← beforeExecute c s
    let s2 ← unitsStep c (List.range s.cfg.nEu) s1
    afterExecute c s2

/-! ### The global step -/

/-- The cores in index order, stopping when one stops the run (R340). -/
def runCores : List CoreId → State → Res State
  | [], s => .ok s
  | c :: rest, s => do
    let s1 ← coreCycle c s
    if s1.status = .running then runCores rest s1 else .ok s1

/-- The end of a global step: the cycle counter and completion (R340, R354). -/
def endStep (s : State) : State :=
  { s with
    cycle := s.cycle + 1
    status :=
      if s.status = .running ∧ s.cores.all (fun k => k.done) = true then .completed
      else s.status }

/-! ### The check after a step (R55) -/

/-- The lines with a directory entry that is not I in some core. -/
def trackedLines (s : State) : List LineAddr := s.dir.flatMap (fun row => row.2.map Prod.fst)

/-- The number of cores for which a property of their directory state holds. -/
def countDir (s : State) (l : LineAddr) (p : Msi → Bool) : Nat :=
  ((List.range s.cfg.numCores).filter (fun c => p (s.dirGet c l))).length

/-- R55 (a): at most one core has a line Modified, and then every other has it Invalid. -/
def msiExclusive (s : State) : Bool :=
  (trackedLines s).all (fun l =>
    decide (countDir s l (fun v => decide (v = .m)) = 0)
      || decide (countDir s l (fun v => decide (v ≠ .i)) = 1))

/-- R55 (b): a core's L1D holds a line iff its directory entry is S or M. -/
def linesAgree (s : State) : Bool :=
  (List.range s.cfg.numCores).all (fun c =>
    (s.core c).l1d.all (fun e => decide (s.dirGet c e.1 ≠ .i))
      && (mapGet [] s.dir c).all (fun e =>
        decide (e.2 = .i) || lruContains (s.core c).l1d e.1))

/-- R55 (c): a semaphore with a writer has no readers. -/
def semsAgree (s : State) : Bool :=
  s.sem.all (fun e => !e.2.writer || decide (e.2.readers = 0))

/-- The number of buffer entries that write a register (R41). -/
def writersOf (rob : List RobEntry) (q : RegId) : Nat :=
  (rob.filter (fun e => e.desc.instr.writes.contains q)).length

/-- R55 (d), R41: `pw[r]` is the number of buffer entries with r in their write set. -/
def pwAgrees (k : Core) : Bool :=
  (List.range NREGS).all (fun q => decide (pwGet k.pw q = writersOf k.rob q))

/-- R55 (e). -/
def capsHold (g : Cfg) (k : Core) : Bool :=
  decide (k.rob.length ≤ g.robCap) && decide (k.pendingQ.length ≤ g.pqCap)
    && decide (k.freePhys ≤ g.nPhys)

/-- The fault of the first invariant of R55 that does not hold, in the order of that rule. -/
def brokenInvariant (s : State) : Option Fault :=
  if !msiExclusive s then some .msi
  else if !linesAgree s then some .line
  else if !semsAgree s then some .sem
  else if !s.cores.all pwAgrees then some .pw
  else if !s.cores.all (capsHold s.cfg) then some .cap
  else none

/-- The outcome of a step that began in `s`, from the answer of its core cycles: a fault, or a state
that breaks R55, gives the state before the step with that fault as its status (R340, R365). -/
def concludeStep (s : State) (r : Res State) : Host.Outcome State Fault Refusal :=
  match r with
  | .error (.refused e) => .refused e
  | .error (.fault f) => .next { s with status := .fault f }
  | .ok t =>
    match brokenInvariant (endStep t) with
    | some f => .next { s with status := .fault f }
    | none => .next (endStep t)

/-- One cycle of the whole machine (R340) in a state that is running. -/
def cycleStep (s : State) : Host.Outcome State Fault Refusal :=
  concludeStep s (runCores (List.range s.cfg.numCores) s)

/-- `step(M)` (R340): a stopped machine does not change (R31); an ill-formed input has no run
(R367). -/
def globalStep (s : State) : Host.Outcome State Fault Refusal :=
  if s.status = .running then
    match loadRefusal s with
    | some r => .refused r
    | none => cycleStep s
  else .next s

end Sys2Proof.Machine
end

