-- ==== Sys2Proof/Machine/Boot.lean ====
section
/-! DEFINITION. The start of a run (R380, R381): the host's inputs, its refusals, and the placing of
one instruction where the very next step runs it (`State.withFetchWord`). -/

namespace Sys2Proof.Machine

/-- `MemInit` (R33) in canonical form; bytes beyond MEM_SIZE are no memory (R79). -/
def memoryOfImage (g : Cfg) (image : List Host.Cell) : Memory :=
  Memory.writeAll [] (image.filter (fun c => decide (c.1 < g.memSize)))

/-- The inputs of a core to which core 0's program is given: `ENTRY[c]` and `InitRegs[c]` are per core
and not given for it, so they take their defaults (R381). -/
def CoreInput.sameProgram (inp : CoreInput) : CoreInput :=
  { CoreInput.blank with prog := inp.prog, labels := inp.labels }

/-- "when one program is given it is used for every core" (R358, R381): the program and its labels
(R11). The entry and the registers that come with it are read as core 0's (DEDUCED,
notes/assumptions/23.md). -/
def spreadInputs (g : Cfg) (inputs : List CoreInput) : List CoreInput :=
  match inputs with
  | [inp] => inp :: List.replicate (g.numCores - 1) inp.sameProgram
  | many => many

/-- Reset (R380): first the refusals of R367, then every field at its reset value. -/
def boot (g : Cfg) (inputs : List CoreInput) (image : List Host.Cell) : Except Refusal State :=
  let s := State.init g (spreadInputs g inputs) (memoryOfImage g image)
  match loadRefusal s with
  | some r => .error r
  | none => .ok s

/-! ### Placing one instruction -/

/-- The oracle that stands at an index of a program, the empty-result oracle of a `nop` where none
does: a header word does not say what its instruction computes (R103, notes/assumptions/4.md). -/
def opsAt (prog : List ProgEntry) (n : Nat) : Oracle := ((prog[n]?).map (fun e => e.ops)).getD .nop

/-- The entry of an ALU `nop` (R117), which fills the places before one that is written. -/
def nopEntry : ProgEntry := ⟨.header 0, .nop⟩

/-- A program with an entry at index `n`. -/
def putEntry (prog : List ProgEntry) (n : Nat) (e : ProgEntry) : List ProgEntry :=
  if n < prog.length then prog.set n e
  else prog ++ List.replicate (n - prog.length) nopEntry ++ [e]

/-- A core's pipeline with nothing in flight, as the reset rules leave it (R41 to R51); registers, pc,
caches, BTB, counters and `nextSeq` stay. -/
def emptyPipeline (g : Cfg) (k : Core) : Core :=
  { k with
    pw := []
    complete := false
    fstate := .idle
    fd := .empty
    di := .empty
    ie := .empty
    ew := .empty
    pendingBranch := false
    pendingQ := []
    prevIssued := []
    curIssued := []
    freePhys := g.nPhys
    links := []
    rob := []
    eu := List.replicate g.nEu .idle
    expect := []
    req := none
    sprog := none
    done := false }

/-- The front end has fetched, decoded and issued the instruction at the core's pc: it waits on IE
with its buffer entry, and fetch stands behind it (R153, R170, R198). -/
def issueAt (g : Cfg) (d : Descriptor) (k : Core) : Core :=
  { k with
    pc := nextPc g k.pc
    nextSeq := k.nextSeq + 1
    pendingBranch := setsPendingBranch d.instr
    ie := ⟨[⟨⟨d, k.pc, k.nextSeq⟩, none⟩], [], []⟩
    rob := [⟨k.nextSeq, k.pc, d, .issued, 0⟩]
    pw := pwRaise [] d.instr.writes
    prevIssued := [k.nextSeq]
    curIssued := [k.nextSeq] }

/-- Core 0 with nothing in flight but the program entry at its pc, which its front end has brought to
IE; an ill-formed entry stays in the program alone, where the step refuses it. -/
def placeEntry (g : Cfg) (e : ProgEntry) (k : Core) : Core :=
  match e.descriptor? with
  | some d => issueAt g d (emptyPipeline g k)
  | none => emptyPipeline g k

/-- The header word `w` written into core 0's instruction store at its pc, and brought to where the
next step's execute unit takes it. -/
def placeWord (s : State) (nbits w : Nat) : State :=
  let inp := s.input 0
  let n := (s.core 0).pc.toNat / s.cfg.iw
  let e : ProgEntry := ⟨.header (BitVec.ofNat 32 (w % 2 ^ nbits)), opsAt inp.prog n⟩
  let s1 : State :=
    { s with
      status := .running
      focus := none
      raised := []
      inputs := s.inputs.set 0 { inp with prog := putEntry inp.prog n e } }
  s1.setCore 0 (placeEntry s.cfg e (s.core 0))

end Sys2Proof.Machine
end

