-- ==== Sys2Proof/Machine/Observe.lean ====
section
/-! DEFINITION. What is observed of a run (R20): the memory view (R86), the façade (R356, R357) with
the instrumentation counters (R372), and the run outcome. -/

namespace Sys2Proof.Machine

/-- The core that has a line Modified, the lowest first (R86). -/
def modifiedOwner (s : State) (l : LineAddr) : Option CoreId :=
  (List.range s.cfg.numCores).find? (fun c => decide (s.dirGet c l = .m))

/-- The byte at an offset of a line's data. -/
def lineByte (data : Option (List Byte)) (off : Nat) : Byte :=
  (data.bind (fun d => d[off]?)).getD unlistedByte

/-- The memory view (R86): the byte in the Modified L1D line, else in the L3, else in memory. -/
def State.memView (s : State) (a : Nat) : Byte :=
  let l := lineOf s.cfg.lineSize a
  match modifiedOwner s l with
  | some c => lineByte (lruFind (s.core c).l1d l) (a - l)
  | none =>
    match lruFind s.l3 l with
    | some d => lineByte (some d) (a - l)
    | none => Memory.read s.mem a

/-- `register_and_memory_state()` (R357): each core's registers and the memory view of every
address. -/
def registerAndMemoryState (s : State) : List Regs × List Byte :=
  (s.cores.map (fun k => k.x), (List.range s.cfg.memSize).map s.memView)

/-- The instrumentation counters of a core (R372). -/
structure Counters where
  /-- `fwdCount`: links created -/
  forwards : Nat
  /-- `stallCount`: cycles in which the issue step held a runner -/
  stalls : Nat
  /-- `flushCount`: applied flushes with a target -/
  flushes : Nat
deriving DecidableEq, Repr

/-- The counters of one core. -/
def Core.counters (k : Core) : Counters := ⟨k.fwdCount, k.stallCount, k.flushCount⟩

/-- The counters of every core, as the façade shows them (R372). -/
def instrumentationCounters (s : State) : List Counters := s.cores.map Core.counters

/-- The answer of the façade's `run` (R356). -/
inductive RunResult where
  /-- `(cycle, none)` -/
  | completed (cycles : Nat)
  /-- `(cycle, some (c, code, info))` -/
  | failed (cycles : Nat) (core : CoreId) (e : ProgramError)
  /-- a model failure -/
  | faulted (f : Fault)
  /-- fuel ended: not an outcome of the block -/
  | stillRunning
  /-- the model gives no run -/
  | refused (r : Refusal)
deriving DecidableEq, Repr

/-- At most `n` steps (R356): a stopped machine takes no further one. -/
def runSteps : Nat → State → Host.Outcome State Fault Refusal
  | 0, s => .next s
  | n + 1, s =>
    match globalStep s with
    | .next t => runSteps n t
    | .fault f => .fault f
    | .refused r => .refused r

/-- The façade's answer in a state (R356). -/
def runResult (s : State) : RunResult :=
  match s.status with
  | .running => .stillRunning
  | .completed => .completed s.cycle
  | .error c e => .failed s.cycle c e
  | .fault f => .faulted f

/-- What the façade shows of a state (R20): the answer of `run`, the cycle count of R355 whatever that
answer is, the registers and the memory view of `register_and_memory_state`, and the counters. -/
structure Observation where
  /-- the outcome (R356) -/
  result : RunResult
  /-- the reported cycle count (R355); of a faulted run the count before the step that faulted, which
  is not counted (R340) -/
  cycles : Nat
  registers : List Regs
  memory : List Byte
  counters : List Counters
deriving DecidableEq, Repr

/-- The observation of a state. -/
def State.observe (s : State) : Observation where
  result := runResult s
  cycles := s.cycle
  registers := (registerAndMemoryState s).1
  memory := (registerAndMemoryState s).2
  counters := instrumentationCounters s

/-- `run(program)` (R356) with a fuel of `n` steps, and what the façade shows after it; a run that is
refused shows nothing. -/
def runProgram (n : Nat) (s : State) : RunResult × Option Observation :=
  match runSteps n s with
  | .next t => (runResult t, some t.observe)
  | .fault f => (.faulted f, none)
  | .refused r => (.refused r, none)

end Sys2Proof.Machine
end

