-- ==== Sys2Proof/Machine/Step.lean ====
section
/-! DEFINITION. The step of the machine: one global step, one cycle of every core (R340). -/

namespace Sys2Proof.Machine

/-- One global step (R340). -/
def step (s : State) : Host.Outcome State Fault Refusal := globalStep s

/-- The machine in which the next step runs the instruction of the header word `w`
(notes/assumptions/4.md). -/
def State.withFetchWord (s : State) (nbits w : Nat) : State := placeWord s nbits w

end Sys2Proof.Machine
end

