-- ==== Sys2Proof/Safety.lean ====
section
/-! DEFINITION. The terms the statements use: when a meaning is ready to run (R224, R225), what an
execution leaves on its core (R225 to R238), the invariants of R55 as propositions, the canonical
forms of the state, and sound line stores. -/

namespace Sys2Proof.Machine

/-! ### An instruction about to run -/

/-- The read and write addresses of the work item in focus. -/
def focusReads (s : State) (f : Focus) : List Word := readAddrs s.cfg f.work (s.core f.core).x

/-- The addresses the work item in focus may write. -/
def focusWrites (s : State) (f : Focus) : List Word := writeAddrs s.cfg f.work (s.core f.core).x

/-- The oracle's answer for the work item in focus, given these bytes (R225). -/
def focusAnswer (s : State) (f : Focus) (got : ByteMap) : OracleOut :=
  oracleExec s.cfg.byteOrder f.work.run.desc.ops (viewOf f.work (s.core f.core).x)
    (s.input f.core).labels f.work.run.pc (restrictBytes got (focusReads s f))

/-- The work item in focus has passed `start` (R224) and its instruction runs next, on the bytes
`got`: a LOAD has read its lines or names no address, a STORE's addresses are legal, and no class
names addresses it may not (R223). -/
def readyToRun (i : Instr) (s : State) (f : Focus) (got : ByteMap) : Prop :=
  s.focus = some f ∧
  match i with
  | .load _ _ =>
    focusWrites s f = [] ∧ (f.got = some got ∨ (f.got = none ∧ focusReads s f = [] ∧ got = []))
  | .store _ _ =>
    focusReads s f = [] ∧ firstIllegal s.cfg (focusWrites s f) = none ∧ got = []
  | .alu _ _ => focusReads s f = [] ∧ focusWrites s f = [] ∧ got = []
  | .cbr _ _ => focusReads s f = [] ∧ focusWrites s f = [] ∧ got = []
  | .jmp _ _ => focusReads s f = [] ∧ focusWrites s f = [] ∧ got = []
  | .ret _ _ => focusReads s f = [] ∧ focusWrites s f = [] ∧ got = []

/-- R223 (c), (d), (e) for an instruction's result. -/
def keepsContract (i : Instr) (s : State) (f : Focus) (o : ExecutionResult) : Prop :=
  (∀ q v, o.regChange = some (q, v) → q ∈ i.writes) ∧
  (∀ e ∈ o.memChange, e.1 ∈ focusWrites s f) ∧
  (isStore i = false → o.memChange = []) ∧
  (isCtl i = false → o.pcChange = none)

/-- No cell this producer would write is written already (R201, R228). -/
def deliverable (k : Core) (b : Seq) : Prop := ∀ l ∈ k.links, l.prod = b → l.cell = none

/-- The work item in focus runs to the result `o` (R225). -/
def runsTo (i : Instr) (s : State) (f : Focus) (got : ByteMap) (o : ExecutionResult) : Prop :=
  readyToRun i s f got ∧ focusAnswer s f got = .ok o ∧ keepsContract i s f o ∧
    deliverable (s.core f.core) f.work.run.seq

/-! ### What an execution leaves -/

/-- The links after the delivery of R228. -/
def deliveredLinks (k : Core) (b : Seq) (o : ExecutionResult) : List Link :=
  k.links.map (fun j =>
    if j.prod = b then { j with cell := some (forwardValue k.x j.reg o) } else j)

/-- A core after its instruction ran: the buffer entry is Executed, the forwarded value is delivered
and the unit holds the result. -/
def ranCore (f : Focus) (o : ExecutionResult) (k : Core) : Core :=
  { k with
    rob := robSetStatus k.rob f.work.run.seq .executed
    links := deliveredLinks k f.work.run.seq o
    eu := k.eu.set f.unit (.push f.work ⟨f.work.run.seq, .ok o⟩) }

/-- A core after its instruction erred (R226): the buffer entry is Executed, the expectation is
dropped and the unit holds the error. -/
def erredCore (f : Focus) (e : ProgramError) (k : Core) : Core :=
  { k with
    rob := robSetStatus k.rob f.work.run.seq .executed
    expect := assocErase f.work.run.seq k.expect
    eu := k.eu.set f.unit (.push f.work ⟨f.work.run.seq, .err e⟩) }

/-- A core without its branch expectation for an instruction (R253, R254). -/
def withoutExpect (b : Seq) (k : Core) : Core := { k with expect := assocErase b k.expect }

/-- The state after the unit in focus left this core and raised these flushes: everything else is as
before. -/
def ranState (s : State) (f : Focus) (k : Core) (fl : List Flush) : State :=
  { s.setCore f.core k with focus := none, raised := s.raised ++ fl }

/-! ### The invariants of R55 -/

/-- R55 (a). -/
def MsiExclusive (s : State) : Prop :=
  ∀ c d l, c < s.cfg.numCores → d < s.cfg.numCores → c ≠ d →
    s.dirGet c l = .m → s.dirGet d l = .i

/-- R55 (b). -/
def LinesAgree (s : State) : Prop :=
  ∀ c l, c < s.cfg.numCores → (lruContains (s.core c).l1d l = true ↔ s.dirGet c l ≠ .i)

/-- R55 (c). -/
def SemsExclusive (s : State) : Prop := ∀ l, (s.semGet l).writer = true → (s.semGet l).readers = 0

/-- R55 (d), R41, of one core. -/
def CountsAgree (k : Core) : Prop := ∀ q, q < NREGS → pwGet k.pw q = writersOf k.rob q

/-- R55 (e), of one core. -/
def WithinCaps (g : Cfg) (k : Core) : Prop :=
  k.rob.length ≤ g.robCap ∧ k.pendingQ.length ≤ g.pqCap ∧ k.freePhys ≤ g.nPhys

/-- R55, whole. -/
def BlockInvariant (s : State) : Prop :=
  MsiExclusive s ∧ LinesAgree s ∧ SemsExclusive s ∧
    ∀ k ∈ s.cores, CountsAgree k ∧ WithinCaps s.cfg k

/-! ### Canonical forms -/

/-- Every map of a core has rising keys, and its counts list no 0. -/
def CanonicalCore (k : Core) : Prop := canonical 0 k.pw = true ∧ keysRise k.expect = true

/-- Between steps: every map of the state is in canonical form, so that equal states are equal data,
and the model's own fields are empty. -/
def CanonicalState (s : State) : Prop :=
  s.mem.wf = true ∧ canonical Sem.free s.sem = true ∧ canonical [] s.dir = true ∧
    (∀ row ∈ s.dir, canonical Msi.i row.2 = true) ∧ (∀ k ∈ s.cores, CanonicalCore k) ∧
    s.focus = none ∧ s.raised = []

/-! ### Line stores -/

/-- A line store whose entries are whole aligned lines, one for each line. -/
def SoundStore (g : Cfg) (st : LruStore (List Byte)) : Prop :=
  (st.map Prod.fst).Nodup ∧ ∀ e ∈ st, lineOf g.lineSize e.1 = e.1 ∧ e.2.length = g.lineSize

/-- The lines a core asks for are whole lines: that of its request, those its units still have to
read (R224), and those the store being committed still has to write (R273). -/
def AsksForLines (g : Cfg) (k : Core) : Prop :=
  (∀ r, k.req = some r → lineOf g.lineSize r.line = r.line) ∧
  (∀ w todo got, EuState.memRd w todo got ∈ k.eu → ∀ l ∈ todo, lineOf g.lineSize l = l) ∧
  ∀ p, k.sprog = some p → ∀ l ∈ p.todo, lineOf g.lineSize l = l

/-- Every line store of the machine is sound, lines are not empty, there is no line in a shared cache
that is absent, and every core asks for whole lines. -/
def SoundStores (s : State) : Prop :=
  0 < s.cfg.lineSize ∧ SoundStore s.cfg s.l3 ∧ (s.cfg.l3Lines = 0 → s.l3 = []) ∧
    ∀ c, SoundStore s.cfg (s.core c).l1d ∧ AsksForLines s.cfg (s.core c)

/-! ### Issue (43) -/

/-- No STOP of R189 applies to a scan: no control instruction has issued in this cycle, and the width,
IE and the retirement buffer have room. -/
def StopsPassed (g : Cfg) (sc : Scan) : Prop :=
  sc.ctlIssued = false ∧ sc.issued ≠ g.issueWidth ∧ sc.core.ie.entry.length < g.busCap ∧
    sc.core.rob.length ≠ g.robCap

/-- No HOLD of R190 to R193 applies to a runner: no control instruction behind an older unissued one, a
RET with nothing outstanding, no register conflict with a runner skipped, and memory instructions in
program order. -/
def HoldsPassed (sc : Scan) (r : Runner) : Prop :=
  (3 ≤ r.desc.instr.code → sc.skipped = []) ∧
  (r.desc.instr.code = 5 → sc.core.rob = []) ∧
  (∀ p ∈ sc.skipped, ∀ q,
    ¬(q ∈ r.desc.instr.reads ∧ q ∈ p.desc.instr.writes) ∧
    ¬(q ∈ r.desc.instr.writes ∧ q ∈ p.desc.instr.writes) ∧
    ¬(q ∈ r.desc.instr.writes ∧ q ∈ p.desc.instr.reads)) ∧
  (r.desc.instr.code = 1 ∨ r.desc.instr.code = 2 →
    (∀ p ∈ sc.skipped, p.desc.instr.code ≠ 1 ∧ p.desc.instr.code ≠ 2) ∧
    ∀ e ∈ sc.core.rob, e.seq < r.seq →
      ¬(e.desc.instr.code = 1 ∧ e.status = .issued) ∧ e.desc.instr.code ≠ 2)

/-- A scan after a runner was granted and its core became `k` (R198). -/
def scanAfter (sc : Scan) (r : Runner) (k : Core) : Scan :=
  { sc with
    core := k
    issued := sc.issued + 1
    ctlIssued := sc.ctlIssued || decide (3 ≤ r.desc.instr.code) }

/-- What an issue step leaves at `done` (R187). -/
def issueEnd (sc : Scan) : Core :=
  { sc.core with
    prevIssued := sc.core.curIssued
    stallCount := sc.core.stallCount + if sc.held then 1 else 0 }

/-! ### Requests -/

/-- The phase in which a request of core c on line l enters Access, by the table of R304. -/
def accessPhase (s : State) (c : CoreId) (l : LineAddr) : Phase :=
  if s.dirGet c l ≠ .i then .access s.cfg.l1Lat .l1
  else if ∃ e ∈ s.l3, e.1 = l then .access s.cfg.l3Lat .l3
  else .access s.cfg.memLat .mem

/-- A WRITE on a line its core holds Shared finds a peer Modified (R311). -/
def modifiedBesideShared (s : State) (c : CoreId) (r : ReqState) : Prop :=
  r.kind = .write ∧ s.dirGet c r.line = .s ∧
    ∃ d, d < s.cfg.numCores ∧ d ≠ c ∧ s.dirGet d r.line = .m

/-- A completion of R303 or R305 has what it needs: its lock is held, a line served by the L1D is
there, and no peer holds a line to be written. -/
def readyToComplete (s : State) (c : CoreId) (r : ReqState) (src : Source) : Prop :=
  (∃ m v, r.mode = some m ∧ (s.semGet r.line).release m = .ok v) ∧
  (src = .l1 → lruContains (s.core c).l1d r.line = true) ∧
  (r.kind = .write → ∀ d, d < s.cfg.numCores → d ≠ c → s.dirGet d r.line = .i)

/-- A Shared copy equals the memory view (R86). -/
def SharedAgree (s : State) : Prop :=
  ∀ c l, c < s.cfg.numCores → s.dirGet c l = .s →
    ∃ d, lruFind (s.core c).l1d l = some d ∧
      ∀ a, lineOf s.cfg.lineSize a = l → lineByte (some d) (a - l) = s.memView a

/-! ### The coherence protocol (R300, R302, R306) -/

/-- The lock a core's request holds on a line (R300). -/
def lockHeld (k : Core) (l : LineAddr) : Option LockMode :=
  match k.req with
  | none => none
  | some r => if r.line = l then r.mode else none

/-- The number of cores whose request holds a lock of a mode on a line. -/
def holders (s : State) (l : LineAddr) (m : LockMode) : Nat :=
  (s.cores.filter (fun k => decide (lockHeld k l = some m))).length

/-- The semaphores count the locks the requests hold (R36, R300). -/
def LocksCounted (s : State) : Prop :=
  ∀ l, (s.semGet l).readers = holders s l .read ∧
    holders s l .write = if (s.semGet l).writer then 1 else 0

/-- Where a request of core c stands in the protocol: it holds a lock exactly when it has left Locking,
a WRITE holds the write lock, its data has been taken when it finished, a peer that is still Modified
has a pending command it waits for (R302), and a READ that fetches the line has no Modified peer
(R306). -/
def RequestSound (s : State) (c : CoreId) (r : ReqState) : Prop :=
  (r.phase = .locking ↔ r.mode = none) ∧
  (r.kind = .write → ∀ m, r.mode = some m → m = .write) ∧
  (∀ data, r.phase ≠ .finished data) ∧
  (∀ keys, r.phase = .waiting keys → ∀ d, d < s.cfg.numCores → d ≠ c →
    s.dirGet d r.line = .m →
    ∃ k ∈ keys, k.target = d ∧ k.line = r.line ∧ cmdFind k s.cmds = some .pending) ∧
  ∀ n src, r.phase = .access n src → r.kind = .read → src ≠ .l1 →
    ∀ d, d < s.cfg.numCores → d ≠ c → s.dirGet d r.line ≠ .m

/-- With data caches, the locks are counted and every core's request stands in the protocol. -/
def ProtocolSound (s : State) : Prop :=
  s.cfg.l1dPresent = true →
    LocksCounted s ∧ ∀ c r, (s.core c).req = some r → RequestSound s c r

/-! ### Work in flight -/

/-- R349: nothing in flight on the core is younger than `b`. -/
def OnlyUpTo (b : Seq) (k : Core) : Prop :=
  (∀ e ∈ k.rob, e.seq ≤ b) ∧
  (∀ r ∈ k.di.entry ++ k.di.buffer ++ k.di.visible, r.seq ≤ b) ∧
  (∀ it ∈ k.ie.entry ++ k.ie.buffer ++ k.ie.visible, it.run.seq ≤ b) ∧
  (∀ res ∈ k.ew.entry ++ k.ew.buffer ++ k.ew.visible, res.seq ≤ b) ∧
  (∀ r ∈ k.pendingQ, r.seq ≤ b) ∧
  (∀ e ∈ k.eu, ∀ q, e.seq? = some q → q ≤ b) ∧
  (∀ l ∈ k.links, l.prod ≤ b ∧ l.cons ≤ b) ∧
  (∀ e ∈ k.expect, e.1 ≤ b)

/-- The retirement buffer in ascending seq (R47). -/
def Ascending (rob : List RobEntry) : Prop := rob.Pairwise (fun a b => a.seq ≤ b.seq)

/-- The runners that have been decoded and have not issued (R267). -/
def unissued (k : Core) : List Runner := k.pendingQ ++ k.di.visible ++ k.di.buffer ++ k.di.entry

/-- The instructions of a core from decode to commit: each has a sequence ID of its own below
`nextSeq` (R172) and a well-formed descriptor (R104), the buffer is in ascending seq (R47), and the
free rename slots and the slots the buffer holds are NPHYS together (R45, R349). -/
def SoundWork (g : Cfg) (k : Core) : Prop :=
  (k.rob.map (fun e => e.seq) ++ (unissued k).map (fun r => r.seq)).Nodup ∧
  (∀ e ∈ k.rob, e.seq < k.nextSeq ∧ e.desc.instr.wf = true) ∧
  (∀ r ∈ unissued k, r.seq < k.nextSeq ∧ r.desc.instr.wf = true) ∧
  Ascending k.rob ∧ k.freePhys + heldSlots k.rob = g.nPhys

/-- The buffer has the entry of a sequence ID in a status. -/
def entryIs (k : Core) (b : Seq) (st : RobStatus) : Prop := ∃ e ∈ k.rob, e.seq = b ∧ e.status = st

/-- The sequence IDs from issue to the drain: on IE, in the execute units and on EW. -/
def issuedSeqs (k : Core) : List Seq :=
  (k.ie.entry ++ k.ie.buffer ++ k.ie.visible).map (fun it => it.run.seq)
    ++ k.eu.filterMap EuState.seq? ++ (k.ew.entry ++ k.ew.buffer ++ k.ew.visible).map (fun v => v.seq)

/-- The instructions between issue and the drain stand in one place each, and the buffer knows them:
Issued on IE and in a unit until they run, Executed from then on (R47, R221, R225). A store under way
is the commit head and is completed (R268, R276). -/
def InFlightSound (k : Core) : Prop :=
  (issuedSeqs k).Nodup ∧
  (∀ it ∈ k.ie.entry ++ k.ie.buffer ++ k.ie.visible, entryIs k it.run.seq .issued) ∧
  (∀ w, EuState.waitFwd w ∈ k.eu → entryIs k w.run.seq .issued) ∧
  (∀ w todo got, EuState.memRd w todo got ∈ k.eu → entryIs k w.run.seq .issued) ∧
  (∀ w v, EuState.push w v ∈ k.eu → v.seq = w.run.seq ∧ entryIs k w.run.seq .executed) ∧
  (∀ v ∈ k.ew.entry ++ k.ew.buffer ++ k.ew.visible, entryIs k v.seq .executed) ∧
  ∀ p, k.sprog = some p →
    ∃ h o, commitHead k = some h ∧ h.seq = p.seq ∧ h.status = .completed (.ok o)

/-- What the units keep of themselves, with R55 among it and without asking for it after a step. -/
def ProtocolInvariant (s : State) : Prop :=
  CanonicalState s ∧ BlockInvariant s ∧ SoundStores s ∧ (∀ k ∈ s.cores, SoundWork s.cfg k) ∧
    ProtocolSound s

/-- What becomes of a core's controller request in a flush with boundary `b` (R240, R307): the request
of a unit whose instruction is younger is gone and its lock is released in its mode, every other
request and every other lock stays. -/
def requestAfterFlush (c : CoreId) (b : Seq) (s t : State) : Prop :=
  (∀ r i e q, (s.core c).req = some r → r.who = .eu i → (s.core c).eu[i]? = some e →
    e.seq? = some q → b < q →
    (t.core c).req = none ∧
      (∀ m, r.mode = some m → (s.semGet r.line).release m = .ok (t.semGet r.line)) ∧
      (r.mode = none → t.sem = s.sem) ∧ ∀ l, l ≠ r.line → t.semGet l = s.semGet l) ∧
  ((∀ r i e q, (s.core c).req = some r → r.who = .eu i → (s.core c).eu[i]? = some e →
    e.seq? = some q → q ≤ b) →
    (t.core c).req = (s.core c).req ∧ t.sem = s.sem)

/-- A core that is the same but for its fetch unit, branch unit, decode flag, buffer, links, units and
request: what an execution never touches. -/
def sameBesideExecution (k k' : Core) : Prop :=
  k'.x = k.x ∧ k'.pw = k.pw ∧ k'.l1i = k.l1i ∧ k'.di = k.di ∧ k'.ie = k.ie ∧ k'.ew = k.ew ∧
  k'.nextSeq = k.nextSeq ∧ k'.pendingQ = k.pendingQ ∧ k'.prevIssued = k.prevIssued ∧
  k'.curIssued = k.curIssued ∧ k'.freePhys = k.freePhys ∧ k'.l1d = k.l1d ∧ k'.sprog = k.sprog ∧
  k'.done = k.done ∧ k'.fwdCount = k.fwdCount ∧ k'.stallCount = k.stallCount ∧
  k'.flushCount = k.flushCount ∧
  k'.rob.map (fun e => (e.seq, e.pc, e.desc, e.slots))
    = k.rob.map (fun e => (e.seq, e.pc, e.desc, e.slots))

end Sys2Proof.Machine
end

