-- ==== Sys2Proof/Certificates/Slice0/Obligations.lean ====
section
/-! DEFINITION. The statements for the provers, in the order of the spec's files: encoding, the bus and
the front end, issue, the instruction classes, the branch unit, commit, memory and coherence, flush,
the global step and reset. -/

open Sys2Proof Sys2Proof.Machine

/-! ### Encoding (30_encoding.md) -/

/-- R103: the header word of every well-formed instruction of header form decodes to it. -/
def Obligations.EncodedHeaderDecodesToItsInstruction : Prop :=
  ∀ i : Instr, i.wf = true → i.hasHeader = true →
    ∃ h, encodeHeader i = some h ∧ decodeHeader h = .ok i

/-- R103, R104: a header word the decoder reads is the word of a well-formed instruction, so each
instruction has one word. -/
def Obligations.DecodedHeaderEncodesBackToItself : Prop :=
  ∀ (h : BitVec 32) (i : Instr), decodeHeader h = .ok i →
    i.wf = true ∧ i.hasHeader = true ∧ encodeHeader i = some h

/-- R103: where the table puts each field of a header word, and that larger register sets have none. -/
def Obligations.HeaderFieldsStandWhereTheTableSays : Prop :=
  (∀ (i : Instr) (h : BitVec 32), encodeHeader i = some h →
    headerField h 0 3 = i.code ∧
    (match i.writes[0]? with
      | some q => headerField h 3 1 = 1 ∧ headerField h 4 5 = q
      | none => headerField h 3 1 = 0 ∧ headerField h 4 5 = 0) ∧
    (match i.reads[0]? with
      | some q => headerField h 9 1 = 1 ∧ headerField h 10 5 = q
      | none => headerField h 9 1 = 0 ∧ headerField h 10 5 = 0) ∧
    (match i.reads[1]? with
      | some q => headerField h 15 1 = 1 ∧ headerField h 16 5 = q
      | none => headerField h 15 1 = 0 ∧ headerField h 16 5 = 0) ∧
    headerField h 21 11 = 0) ∧
  ∀ i : Instr, 2 < i.reads.length ∨ 1 < i.writes.length → encodeHeader i = none

/-- 95_test_vectors.md: one header word of each class, read by the decoder. -/
def Obligations.SampleHeaderWordsDecode : Prop :=
  decodeHeader 0x00000628 = .ok (.alu [1] [2]) ∧
  decodeHeader 0x00000219 = .ok (.load [0] [1]) ∧
  decodeHeader 0x00028202 = .ok (.store [0, 2] []) ∧
  decodeHeader 0x00018203 = .ok (.cbr [0, 1] []) ∧
  decodeHeader 0x0000005C = .ok (.jmp [] [5]) ∧
  decodeHeader 0x00000005 = .ok (.ret [] [])

/-- R117: class codes 6 and 7 and any header with `rsv ≠ 0` are no instruction, and a program that holds
one has no run. The refusal is DESC, of that core and index, when nothing else is ill-formed. That the
step refuses, and does so at every step of a running machine, is the model's place for the refusal of
R117 and R367 (DESIGN CHOICE, notes/assumptions/14.md). -/
def Obligations.IllegalHeaderRefusesTheRun : Prop :=
  ∀ (h : BitVec 32),
    headerField h 0 3 = 6 ∨ headerField h 0 3 = 7 ∨ headerField h 21 11 ≠ 0 →
    (∀ i, decodeHeader h ≠ .ok i) ∧
    ∀ (s : State) (c n : Nat) (inp : CoreInput) (ops : Oracle), s.status = .running →
      s.inputs[c]? = some inp → inp.prog[n]? = some ⟨.header h, ops⟩ →
      (∃ r, step s = .refused r) ∧
      (s.cfg.wf = true → s.shaped = true →
        (∀ j ∈ s.inputs, programWf s.cfg j.prog.length j.entry = true) →
        (∀ d m j e, s.inputs[d]? = some j → j.prog[m]? = some e → (d, m) ≠ (c, n) →
          e.descriptor?.isSome = true) →
        step s = .refused (.descriptor c n))

/-! ### Buses and the front end (40 to 42) -/

/-- R133, R138, on each of the four buses: a connect keeps the age order of the values (visible, then buffer, then entry) and the
capacity of every position; a value waits in the buffer or in entry only when the visible position is
full, and in entry only when the buffer is full too. So a value added to a bus is not visible before the
next connect, and is visible after it when the visible position has a free slot left for it; after
`clean` the bus is empty. -/
def Obligations.BusMovesValuesInAgeOrder : Prop :=
  ∀ (α : Type) (cap : Nat) (b : Bus α),
    (b.connect cap).visible ++ (b.connect cap).buffer ++ (b.connect cap).entry
      = b.visible ++ b.buffer ++ b.entry ∧
    (b.visible.length ≤ cap → (b.connect cap).visible.length ≤ cap) ∧
    (b.buffer.length ≤ cap → (b.connect cap).buffer.length ≤ cap) ∧
    (b.entry.length ≤ cap → (b.connect cap).entry.length ≤ cap) ∧
    ((b.connect cap).buffer ≠ [] ∨ (b.connect cap).entry ≠ [] →
      cap ≤ (b.connect cap).visible.length) ∧
    ((b.connect cap).entry ≠ [] → cap ≤ (b.connect cap).buffer.length) ∧
    b.clean.isEmpty = true ∧
    ∀ (v : α) (b' : Bus α), b.add cap v = .ok b' →
      b'.visible = b.visible ∧
      (b.visible.length + b.buffer.length + b.entry.length < cap →
        (b'.connect cap).visible = b.visible ++ b.buffer ++ b.entry ++ [v])

/-- R153, R159, at width 1: fetch that is complete does nothing; at the end of the program it becomes
complete; a hit pushes its address in its cycle; a miss waits the memory latency, counts it down, and
then installs the line and pushes the address; a full FD holds a hit back. -/
def Obligations.FetchPushesHitsAndWaitsForMisses : Prop :=
  ∀ (g : Cfg) (size : Nat) (k : Core), g.fetchWidth = 1 →
    (k.complete = true → fetchStep g size k = .ok k) ∧
    (k.complete = false →
      (k.fstate = .idle → endPc g size ≤ k.pc.toNat →
        fetchStep g size k = .ok { k with complete := true }) ∧
      (k.fstate = .idle → k.pc.toNat < endPc g size → lruContains k.l1i (lineI g k.pc) = false →
        fetchStep g size k = .ok { k with fstate := .miss g.memLat }) ∧
      (k.fstate = .idle → k.pc.toNat < endPc g size → lruContains k.l1i (lineI g k.pc) = true →
        g.busCap ≤ k.fd.entry.length → fetchStep g size k = .ok k) ∧
      (∀ n, k.fstate = .miss n → 1 < n →
        fetchStep g size k = .ok { k with fstate := .miss (n - 1) }) ∧
      ((k.fstate = .idle ∧ lruContains k.l1i (lineI g k.pc) = true) ∨
          (∃ n, k.fstate = .miss n ∧ n ≤ 1) →
        k.pc.toNat < endPc g size → k.fd.entry.length < g.busCap →
        ∃ t, fetchStep g size k = .ok t ∧ t.fstate = .idle ∧
          t.fd = { k.fd with entry := k.fd.entry ++ [k.pc] } ∧
          t.pc = k.pc + BitVec.ofNat 32 g.iw ∧ lruContains t.l1i (lineI g k.pc) = true ∧
          t.complete = decide (endPc g size ≤ t.pc.toNat) ∧
          t = { k with fstate := t.fstate, fd := t.fd, pc := t.pc, l1i := t.l1i, complete := t.complete }))

/-- R170 to R173: the decode unit hands the instruction that the decoder reads from the header word at
the fetched address to DI with the next sequence ID, and sets the flag exactly for a JMP or a RET;
while the flag is set it decodes nothing. -/
def Obligations.DecodeUnitHandsOverTheDecodedHeader : Prop :=
  (∀ (g : Cfg) (c : CoreId) (prog : List ProgEntry) (n : Nat) (k : Core) (a : Word)
    (rest : List Word) (h : BitVec 32) (ops : Oracle) (i : Instr),
    k.pendingBranch = false → k.fd.visible = a :: rest → k.di.entry.length < g.busCap →
    prog[a.toNat / g.iw]? = some ⟨.header h, ops⟩ → decodeHeader h = .ok i →
    decodeLoop g c prog (n + 1) k = decodeLoop g c prog n
      { k with
        fd := { k.fd with visible := rest }
        di := { k.di with entry := k.di.entry ++ [⟨⟨i, ops⟩, a, k.nextSeq⟩] }
        nextSeq := k.nextSeq + 1
        pendingBranch := decide (i.code = 4 ∨ i.code = 5) }) ∧
  ∀ (g : Cfg) (c : CoreId) (prog : List ProgEntry) (k : Core), k.pendingBranch = true →
    decodeStep g c prog k = .ok k

/-! ### Issue (43) -/

/-- R194 to R196: what the pending-write counts, the buffer and the links are like when a runner issues
plainly, with a forwarded value or renamed; a read-after-write conflict is never renamed. And a runner
that passed every stop and hold does issue where they are so: plainly with no conflict, with a
forwarded value on one read-after-write conflict that qualifies, renamed on write-after-write conflicts
alone with slots enough. -/
def Obligations.IssueGrantsRespectRegisterHazards : Prop :=
  (∀ (g : Cfg) (sc : Scan) (r : Runner) (gr : Grant), verdict g sc r = .issue gr →
    (gr = .plain →
      (∀ q ∈ r.desc.instr.reads, pwGet sc.core.pw q = 0) ∧
      ∀ q ∈ r.desc.instr.writes, pwGet sc.core.pw q = 0) ∧
    (∀ p q, gr = .fwd p q →
      g.fwdEnabled = true ∧ q ∈ r.desc.instr.reads ∧ pwGet sc.core.pw q = 1 ∧
      (∀ j ∈ r.desc.instr.reads, j ≠ q → pwGet sc.core.pw j = 0) ∧
      (∀ j ∈ r.desc.instr.writes, pwGet sc.core.pw j = 0) ∧
      (∃ e ∈ sc.core.rob, e.seq = p ∧ q ∈ e.desc.instr.writes ∧ e.status = .issued) ∧
      p ∈ sc.core.prevIssued ∧ ∀ l ∈ sc.core.links, l.prod ≠ p) ∧
    (gr = .rename →
      g.renameEnabled = true ∧ (∀ q ∈ r.desc.instr.reads, pwGet sc.core.pw q = 0) ∧
      (∃ q ∈ r.desc.instr.writes, 0 < pwGet sc.core.pw q) ∧
      r.desc.instr.writes.length ≤ sc.core.freePhys)) ∧
  ∀ (g : Cfg) (sc : Scan) (r : Runner), StopsPassed g sc → HoldsPassed sc r →
    ((∀ q ∈ r.desc.instr.reads, pwGet sc.core.pw q = 0) →
      (∀ q ∈ r.desc.instr.writes, pwGet sc.core.pw q = 0) → verdict g sc r = .issue .plain) ∧
    (∀ (p : RobEntry) (q : RegId), g.fwdEnabled = true → r.desc.instr.reads.Nodup →
      q ∈ r.desc.instr.reads → pwGet sc.core.pw q = 1 →
      (∀ j ∈ r.desc.instr.reads, j ≠ q → pwGet sc.core.pw j = 0) →
      (∀ j ∈ r.desc.instr.writes, pwGet sc.core.pw j = 0) →
      p ∈ sc.core.rob → q ∈ p.desc.instr.writes →
      (∀ e ∈ sc.core.rob, q ∈ e.desc.instr.writes → e = p) → p.status = .issued →
      p.seq ∈ sc.core.prevIssued → (∀ l ∈ sc.core.links, l.prod ≠ p.seq) →
      verdict g sc r = .issue (.fwd p.seq q)) ∧
    (g.renameEnabled = true → (∀ q ∈ r.desc.instr.reads, pwGet sc.core.pw q = 0) →
      (∃ q ∈ r.desc.instr.writes, 0 < pwGet sc.core.pw q) →
      r.desc.instr.writes.length ≤ sc.core.freePhys → verdict g sc r = .issue .rename)

/-- R189 to R193: a runner that issues passed every stop and every hold: no control instruction passes
an older unissued one, a RET issues with nothing outstanding, no runner passes one it conflicts with,
and memory instructions keep program order. The verdict is STOP exactly where a stop applies, and one
that no stop but a hold applies to is HOLD. -/
def Obligations.IssuedRunnerPassedEveryHold : Prop :=
  (∀ (g : Cfg) (sc : Scan) (r : Runner),
    (verdict g sc r = .stop ↔ ¬StopsPassed g sc) ∧
    (StopsPassed g sc → ¬HoldsPassed sc r → verdict g sc r = .hold)) ∧
  ∀ (g : Cfg) (sc : Scan) (r : Runner) (gr : Grant), verdict g sc r = .issue gr →
    sc.ctlIssued = false ∧ sc.issued ≠ g.issueWidth ∧ sc.core.ie.entry.length < g.busCap ∧
    sc.core.rob.length ≠ g.robCap ∧
    (3 ≤ r.desc.instr.code → sc.skipped = []) ∧
    (r.desc.instr.code = 5 → sc.core.rob = []) ∧
    (∀ p ∈ sc.skipped, ∀ q,
      ¬(q ∈ r.desc.instr.reads ∧ q ∈ p.desc.instr.writes) ∧
      ¬(q ∈ r.desc.instr.writes ∧ q ∈ p.desc.instr.writes) ∧
      ¬(q ∈ r.desc.instr.writes ∧ q ∈ p.desc.instr.reads)) ∧
    (r.desc.instr.code = 1 ∨ r.desc.instr.code = 2 →
      (∀ p ∈ sc.skipped, p.desc.instr.code ≠ 1 ∧ p.desc.instr.code ≠ 2) ∧
      ∀ e ∈ sc.core.rob, e.seq < r.seq →
        ¬(e.desc.instr.code = 1 ∧ e.status = .issued) ∧ e.desc.instr.code ≠ 2)

/-- R198: what issuing a runner does: the IE bus, the retirement buffer in its order, the pending-write
counts, the rename slots, the link and its count, the issued set, and the scan's own counts; nothing
else of the core changes. -/
def Obligations.IssueRecordsTheInstruction : Prop :=
  ∀ (g : Cfg) (gr : Grant) (r : Runner) (k : Core), k.ie.entry.length < g.busCap →
    ∃ t, doIssue g gr r k = .ok t ∧
      t.ie = { k.ie with entry := k.ie.entry ++ [⟨r, gr.forward⟩] } ∧
      gr.forward = (match gr with
        | .fwd p q => some (p, q)
        | .plain => none
        | .rename => none) ∧
      t.rob.Perm
        (⟨r.seq, r.pc, r.desc, .issued, if gr = .rename then r.desc.instr.writes.length else 0⟩
          :: k.rob) ∧
      (Ascending k.rob → Ascending t.rob) ∧
      (∀ q, pwGet t.pw q = pwGet k.pw q + r.desc.instr.writes.count q) ∧
      t.freePhys = k.freePhys - (if gr = .rename then r.desc.instr.writes.length else 0) ∧
      (∀ p q, gr = .fwd p q →
        t.links = k.links ++ [⟨p, r.seq, q, none⟩] ∧ t.fwdCount = k.fwdCount + 1) ∧
      ((∀ p q, gr ≠ .fwd p q) → t.links = k.links ∧ t.fwdCount = k.fwdCount) ∧
      t.curIssued = k.curIssued ++ [r.seq] ∧
      (∀ sc : Scan, (sc.granted r t).issued = sc.issued + 1 ∧
        ((sc.granted r t).ctlIssued = true ↔ sc.ctlIssued = true ∨ 3 ≤ r.desc.instr.code)) ∧
      t = { k with
        ie := t.ie
        rob := t.rob
        pw := t.pw
        freePhys := t.freePhys
        links := t.links
        fwdCount := t.fwdCount
        curIssued := t.curIssued }

/-- R187, R188: what the issue step does on each verdict. In phase 1, over the pending queue: STOP ends
the step; a held runner stays pending and the scan goes on; a granted one leaves the queue and is issued
(R198). In phase 2, over DI: STOP and an empty DI end the step; a held runner moves to the end of the
pending queue when that has room, else it stays on DI, and the step ends; a granted one leaves DI and is
issued. The step is phase 1 and, unless that stopped, phase 2; then what was issued is remembered, and a
step that held a runner is counted. So a runner held at the head of DI, with nothing pending, only moves
to the queue. -/
def Obligations.IssueStepActsOnEachVerdict : Prop :=
  (∀ (g : Cfg) (sc : Scan) (r : Runner) (rest : List Runner),
    (verdict g sc r = .stop → issuePending g (r :: rest) sc = .ok (sc, true)) ∧
    (verdict g sc r = .hold → issuePending g (r :: rest) sc
      = issuePending g rest { sc with skipped := sc.skipped ++ [r], held := true }) ∧
    (∀ gr front back k, verdict g sc r = .issue gr → sc.core.pendingQ = front ++ r :: back →
      (∀ e ∈ front, e.seq ≠ r.seq) →
      doIssue g gr r { sc.core with pendingQ := front ++ back } = .ok k →
      issuePending g (r :: rest) sc = issuePending g rest (scanAfter sc r k))) ∧
  (∀ (g : Cfg) (sc : Scan) (n : Nat) (r : Runner) (rest : List Runner),
    sc.core.di.visible = r :: rest →
    (verdict g sc r = .stop → issueFresh g (n + 1) sc = .ok sc) ∧
    (verdict g sc r = .hold → sc.core.pendingQ.length < g.pqCap → issueFresh g (n + 1) sc
      = .ok { sc with
          core := { sc.core with
            di := { sc.core.di with visible := rest }
            pendingQ := sc.core.pendingQ ++ [r] }
          held := true }) ∧
    (verdict g sc r = .hold → g.pqCap ≤ sc.core.pendingQ.length →
      issueFresh g (n + 1) sc = .ok { sc with held := true }) ∧
    (∀ gr k, verdict g sc r = .issue gr →
      doIssue g gr r { sc.core with di := { sc.core.di with visible := rest } } = .ok k →
      issueFresh g (n + 1) sc = issueFresh g n (scanAfter sc r k))) ∧
  (∀ (g : Cfg) (sc : Scan), issuePending g [] sc = .ok (sc, false) ∧
    ∀ n, sc.core.di.visible = [] → issueFresh g n sc = .ok sc) ∧
  (∀ (g : Cfg) (k : Core) (sc : Scan),
    issuePending g k.pendingQ ⟨{ k with curIssued := [] }, [], 0, false, false⟩ = .ok (sc, true) →
    issueStep g k = .ok (issueEnd sc)) ∧
  (∀ (g : Cfg) (k : Core) (sc sc2 : Scan),
    issuePending g k.pendingQ ⟨{ k with curIssued := [] }, [], 0, false, false⟩ = .ok (sc, false) →
    issueFresh g sc.core.di.visible.length sc = .ok sc2 →
    issueStep g k = .ok (issueEnd sc2)) ∧
  ∀ (g : Cfg) (k : Core) (r : Runner) (rest : List Runner), k.pendingQ = [] →
    k.di.visible = r :: rest → 1 ≤ g.pqCap →
    verdict g ⟨{ k with curIssued := [] }, [], 0, false, false⟩ r = .hold →
    issueStep g k = .ok { k with
      di := { k.di with visible := rest }
      pendingQ := [r]
      prevIssued := []
      curIssued := []
      stallCount := k.stallCount + 1 }

/-! ### The instruction classes (44) -/

/-- R230: an ALU runs in one step; its unit holds the oracle's result. -/
def Obligations.AluRunsAndHoldsItsResult : Prop :=
  ∀ (r w : List RegId) (s : State) (f : Focus) (o : ExecutionResult),
    runsTo (.alu r w) s f [] o →
    exec (.alu r w) s = .next (ranState s f (ranCore f o (s.core f.core)) [])

/-- R224, R227: a LOAD with legal addresses requests the first of its lines and waits with all of them
still to read. -/
def Obligations.LoadRequestsItsFirstLine : Prop :=
  ∀ (r w : List RegId) (s : State) (f : Focus) (l : LineAddr) (rest : List LineAddr),
    s.focus = some f → f.got = none → focusWrites s f = [] →
    firstIllegal s.cfg (focusReads s f) = none →
    linesOf s.cfg ((focusReads s f).map BitVec.toNat) = l :: rest →
    (s.core f.core).req = none →
    exec (.load r w) s = .next (ranState s f
      { s.core f.core with
        req := some ⟨.read, l, .eu f.unit, f.work.run.seq, [], none, .locking⟩
        eu := (s.core f.core).eu.set f.unit (.memRd f.work (l :: rest) []) } [])

/-- R231: a LOAD whose lines have been read, or that names no address, runs on the bytes of its
addresses alone, and its unit holds the result. That the addresses are those of the view when it runs
is the model's reading (DEDUCED, notes/assumptions/13.md). -/
def Obligations.LoadRunsOnTheBytesOfItsAddresses : Prop :=
  ∀ (r w : List RegId) (s : State) (f : Focus) (got : ByteMap) (o : ExecutionResult),
    runsTo (.load r w) s f got o →
    exec (.load r w) s = .next (ranState s f (ranCore f o (s.core f.core)) [])

/-- R232: a STORE runs in one step; its memory change rides in the result and no memory, cache or
directory changes. -/
def Obligations.StoreCarriesItsBytesToCommit : Prop :=
  ∀ (r w : List RegId) (s : State) (f : Focus) (o : ExecutionResult),
    runsTo (.store r w) s f [] o →
    exec (.store r w) s = .next (ranState s f (ranCore f o (s.core f.core)) [])

/-- R233: a CBR whose actual target is aligned flushes to it exactly when it is not the next
instruction; the expectation is consumed and the branch-target buffer is not touched. -/
def Obligations.ConditionalBranchFlushesWhenTaken : Prop :=
  ∀ (r w : List RegId) (s : State) (f : Focus) (o : ExecutionResult) (actual : Word),
    runsTo (.cbr r w) s f [] o →
    actual = (o.pcChange).getD (f.work.run.pc + BitVec.ofNat 32 s.cfg.iw) →
    actual.toNat % s.cfg.iw = 0 →
    exec (.cbr r w) s = .next (ranState s f
      (ranCore f o (withoutExpect f.work.run.seq (s.core f.core)))
      (if actual = f.work.run.pc + BitVec.ofNat 32 s.cfg.iw then []
        else [⟨f.work.run.seq, some actual⟩]))

/-- R234, R252, R255: a JMP with an aligned target records it in the branch-target buffer, leaves fetch
heading to it and decoding unblocked, and flushes unless the buffer had the right target. -/
def Obligations.JumpRecordsItsTargetAndRedirectsFetch : Prop :=
  ∀ (r w : List RegId) (s : State) (f : Focus) (o : ExecutionResult) (actual : Word),
    runsTo (.jmp r w) s f [] o →
    actual = (o.pcChange).getD (f.work.run.pc + BitVec.ofNat 32 s.cfg.iw) →
    actual.toNat % s.cfg.iw = 0 →
    exec (.jmp r w) s = .next (ranState s f
      (ranCore f o
        { withoutExpect f.work.run.seq (s.core f.core) with
          btb := btbRecord s.cfg.btbCap (s.core f.core).btb f.work.run.pc actual
          pendingBranch := false
          fd := Bus.empty
          pc := actual
          complete := false
          fstate := .idle })
      (if btbLookup (s.core f.core).btb f.work.run.pc = some actual then []
        else [⟨f.work.run.seq, some actual⟩]))

/-- R238: a RET that terminates only holds its result; one with a new pc flushes to it; one with
neither lets decoding resume. The expectation is dropped in each case. -/
def Obligations.ReturnTerminatesJumpsOrFallsThrough : Prop :=
  ∀ (r w : List RegId) (s : State) (f : Focus) (o : ExecutionResult),
    runsTo (.ret r w) s f [] o →
    (o.terminate = true →
      exec (.ret r w) s = .next (ranState s f
        (ranCore f o (withoutExpect f.work.run.seq (s.core f.core))) [])) ∧
    (∀ t, o.terminate = false → o.pcChange = some t → t.toNat % s.cfg.iw = 0 →
      exec (.ret r w) s = .next (ranState s f
        (ranCore f o (withoutExpect f.work.run.seq (s.core f.core)))
        [⟨f.work.run.seq, some t⟩])) ∧
    (o.terminate = false → o.pcChange = none →
      exec (.ret r w) s = .next (ranState s f
        (ranCore f o
          { withoutExpect f.work.run.seq (s.core f.core) with pendingBranch := false }) []))

/-- R226, R360: in every class an oracle error is recorded in the unit's result and raises a flush with
no target; registers, counts, links, the buffer's other parts and the branch-target buffer stay. -/
def Obligations.OracleErrorIsRecordedInEveryClass : Prop :=
  ∀ (i : Instr) (s : State) (f : Focus) (got : ByteMap) (e : OracleError),
    readyToRun i s f got → focusAnswer s f got = .err e →
    ∃ k, exec i s = .next (ranState s f k [⟨f.work.run.seq, none⟩]) ∧
      k.eu = (s.core f.core).eu.set f.unit (.push f.work ⟨f.work.run.seq, .err (.exec e)⟩) ∧
      k.rob = robSetStatus (s.core f.core).rob f.work.run.seq .executed ∧
      k.expect = assocErase f.work.run.seq (s.core f.core).expect ∧
      k.links = (s.core f.core).links ∧ k.btb = (s.core f.core).btb ∧
      k.req = (s.core f.core).req ∧ k.pendingBranch = (s.core f.core).pendingBranch ∧
      sameBesideExecution (s.core f.core) k

/-- R72, R224: a LOAD or a STORE with an address at or above MEM_SIZE records E_ADDR with the first
such address, submits no request and runs nothing. -/
def Obligations.IllegalAddressIsRecorded : Prop :=
  ∀ (r w : List RegId) (s : State) (f : Focus) (a : Word), s.focus = some f → f.got = none →
    (focusWrites s f = [] →
      (focusReads s f).find? (fun b => decide (s.cfg.memSize ≤ b.toNat)) = some a →
      exec (.load r w) s = .next (ranState s f (erredCore f (.addr a) (s.core f.core))
        [⟨f.work.run.seq, none⟩])) ∧
    (focusReads s f = [] →
      (focusWrites s f).find? (fun b => decide (s.cfg.memSize ≤ b.toNat)) = some a →
      exec (.store r w) s = .next (ranState s f (erredCore f (.addr a) (s.core f.core))
        [⟨f.work.run.seq, none⟩]))

/-- R236: a CBR, a JMP or a RET that does not terminate, whose actual target is no multiple of IW,
records E_ALIGN with the target (R226); there is no branch-target-buffer update and no redirection to
the target: fetch stays where it was, or for a JMP where the branch-target buffer sent it. -/
def Obligations.MisalignedTargetIsRecorded : Prop :=
  ∀ (i : Instr) (s : State) (f : Focus) (o : ExecutionResult) (t : Word),
    runsTo i s f [] o →
    (((i.code = 3 ∨ i.code = 4) ∧
        t = (o.pcChange).getD (f.work.run.pc + BitVec.ofNat 32 s.cfg.iw)) ∨
      (i.code = 5 ∧ o.terminate = false ∧ o.pcChange = some t)) →
    t.toNat % s.cfg.iw ≠ 0 →
    ∃ k, exec i s = .next (ranState s f k [⟨f.work.run.seq, none⟩]) ∧
      k.eu = (s.core f.core).eu.set f.unit (.push f.work ⟨f.work.run.seq, .err (.align t)⟩) ∧
      k.rob = robSetStatus (s.core f.core).rob f.work.run.seq .executed ∧
      k.btb = (s.core f.core).btb ∧
      k.expect = assocErase f.work.run.seq (s.core f.core).expect ∧
      k.pendingBranch = (s.core f.core).pendingBranch ∧
      (i.code ≠ 4 → k.pc = (s.core f.core).pc ∧ k.fd = (s.core f.core).fd) ∧
      (i.code = 4 → k.pc
        = (btbLookup (s.core f.core).btb f.work.run.pc).getD (s.core f.core).pc) ∧
      sameBesideExecution (s.core f.core) k

/-- R223: an oracle that breaks its contract faults F_ORACLE: addresses named by a class that may not
name them, a changed register outside W, a changed byte outside memWrite or by a class that is no
STORE, a new pc by a class that is no control class. That the address lists are checked at start,
before the oracle's answer, is the model's reading (DEDUCED, notes/assumptions/9.md). -/
def Obligations.BrokenOracleContractFaults : Prop :=
  (∀ (i : Instr) (s : State) (f : Focus), s.focus = some f → f.got = none →
    (isLoad i = false ∧ focusReads s f ≠ []) ∨ (isStore i = false ∧ focusWrites s f ≠ []) →
    exec i s = .fault .oracle) ∧
  ∀ (i : Instr) (s : State) (f : Focus) (got : ByteMap) (o : ExecutionResult),
    readyToRun i s f got → focusAnswer s f got = .ok o →
    (∃ q v, o.regChange = some (q, v) ∧ q ∉ i.writes) ∨
      (∃ e ∈ o.memChange, e.1 ∉ focusWrites s f) ∨
      (isStore i = false ∧ o.memChange ≠ []) ∨ (isCtl i = false ∧ o.pcChange ≠ none) →
    exec i s = .fault .oracle

/-- R228, R298: a second controller request faults F_UNREACH, and writing a forwarding cell twice
faults F_ORACLE; a meaning asked for while no unit holds a work item is refused (the last is the
model's own, notes/assumptions/3.md). -/
def Obligations.ImpossibleExecutionsStop : Prop :=
  (∀ (r w : List RegId) (s : State) (f : Focus) (q : ReqState) (l : LineAddr)
    (rest : List LineAddr), s.focus = some f → f.got = none → focusWrites s f = [] →
    firstIllegal s.cfg (focusReads s f) = none →
    linesOf s.cfg ((focusReads s f).map BitVec.toNat) = l :: rest →
    (s.core f.core).req = some q → exec (.load r w) s = .fault .unreach) ∧
  (∀ (i : Instr) (s : State) (f : Focus) (got : ByteMap) (o : ExecutionResult) (l : Link)
    (v : Word), readyToRun i s f got → focusAnswer s f got = .ok o → keepsContract i s f o →
    (s.core f.core).links.find? (fun j => decide (j.prod = f.work.run.seq)) = some l →
    l.cell = some v → exec i s = .fault .oracle) ∧
  ∀ (i : Instr) (s : State), s.focus = none → exec i s = .refused .noUnit

/-- R14, R235, R272: the frame of every class in the execute stage. Memory, caches of other cores, the
directory, the semaphores and the commands are as before, and so is every byte an address reads; no
register, no pending-write count and no queue of its own core changes; only a JMP touches fetch and
the branch-target buffer, only a JMP or a RET the decode flag, only a LOAD the controller request. -/
def Obligations.ExecutionTouchesNoArchitecturalState : Prop :=
  ∀ (i : Instr) (s t : State), exec i s = .next t →
    t.cfg = s.cfg ∧ t.inputs = s.inputs ∧ t.cycle = s.cycle ∧ t.status = s.status ∧
    t.mem = s.mem ∧ (∀ a, Memory.read t.mem a = Memory.read s.mem a) ∧ t.l3 = s.l3 ∧
    t.dir = s.dir ∧ t.sem = s.sem ∧ t.cmds = s.cmds ∧ (∀ a, t.memView a = s.memView a) ∧
    t.cores.length = s.cores.length ∧ t.focus = none ∧
    ∃ f, s.focus = some f ∧ (∀ c, c ≠ f.core → t.core c = s.core c) ∧
      sameBesideExecution (s.core f.core) (t.core f.core) ∧
      (i.code ≠ 4 →
        (t.core f.core).pc = (s.core f.core).pc ∧ (t.core f.core).fd = (s.core f.core).fd ∧
        (t.core f.core).complete = (s.core f.core).complete ∧
        (t.core f.core).fstate = (s.core f.core).fstate ∧
        (t.core f.core).btb = (s.core f.core).btb) ∧
      (i.code ≠ 4 → i.code ≠ 5 →
        (t.core f.core).pendingBranch = (s.core f.core).pendingBranch) ∧
      (i.code ≠ 1 → (t.core f.core).req = (s.core f.core).req)

/-- R76, R224, R286: the lines of an access are the distinct lines of its addresses in ascending
order. -/
def Obligations.AccessSplitsIntoAscendingLines : Prop :=
  ∀ (g : Cfg) (addrs : List Nat),
    (linesOf g addrs).Pairwise (· < ·) ∧
    ∀ l, l ∈ linesOf g addrs ↔ ∃ a ∈ addrs, l = a - a % g.lineSize

/-- R221, R341: a step runs the instruction its execute unit takes. For every core and unit: an idle
unit that finds a runner at the head of IE runs `exec` of its instruction on the state with the runner
taken and in focus, and then the rest of its step; a unit whose forwarded value has arrived runs its
instruction with that value over its register and its links gone (notes/assumptions/11.md); a unit that
reads memory waits until its line has arrived, then asks for the next one, and with the last one runs
its instruction on the bytes gathered. In a machine of one core and one unit the whole step is that
`exec` after fetch, decode, issue and snoop, followed by the flush, write-back, the end of the cycle and
the check of R55. -/
def Obligations.StepRunsTheInstructionTheUnitTakes : Prop :=
  (∀ (c : CoreId) (i : Nat) (s : State) (run : Runner) (rest : List Issued),
    s.euState c i = .idle → (s.core c).ie.visible = ⟨run, none⟩ :: rest →
    unitStep c i s = (do
      let t ← ofOutcome (exec run.desc.instr
        { s.setCore c { s.core c with ie := { (s.core c).ie with visible := rest } } with
          focus := some ⟨c, i, ⟨run, none, none⟩, none⟩ })
      unitFinish c i t)) ∧
  (∀ (c : CoreId) (i : Nat) (s : State) (w : Work) (l : Link) (v : Word),
    s.euState c i = .waitFwd w →
    (s.core c).links.find? (fun j => decide (j.cons = w.run.seq)) = some l → l.cell = some v →
    unitForward c i s = ofOutcome (exec w.run.desc.instr
      { s.setCore c
          { s.core c with
            links := (s.core c).links.filter (fun j => decide (j.cons ≠ w.run.seq)) } with
        focus := some ⟨c, i, { w with ov := some (l.reg, v) }, none⟩ })) ∧
  (∀ (c : CoreId) (i : Nat) (s s1 : State) (w : Work) (todo : List LineAddr) (got : ByteMap)
    (ph : Phase), s.euState c i = .memRd w todo got → poll c (.eu i) s = .ok (s1, ph) →
    ((∀ data, ph ≠ .finished data) → unitMemory c i s = .ok s1) ∧
    (∀ data, ph = .finished data → todo.tail = [] →
      unitMemory c i s = ofOutcome (exec w.run.desc.instr
        { setReq c none s1 with focus := some ⟨c, i, w, some (addBytes got data)⟩ })) ∧
    ∀ data l rest t, ph = .finished data → todo.tail = l :: rest → unitMemory c i s = .ok t →
      t.euState c i = .memRd w (l :: rest) (addBytes got data) ∧
      ∃ r, (t.core c).req = some r ∧ r.kind = .read ∧ r.line = l ∧ r.who = .eu i ∧
        r.seq = w.run.seq) ∧
  ∀ (s s1 : State) (run : Runner) (rest : List Issued), s.status = .running →
    loadRefusal s = none → s.cfg.numCores = 1 → s.cfg.nEu = 1 → (s.core 0).done = false →
    beforeExecute 0 s = .ok s1 → s1.euState 0 0 = .idle →
    (s1.core 0).ie.visible = ⟨run, none⟩ :: rest →
    step s = concludeStep s (do
      let t ← ofOutcome (exec run.desc.instr
        { s1.setCore 0
            { s1.core 0 with ie := { (s1.core 0).ie with visible := rest } } with
          focus := some ⟨0, 0, ⟨run, none, none⟩, none⟩ })
      let u ← unitFinish 0 0 t
      afterExecute 0 u)

/-- The instruction of a header word that the decoder reads, placed where the next step runs it
(notes/assumptions/4.md): the step from reset is `exec` of that instruction in the unit, and leaves its
buffer entry Executed and its result on EW. -/
def Obligations.PlacedWordIsRunByTheNextStep : Prop :=
  ∀ (w : BitVec 32) (i : Instr), decodeHeader w = .ok i →
    ∃ s1 t1 t, s1.focus = some ⟨0, 0, ⟨⟨⟨i, .nop⟩, 0, 0⟩, none, none⟩, none⟩ ∧
      exec i s1 = .next t1 ∧
      step (State.reset.withFetchWord 32 w.toNat)
        = concludeStep (State.reset.withFetchWord 32 w.toNat) (do
            let u ← unitFinish 0 0 t1
            afterExecute 0 u) ∧
      step (State.reset.withFetchWord 32 w.toNat) = .next t ∧
      (t.core 0).rob = [⟨0, 0, ⟨i, .nop⟩, .executed, 0⟩] ∧
      (t.core 0).ew.entry = [⟨0, .ok .empty⟩]

/-! ### The branch unit (45) -/

/-- R257, R258: with capacity 0 nothing is recorded; an entry of the same source keeps its position and
gets the new target; a new source goes last, and the oldest entry goes when the buffer is full. A
recorded pair is found, other sources that stay keep their targets, and the capacity and the one entry
per source are kept. -/
def Obligations.RecordedBranchTargetIsFound : Prop :=
  ∀ (cap : Nat) (btb : List (Word × Word)) (src dst : Word),
    btbRecord 0 btb src dst = btb ∧
    (1 ≤ cap → src ∈ btb.map Prod.fst →
      (btbRecord cap btb src dst).map Prod.fst = btb.map Prod.fst) ∧
    (1 ≤ cap → src ∉ btb.map Prod.fst →
      btbRecord cap btb src dst
        = (if btb.length = cap then btb.drop 1 else btb) ++ [(src, dst)]) ∧
    (1 ≤ cap → btbLookup (btbRecord cap btb src dst) src = some dst) ∧
    (∀ p, p ≠ src → btb.length < cap ∨ src ∈ btb.map Prod.fst →
      btbLookup (btbRecord cap btb src dst) p = btbLookup btb p) ∧
    (∀ p, p ≠ src → 1 ≤ cap → btb.length = cap → src ∉ btb.map Prod.fst →
      btbLookup (btbRecord cap btb src dst) p = btbLookup (btb.drop 1) p) ∧
    (btb.length ≤ cap → (btbRecord cap btb src dst).length ≤ cap) ∧
    ((btb.map Prod.fst).Nodup →
      ((btbRecord cap btb src dst).map Prod.fst).Nodup ∧
      ∀ p t, btbLookup btb p = some t ↔ (p, t) ∈ btb)

/-! ### Commit (46) -/

/-- R271, R272: retiring an instruction writes the register its result names and no other, lowers the
pending-write count of every register of W, returns its rename slots and removes it from the buffer;
nothing else of the core changes. It answers whenever no count would go negative. -/
def Obligations.RetirementWritesOneRegister : Prop :=
  ∀ (e : RobEntry) (o : ExecutionResult) (k : Core),
    (∀ q, e.desc.instr.writes.count q ≤ pwGet k.pw q) →
    ∃ t, retire e o k = .ok t ∧
      (∀ q v, o.regChange = some (q, v) →
        (q < NREGS → regRead t.x q = v) ∧ ∀ p, p ≠ q → regRead t.x p = regRead k.x p) ∧
      (o.regChange = none → t.x = k.x) ∧
      (∀ q, pwGet t.pw q + e.desc.instr.writes.count q = pwGet k.pw q) ∧
      t.freePhys = k.freePhys + e.slots ∧ t.rob = k.rob.filter (fun f => decide (f.seq ≠ e.seq)) ∧
      t = { k with x := t.x, pw := t.pw, freePhys := t.freePhys, rob := t.rob, sprog := none }

/-- R267 to R271, R276: the instruction that commits is completed. With a store under way it is that
store. It is the oldest of the buffer, with no older runner unissued: of itself with no store under way,
and where the store under way is the commit head, as it always is (EveryStepKeepsWorkInFlightSound). It
is the one whose register is written and which leaves the buffer, alone when it does not terminate, and with every
younger one when it does (R274). -/
def Obligations.CommitTakesTheOldestInstruction : Prop :=
  ∀ (c : CoreId) (s t : State), commitOne c s = .ok (t, true) →
    ∃ e o, e ∈ (s.core c).rob ∧ e.status = .completed (.ok o) ∧
      ((∀ p, (s.core c).sprog = some p → ∃ h, commitHead (s.core c) = some h ∧ h.seq = p.seq) →
        (∀ f ∈ (s.core c).rob, e.seq ≤ f.seq) ∧
        (∀ r ∈ (s.core c).pendingQ, e.seq ≤ r.seq) ∧
        ∀ r ∈ (s.core c).di.visible ++ (s.core c).di.buffer ++ (s.core c).di.entry,
          e.seq ≤ r.seq) ∧
      (∀ p, (s.core c).sprog = some p → e.seq = p.seq) ∧
      (t.core c).x = commitRegs o (s.core c).x ∧
      (t.core c).rob = (s.core c).rob.filter
        (fun f => decide (f.seq ≠ e.seq ∧ (o.terminate = true → f.seq ≤ e.seq))) ∧
      (t.core c).done = ((s.core c).done || o.terminate) ∧ (t.core c).sprog = none

/-- R221, R265, R266: how an executed instruction becomes completed. A unit that holds a result puts it on
EW and is idle when EW has room, and keeps it otherwise. The drain takes up to `n` results from EW,
oldest first, and makes the entry of each one's sequence ID Completed with it; a result without an entry
faults F_UNREACH. Nothing else of the core changes, and the commit loop follows the drain.
R268, R271: then an oldest instruction that is completed, changes no memory and does not terminate
commits in the commit loop's next round: its register is written, and memory is untouched. -/
def Obligations.ResultsDrainAndACompletedHeadCommits : Prop :=
  (∀ (c : CoreId) (i : Nat) (s : State) (w : Work) (v : Result), s.euState c i = .push w v →
    ((s.core c).ew.entry.length < s.cfg.busCap → ∃ t, unitPush c i s = .ok t ∧
      t.euState c i = .idle ∧
      (t.core c).ew = { (s.core c).ew with entry := (s.core c).ew.entry ++ [v] } ∧
      (∀ j, j ≠ i → t.euState c j = s.euState c j) ∧
      t = s.setCore c { s.core c with ew := (t.core c).ew, eu := (t.core c).eu }) ∧
    (s.cfg.busCap ≤ (s.core c).ew.entry.length → unitPush c i s = .ok s)) ∧
  (∀ (n : Nat) (k : Core),
    ((∃ v ∈ k.ew.visible.take n, ∀ e ∈ k.rob, e.seq ≠ v.seq) → drainLoop n k = faultWith .unreach) ∧
    ((∀ v ∈ k.ew.visible.take n, ∃ e ∈ k.rob, e.seq = v.seq) →
      ∃ t, drainLoop n k = .ok t ∧
        t.ew = { k.ew with visible := k.ew.visible.drop n } ∧
        t.rob.map (fun e => (e.seq, e.pc, e.desc, e.slots))
          = k.rob.map (fun e => (e.seq, e.pc, e.desc, e.slots)) ∧
        (∀ e ∈ t.rob, (e ∈ k.rob ∧ ∀ v ∈ k.ew.visible.take n, v.seq ≠ e.seq) ∨
          ∃ v ∈ k.ew.visible.take n, v.seq = e.seq ∧ e.status = .completed v.out) ∧
        t = { k with ew := t.ew, rob := t.rob })) ∧
  (∀ (c : CoreId) (s : State) (k : Core), drainLoop s.cfg.wbUnits (s.core c) = .ok k →
    wbStep c s = commitLoop c s.cfg.wbUnits (s.setCore c k)) ∧
  ∀ (c : CoreId) (s : State) (e : RobEntry) (o : ExecutionResult), c < s.cores.length →
    (s.core c).sprog = none → commitHead (s.core c) = some e → e.status = .completed (.ok o) →
    o.memChange = [] → o.terminate = false →
    (∀ q, e.desc.instr.writes.count q ≤ pwGet (s.core c).pw q) →
    ∃ t, commitOne c s = .ok (t, true) ∧ (t.core c).x = commitRegs o (s.core c).x ∧
      (∀ f ∈ (t.core c).rob, f.seq ≠ e.seq) ∧ t.mem = s.mem ∧ t.l3 = s.l3 ∧ t.dir = s.dir ∧
      t.sem = s.sem ∧ t.status = s.status ∧ ∀ d, d ≠ c → t.core d = s.core d

/-- R268, R273, R298: a completed STORE at the head is written line by line. The first round asks for
the first of its lines in ascending order, and does not commit; a round whose line is not written yet
waits; one whose line is written asks for the next; and only the round in which the last line is
written finishes the instruction. A line's request carries the change's bytes of that line in list
order. Until it finishes, registers and buffer stay. -/
def Obligations.StoreCommitWritesItsLinesInOrder : Prop :=
  (∀ (c : CoreId) (s : State) (e : RobEntry) (o : ExecutionResult) (l : LineAddr)
    (rest : List LineAddr), MsiExclusive s → c < s.cfg.numCores → (s.core c).sprog = none →
    (s.core c).req = none → commitHead (s.core c) = some e → e.status = .completed (.ok o) →
    linesOf s.cfg (o.memChange.map (fun p => p.1.toNat)) = l :: rest →
    ∃ t r, commitOne c s = .ok (t, false) ∧ (t.core c).sprog = some ⟨e.seq, l :: rest, 0⟩ ∧
      (t.core c).req = some r ∧ r.kind = .write ∧ r.line = l ∧ r.who = .wb ∧ r.seq = e.seq ∧
      r.bytes = lineBytes s.cfg l o.memChange ∧
      (t.core c).x = (s.core c).x ∧ (t.core c).rob = (s.core c).rob ∧ t.mem = s.mem) ∧
  ∀ (c : CoreId) (s s1 : State) (e : RobEntry) (o : ExecutionResult) (b : Seq) (l : LineAddr)
    (rest : List LineAddr) (q : ReqState) (ph : Phase),
    (s.core c).sprog = some ⟨b, l :: rest, 0⟩ → robFind (s.core c).rob b = some e →
    e.status = .completed (.ok o) → (s.core c).req = some q →
    poll c .wb s = .ok (s1, ph) →
    ((∀ data, ph ≠ .finished data) → commitOne c s = .ok (s1, false)) ∧
    (∀ data, ph = .finished data → rest = [] →
      commitOne c s = (do
        let t ← finish c e o (setSprog c (some ⟨b, [], 0⟩) (setReq c none s1))
        .ok (t, true))) ∧
    ∀ data l2 rest2 t more, ph = .finished data → rest = l2 :: rest2 →
      commitOne c s = .ok (t, more) →
      more = false ∧ (t.core c).sprog = some ⟨b, l2 :: rest2, 0⟩ ∧
      (t.core c).x = (s.core c).x ∧ (t.core c).rob = (s.core c).rob ∧
      ∃ r, (t.core c).req = some r ∧ r.kind = .write ∧ r.line = l2 ∧ r.who = .wb ∧ r.seq = b ∧
        r.bytes = lineBytes s.cfg l2 o.memChange

/-- R275, R361, R363: a program error at the head stops the run with that error at once; every register,
memory byte and core is as it was. -/
def Obligations.ErrorAtTheHeadStopsTheRun : Prop :=
  ∀ (c : CoreId) (n : Nat) (s : State) (e : RobEntry) (err : ProgramError), s.status = .running →
    (s.core c).done = false → (s.core c).sprog = none → commitHead (s.core c) = some e →
    e.status = .completed (.err err) →
    commitLoop c (n + 1) s = .ok { s with status := .error c err }

/-- R274: committing an instruction that terminates sets `done`, writes its register, discards every
younger instruction, with the controller request of a younger LOAD and the lock it holds (R240, R307),
and counts no flush. -/
def Obligations.TerminatingCommitEndsTheCore : Prop :=
  ∀ (c : CoreId) (e : RobEntry) (o : ExecutionResult) (s t : State), c < s.cores.length →
    o.terminate = true → finish c e o s = .ok t →
    (t.core c).done = true ∧ (t.core c).x = commitRegs o (s.core c).x ∧
    OnlyUpTo e.seq (t.core c) ∧ (t.core c).flushCount = (s.core c).flushCount ∧
    (t.core c).complete = true ∧ t.mem = s.mem ∧ (∀ d, d ≠ c → t.core d = s.core d) ∧
    requestAfterFlush c e.seq s t

/-! ### Memory and coherence (20, 47) -/

/-- R75: bytes written in list order: an address reads as the last byte the list has for it, and every
other address reads as before. -/
def Obligations.LaterByteOfAWriteWins : Prop :=
  ∀ (m : Memory) (cells : List Host.Cell) (a : Nat),
    Memory.read (Memory.writeAll m cells) a
      = (((cells.filter (fun c => decide (c.1 = a))).map Prod.snd).getLast?).getD
          (Memory.read m a)

/-- R285: a pushed line is present with its data and most recent; a victim is the least recent line of
a full store that did not hold the new line; other lines keep their data, and capacity and one entry
per line are kept. -/
def Obligations.LinePushEvictsTheLeastRecent : Prop :=
  ∀ (cap : Nat) (st st' : LruStore (List Byte)) (l : LineAddr) (d : List Byte)
    (v : Option (LineAddr × List Byte)), lruPush cap st l d = (st', v) →
    lruFind st' l = some d ∧ st'.getLast? = some (l, d) ∧
    (1 ≤ cap → st.length ≤ cap → st'.length ≤ cap) ∧
    ((st.map Prod.fst).Nodup → (st'.map Prod.fst).Nodup) ∧
    (∀ e, v = some e → st.head? = some e ∧ st.length = cap ∧ lruContains st l = false) ∧
    (∀ j, j ≠ l → (∀ e, v = some e → e.1 ≠ j) → lruFind st' j = lruFind st j)

/-- R36, R294: what each semaphore operation grants and leaves, when a release faults F_SEM, and that
many readers or one writer hold a line, never both. -/
def Obligations.SemaphoreKeepsReadersAndWriterApart : Prop :=
  ∀ v : Sem,
    (v.writer = false → v.tryLock .read = some { v with readers := v.readers + 1 }) ∧
    (v.writer = true → v.tryLock .read = none) ∧
    (v.readers = 0 ∧ v.writer = false → v.tryLock .write = some { v with writer := true }) ∧
    (¬(v.readers = 0 ∧ v.writer = false) → v.tryLock .write = none) ∧
    (0 < v.readers → v.release .read = .ok { v with readers := v.readers - 1 }) ∧
    (v.readers = 0 → v.release .read = .error (.fault .sem)) ∧
    (v.writer = true → v.release .write = .ok { v with writer := false }) ∧
    (v.writer = false → v.release .write = .error (.fault .sem)) ∧
    ((v.writer = true → v.readers = 0) → ∀ (m : LockMode) (v' : Sem),
      (v.tryLock m = some v' → (v'.writer = true → v'.readers = 0) ∧ v'.release m = .ok v) ∧
      (v.release m = .ok v' → (v'.writer = true → v'.readers = 0)))

/-- R299, R300, R304: what each poll of a request does with data caches. It leaves Locking only by taking
its line's lock, in the mode R295 gives; while a writer holds the line it stays in Locking and nothing
changes. A lock that is free in that mode is taken: the request waits for the commands of R302, or with
none to wait for enters Access by the table of R304 (a WRITE on a Shared line beside a Modified peer
faults F_MSI, R311). It waits while one of its commands is pending, and enters Access when none is.
Access counts down, and at its end the request completes (R303, R305) and is Finished. -/
def Obligations.CachedRequestMovesThroughItsPhases : Prop :=
  ∀ (c : CoreId) (r : ReqState) (s : State), c < s.cores.length → s.cfg.l1dPresent = true →
    (s.core c).req = some r →
    (r.phase = .locking →
      ((s.semGet r.line).writer = true → poll c r.who s = .ok (s, .locking)) ∧
      (modifiedBesideShared s c r → (s.semGet r.line).writer = false →
        (s.semGet r.line).readers = 0 → poll c r.who s = faultWith .msi) ∧
      (¬modifiedBesideShared s c r → (s.semGet r.line).writer = false →
        (r.kind = .write ∨ s.dirGet c r.line = .m → (s.semGet r.line).readers = 0) →
        ∃ t ph s1 keys, poll c r.who s = .ok (t, ph) ∧
          commands c r.kind r.line s = .ok (s1, keys) ∧ t.cmds = s1.cmds ∧
          ph = if keys = [] then accessPhase s c r.line else .waiting keys) ∧
      ∀ t ph, poll c r.who s = .ok (t, ph) → ph ≠ .locking →
        (s.semGet r.line).writer = false ∧
        (t.core c).req = some { r with
          mode := some (if r.kind = .write ∨ s.dirGet c r.line = .m then .write else .read)
          phase := ph } ∧
        (if r.kind = .write ∨ s.dirGet c r.line = .m then
            (s.semGet r.line).readers = 0 ∧ (t.semGet r.line).writer = true
          else (t.semGet r.line).readers = (s.semGet r.line).readers + 1) ∧
        ∀ l, l ≠ r.line → t.semGet l = s.semGet l) ∧
    (∀ keys, r.phase = .waiting keys →
      ((∃ k ∈ keys, cmdFind k s.cmds = some .pending) →
        poll c r.who s = .ok (s, .waiting keys)) ∧
      ((∀ k ∈ keys, cmdFind k s.cmds ≠ some .pending) →
        poll c r.who s = .ok (setReq c (some { r with phase := accessPhase s c r.line }) s,
          accessPhase s c r.line))) ∧
    ∀ n src, r.phase = .access n src →
      (1 < n → poll c r.who s = .ok (setReq c (some { r with phase := .access (n - 1) src }) s,
        .access (n - 1) src)) ∧
      (n ≤ 1 → readyToComplete s c r src →
        ∃ t cells, complete c r src s = .ok (t, cells) ∧
          poll c r.who s = .ok (setReq c (some { r with phase := .finished cells }) t,
            .finished cells))

/-- R302: the commands a request arms: one for each other core that holds the line, in index order,
WRITE_BACK for a Modified peer and EVICT for a Shared one, and none on a local hit. -/
def Obligations.RequestArmsOneCommandPerPeer : Prop :=
  ∀ (c : CoreId) (kind : ReqKind) (l : LineAddr) (s t : State) (keys : List CmdKey),
    commands c kind l s = .ok (t, keys) →
    (s.dirGet c l = .m ∨ (kind = .read ∧ s.dirGet c l = .s) → keys = []) ∧
    (¬(s.dirGet c l = .m ∨ (kind = .read ∧ s.dirGet c l = .s)) →
      keys.Pairwise (fun a b => a.target < b.target) ∧
      ∀ d cmd, (⟨d, l, cmd⟩ : CmdKey) ∈ keys ↔
        d < s.cfg.numCores ∧ d ≠ c ∧
          ((s.dirGet d l = .m ∧ cmd = .writeBack) ∨ (s.dirGet d l = .s ∧ cmd = .evict))) ∧
    (∀ k ∈ keys, k.line = l ∧ cmdFind k t.cmds = some .pending) ∧
    t = { s with cmds := t.cmds }

/-- R303, R305, R309: a completed READ from the next level leaves the line Shared, a completed WRITE
leaves it Modified and found every other core without it; the line is present, and its lock is
released in the mode it was held. -/
def Obligations.CompletionSetsTheDirectory : Prop :=
  ∀ (c : CoreId) (r : ReqState) (src : Source) (m : LockMode) (s t : State)
    (cells : List Host.Cell), c < s.cores.length → r.mode = some m →
    complete c r src s = .ok (t, cells) →
    (r.kind = .read → src ≠ .l1 → t.dirGet c r.line = .s) ∧
    (r.kind = .read → src = .l1 → t.dir = s.dir) ∧
    (r.kind = .write → t.dirGet c r.line = .m ∧
      ∀ d, d < s.cfg.numCores → d ≠ c → s.dirGet d r.line = .i ∧ t.dirGet d r.line = .i) ∧
    lruContains (t.core c).l1d r.line = true ∧
    (s.semGet r.line).release m = .ok (t.semGet r.line) ∧
    (∀ d l, d ≠ c → t.dirGet d l = s.dirGet d l) ∧
    ∀ d, (t.core d).x = (s.core d).x

/-- R83, R86, R289, R292: a READ that fetches its line from the next level returns the bytes of the
memory view and leaves every byte of that view as it was, whatever lines it evicts on the way; and
Shared copies go on to equal the view. -/
def Obligations.ReadFillReturnsAndKeepsTheMemoryView : Prop :=
  ∀ (c : CoreId) (r : ReqState) (src : Source) (s t : State) (cells : List Host.Cell),
    SoundStores s → MsiExclusive s → c < s.cfg.numCores → c < s.cores.length → r.kind = .read →
    src ≠ .l1 → lineOf s.cfg.lineSize r.line = r.line →
    (∀ d, d < s.cfg.numCores → s.dirGet d r.line ≠ .m) →
    complete c r src s = .ok (t, cells) →
    (∀ a, lineOf s.cfg.lineSize a = r.line → (a, s.memView a) ∈ cells) ∧
    (∀ e ∈ cells, lineOf s.cfg.lineSize e.1 = r.line ∧ e.2 = s.memView e.1) ∧
    (∀ a, t.memView a = s.memView a) ∧ (SharedAgree s → SharedAgree t)

/-- R86, R305: a completed WRITE changes the memory view at the addresses of its bytes, the later byte
of an address winning, and at no other address; and Shared copies go on to equal the view. -/
def Obligations.WriteCompletionChangesOnlyItsBytesOfTheView : Prop :=
  ∀ (c : CoreId) (r : ReqState) (src : Source) (s t : State) (cells : List Host.Cell),
    SoundStores s → MsiExclusive s → SharedAgree s → c < s.cfg.numCores → c < s.cores.length →
    r.kind = .write → lineOf s.cfg.lineSize r.line = r.line →
    (∀ e ∈ r.bytes, lineOf s.cfg.lineSize e.1 = r.line) →
    (src = .l1 ↔ s.dirGet c r.line ≠ .i) →
    complete c r src s = .ok (t, cells) →
    (∀ a, t.memView a
      = (((r.bytes.filter (fun e => decide (e.1 = a))).map Prod.snd).getLast?).getD
          (s.memView a)) ∧
    SharedAgree t

/-- R312, R292: carrying out a snoop command leaves every byte of the memory view as it was: dirty data
moves to the next level and nothing is lost; and Shared copies go on to equal the view. -/
def Obligations.SnoopCommandKeepsTheMemoryView : Prop :=
  ∀ (key : CmdKey) (s t : State), SoundStores s → MsiExclusive s → key.target < s.cfg.numCores →
    runCommand key s = .ok t →
    (∀ a, t.memView a = s.memView a) ∧ (SharedAgree s → SharedAgree t)

/-- R312: a snoop command drops the target's line, makes its directory entry I and marks the key Done;
registers, semaphores, other directory entries and other cores stay. A snoop step that answers carries
out every pending command of its core but those on the line its own request has locked, which stay
pending. -/
def Obligations.SnoopCommandDropsTheLine : Prop :=
  (∀ (d : CoreId) (s t : State) (key : CmdKey), snoopStep d s = .ok t → key.target = d →
    cmdFind key s.cmds = some .pending →
    (∀ r, (s.core d).req = some r → r.line = key.line → r.mode ≠ none →
      cmdFind key t.cmds = some .pending) ∧
    ((∀ r, (s.core d).req = some r → r.line = key.line → r.mode = none) →
      cmdFind key t.cmds = some .done)) ∧
  ∀ (key : CmdKey) (s t : State), LinesAgree s → key.target < s.cfg.numCores →
    cmdFind key s.cmds = some .pending → runCommand key s = .ok t →
    t.dirGet key.target key.line = .i ∧ lruContains (t.core key.target).l1d key.line = false ∧
    cmdFind key t.cmds = some .done ∧ t.sem = s.sem ∧
    (∀ d l, (d, l) ≠ (key.target, key.line) → t.dirGet d l = s.dirGet d l) ∧
    (∀ d, d ≠ key.target → t.core d = s.core d) ∧
    t.core key.target = { s.core key.target with l1d := (t.core key.target).l1d }

/-- R310: without data caches a request waits the memory latency and then reads or writes memory
itself; the directory, the semaphores and the caches stay. -/
def Obligations.UncachedRequestReadsAndWritesMemory : Prop :=
  ∀ (c : CoreId) (r : ReqState) (s : State), s.cfg.l1dPresent = false →
    (s.core c).req = some r →
    (r.phase = .locking → poll c r.who s
      = .ok (setReq c (some { r with phase := .access s.cfg.memLat .mem }) s,
          .access s.cfg.memLat .mem)) ∧
    (∀ n, r.phase = .access n .mem → 1 < n → poll c r.who s
      = .ok (setReq c (some { r with phase := .access (n - 1) .mem }) s,
          .access (n - 1) .mem)) ∧
    (∀ n, r.phase = .access n .mem → n ≤ 1 → r.kind = .read →
      ∃ cells, poll c r.who s = .ok (setReq c (some { r with phase := .finished cells }) s,
          .finished cells) ∧
        cells = (List.range s.cfg.lineSize).map
          (fun j => (r.line + j, Memory.read s.mem (r.line + j)))) ∧
    (∀ n, r.phase = .access n .mem → n ≤ 1 → r.kind = .write → poll c r.who s
      = .ok (setReq c (some { r with phase := .finished [] })
          { s with mem := Memory.writeAll s.mem r.bytes }, .finished [])) ∧
    ∀ t ph, poll c r.who s = .ok (t, ph) →
      t.dir = s.dir ∧ t.sem = s.sem ∧ t.cmds = s.cmds ∧ t.l3 = s.l3 ∧
      (r.kind = .read → t.mem = s.mem) ∧
      ∀ d, (t.core d).l1d = (s.core d).l1d ∧ (t.core d).x = (s.core d).x

/-! ### Flush (48) -/

/-- R346, R157: a flush empties FD, unblocks decoding and sends fetch to the target, or stops it when
there is none; only a flush with a target is counted. It leaves registers, memory, caches, directory,
commands, branch-target buffer, `nextSeq`, the other counters, the other cores and the older buffer
entries as they are. -/
def Obligations.FlushMovesFetchAndKeepsArchitecturalState : Prop :=
  ∀ (c : CoreId) (b : Seq) (t : Option Word) (s u : State), c < s.cores.length →
    applyFlush c b t s = .ok u →
    (u.core c).fd = Bus.empty ∧ (u.core c).pendingBranch = false ∧
    (u.core c).fstate = .idle ∧ (u.core c).prevIssued = [] ∧
    (∀ a, t = some a → (u.core c).pc = a ∧ (u.core c).complete = false ∧
      (u.core c).flushCount = (s.core c).flushCount + 1) ∧
    (t = none → (u.core c).pc = (s.core c).pc ∧ (u.core c).complete = true ∧
      (u.core c).flushCount = (s.core c).flushCount) ∧
    u.mem = s.mem ∧ u.l3 = s.l3 ∧ u.dir = s.dir ∧ u.cmds = s.cmds ∧ u.status = s.status ∧
    u.cycle = s.cycle ∧ (∀ d, d ≠ c → u.core d = s.core d) ∧
    (u.core c).x = (s.core c).x ∧ (u.core c).l1d = (s.core c).l1d ∧
    (u.core c).l1i = (s.core c).l1i ∧ (u.core c).btb = (s.core c).btb ∧
    (u.core c).nextSeq = (s.core c).nextSeq ∧ (u.core c).fwdCount = (s.core c).fwdCount ∧
    (u.core c).stallCount = (s.core c).stallCount ∧ (u.core c).done = (s.core c).done ∧
    (u.core c).rob = (s.core c).rob.filter (fun e => decide (e.seq ≤ b))

/-- R346, R349, R240, and C7 of 90_conflicts.md: after a flush nothing in flight on the core is younger
than the boundary, and everything up to it is kept, in its place and order: on DI, IE and EW, in the
pending queue, among the links and the expectations. The pending-write counts again agree with the buffer, and the free rename slots are NPHYS less the slots
still held. A unit with a younger instruction is idle, with its controller request gone and the lock
that held released in its mode (R307); every other unit, request and lock stays, and no line, no
directory entry and no command changes. -/
def Obligations.FlushLeavesOnlyOlderWork : Prop :=
  ∀ (c : CoreId) (b : Seq) (t : Option Word) (s u : State), c < s.cores.length →
    applyFlush c b t s = .ok u →
    OnlyUpTo b (u.core c) ∧
    (u.core c).di = (s.core c).di.filter (fun r => decide (r.seq ≤ b)) ∧
    (u.core c).ie = (s.core c).ie.filter (fun it => decide (it.run.seq ≤ b)) ∧
    (u.core c).ew = (s.core c).ew.filter (fun v => decide (v.seq ≤ b)) ∧
    (u.core c).pendingQ = (s.core c).pendingQ.filter (fun r => decide (r.seq ≤ b)) ∧
    (u.core c).links = (s.core c).links.filter (fun l => decide (l.prod ≤ b ∧ l.cons ≤ b)) ∧
    (u.core c).expect = (s.core c).expect.filter (fun e => decide (e.1 ≤ b)) ∧
    (u.core c).sprog = (s.core c).sprog ∧
    (CountsAgree (s.core c) → (∀ e ∈ (s.core c).rob, e.desc.instr.wf = true) →
      CountsAgree (u.core c)) ∧
    ((s.core c).freePhys + heldSlots (s.core c).rob = s.cfg.nPhys →
      (u.core c).freePhys = s.cfg.nPhys - heldSlots (u.core c).rob) ∧
    (u.core c).eu.length = (s.core c).eu.length ∧
    (∀ (i : Nat) (e : EuState), (s.core c).eu[i]? = some e →
      (∀ q, e.seq? = some q → b < q → (u.core c).eu[i]? = some .idle) ∧
      ((∀ q, e.seq? = some q → q ≤ b) → (u.core c).eu[i]? = some e)) ∧
    requestAfterFlush c b s u ∧
    (u.core c).l1d = (s.core c).l1d ∧ u.dir = s.dir ∧ u.cmds = s.cmds

/-! ### The global step and reset (10, 48, 60, 70) -/

/-- R52: no step changes the configuration, a program, a label table or an entry address. -/
def Obligations.StepNeverChangesTheProgram : Prop :=
  ∀ s t : State, step s = .next t → t.cfg = s.cfg ∧ t.inputs = s.inputs

/-- R31, R32, R340, R355, R365: "Once status ≠ Running the machine takes no further step and no field
changes"; a step of a running machine counts one cycle, or faults and gives the state before it with
the fault as its status. -/
def Obligations.StepCountsOneCycleOrFaults : Prop :=
  (∀ s : State, s.status ≠ .running → step s = .next s) ∧
  ∀ s t : State, s.status = .running → step s = .next t →
    t.cycle = s.cycle + 1 ∨ ∃ f, t = { s with status := .fault f }

/-- R340, R354: a step leaves the run completed only when every core is done, and running only when some
core is not. -/
def Obligations.RunCompletesWhenEveryCoreIsDone : Prop :=
  ∀ s t : State, s.status = .running → step s = .next t →
    (t.status = .completed → ∀ k ∈ t.cores, k.done = true) ∧
    (t.status = .running → ∃ k ∈ t.cores, k.done = false)

/-- R352, R353: a core that is done stays done, with its registers as they are. -/
def Obligations.DoneCoreStaysDone : Prop :=
  ∀ (s t : State) (c : CoreId), step s = .next t → (s.core c).done = true →
    (t.core c).done = true ∧ (t.core c).x = (s.core c).x

/-- R14, R38, R272: within a core's cycle nothing before write-back changes a register of any core:
fetch, decode, issue, snoop, the execute units and the flush leave them all. -/
def Obligations.RegistersChangeOnlyInWriteBack : Prop :=
  ∀ (c : CoreId) (units : List Nat) (s s1 s2 s3 : State), beforeExecute c s = .ok s1 →
    unitsStep c units s1 = .ok s2 → applyRaised c s2 = .ok s3 →
    ∀ d, (s3.core d).x = (s.core d).x

/-- R55: the invariants of the block hold after every step from a state in which they hold: MSI
exclusion, agreement of L1D and directory, semaphore exclusion, pending-write counts and capacities. -/
def Obligations.EveryStepKeepsTheBlockInvariant : Prop :=
  ∀ s t : State, BlockInvariant s → step s = .next t → BlockInvariant t

/-- R55, R300, R302, R306, R366: the core cycles keep R55 of themselves, so that the check after the
step finds nothing broken. From a state in which R55 holds, the locks are counted by the semaphores,
every request stands in the protocol, the line stores and the work in flight are sound and the maps are
canonical, all of this holds again whenever every core's cycle answers, and the step is their end. -/
def Obligations.CoreCyclesKeepTheProtocol : Prop :=
  ∀ s u : State, ProtocolInvariant s → s.status = .running → loadRefusal s = none →
    runCores (List.range s.cfg.numCores) s = .ok u →
    ProtocolInvariant u ∧ step s = .next (endStep u)

/-- R285, R224, R273, R290: the line stores stay sound in every step: one entry per line, each of them
a whole aligned line, none in an absent shared cache, and cores ask for whole lines alone. -/
def Obligations.EveryStepKeepsLineStoresSound : Prop :=
  ∀ s t : State, SoundStores s → step s = .next t → SoundStores t

/-- R45, R47, R104, R172: in every step the instructions of a core in flight keep sequence IDs of their
own below `nextSeq` and well-formed descriptors, the buffer its order, and the rename slots their
sum. R276: with no flush left from before the step, the instructions between issue and the drain also
keep their one place and their entry, and a store under way stays the commit head. -/
def Obligations.EveryStepKeepsWorkInFlightSound : Prop :=
  ∀ s t : State, (∀ k ∈ s.cores, SoundWork s.cfg k) → step s = .next t →
    (∀ k ∈ t.cores, SoundWork t.cfg k) ∧
    (s.raised = [] → (∀ k ∈ s.cores, InFlightSound k) → ∀ k ∈ t.cores, InFlightSound k)

/-- The canonical forms of memory, directory, semaphores, counts and expectations are kept by every
step, and the model's own two fields are empty again after it (notes/assumptions/3.md, 6.md). -/
def Obligations.EveryStepKeepsCanonicalForms : Prop :=
  ∀ s t : State, CanonicalState s → step s = .next t → CanonicalState t

/-- The start of every run that is given one meets the invariants (R55, R56, R86, R300) and the model's
own canonical forms (notes/assumptions/6.md), and so does the model's reset state, in the configuration
and with the inputs the model chose (notes/assumptions/1.md, 2.md). -/
def Obligations.ResetStateMeetsTheInvariants : Prop :=
  ProtocolInvariant State.reset ∧ (∀ k ∈ State.reset.cores, InFlightSound k) ∧
  ∀ (g : Cfg) (inputs : List CoreInput) (image : List Host.Cell) (s : State),
    boot g inputs image = .ok s →
      ProtocolInvariant s ∧ SharedAgree s ∧ ∀ k ∈ s.cores, InFlightSound k

/-- R56, R380, R381: the reset value of every piece of state at the start of a run, and the host inputs
it is given: those of the host, or core 0's with its program and labels for every core. Three points are
the model's: a byte of the image at or above MEM_SIZE is dropped and of two bytes for one address the
later stays (DESIGN CHOICE, notes/assumptions/16.md), and the entry and registers that come with one
program are core 0's (DEDUCED, notes/assumptions/23.md). -/
def Obligations.ResetSetsEveryField : Prop :=
  ∀ (g : Cfg) (inputs : List CoreInput) (image : List Host.Cell) (s : State),
    boot g inputs image = .ok s →
    s.cfg = g ∧ (inputs.length ≠ 1 → s.inputs = inputs) ∧
    (∀ inp, inputs = [inp] → s.input 0 = inp ∧ ∀ c, 0 < c → c < g.numCores →
      (s.input c).prog = inp.prog ∧ (s.input c).labels = inp.labels ∧
      (s.input c).entry = 0 ∧ (s.input c).initRegs = zeroRegs) ∧
    s.cycle = 0 ∧ s.status = .running ∧ s.l3 = [] ∧ s.cmds = [] ∧
    (∀ c l, s.dirGet c l = .i) ∧ (∀ l, s.semGet l = ⟨0, false⟩) ∧
    (∀ a, Memory.read s.mem a
      = if a < g.memSize then
          (((image.filter (fun e => decide (e.1 = a))).map Prod.snd).getLast?).getD 0
        else 0) ∧
    s.cores.length = g.numCores ∧
    ∀ c, c < g.numCores →
      (s.core c).x = (s.input c).initRegs ∧ (s.core c).pc = (s.input c).entry ∧
      (s.core c).complete = false ∧ (s.core c).fstate = .idle ∧ (s.core c).l1i = [] ∧
      (s.core c).l1d = [] ∧ (s.core c).fd = Bus.empty ∧ (s.core c).di = Bus.empty ∧
      (s.core c).ie = Bus.empty ∧ (s.core c).ew = Bus.empty ∧
      (∀ q, pwGet (s.core c).pw q = 0) ∧ (s.core c).pendingBranch = false ∧
      (s.core c).nextSeq = 0 ∧ (s.core c).pendingQ = [] ∧ (s.core c).prevIssued = [] ∧
      (s.core c).curIssued = [] ∧ (s.core c).freePhys = g.nPhys ∧ (s.core c).links = [] ∧
      (s.core c).rob = [] ∧ (s.core c).eu = List.replicate g.nEu .idle ∧
      (s.core c).btb = [] ∧ (s.core c).expect = [] ∧ (s.core c).req = none ∧
      (s.core c).sprog = none ∧ (s.core c).done = false ∧ (s.core c).fwdCount = 0 ∧
      (s.core c).stallCount = 0 ∧ (s.core c).flushCount = 0
end

