-- ==== Sys2Proof/Laws/Maps.lean ====
section
/-! SUPPORT. Maps kept with rising keys, data memory and line stores: reading after writing, and the
canonical form that every operation keeps. -/

namespace Sys2Proof.Machine

variable {α : Type}

/-! ### Listing and erasing a key -/

theorem assocFind_insert_self (k : Nat) (v : α) (m : List (Nat × α)) :
    assocFind k (assocInsert k v m) = some v := by
  induction m with
  | nil => simp [assocInsert, assocFind]
  | cons e m ih =>
    obtain ⟨j, u⟩ := e
    simp only [assocInsert]
    split
    · simp [assocFind]
    · split
      · simp [assocFind]
      · rename_i h
        simp [assocFind, h, ih]

theorem assocFind_insert_ne {k i : Nat} (v : α) (m : List (Nat × α)) (h : i ≠ k) :
    assocFind i (assocInsert k v m) = assocFind i m := by
  induction m with
  | nil => simp [assocInsert, assocFind, Ne.symm h]
  | cons e m ih =>
    obtain ⟨j, u⟩ := e
    simp only [assocInsert]
    split
    · simp [assocFind, Ne.symm h]
    · split
      · rename_i hj
        subst hj
        simp [assocFind, Ne.symm h]
      · simp only [assocFind, ih]

theorem assocFind_erase_self (k : Nat) (m : List (Nat × α)) :
    assocFind k (assocErase k m) = none := by
  induction m with
  | nil => rfl
  | cons e m ih =>
    obtain ⟨j, u⟩ := e
    by_cases hj : j = k
    · simpa [assocErase, hj] using ih
    · have : assocErase k ((j, u) :: m) = (j, u) :: assocErase k m := by simp [assocErase, hj]
      simp [this, assocFind, hj, ih]

theorem assocFind_erase_ne {k i : Nat} (m : List (Nat × α)) (h : i ≠ k) :
    assocFind i (assocErase k m) = assocFind i m := by
  induction m with
  | nil => rfl
  | cons e m ih =>
    obtain ⟨j, u⟩ := e
    by_cases hj : j = k
    · have : assocErase k ((j, u) :: m) = assocErase k m := by simp [assocErase, hj]
      rw [this, ih]
      simp [assocFind, hj, Ne.symm h]
    · have : assocErase k ((j, u) :: m) = (j, u) :: assocErase k m := by simp [assocErase, hj]
      simp [this, assocFind, ih]

theorem assocFind_mem {k : Nat} {v : α} {m : List (Nat × α)} (h : assocFind k m = some v) :
    (k, v) ∈ m := by
  induction m with
  | nil => simp [assocFind] at h
  | cons e m ih =>
    obtain ⟨j, u⟩ := e
    simp only [assocFind] at h
    split at h
    · simp_all
    · exact List.mem_cons_of_mem _ (ih h)

theorem assocFind_none {k : Nat} {m : List (Nat × α)} :
    assocFind k m = none ↔ ∀ v, (k, v) ∉ m := by
  induction m with
  | nil => simp [assocFind]
  | cons e m ih =>
    obtain ⟨j, u⟩ := e
    by_cases hj : j = k
    · subst hj
      simp only [assocFind, if_true]
      constructor
      · intro h
        exact absurd h (by simp)
      · intro h
        exact absurd (List.mem_cons_self) (h u)
    · simp [assocFind, hj, ih, Ne.symm hj]

theorem mem_assocInsert {k : Nat} {v : α} {m : List (Nat × α)} {e : Nat × α}
    (h : e ∈ assocInsert k v m) : e = (k, v) ∨ e ∈ m := by
  induction m with
  | nil => simpa [assocInsert] using h
  | cons x m ih =>
    obtain ⟨j, u⟩ := x
    simp only [assocInsert] at h
    split at h
    · simpa using h
    · split at h
      · rcases List.mem_cons.mp h with h | h
        · exact .inl h
        · exact .inr (List.mem_cons_of_mem _ h)
      · rcases List.mem_cons.mp h with h | h
        · exact .inr (by simp [h])
        · rcases ih h with h | h
          · exact .inl h
          · exact .inr (List.mem_cons_of_mem _ h)

/-! ### Maps with a default -/

variable [DecidableEq α]

@[simp] theorem mapGet_set_self (d v : α) (m : List (Nat × α)) (k : Nat) :
    mapGet d (mapSet d m k v) k = v := by
  unfold mapGet mapSet
  split
  · rename_i h
    simp [assocFind_erase_self, h]
  · simp [assocFind_insert_self]

theorem mapGet_set_ne (d v : α) (m : List (Nat × α)) {k i : Nat} (h : i ≠ k) :
    mapGet d (mapSet d m k v) i = mapGet d m i := by
  unfold mapGet mapSet
  split
  · rw [assocFind_erase_ne _ h]
  · rw [assocFind_insert_ne _ _ h]

/-! ### The canonical form -/

omit [DecidableEq α] in
theorem keysRise_cons {e : Nat × α} {m : List (Nat × α)} :
    keysRise (e :: m) = true ↔ (∀ x ∈ m, e.1 < x.1) ∧ keysRise m = true := by
  simp [keysRise]

omit [DecidableEq α] in
theorem keysRise_insert {m : List (Nat × α)} (k : Nat) (v : α) (h : keysRise m = true) :
    keysRise (assocInsert k v m) = true := by
  induction m with
  | nil => simp [assocInsert, keysRise]
  | cons e m ih =>
    obtain ⟨j, u⟩ := e
    obtain ⟨h1, h2⟩ := keysRise_cons.mp h
    simp only [assocInsert]
    split
    · rename_i hk
      refine keysRise_cons.mpr ⟨?_, h⟩
      intro x hx
      rcases List.mem_cons.mp hx with rfl | hx
      · exact hk
      · exact lt_trans hk (h1 x hx)
    · split
      · rename_i hj
        subst hj
        exact keysRise_cons.mpr ⟨h1, h2⟩
      · refine keysRise_cons.mpr ⟨?_, ih h2⟩
        intro x hx
        rcases mem_assocInsert hx with rfl | hx
        · simp only
          omega
        · exact h1 x hx

omit [DecidableEq α] in
theorem keysRise_filter {m : List (Nat × α)} (p : Nat × α → Bool) (h : keysRise m = true) :
    keysRise (m.filter p) = true := by
  simp only [keysRise, decide_eq_true_eq] at *
  exact h.sublist (List.filter_sublist.map _)

theorem canonical_iff {d : α} {m : List (Nat × α)} :
    canonical d m = true ↔ keysRise m = true ∧ ∀ e ∈ m, e.2 ≠ d := by
  simp [canonical]

/-- Every write of a map keeps the canonical form. -/
theorem canonical_mapSet {d : α} {m : List (Nat × α)} (k : Nat) (v : α)
    (h : canonical d m = true) : canonical d (mapSet d m k v) = true := by
  obtain ⟨h1, h2⟩ := canonical_iff.mp h
  unfold mapSet
  split
  · refine canonical_iff.mpr ⟨keysRise_filter _ h1, fun e he => h2 e ?_⟩
    exact List.mem_of_mem_filter he
  · rename_i hv
    refine canonical_iff.mpr ⟨keysRise_insert k v h1, fun e he => ?_⟩
    rcases mem_assocInsert he with rfl | he
    · exact hv
    · exact h2 e he

omit [DecidableEq α] in
/-- Two lists with rising keys that list the same values are equal. -/
theorem keysRise_ext {m n : List (Nat × α)} (hm : keysRise m = true) (hn : keysRise n = true)
    (h : ∀ k, assocFind k m = assocFind k n) : m = n := by
  induction m generalizing n with
  | nil =>
    cases n with
    | nil => rfl
    | cons e n =>
      have := h e.1
      simp [assocFind] at this
  | cons e m ih =>
    obtain ⟨j, u⟩ := e
    obtain ⟨hm1, hm2⟩ := keysRise_cons.mp hm
    cases n with
    | nil =>
      have := h j
      simp [assocFind] at this
    | cons f n =>
      obtain ⟨k, w⟩ := f
      obtain ⟨hn1, hn2⟩ := keysRise_cons.mp hn
      have absent : ∀ {q : Nat} {l : List (Nat × α)}, (∀ x ∈ l, q < x.1) →
          ∀ i ≤ q, assocFind i l = none := by
        intro q l hl i hi
        refine assocFind_none.mpr (fun v hv => ?_)
        have := hl _ hv
        simp only at this
        omega
      have hjk : j = k := by
        rcases lt_trichotomy j k with hlt | heq | hlt
        · have := h j
          rw [assocFind, if_pos rfl, assocFind, if_neg (by omega),
            absent hn1 j (by simp only; omega)] at this
          exact absurd this (by simp)
        · exact heq
        · have := h k
          rw [assocFind, if_neg (by omega), assocFind, if_pos rfl,
            absent hm1 k (by simp only; omega)] at this
          exact absurd this (by simp)
      subst hjk
      have huw : u = w := by
        have := h j
        simpa [assocFind] using this
      subst huw
      congr 1
      refine ih hm2 hn2 (fun i => ?_)
      have := h i
      by_cases hi : j = i
      · subst hi
        rw [absent hm1 j (le_refl _), absent hn1 j (le_refl _)]
      · simpa [assocFind, hi] using this

/-- Equal maps are equal data: two canonical maps that read the same are the same list. -/
theorem canonical_ext {d : α} {m n : List (Nat × α)} (hm : canonical d m = true)
    (hn : canonical d n = true) (h : ∀ k, mapGet d m k = mapGet d n k) : m = n := by
  obtain ⟨hm1, hm2⟩ := canonical_iff.mp hm
  obtain ⟨hn1, hn2⟩ := canonical_iff.mp hn
  refine keysRise_ext hm1 hn1 (fun k => ?_)
  have hk := h k
  unfold mapGet at hk
  cases ha : assocFind k m with
  | none =>
    cases hb : assocFind k n with
    | none => rfl
    | some w =>
      rw [ha, hb] at hk
      exact absurd (by simpa using hk.symm) (hn2 _ (assocFind_mem hb))
  | some v =>
    cases hb : assocFind k n with
    | none =>
      rw [ha, hb] at hk
      exact absurd (by simpa using hk) (hm2 _ (assocFind_mem ha))
    | some w =>
      rw [ha, hb] at hk
      simpa using hk

/-! ### Data memory -/

@[simp] theorem Memory.read_write_self (m : Memory) (a : Nat) (b : Byte) :
    Memory.read (Memory.write m a b) a = b := mapGet_set_self _ _ _ _

theorem Memory.read_write_ne (m : Memory) {a i : Nat} (b : Byte) (h : i ≠ a) :
    Memory.read (Memory.write m a b) i = Memory.read m i := mapGet_set_ne _ _ _ h

theorem Memory.wf_write {m : Memory} (a : Nat) (b : Byte) (h : m.wf = true) :
    Memory.wf (Memory.write m a b) = true := canonical_mapSet a b h

theorem Memory.wf_writeAll {m : Memory} (cells : List Host.Cell) (h : m.wf = true) :
    Memory.wf (Memory.writeAll m cells) = true := by
  unfold Memory.writeAll
  induction cells generalizing m with
  | nil => exact h
  | cons c cells ih => exact ih (Memory.wf_write _ _ h)

theorem Memory.wf_writeLine {m : Memory} (l : LineAddr) (data : List Byte) (h : m.wf = true) :
    Memory.wf (Memory.writeLine m l data) = true := Memory.wf_writeAll _ h

theorem Memory.wf_reset : Memory.wf State.reset.mem = true := rfl

theorem memoryOfImage_wf (g : Cfg) (image : List Host.Cell) :
    Memory.wf (memoryOfImage g image) = true := Memory.wf_writeAll _ rfl

theorem l3Push_mem_wf (l : LineAddr) (data : List Byte) {s : State} (h : s.mem.wf = true) :
    (l3Push l data s).mem.wf = true := by
  unfold l3Push
  dsimp only
  split
  · exact h
  · exact Memory.wf_writeLine _ _ h

theorem writeNext_mem_wf (l : LineAddr) (data : List Byte) {s : State} (h : s.mem.wf = true) :
    (writeNext l data s).mem.wf = true := by
  unfold writeNext
  split
  · exact l3Push_mem_wf l data h
  · exact Memory.wf_writeLine _ _ h

theorem install_mem_wf (c : CoreId) (l : LineAddr) (data : List Byte) {s : State}
    (h : s.mem.wf = true) : (install c l data s).mem.wf = true := by
  unfold install
  dsimp only
  split
  · exact h
  · split
    · exact writeNext_mem_wf _ _ h
    · exact h

/-! ### Lines -/

/-- `line(a) ≤ a < line(a) + size` (R286). -/
theorem lineOf_le (size a : Nat) : lineOf size a ≤ a := Nat.sub_le _ _

theorem lt_lineOf_add {size : Nat} (a : Nat) (h : 0 < size) : a < lineOf size a + size := by
  unfold lineOf
  have := Nat.mod_lt a h
  have := Nat.mod_le a size
  omega

theorem lineOf_dvd (size a : Nat) : size ∣ lineOf size a := Nat.dvd_sub_mod a

@[simp] theorem lineOf_idem (size a : Nat) : lineOf size (lineOf size a) = lineOf size a := by
  unfold lineOf
  rw [Nat.mod_eq_zero_of_dvd (Nat.dvd_sub_mod a), Nat.sub_zero]

@[simp] theorem readLine_length (m : Memory) (size : Nat) (l : LineAddr) :
    (Memory.readLine m size l).length = size := by simp [Memory.readLine]

@[simp] theorem lineCells_length (l : LineAddr) (data : List Byte) :
    (lineCells l data).length = data.length := by simp [lineCells]

@[simp] theorem setLineBytes_length (l : LineAddr) (data : List Byte) (cells : List Host.Cell) :
    (setLineBytes l data cells).length = data.length := by
  unfold setLineBytes
  induction cells generalizing data with
  | nil => rfl
  | cons c cells ih => simp [ih]

end Sys2Proof.Machine
end

