-- ==== Sys2Proof/Laws/State.lean ====
section
/-! SUPPORT. One lemma per field per named update of the state and of a core, true by `rfl`, so that
no proof unfolds a record update; and reading a core back after a core was written. -/

namespace Sys2Proof.Machine

/-! ### Updates of the state -/

@[simp] theorem setCore_cfg (s : State) (c : CoreId) (k : Core) :
    (s.setCore c k).cfg = s.cfg := rfl

@[simp] theorem setCore_inputs (s : State) (c : CoreId) (k : Core) :
    (s.setCore c k).inputs = s.inputs := rfl

@[simp] theorem setCore_cycle (s : State) (c : CoreId) (k : Core) :
    (s.setCore c k).cycle = s.cycle := rfl

@[simp] theorem setCore_status (s : State) (c : CoreId) (k : Core) :
    (s.setCore c k).status = s.status := rfl

@[simp] theorem setCore_mem (s : State) (c : CoreId) (k : Core) :
    (s.setCore c k).mem = s.mem := rfl

@[simp] theorem setCore_l3 (s : State) (c : CoreId) (k : Core) :
    (s.setCore c k).l3 = s.l3 := rfl

@[simp] theorem setCore_dir (s : State) (c : CoreId) (k : Core) :
    (s.setCore c k).dir = s.dir := rfl

@[simp] theorem setCore_sem (s : State) (c : CoreId) (k : Core) :
    (s.setCore c k).sem = s.sem := rfl

@[simp] theorem setCore_cmds (s : State) (c : CoreId) (k : Core) :
    (s.setCore c k).cmds = s.cmds := rfl

@[simp] theorem setCore_cores (s : State) (c : CoreId) (k : Core) :
    (s.setCore c k).cores = s.cores.set c k := rfl

@[simp] theorem setCore_focus (s : State) (c : CoreId) (k : Core) :
    (s.setCore c k).focus = s.focus := rfl

@[simp] theorem setCore_raised (s : State) (c : CoreId) (k : Core) :
    (s.setCore c k).raised = s.raised := rfl

@[simp] theorem dirSet_cfg (s : State) (c : CoreId) (l : LineAddr) (v : Msi) :
    (s.dirSet c l v).cfg = s.cfg := rfl

@[simp] theorem dirSet_inputs (s : State) (c : CoreId) (l : LineAddr) (v : Msi) :
    (s.dirSet c l v).inputs = s.inputs := rfl

@[simp] theorem dirSet_cycle (s : State) (c : CoreId) (l : LineAddr) (v : Msi) :
    (s.dirSet c l v).cycle = s.cycle := rfl

@[simp] theorem dirSet_status (s : State) (c : CoreId) (l : LineAddr) (v : Msi) :
    (s.dirSet c l v).status = s.status := rfl

@[simp] theorem dirSet_mem (s : State) (c : CoreId) (l : LineAddr) (v : Msi) :
    (s.dirSet c l v).mem = s.mem := rfl

@[simp] theorem dirSet_l3 (s : State) (c : CoreId) (l : LineAddr) (v : Msi) :
    (s.dirSet c l v).l3 = s.l3 := rfl

@[simp] theorem dirSet_dir (s : State) (c : CoreId) (l : LineAddr) (v : Msi) :
    (s.dirSet c l v).dir = mapSet [] s.dir c (mapSet .i (mapGet [] s.dir c) l v) := rfl

@[simp] theorem dirSet_sem (s : State) (c : CoreId) (l : LineAddr) (v : Msi) :
    (s.dirSet c l v).sem = s.sem := rfl

@[simp] theorem dirSet_cmds (s : State) (c : CoreId) (l : LineAddr) (v : Msi) :
    (s.dirSet c l v).cmds = s.cmds := rfl

@[simp] theorem dirSet_cores (s : State) (c : CoreId) (l : LineAddr) (v : Msi) :
    (s.dirSet c l v).cores = s.cores := rfl

@[simp] theorem dirSet_focus (s : State) (c : CoreId) (l : LineAddr) (v : Msi) :
    (s.dirSet c l v).focus = s.focus := rfl

@[simp] theorem dirSet_raised (s : State) (c : CoreId) (l : LineAddr) (v : Msi) :
    (s.dirSet c l v).raised = s.raised := rfl

@[simp] theorem semSet_cfg (s : State) (l : LineAddr) (v : Sem) :
    (s.semSet l v).cfg = s.cfg := rfl

@[simp] theorem semSet_inputs (s : State) (l : LineAddr) (v : Sem) :
    (s.semSet l v).inputs = s.inputs := rfl

@[simp] theorem semSet_cycle (s : State) (l : LineAddr) (v : Sem) :
    (s.semSet l v).cycle = s.cycle := rfl

@[simp] theorem semSet_status (s : State) (l : LineAddr) (v : Sem) :
    (s.semSet l v).status = s.status := rfl

@[simp] theorem semSet_mem (s : State) (l : LineAddr) (v : Sem) :
    (s.semSet l v).mem = s.mem := rfl

@[simp] theorem semSet_l3 (s : State) (l : LineAddr) (v : Sem) :
    (s.semSet l v).l3 = s.l3 := rfl

@[simp] theorem semSet_dir (s : State) (l : LineAddr) (v : Sem) :
    (s.semSet l v).dir = s.dir := rfl

@[simp] theorem semSet_sem (s : State) (l : LineAddr) (v : Sem) :
    (s.semSet l v).sem = mapSet .free s.sem l v := rfl

@[simp] theorem semSet_cmds (s : State) (l : LineAddr) (v : Sem) :
    (s.semSet l v).cmds = s.cmds := rfl

@[simp] theorem semSet_cores (s : State) (l : LineAddr) (v : Sem) :
    (s.semSet l v).cores = s.cores := rfl

@[simp] theorem semSet_focus (s : State) (l : LineAddr) (v : Sem) :
    (s.semSet l v).focus = s.focus := rfl

@[simp] theorem semSet_raised (s : State) (l : LineAddr) (v : Sem) :
    (s.semSet l v).raised = s.raised := rfl

/-! ### Writing one field of a core is writing that core -/

theorem setReq_eq (c : CoreId) (v : Option ReqState) (s : State) :
    setReq c v s = s.setCore c { s.core c with req := v } := rfl

@[simp] theorem setReq_cfg (c : CoreId) (v : Option ReqState) (s : State) :
    (setReq c v s).cfg = s.cfg := rfl

@[simp] theorem setReq_inputs (c : CoreId) (v : Option ReqState) (s : State) :
    (setReq c v s).inputs = s.inputs := rfl

@[simp] theorem setReq_cycle (c : CoreId) (v : Option ReqState) (s : State) :
    (setReq c v s).cycle = s.cycle := rfl

@[simp] theorem setReq_status (c : CoreId) (v : Option ReqState) (s : State) :
    (setReq c v s).status = s.status := rfl

@[simp] theorem setReq_mem (c : CoreId) (v : Option ReqState) (s : State) :
    (setReq c v s).mem = s.mem := rfl

@[simp] theorem setReq_l3 (c : CoreId) (v : Option ReqState) (s : State) :
    (setReq c v s).l3 = s.l3 := rfl

@[simp] theorem setReq_dir (c : CoreId) (v : Option ReqState) (s : State) :
    (setReq c v s).dir = s.dir := rfl

@[simp] theorem setReq_sem (c : CoreId) (v : Option ReqState) (s : State) :
    (setReq c v s).sem = s.sem := rfl

@[simp] theorem setReq_cmds (c : CoreId) (v : Option ReqState) (s : State) :
    (setReq c v s).cmds = s.cmds := rfl

@[simp] theorem setReq_cores (c : CoreId) (v : Option ReqState) (s : State) :
    (setReq c v s).cores = s.cores.set c { s.core c with req := v } := rfl

@[simp] theorem setReq_focus (c : CoreId) (v : Option ReqState) (s : State) :
    (setReq c v s).focus = s.focus := rfl

@[simp] theorem setReq_raised (c : CoreId) (v : Option ReqState) (s : State) :
    (setReq c v s).raised = s.raised := rfl

theorem setL1d_eq (c : CoreId) (v : LruStore (List Byte)) (s : State) :
    setL1d c v s = s.setCore c { s.core c with l1d := v } := rfl

@[simp] theorem setL1d_cfg (c : CoreId) (v : LruStore (List Byte)) (s : State) :
    (setL1d c v s).cfg = s.cfg := rfl

@[simp] theorem setL1d_inputs (c : CoreId) (v : LruStore (List Byte)) (s : State) :
    (setL1d c v s).inputs = s.inputs := rfl

@[simp] theorem setL1d_cycle (c : CoreId) (v : LruStore (List Byte)) (s : State) :
    (setL1d c v s).cycle = s.cycle := rfl

@[simp] theorem setL1d_status (c : CoreId) (v : LruStore (List Byte)) (s : State) :
    (setL1d c v s).status = s.status := rfl

@[simp] theorem setL1d_mem (c : CoreId) (v : LruStore (List Byte)) (s : State) :
    (setL1d c v s).mem = s.mem := rfl

@[simp] theorem setL1d_l3 (c : CoreId) (v : LruStore (List Byte)) (s : State) :
    (setL1d c v s).l3 = s.l3 := rfl

@[simp] theorem setL1d_dir (c : CoreId) (v : LruStore (List Byte)) (s : State) :
    (setL1d c v s).dir = s.dir := rfl

@[simp] theorem setL1d_sem (c : CoreId) (v : LruStore (List Byte)) (s : State) :
    (setL1d c v s).sem = s.sem := rfl

@[simp] theorem setL1d_cmds (c : CoreId) (v : LruStore (List Byte)) (s : State) :
    (setL1d c v s).cmds = s.cmds := rfl

@[simp] theorem setL1d_cores (c : CoreId) (v : LruStore (List Byte)) (s : State) :
    (setL1d c v s).cores = s.cores.set c { s.core c with l1d := v } := rfl

@[simp] theorem setL1d_focus (c : CoreId) (v : LruStore (List Byte)) (s : State) :
    (setL1d c v s).focus = s.focus := rfl

@[simp] theorem setL1d_raised (c : CoreId) (v : LruStore (List Byte)) (s : State) :
    (setL1d c v s).raised = s.raised := rfl

theorem setSprog_eq (c : CoreId) (v : Option StoreProg) (s : State) :
    setSprog c v s = s.setCore c { s.core c with sprog := v } := rfl

@[simp] theorem setSprog_cfg (c : CoreId) (v : Option StoreProg) (s : State) :
    (setSprog c v s).cfg = s.cfg := rfl

@[simp] theorem setSprog_inputs (c : CoreId) (v : Option StoreProg) (s : State) :
    (setSprog c v s).inputs = s.inputs := rfl

@[simp] theorem setSprog_cycle (c : CoreId) (v : Option StoreProg) (s : State) :
    (setSprog c v s).cycle = s.cycle := rfl

@[simp] theorem setSprog_status (c : CoreId) (v : Option StoreProg) (s : State) :
    (setSprog c v s).status = s.status := rfl

@[simp] theorem setSprog_mem (c : CoreId) (v : Option StoreProg) (s : State) :
    (setSprog c v s).mem = s.mem := rfl

@[simp] theorem setSprog_l3 (c : CoreId) (v : Option StoreProg) (s : State) :
    (setSprog c v s).l3 = s.l3 := rfl

@[simp] theorem setSprog_dir (c : CoreId) (v : Option StoreProg) (s : State) :
    (setSprog c v s).dir = s.dir := rfl

@[simp] theorem setSprog_sem (c : CoreId) (v : Option StoreProg) (s : State) :
    (setSprog c v s).sem = s.sem := rfl

@[simp] theorem setSprog_cmds (c : CoreId) (v : Option StoreProg) (s : State) :
    (setSprog c v s).cmds = s.cmds := rfl

@[simp] theorem setSprog_cores (c : CoreId) (v : Option StoreProg) (s : State) :
    (setSprog c v s).cores = s.cores.set c { s.core c with sprog := v } := rfl

@[simp] theorem setSprog_focus (c : CoreId) (v : Option StoreProg) (s : State) :
    (setSprog c v s).focus = s.focus := rfl

@[simp] theorem setSprog_raised (c : CoreId) (v : Option StoreProg) (s : State) :
    (setSprog c v s).raised = s.raised := rfl

theorem setEu_eq (s : State) (c : CoreId) (i : Nat) (e : EuState) :
    s.setEu c i e = s.setCore c { s.core c with eu := (s.core c).eu.set i e } := rfl

@[simp] theorem setEu_cfg (s : State) (c : CoreId) (i : Nat) (e : EuState) :
    (s.setEu c i e).cfg = s.cfg := rfl

@[simp] theorem setEu_inputs (s : State) (c : CoreId) (i : Nat) (e : EuState) :
    (s.setEu c i e).inputs = s.inputs := rfl

@[simp] theorem setEu_cycle (s : State) (c : CoreId) (i : Nat) (e : EuState) :
    (s.setEu c i e).cycle = s.cycle := rfl

@[simp] theorem setEu_status (s : State) (c : CoreId) (i : Nat) (e : EuState) :
    (s.setEu c i e).status = s.status := rfl

@[simp] theorem setEu_mem (s : State) (c : CoreId) (i : Nat) (e : EuState) :
    (s.setEu c i e).mem = s.mem := rfl

@[simp] theorem setEu_l3 (s : State) (c : CoreId) (i : Nat) (e : EuState) :
    (s.setEu c i e).l3 = s.l3 := rfl

@[simp] theorem setEu_dir (s : State) (c : CoreId) (i : Nat) (e : EuState) :
    (s.setEu c i e).dir = s.dir := rfl

@[simp] theorem setEu_sem (s : State) (c : CoreId) (i : Nat) (e : EuState) :
    (s.setEu c i e).sem = s.sem := rfl

@[simp] theorem setEu_cmds (s : State) (c : CoreId) (i : Nat) (e : EuState) :
    (s.setEu c i e).cmds = s.cmds := rfl

@[simp] theorem setEu_cores (s : State) (c : CoreId) (i : Nat) (e : EuState) :
    (s.setEu c i e).cores = s.cores.set c { s.core c with eu := (s.core c).eu.set i e } := rfl

@[simp] theorem setEu_focus (s : State) (c : CoreId) (i : Nat) (e : EuState) :
    (s.setEu c i e).focus = s.focus := rfl

@[simp] theorem setEu_raised (s : State) (c : CoreId) (i : Nat) (e : EuState) :
    (s.setEu c i e).raised = s.raised := rfl

@[simp] theorem takeError_cfg (c : CoreId) (e : ProgramError) (s : State) :
    (takeError c e s).cfg = s.cfg := rfl

@[simp] theorem takeError_inputs (c : CoreId) (e : ProgramError) (s : State) :
    (takeError c e s).inputs = s.inputs := rfl

@[simp] theorem takeError_cycle (c : CoreId) (e : ProgramError) (s : State) :
    (takeError c e s).cycle = s.cycle := rfl

@[simp] theorem takeError_status (c : CoreId) (e : ProgramError) (s : State) :
    (takeError c e s).status = .error c e := rfl

@[simp] theorem takeError_mem (c : CoreId) (e : ProgramError) (s : State) :
    (takeError c e s).mem = s.mem := rfl

@[simp] theorem takeError_l3 (c : CoreId) (e : ProgramError) (s : State) :
    (takeError c e s).l3 = s.l3 := rfl

@[simp] theorem takeError_dir (c : CoreId) (e : ProgramError) (s : State) :
    (takeError c e s).dir = s.dir := rfl

@[simp] theorem takeError_sem (c : CoreId) (e : ProgramError) (s : State) :
    (takeError c e s).sem = s.sem := rfl

@[simp] theorem takeError_cmds (c : CoreId) (e : ProgramError) (s : State) :
    (takeError c e s).cmds = s.cmds := rfl

@[simp] theorem takeError_cores (c : CoreId) (e : ProgramError) (s : State) :
    (takeError c e s).cores = s.cores := rfl

@[simp] theorem takeError_focus (c : CoreId) (e : ProgramError) (s : State) :
    (takeError c e s).focus = s.focus := rfl

@[simp] theorem takeError_raised (c : CoreId) (e : ProgramError) (s : State) :
    (takeError c e s).raised = s.raised := rfl

/-! ### Reading a core back -/

theorem core_setCore_self (s : State) (c : CoreId) (k : Core) (h : c < s.cores.length) :
    (s.setCore c k).core c = k := by
  simp [State.core, State.setCore, h]

theorem core_setCore_ne (s : State) {c d : CoreId} (k : Core) (h : c ≠ d) :
    (s.setCore c k).core d = s.core d := by
  simp [State.core, State.setCore, List.getElem?_set_ne h]

/-- Writing a core that does not exist changes nothing. -/
theorem setCore_absent (s : State) (c : CoreId) (k : Core) (h : s.cores.length ≤ c) :
    s.setCore c k = s := by
  simp [State.setCore, List.set_eq_of_length_le h]

/-- A read of a core is a read of `cores` and of the configuration alone. -/
theorem core_congr {s t : State} (hc : t.cores = s.cores) (hg : t.cfg = s.cfg) (c : CoreId) :
    t.core c = s.core c := by
  simp [State.core, hc, hg]

@[simp] theorem core_dirSet (s : State) (d c : CoreId) (l : LineAddr) (v : Msi) :
    (s.dirSet d l v).core c = s.core c := rfl

@[simp] theorem core_semSet (s : State) (c : CoreId) (l : LineAddr) (v : Sem) :
    (s.semSet l v).core c = s.core c := rfl

@[simp] theorem input_setCore (s : State) (c d : CoreId) (k : Core) :
    (s.setCore c k).input d = s.input d := rfl

@[simp] theorem dirGet_setCore (s : State) (c d : CoreId) (k : Core) (l : LineAddr) :
    (s.setCore c k).dirGet d l = s.dirGet d l := rfl

@[simp] theorem dirGet_semSet (s : State) (d : CoreId) (l j : LineAddr) (v : Sem) :
    (s.semSet j v).dirGet d l = s.dirGet d l := rfl

@[simp] theorem semGet_setCore (s : State) (c : CoreId) (k : Core) (l : LineAddr) :
    (s.setCore c k).semGet l = s.semGet l := rfl

@[simp] theorem semGet_dirSet (s : State) (c : CoreId) (l j : LineAddr) (v : Msi) :
    (s.dirSet c j v).semGet l = s.semGet l := rfl

@[simp] theorem cores_length_setCore (s : State) (c : CoreId) (k : Core) :
    (s.setCore c k).cores.length = s.cores.length := by
  simp

/-! ### Updates of a core -/

@[simp] theorem setExpect_x (b : Seq) (e : Expect) (k : Core) :
    (setExpect b e k).x = k.x := rfl

@[simp] theorem setExpect_pw (b : Seq) (e : Expect) (k : Core) :
    (setExpect b e k).pw = k.pw := rfl

@[simp] theorem setExpect_pc (b : Seq) (e : Expect) (k : Core) :
    (setExpect b e k).pc = k.pc := rfl

@[simp] theorem setExpect_complete (b : Seq) (e : Expect) (k : Core) :
    (setExpect b e k).complete = k.complete := rfl

@[simp] theorem setExpect_fstate (b : Seq) (e : Expect) (k : Core) :
    (setExpect b e k).fstate = k.fstate := rfl

@[simp] theorem setExpect_l1i (b : Seq) (e : Expect) (k : Core) :
    (setExpect b e k).l1i = k.l1i := rfl

@[simp] theorem setExpect_fd (b : Seq) (e : Expect) (k : Core) :
    (setExpect b e k).fd = k.fd := rfl

@[simp] theorem setExpect_di (b : Seq) (e : Expect) (k : Core) :
    (setExpect b e k).di = k.di := rfl

@[simp] theorem setExpect_ie (b : Seq) (e : Expect) (k : Core) :
    (setExpect b e k).ie = k.ie := rfl

@[simp] theorem setExpect_ew (b : Seq) (e : Expect) (k : Core) :
    (setExpect b e k).ew = k.ew := rfl

@[simp] theorem setExpect_pendingBranch (b : Seq) (e : Expect) (k : Core) :
    (setExpect b e k).pendingBranch = k.pendingBranch := rfl

@[simp] theorem setExpect_nextSeq (b : Seq) (e : Expect) (k : Core) :
    (setExpect b e k).nextSeq = k.nextSeq := rfl

@[simp] theorem setExpect_pendingQ (b : Seq) (e : Expect) (k : Core) :
    (setExpect b e k).pendingQ = k.pendingQ := rfl

@[simp] theorem setExpect_prevIssued (b : Seq) (e : Expect) (k : Core) :
    (setExpect b e k).prevIssued = k.prevIssued := rfl

@[simp] theorem setExpect_curIssued (b : Seq) (e : Expect) (k : Core) :
    (setExpect b e k).curIssued = k.curIssued := rfl

@[simp] theorem setExpect_freePhys (b : Seq) (e : Expect) (k : Core) :
    (setExpect b e k).freePhys = k.freePhys := rfl

@[simp] theorem setExpect_links (b : Seq) (e : Expect) (k : Core) :
    (setExpect b e k).links = k.links := rfl

@[simp] theorem setExpect_rob (b : Seq) (e : Expect) (k : Core) :
    (setExpect b e k).rob = k.rob := rfl

@[simp] theorem setExpect_eu (b : Seq) (e : Expect) (k : Core) :
    (setExpect b e k).eu = k.eu := rfl

@[simp] theorem setExpect_btb (b : Seq) (e : Expect) (k : Core) :
    (setExpect b e k).btb = k.btb := rfl

@[simp] theorem setExpect_expect (b : Seq) (e : Expect) (k : Core) :
    (setExpect b e k).expect = assocInsert b e k.expect := rfl

@[simp] theorem setExpect_l1d (b : Seq) (e : Expect) (k : Core) :
    (setExpect b e k).l1d = k.l1d := rfl

@[simp] theorem setExpect_req (b : Seq) (e : Expect) (k : Core) :
    (setExpect b e k).req = k.req := rfl

@[simp] theorem setExpect_sprog (b : Seq) (e : Expect) (k : Core) :
    (setExpect b e k).sprog = k.sprog := rfl

@[simp] theorem setExpect_done (b : Seq) (e : Expect) (k : Core) :
    (setExpect b e k).done = k.done := rfl

@[simp] theorem setExpect_fwdCount (b : Seq) (e : Expect) (k : Core) :
    (setExpect b e k).fwdCount = k.fwdCount := rfl

@[simp] theorem setExpect_stallCount (b : Seq) (e : Expect) (k : Core) :
    (setExpect b e k).stallCount = k.stallCount := rfl

@[simp] theorem setExpect_flushCount (b : Seq) (e : Expect) (k : Core) :
    (setExpect b e k).flushCount = k.flushCount := rfl

@[simp] theorem dropExpect_x (b : Seq) (k : Core) :
    (dropExpect b k).x = k.x := rfl

@[simp] theorem dropExpect_pw (b : Seq) (k : Core) :
    (dropExpect b k).pw = k.pw := rfl

@[simp] theorem dropExpect_pc (b : Seq) (k : Core) :
    (dropExpect b k).pc = k.pc := rfl

@[simp] theorem dropExpect_complete (b : Seq) (k : Core) :
    (dropExpect b k).complete = k.complete := rfl

@[simp] theorem dropExpect_fstate (b : Seq) (k : Core) :
    (dropExpect b k).fstate = k.fstate := rfl

@[simp] theorem dropExpect_l1i (b : Seq) (k : Core) :
    (dropExpect b k).l1i = k.l1i := rfl

@[simp] theorem dropExpect_fd (b : Seq) (k : Core) :
    (dropExpect b k).fd = k.fd := rfl

@[simp] theorem dropExpect_di (b : Seq) (k : Core) :
    (dropExpect b k).di = k.di := rfl

@[simp] theorem dropExpect_ie (b : Seq) (k : Core) :
    (dropExpect b k).ie = k.ie := rfl

@[simp] theorem dropExpect_ew (b : Seq) (k : Core) :
    (dropExpect b k).ew = k.ew := rfl

@[simp] theorem dropExpect_pendingBranch (b : Seq) (k : Core) :
    (dropExpect b k).pendingBranch = k.pendingBranch := rfl

@[simp] theorem dropExpect_nextSeq (b : Seq) (k : Core) :
    (dropExpect b k).nextSeq = k.nextSeq := rfl

@[simp] theorem dropExpect_pendingQ (b : Seq) (k : Core) :
    (dropExpect b k).pendingQ = k.pendingQ := rfl

@[simp] theorem dropExpect_prevIssued (b : Seq) (k : Core) :
    (dropExpect b k).prevIssued = k.prevIssued := rfl

@[simp] theorem dropExpect_curIssued (b : Seq) (k : Core) :
    (dropExpect b k).curIssued = k.curIssued := rfl

@[simp] theorem dropExpect_freePhys (b : Seq) (k : Core) :
    (dropExpect b k).freePhys = k.freePhys := rfl

@[simp] theorem dropExpect_links (b : Seq) (k : Core) :
    (dropExpect b k).links = k.links := rfl

@[simp] theorem dropExpect_rob (b : Seq) (k : Core) :
    (dropExpect b k).rob = k.rob := rfl

@[simp] theorem dropExpect_eu (b : Seq) (k : Core) :
    (dropExpect b k).eu = k.eu := rfl

@[simp] theorem dropExpect_btb (b : Seq) (k : Core) :
    (dropExpect b k).btb = k.btb := rfl

@[simp] theorem dropExpect_expect (b : Seq) (k : Core) :
    (dropExpect b k).expect = assocErase b k.expect := rfl

@[simp] theorem dropExpect_l1d (b : Seq) (k : Core) :
    (dropExpect b k).l1d = k.l1d := rfl

@[simp] theorem dropExpect_req (b : Seq) (k : Core) :
    (dropExpect b k).req = k.req := rfl

@[simp] theorem dropExpect_sprog (b : Seq) (k : Core) :
    (dropExpect b k).sprog = k.sprog := rfl

@[simp] theorem dropExpect_done (b : Seq) (k : Core) :
    (dropExpect b k).done = k.done := rfl

@[simp] theorem dropExpect_fwdCount (b : Seq) (k : Core) :
    (dropExpect b k).fwdCount = k.fwdCount := rfl

@[simp] theorem dropExpect_stallCount (b : Seq) (k : Core) :
    (dropExpect b k).stallCount = k.stallCount := rfl

@[simp] theorem dropExpect_flushCount (b : Seq) (k : Core) :
    (dropExpect b k).flushCount = k.flushCount := rfl

@[simp] theorem clearPendingBranch_x (k : Core) :
    (clearPendingBranch k).x = k.x := rfl

@[simp] theorem clearPendingBranch_pw (k : Core) :
    (clearPendingBranch k).pw = k.pw := rfl

@[simp] theorem clearPendingBranch_pc (k : Core) :
    (clearPendingBranch k).pc = k.pc := rfl

@[simp] theorem clearPendingBranch_complete (k : Core) :
    (clearPendingBranch k).complete = k.complete := rfl

@[simp] theorem clearPendingBranch_fstate (k : Core) :
    (clearPendingBranch k).fstate = k.fstate := rfl

@[simp] theorem clearPendingBranch_l1i (k : Core) :
    (clearPendingBranch k).l1i = k.l1i := rfl

@[simp] theorem clearPendingBranch_fd (k : Core) :
    (clearPendingBranch k).fd = k.fd := rfl

@[simp] theorem clearPendingBranch_di (k : Core) :
    (clearPendingBranch k).di = k.di := rfl

@[simp] theorem clearPendingBranch_ie (k : Core) :
    (clearPendingBranch k).ie = k.ie := rfl

@[simp] theorem clearPendingBranch_ew (k : Core) :
    (clearPendingBranch k).ew = k.ew := rfl

@[simp] theorem clearPendingBranch_pendingBranch (k : Core) :
    (clearPendingBranch k).pendingBranch = false := rfl

@[simp] theorem clearPendingBranch_nextSeq (k : Core) :
    (clearPendingBranch k).nextSeq = k.nextSeq := rfl

@[simp] theorem clearPendingBranch_pendingQ (k : Core) :
    (clearPendingBranch k).pendingQ = k.pendingQ := rfl

@[simp] theorem clearPendingBranch_prevIssued (k : Core) :
    (clearPendingBranch k).prevIssued = k.prevIssued := rfl

@[simp] theorem clearPendingBranch_curIssued (k : Core) :
    (clearPendingBranch k).curIssued = k.curIssued := rfl

@[simp] theorem clearPendingBranch_freePhys (k : Core) :
    (clearPendingBranch k).freePhys = k.freePhys := rfl

@[simp] theorem clearPendingBranch_links (k : Core) :
    (clearPendingBranch k).links = k.links := rfl

@[simp] theorem clearPendingBranch_rob (k : Core) :
    (clearPendingBranch k).rob = k.rob := rfl

@[simp] theorem clearPendingBranch_eu (k : Core) :
    (clearPendingBranch k).eu = k.eu := rfl

@[simp] theorem clearPendingBranch_btb (k : Core) :
    (clearPendingBranch k).btb = k.btb := rfl

@[simp] theorem clearPendingBranch_expect (k : Core) :
    (clearPendingBranch k).expect = k.expect := rfl

@[simp] theorem clearPendingBranch_l1d (k : Core) :
    (clearPendingBranch k).l1d = k.l1d := rfl

@[simp] theorem clearPendingBranch_req (k : Core) :
    (clearPendingBranch k).req = k.req := rfl

@[simp] theorem clearPendingBranch_sprog (k : Core) :
    (clearPendingBranch k).sprog = k.sprog := rfl

@[simp] theorem clearPendingBranch_done (k : Core) :
    (clearPendingBranch k).done = k.done := rfl

@[simp] theorem clearPendingBranch_fwdCount (k : Core) :
    (clearPendingBranch k).fwdCount = k.fwdCount := rfl

@[simp] theorem clearPendingBranch_stallCount (k : Core) :
    (clearPendingBranch k).stallCount = k.stallCount := rfl

@[simp] theorem clearPendingBranch_flushCount (k : Core) :
    (clearPendingBranch k).flushCount = k.flushCount := rfl

@[simp] theorem fetchReset_x (t : Word) (k : Core) :
    (fetchReset t k).x = k.x := rfl

@[simp] theorem fetchReset_pw (t : Word) (k : Core) :
    (fetchReset t k).pw = k.pw := rfl

@[simp] theorem fetchReset_pc (t : Word) (k : Core) :
    (fetchReset t k).pc = t := rfl

@[simp] theorem fetchReset_complete (t : Word) (k : Core) :
    (fetchReset t k).complete = false := rfl

@[simp] theorem fetchReset_fstate (t : Word) (k : Core) :
    (fetchReset t k).fstate = .idle := rfl

@[simp] theorem fetchReset_l1i (t : Word) (k : Core) :
    (fetchReset t k).l1i = k.l1i := rfl

@[simp] theorem fetchReset_fd (t : Word) (k : Core) :
    (fetchReset t k).fd = .empty := rfl

@[simp] theorem fetchReset_di (t : Word) (k : Core) :
    (fetchReset t k).di = k.di := rfl

@[simp] theorem fetchReset_ie (t : Word) (k : Core) :
    (fetchReset t k).ie = k.ie := rfl

@[simp] theorem fetchReset_ew (t : Word) (k : Core) :
    (fetchReset t k).ew = k.ew := rfl

@[simp] theorem fetchReset_pendingBranch (t : Word) (k : Core) :
    (fetchReset t k).pendingBranch = k.pendingBranch := rfl

@[simp] theorem fetchReset_nextSeq (t : Word) (k : Core) :
    (fetchReset t k).nextSeq = k.nextSeq := rfl

@[simp] theorem fetchReset_pendingQ (t : Word) (k : Core) :
    (fetchReset t k).pendingQ = k.pendingQ := rfl

@[simp] theorem fetchReset_prevIssued (t : Word) (k : Core) :
    (fetchReset t k).prevIssued = k.prevIssued := rfl

@[simp] theorem fetchReset_curIssued (t : Word) (k : Core) :
    (fetchReset t k).curIssued = k.curIssued := rfl

@[simp] theorem fetchReset_freePhys (t : Word) (k : Core) :
    (fetchReset t k).freePhys = k.freePhys := rfl

@[simp] theorem fetchReset_links (t : Word) (k : Core) :
    (fetchReset t k).links = k.links := rfl

@[simp] theorem fetchReset_rob (t : Word) (k : Core) :
    (fetchReset t k).rob = k.rob := rfl

@[simp] theorem fetchReset_eu (t : Word) (k : Core) :
    (fetchReset t k).eu = k.eu := rfl

@[simp] theorem fetchReset_btb (t : Word) (k : Core) :
    (fetchReset t k).btb = k.btb := rfl

@[simp] theorem fetchReset_expect (t : Word) (k : Core) :
    (fetchReset t k).expect = k.expect := rfl

@[simp] theorem fetchReset_l1d (t : Word) (k : Core) :
    (fetchReset t k).l1d = k.l1d := rfl

@[simp] theorem fetchReset_req (t : Word) (k : Core) :
    (fetchReset t k).req = k.req := rfl

@[simp] theorem fetchReset_sprog (t : Word) (k : Core) :
    (fetchReset t k).sprog = k.sprog := rfl

@[simp] theorem fetchReset_done (t : Word) (k : Core) :
    (fetchReset t k).done = k.done := rfl

@[simp] theorem fetchReset_fwdCount (t : Word) (k : Core) :
    (fetchReset t k).fwdCount = k.fwdCount := rfl

@[simp] theorem fetchReset_stallCount (t : Word) (k : Core) :
    (fetchReset t k).stallCount = k.stallCount := rfl

@[simp] theorem fetchReset_flushCount (t : Word) (k : Core) :
    (fetchReset t k).flushCount = k.flushCount := rfl

@[simp] theorem issueFlush_x (b : Seq) (k : Core) :
    (issueFlush b k).x = k.x := rfl

@[simp] theorem issueFlush_pw (b : Seq) (k : Core) :
    (issueFlush b k).pw = k.pw := rfl

@[simp] theorem issueFlush_pc (b : Seq) (k : Core) :
    (issueFlush b k).pc = k.pc := rfl

@[simp] theorem issueFlush_complete (b : Seq) (k : Core) :
    (issueFlush b k).complete = k.complete := rfl

@[simp] theorem issueFlush_fstate (b : Seq) (k : Core) :
    (issueFlush b k).fstate = k.fstate := rfl

@[simp] theorem issueFlush_l1i (b : Seq) (k : Core) :
    (issueFlush b k).l1i = k.l1i := rfl

@[simp] theorem issueFlush_fd (b : Seq) (k : Core) :
    (issueFlush b k).fd = k.fd := rfl

@[simp] theorem issueFlush_di (b : Seq) (k : Core) :
    (issueFlush b k).di = k.di := rfl

@[simp] theorem issueFlush_ie (b : Seq) (k : Core) :
    (issueFlush b k).ie = k.ie := rfl

@[simp] theorem issueFlush_ew (b : Seq) (k : Core) :
    (issueFlush b k).ew = k.ew := rfl

@[simp] theorem issueFlush_pendingBranch (b : Seq) (k : Core) :
    (issueFlush b k).pendingBranch = k.pendingBranch := rfl

@[simp] theorem issueFlush_nextSeq (b : Seq) (k : Core) :
    (issueFlush b k).nextSeq = k.nextSeq := rfl

@[simp] theorem issueFlush_pendingQ (b : Seq) (k : Core) :
    (issueFlush b k).pendingQ = k.pendingQ.filter (fun r => decide (r.seq ≤ b)) := rfl

@[simp] theorem issueFlush_prevIssued (b : Seq) (k : Core) :
    (issueFlush b k).prevIssued = [] := rfl

@[simp] theorem issueFlush_curIssued (b : Seq) (k : Core) :
    (issueFlush b k).curIssued = [] := rfl

@[simp] theorem issueFlush_freePhys (b : Seq) (k : Core) :
    (issueFlush b k).freePhys = k.freePhys := rfl

@[simp] theorem issueFlush_links (b : Seq) (k : Core) :
    (issueFlush b k).links = k.links := rfl

@[simp] theorem issueFlush_rob (b : Seq) (k : Core) :
    (issueFlush b k).rob = k.rob := rfl

@[simp] theorem issueFlush_eu (b : Seq) (k : Core) :
    (issueFlush b k).eu = k.eu := rfl

@[simp] theorem issueFlush_btb (b : Seq) (k : Core) :
    (issueFlush b k).btb = k.btb := rfl

@[simp] theorem issueFlush_expect (b : Seq) (k : Core) :
    (issueFlush b k).expect = k.expect := rfl

@[simp] theorem issueFlush_l1d (b : Seq) (k : Core) :
    (issueFlush b k).l1d = k.l1d := rfl

@[simp] theorem issueFlush_req (b : Seq) (k : Core) :
    (issueFlush b k).req = k.req := rfl

@[simp] theorem issueFlush_sprog (b : Seq) (k : Core) :
    (issueFlush b k).sprog = k.sprog := rfl

@[simp] theorem issueFlush_done (b : Seq) (k : Core) :
    (issueFlush b k).done = k.done := rfl

@[simp] theorem issueFlush_fwdCount (b : Seq) (k : Core) :
    (issueFlush b k).fwdCount = k.fwdCount := rfl

@[simp] theorem issueFlush_stallCount (b : Seq) (k : Core) :
    (issueFlush b k).stallCount = k.stallCount := rfl

@[simp] theorem issueFlush_flushCount (b : Seq) (k : Core) :
    (issueFlush b k).flushCount = k.flushCount := rfl

@[simp] theorem pushOk_x (i : Nat) (w : Work) (o : ExecutionResult) (k : Core) :
    (pushOk i w o k).x = k.x := rfl

@[simp] theorem pushOk_pw (i : Nat) (w : Work) (o : ExecutionResult) (k : Core) :
    (pushOk i w o k).pw = k.pw := rfl

@[simp] theorem pushOk_pc (i : Nat) (w : Work) (o : ExecutionResult) (k : Core) :
    (pushOk i w o k).pc = k.pc := rfl

@[simp] theorem pushOk_complete (i : Nat) (w : Work) (o : ExecutionResult) (k : Core) :
    (pushOk i w o k).complete = k.complete := rfl

@[simp] theorem pushOk_fstate (i : Nat) (w : Work) (o : ExecutionResult) (k : Core) :
    (pushOk i w o k).fstate = k.fstate := rfl

@[simp] theorem pushOk_l1i (i : Nat) (w : Work) (o : ExecutionResult) (k : Core) :
    (pushOk i w o k).l1i = k.l1i := rfl

@[simp] theorem pushOk_fd (i : Nat) (w : Work) (o : ExecutionResult) (k : Core) :
    (pushOk i w o k).fd = k.fd := rfl

@[simp] theorem pushOk_di (i : Nat) (w : Work) (o : ExecutionResult) (k : Core) :
    (pushOk i w o k).di = k.di := rfl

@[simp] theorem pushOk_ie (i : Nat) (w : Work) (o : ExecutionResult) (k : Core) :
    (pushOk i w o k).ie = k.ie := rfl

@[simp] theorem pushOk_ew (i : Nat) (w : Work) (o : ExecutionResult) (k : Core) :
    (pushOk i w o k).ew = k.ew := rfl

@[simp] theorem pushOk_pendingBranch (i : Nat) (w : Work) (o : ExecutionResult) (k : Core) :
    (pushOk i w o k).pendingBranch = k.pendingBranch := rfl

@[simp] theorem pushOk_nextSeq (i : Nat) (w : Work) (o : ExecutionResult) (k : Core) :
    (pushOk i w o k).nextSeq = k.nextSeq := rfl

@[simp] theorem pushOk_pendingQ (i : Nat) (w : Work) (o : ExecutionResult) (k : Core) :
    (pushOk i w o k).pendingQ = k.pendingQ := rfl

@[simp] theorem pushOk_prevIssued (i : Nat) (w : Work) (o : ExecutionResult) (k : Core) :
    (pushOk i w o k).prevIssued = k.prevIssued := rfl

@[simp] theorem pushOk_curIssued (i : Nat) (w : Work) (o : ExecutionResult) (k : Core) :
    (pushOk i w o k).curIssued = k.curIssued := rfl

@[simp] theorem pushOk_freePhys (i : Nat) (w : Work) (o : ExecutionResult) (k : Core) :
    (pushOk i w o k).freePhys = k.freePhys := rfl

@[simp] theorem pushOk_links (i : Nat) (w : Work) (o : ExecutionResult) (k : Core) :
    (pushOk i w o k).links = k.links := rfl

@[simp] theorem pushOk_rob (i : Nat) (w : Work) (o : ExecutionResult) (k : Core) :
    (pushOk i w o k).rob = k.rob := rfl

@[simp] theorem pushOk_eu (i : Nat) (w : Work) (o : ExecutionResult) (k : Core) :
    (pushOk i w o k).eu = k.eu.set i (.push w ⟨w.run.seq, .ok o⟩) := rfl

@[simp] theorem pushOk_btb (i : Nat) (w : Work) (o : ExecutionResult) (k : Core) :
    (pushOk i w o k).btb = k.btb := rfl

@[simp] theorem pushOk_expect (i : Nat) (w : Work) (o : ExecutionResult) (k : Core) :
    (pushOk i w o k).expect = k.expect := rfl

@[simp] theorem pushOk_l1d (i : Nat) (w : Work) (o : ExecutionResult) (k : Core) :
    (pushOk i w o k).l1d = k.l1d := rfl

@[simp] theorem pushOk_req (i : Nat) (w : Work) (o : ExecutionResult) (k : Core) :
    (pushOk i w o k).req = k.req := rfl

@[simp] theorem pushOk_sprog (i : Nat) (w : Work) (o : ExecutionResult) (k : Core) :
    (pushOk i w o k).sprog = k.sprog := rfl

@[simp] theorem pushOk_done (i : Nat) (w : Work) (o : ExecutionResult) (k : Core) :
    (pushOk i w o k).done = k.done := rfl

@[simp] theorem pushOk_fwdCount (i : Nat) (w : Work) (o : ExecutionResult) (k : Core) :
    (pushOk i w o k).fwdCount = k.fwdCount := rfl

@[simp] theorem pushOk_stallCount (i : Nat) (w : Work) (o : ExecutionResult) (k : Core) :
    (pushOk i w o k).stallCount = k.stallCount := rfl

@[simp] theorem pushOk_flushCount (i : Nat) (w : Work) (o : ExecutionResult) (k : Core) :
    (pushOk i w o k).flushCount = k.flushCount := rfl

@[simp] theorem recordError_x (i : Nat) (w : Work) (e : ProgramError) (k : Core) :
    ((recordError i w e k).1).x = k.x := rfl

@[simp] theorem recordError_pw (i : Nat) (w : Work) (e : ProgramError) (k : Core) :
    ((recordError i w e k).1).pw = k.pw := rfl

@[simp] theorem recordError_pc (i : Nat) (w : Work) (e : ProgramError) (k : Core) :
    ((recordError i w e k).1).pc = k.pc := rfl

@[simp] theorem recordError_complete (i : Nat) (w : Work) (e : ProgramError) (k : Core) :
    ((recordError i w e k).1).complete = k.complete := rfl

@[simp] theorem recordError_fstate (i : Nat) (w : Work) (e : ProgramError) (k : Core) :
    ((recordError i w e k).1).fstate = k.fstate := rfl

@[simp] theorem recordError_l1i (i : Nat) (w : Work) (e : ProgramError) (k : Core) :
    ((recordError i w e k).1).l1i = k.l1i := rfl

@[simp] theorem recordError_fd (i : Nat) (w : Work) (e : ProgramError) (k : Core) :
    ((recordError i w e k).1).fd = k.fd := rfl

@[simp] theorem recordError_di (i : Nat) (w : Work) (e : ProgramError) (k : Core) :
    ((recordError i w e k).1).di = k.di := rfl

@[simp] theorem recordError_ie (i : Nat) (w : Work) (e : ProgramError) (k : Core) :
    ((recordError i w e k).1).ie = k.ie := rfl

@[simp] theorem recordError_ew (i : Nat) (w : Work) (e : ProgramError) (k : Core) :
    ((recordError i w e k).1).ew = k.ew := rfl

@[simp] theorem recordError_pendingBranch (i : Nat) (w : Work) (e : ProgramError) (k : Core) :
    ((recordError i w e k).1).pendingBranch = k.pendingBranch := rfl

@[simp] theorem recordError_nextSeq (i : Nat) (w : Work) (e : ProgramError) (k : Core) :
    ((recordError i w e k).1).nextSeq = k.nextSeq := rfl

@[simp] theorem recordError_pendingQ (i : Nat) (w : Work) (e : ProgramError) (k : Core) :
    ((recordError i w e k).1).pendingQ = k.pendingQ := rfl

@[simp] theorem recordError_prevIssued (i : Nat) (w : Work) (e : ProgramError) (k : Core) :
    ((recordError i w e k).1).prevIssued = k.prevIssued := rfl

@[simp] theorem recordError_curIssued (i : Nat) (w : Work) (e : ProgramError) (k : Core) :
    ((recordError i w e k).1).curIssued = k.curIssued := rfl

@[simp] theorem recordError_freePhys (i : Nat) (w : Work) (e : ProgramError) (k : Core) :
    ((recordError i w e k).1).freePhys = k.freePhys := rfl

@[simp] theorem recordError_links (i : Nat) (w : Work) (e : ProgramError) (k : Core) :
    ((recordError i w e k).1).links = k.links := rfl

@[simp] theorem recordError_rob (i : Nat) (w : Work) (e : ProgramError) (k : Core) :
    ((recordError i w e k).1).rob = robSetStatus k.rob w.run.seq .executed := rfl

@[simp] theorem recordError_eu (i : Nat) (w : Work) (e : ProgramError) (k : Core) :
    ((recordError i w e k).1).eu = k.eu.set i (.push w ⟨w.run.seq, .err e⟩) := rfl

@[simp] theorem recordError_btb (i : Nat) (w : Work) (e : ProgramError) (k : Core) :
    ((recordError i w e k).1).btb = k.btb := rfl

@[simp] theorem recordError_expect (i : Nat) (w : Work) (e : ProgramError) (k : Core) :
    ((recordError i w e k).1).expect = assocErase w.run.seq k.expect := rfl

@[simp] theorem recordError_l1d (i : Nat) (w : Work) (e : ProgramError) (k : Core) :
    ((recordError i w e k).1).l1d = k.l1d := rfl

@[simp] theorem recordError_req (i : Nat) (w : Work) (e : ProgramError) (k : Core) :
    ((recordError i w e k).1).req = k.req := rfl

@[simp] theorem recordError_sprog (i : Nat) (w : Work) (e : ProgramError) (k : Core) :
    ((recordError i w e k).1).sprog = k.sprog := rfl

@[simp] theorem recordError_done (i : Nat) (w : Work) (e : ProgramError) (k : Core) :
    ((recordError i w e k).1).done = k.done := rfl

@[simp] theorem recordError_fwdCount (i : Nat) (w : Work) (e : ProgramError) (k : Core) :
    ((recordError i w e k).1).fwdCount = k.fwdCount := rfl

@[simp] theorem recordError_stallCount (i : Nat) (w : Work) (e : ProgramError) (k : Core) :
    ((recordError i w e k).1).stallCount = k.stallCount := rfl

@[simp] theorem recordError_flushCount (i : Nat) (w : Work) (e : ProgramError) (k : Core) :
    ((recordError i w e k).1).flushCount = k.flushCount := rfl

@[simp] theorem connectAll_x (g : Cfg) (k : Core) :
    (connectAll g k).x = k.x := rfl

@[simp] theorem connectAll_pw (g : Cfg) (k : Core) :
    (connectAll g k).pw = k.pw := rfl

@[simp] theorem connectAll_pc (g : Cfg) (k : Core) :
    (connectAll g k).pc = k.pc := rfl

@[simp] theorem connectAll_complete (g : Cfg) (k : Core) :
    (connectAll g k).complete = k.complete := rfl

@[simp] theorem connectAll_fstate (g : Cfg) (k : Core) :
    (connectAll g k).fstate = k.fstate := rfl

@[simp] theorem connectAll_l1i (g : Cfg) (k : Core) :
    (connectAll g k).l1i = k.l1i := rfl

@[simp] theorem connectAll_fd (g : Cfg) (k : Core) :
    (connectAll g k).fd = k.fd.connect g.busCap := rfl

@[simp] theorem connectAll_di (g : Cfg) (k : Core) :
    (connectAll g k).di = k.di.connect g.busCap := rfl

@[simp] theorem connectAll_ie (g : Cfg) (k : Core) :
    (connectAll g k).ie = k.ie.connect g.busCap := rfl

@[simp] theorem connectAll_ew (g : Cfg) (k : Core) :
    (connectAll g k).ew = k.ew.connect g.busCap := rfl

@[simp] theorem connectAll_pendingBranch (g : Cfg) (k : Core) :
    (connectAll g k).pendingBranch = k.pendingBranch := rfl

@[simp] theorem connectAll_nextSeq (g : Cfg) (k : Core) :
    (connectAll g k).nextSeq = k.nextSeq := rfl

@[simp] theorem connectAll_pendingQ (g : Cfg) (k : Core) :
    (connectAll g k).pendingQ = k.pendingQ := rfl

@[simp] theorem connectAll_prevIssued (g : Cfg) (k : Core) :
    (connectAll g k).prevIssued = k.prevIssued := rfl

@[simp] theorem connectAll_curIssued (g : Cfg) (k : Core) :
    (connectAll g k).curIssued = k.curIssued := rfl

@[simp] theorem connectAll_freePhys (g : Cfg) (k : Core) :
    (connectAll g k).freePhys = k.freePhys := rfl

@[simp] theorem connectAll_links (g : Cfg) (k : Core) :
    (connectAll g k).links = k.links := rfl

@[simp] theorem connectAll_rob (g : Cfg) (k : Core) :
    (connectAll g k).rob = k.rob := rfl

@[simp] theorem connectAll_eu (g : Cfg) (k : Core) :
    (connectAll g k).eu = k.eu := rfl

@[simp] theorem connectAll_btb (g : Cfg) (k : Core) :
    (connectAll g k).btb = k.btb := rfl

@[simp] theorem connectAll_expect (g : Cfg) (k : Core) :
    (connectAll g k).expect = k.expect := rfl

@[simp] theorem connectAll_l1d (g : Cfg) (k : Core) :
    (connectAll g k).l1d = k.l1d := rfl

@[simp] theorem connectAll_req (g : Cfg) (k : Core) :
    (connectAll g k).req = k.req := rfl

@[simp] theorem connectAll_sprog (g : Cfg) (k : Core) :
    (connectAll g k).sprog = k.sprog := rfl

@[simp] theorem connectAll_done (g : Cfg) (k : Core) :
    (connectAll g k).done = k.done := rfl

@[simp] theorem connectAll_fwdCount (g : Cfg) (k : Core) :
    (connectAll g k).fwdCount = k.fwdCount := rfl

@[simp] theorem connectAll_stallCount (g : Cfg) (k : Core) :
    (connectAll g k).stallCount = k.stallCount := rfl

@[simp] theorem connectAll_flushCount (g : Cfg) (k : Core) :
    (connectAll g k).flushCount = k.flushCount := rfl

end Sys2Proof.Machine
end

