-- ==== Sys2Proof/Laws/Ops.lean ====
section
/-! SUPPORT. For each shared operation one lemma that says once everything it can do when it answers,
so that a proof cites it instead of unfolding the operation. -/

namespace Sys2Proof.Machine

/-- An operation built from two answers when both answer. -/
theorem bind_ok {α β : Type} {x : Res α} {f : α → Res β} {b : β} :
    (x >>= f) = .ok b ↔ ∃ a, x = .ok a ∧ f a = .ok b := by
  cases x <;> simp [bind, Except.bind]

@[simp] theorem faultWith_ne_ok {α : Type} (f : Fault) (a : α) : faultWith f ≠ .ok a := by
  simp [faultWith]

@[simp] theorem ok_ne_faultWith {α : Type} (f : Fault) (a : α) : .ok a ≠ (faultWith f : Res α) := by
  simp [faultWith]

@[simp] theorem toOutcome_ok (s : State) : toOutcome (.ok s) = .next s := rfl

theorem ofOutcome_ok {o : Host.Outcome State Fault Refusal} {s : State} :
    ofOutcome o = .ok s ↔ o = .next s := by
  cases o <;> simp [ofOutcome]

/-! ### Buses -/

theorem Bus.add_ok {α : Type} {cap : Nat} {b b' : Bus α} {v : α} :
    b.add cap v = .ok b' ↔ b.entry.length < cap ∧ b' = { b with entry := b.entry ++ [v] } := by
  unfold Bus.add
  split
  · rename_i h
    simp [h, eq_comm]
  · rename_i h
    simp [h]

theorem Bus.get_ok {α : Type} {b b' : Bus α} {v : α} :
    b.get = .ok (v, b') ↔ b.visible = v :: b'.visible ∧ b' = { b with visible := b'.visible } := by
  unfold Bus.get
  cases hb : b.visible with
  | nil => simp
  | cons w rest =>
    constructor
    · intro h
      simp only [Except.ok.injEq, Prod.mk.injEq] at h
      obtain ⟨rfl, rfl⟩ := h
      simp
    · rintro ⟨h1, h2⟩
      simp only [List.cons.injEq] at h1
      obtain ⟨rfl, h3⟩ := h1
      rw [h2, h3]

theorem Bus.peek_ok {α : Type} {b : Bus α} {v : α} :
    b.peek = .ok v ↔ b.visible.head? = some v := by
  unfold Bus.peek
  cases b.visible <;> simp

/-! ### Line stores -/

theorem lruFind_some_iff_contains {α : Type} (st : LruStore α) (l : LineAddr) :
    (∃ d, lruFind st l = some d) ↔ lruContains st l = true := by
  unfold lruFind lruContains
  constructor
  · rintro ⟨d, h⟩
    simpa using ⟨d, assocFind_mem h⟩
  · intro h
    cases hf : assocFind l st with
    | some d => exact ⟨d, rfl⟩
    | none =>
      have := assocFind_none.mp hf
      simp_all

theorem lruRead_ok {α : Type} {st st' : LruStore α} {l : LineAddr} {d : α} :
    lruRead st l = .ok (d, st') ↔ lruFind st l = some d ∧ st' = lruRemove st l ++ [(l, d)] := by
  unfold lruRead
  cases lruFind st l with
  | none => simp
  | some e =>
    constructor
    · intro h
      simp only [Except.ok.injEq, Prod.mk.injEq] at h
      exact ⟨congrArg some h.1, by rw [← h.2, h.1]⟩
    · rintro ⟨h1, h2⟩
      simp_all

theorem lruTouch_ok {α : Type} {st st' : LruStore α} {l : LineAddr} :
    lruTouch st l = .ok st' ↔ ∃ d, lruFind st l = some d ∧ st' = lruRemove st l ++ [(l, d)] := by
  unfold lruTouch
  cases lruFind st l <;> simp [eq_comm]

theorem lruWrite_ok {st st' : LruStore (List Byte)} {l : LineAddr} {cells : List Host.Cell} :
    lruWrite st l cells = .ok st' ↔
      ∃ d, lruFind st l = some d ∧ st' = lruRemove st l ++ [(l, setLineBytes l d cells)] := by
  unfold lruWrite
  cases lruFind st l <;> simp [eq_comm]

/-! ### Semaphores -/

theorem Sem.tryLock_some {v v' : Sem} {m : LockMode} :
    v.tryLock m = some v' ↔
      v.writer = false ∧
        ((m = .read ∧ v' = { v with readers := v.readers + 1 }) ∨
          (m = .write ∧ v.readers = 0 ∧ v' = { v with writer := true })) := by
  cases m <;> cases hw : v.writer <;> simp [Sem.tryLock, Sem.tryRead, Sem.tryWrite, hw, eq_comm]

theorem Sem.release_ok {v v' : Sem} {m : LockMode} :
    v.release m = .ok v' ↔
      (m = .read ∧ 0 < v.readers ∧ v' = { v with readers := v.readers - 1 }) ∨
        (m = .write ∧ v.writer = true ∧ v' = { v with writer := false }) := by
  cases m
  · by_cases h : v.readers = 0
    · simp [Sem.release, Sem.releaseRead, h]
    · have : 0 < v.readers := Nat.pos_of_ne_zero h
      simp [Sem.release, Sem.releaseRead, h, this, eq_comm (a := v')]
  · cases hw : v.writer
    · simp [Sem.release, Sem.releaseWrite, hw]
    · simp [Sem.release, Sem.releaseWrite, hw, eq_comm (a := v')]

theorem releaseLock_ok {l : LineAddr} {m : LockMode} {s t : State} :
    releaseLock l m s = .ok t ↔ ∃ v, (s.semGet l).release m = .ok v ∧ t = s.semSet l v := by
  simp only [releaseLock, bind_ok, Except.ok.injEq, eq_comm (a := t)]

/-! ### Pending-write counts -/

theorem pwLower_cons_ok {pw pw' : List (RegId × Nat)} {q : RegId} {w : List RegId} :
    pwLower pw (q :: w) = .ok pw' ↔
      pwGet pw q ≠ 0 ∧ pwLower (mapSet 0 pw q (pwGet pw q - 1)) w = .ok pw' := by
  simp only [pwLower]
  split <;> simp_all

theorem pwGet_raise (pw : List (RegId × Nat)) (w : List RegId) (q : RegId) :
    pwGet (pwRaise pw w) q = pwGet pw q + w.count q := by
  unfold pwRaise
  induction w generalizing pw with
  | nil => simp
  | cons p w ih =>
    rw [List.foldl_cons, ih]
    unfold pwGet
    by_cases h : p = q
    · subst h
      simp
      omega
    · rw [mapGet_set_ne _ _ _ (Ne.symm h)]
      simp [h]

theorem pwGet_lower {pw pw' : List (RegId × Nat)} {w : List RegId} (h : pwLower pw w = .ok pw')
    (q : RegId) : pwGet pw' q + w.count q = pwGet pw q := by
  induction w generalizing pw with
  | nil =>
    simp [pwLower] at h
    simp [h]
  | cons p w ih =>
    obtain ⟨h0, h1⟩ := pwLower_cons_ok.mp h
    have h2 := ih h1
    by_cases hp : p = q
    · subst hp
      have : pwGet (mapSet 0 pw p (pwGet pw p - 1)) p = pwGet pw p - 1 := mapGet_set_self _ _ _ _
      rw [this] at h2
      rw [List.count_cons_self]
      omega
    · have : pwGet (mapSet 0 pw p (pwGet pw p - 1)) q = pwGet pw q :=
        mapGet_set_ne _ _ _ (Ne.symm hp)
      rw [this] at h2
      simpa [hp] using h2

/-! ### The execute stage -/

theorem onFocus_next {s t : State} {op : Cfg → Labels → Focus → Core → Res (Core × Option Flush)} :
    onFocus s op = .next t ↔
      ∃ f k fl, s.focus = some f ∧
        op s.cfg (s.input f.core).labels f (s.core f.core) = .ok (k, fl) ∧
        t = { s.setCore f.core k with focus := none, raised := s.raised ++ fl.toList } := by
  unfold onFocus
  cases hf : s.focus with
  | none => simp
  | some f =>
    cases ho : op s.cfg (s.input f.core).labels f (s.core f.core) with
    | error e => cases e <;> simp [ho]
    | ok p =>
      obtain ⟨k, fl⟩ := p
      simp [ho, eq_comm]

theorem deliver_ok {b : Seq} {o : ExecutionResult} {k k' : Core} (h : deliver b o k = .ok k') :
    ∃ links, k' = { k with links := links } := by
  unfold deliver at h
  split at h
  · exact ⟨k.links, by simpa using h.symm⟩
  · split at h
    · simp at h
    · exact ⟨_, by simpa using h.symm⟩

theorem shouldFlush_ok {b : Seq} {actual : Word} {k k' : Core} {wrong : Bool} :
    shouldFlush b actual k = .ok (k', wrong) ↔
      k' = dropExpect b k ∧ ∃ e, assocFind b k.expect = some e ∧
        wrong = match e with
          | .known t _ => decide (actual ≠ t)
          | .unknown => true := by
  unfold shouldFlush
  cases assocFind b k.expect with
  | none => simp
  | some e => cases e <;> simp [eq_comm]

/-- Everything running an instruction can do (R225): record the oracle's error, or run the class step
on a result that keeps the contract. -/
theorem runWork_ok {g : Cfg} {labels : Labels} {cr : ClassRule} {wl : List RegId}
    {assertStep : Core → Core} {classStep : ExecutionResult → Core → Res (Core × Option Flush)}
    {i : Nat} {w : Work} {got : ByteMap} {k : Core} {r : Core × Option Flush}
    (h : runWork g labels cr wl assertStep classStep i w got k = .ok r) :
    (∃ e, r = recordError i w (.exec e) (assertStep k)) ∨
      ∃ o k2,
        oracleExec g.byteOrder w.run.desc.ops (viewOf w k.x) labels w.run.pc
          (restrictBytes got (readAddrs g w k.x)) = .ok o ∧
        addressContract g cr.mayRead cr.mayWrite w k.x = true ∧
        resultContract g cr.mayWrite cr.mayJump wl w k.x o = true ∧
        deliver w.run.seq o { assertStep k with
          rob := robSetStatus (assertStep k).rob w.run.seq .executed } = .ok k2 ∧
        classStep o k2 = .ok r := by
  unfold runWork at h
  dsimp only at h
  split at h
  · rename_i e _
    exact .inl ⟨e, by simpa using h.symm⟩
  · rename_i o ho
    split at h
    · rename_i hc
      obtain ⟨k2, h1, h2⟩ := bind_ok.mp h
      simp only [Bool.and_eq_true] at hc
      exact .inr ⟨o, k2, ho, hc.1, hc.2, h1, h2⟩
    · simp at h

/-- Everything the start of a class other than LOAD can do (R224). -/
theorem startWork_ok {g : Cfg} {labels : Labels} {cr : ClassRule} {wl : List RegId}
    {assertStep : Core → Core} {classStep : ExecutionResult → Core → Res (Core × Option Flush)}
    {i : Nat} {w : Work} {k : Core} {r : Core × Option Flush}
    (h : startWork g labels cr wl assertStep classStep i w k = .ok r) :
    (∃ a, firstIllegal g (writeAddrs g w k.x) = some a ∧ r = recordError i w (.addr a) k) ∨
      runWork g labels cr wl assertStep classStep i w [] k = .ok r := by
  unfold startWork at h
  split at h
  · split at h
    · rename_i a ha
      exact .inl ⟨a, ha, by simpa using h.symm⟩
    · exact .inr h
  · simp at h

theorem submit_ok {kind : ReqKind} {l : LineAddr} {who : Requester} {b : Seq}
    {bytes : List Host.Cell} {k k' : Core} :
    submit kind l who b bytes k = .ok k' ↔
      k.req = none ∧ k' = { k with req := some ⟨kind, l, who, b, bytes, none, .locking⟩ } := by
  unfold submit
  cases k.req <;> simp [eq_comm]

/-- Everything the start of a LOAD can do (R224). -/
theorem startLoad_ok {g : Cfg} {labels : Labels} {wl : List RegId} {i : Nat} {w : Work} {k : Core}
    {r : Core × Option Flush} (h : startLoad g labels wl i w k = .ok r) :
    (∃ a, firstIllegal g (readAddrs g w k.x) = some a ∧ r = recordError i w (.addr a) k) ∨
      runWork g labels loadRule wl id (plainStep i w) i w [] k = .ok r ∨
      ∃ l rest, linesOf g ((readAddrs g w k.x).map BitVec.toNat) = l :: rest ∧ k.req = none ∧
        r = ({ k with
          req := some ⟨.read, l, .eu i, w.run.seq, [], none, .locking⟩
          eu := k.eu.set i (.memRd w (l :: rest) []) }, none) := by
  unfold startLoad at h
  dsimp only at h
  split at h
  · split at h
    · rename_i a ha
      exact .inl ⟨a, ha, by simpa using h.symm⟩
    · split at h
      · exact .inr (.inl h)
      · rename_i l rest hl
        obtain ⟨k1, h1, h2⟩ := bind_ok.mp h
        obtain ⟨h3, rfl⟩ := submit_ok.mp h1
        exact .inr (.inr ⟨l, rest, hl, h3, by simpa using h2.symm⟩)
  · simp at h

theorem cbrStep_ok {g : Cfg} {i : Nat} {w : Work} {o : ExecutionResult} {k : Core}
    {r : Core × Option Flush} (h : cbrStep g i w o k = .ok r) :
    r = recordError i w (.align (actualTarget g w.run.pc o)) k ∨
      ∃ wrong, r = flushTo i w o wrong (actualTarget g w.run.pc o) (dropExpect w.run.seq k) := by
  unfold cbrStep at h
  dsimp only at h
  split at h
  · exact .inl (by simpa using h.symm)
  · obtain ⟨⟨k2, wrong⟩, h1, h2⟩ := bind_ok.mp h
    obtain ⟨rfl, -⟩ := shouldFlush_ok.mp h1
    exact .inr ⟨wrong, by simpa [notifyConditional] using h2.symm⟩

theorem jmpStep_ok {g : Cfg} {i : Nat} {w : Work} {o : ExecutionResult} {k : Core}
    {r : Core × Option Flush} (h : jmpStep g i w o k = .ok r) :
    r = recordError i w (.align (actualTarget g w.run.pc o)) k ∨
      ∃ wrong, r = flushTo i w o wrong (actualTarget g w.run.pc o)
        (dropExpect w.run.seq
          (notifyJumpResolved g w.run.seq w.run.pc (actualTarget g w.run.pc o) k)) := by
  unfold jmpStep at h
  dsimp only at h
  split at h
  · exact .inl (by simpa using h.symm)
  · obtain ⟨⟨k2, wrong⟩, h1, h2⟩ := bind_ok.mp h
    obtain ⟨rfl, -⟩ := shouldFlush_ok.mp h1
    exact .inr ⟨wrong, by simpa using h2.symm⟩

theorem retStep_ok {g : Cfg} {i : Nat} {w : Work} {o : ExecutionResult} {k : Core}
    {r : Core × Option Flush} (h : retStep g i w o k = .ok r) :
    r = (pushOk i w o (dropExpect w.run.seq k), none) ∨
      (∃ t, o.pcChange = some t ∧
        (r = recordError i w (.align t) k ∨ r = flushTo i w o true t (dropExpect w.run.seq k))) ∨
      r = (pushOk i w o (clearPendingBranch (dropExpect w.run.seq k)), none) := by
  unfold retStep at h
  split at h
  · exact .inl (by simpa using h.symm)
  · split at h
    · rename_i t ht
      refine .inr (.inl ⟨t, ht, ?_⟩)
      split at h
      · exact .inl (by simpa using h.symm)
      · exact .inr (by simpa using h.symm)
    · exact .inr (.inr (by simpa using h.symm))

/-- Everything a meaning can do to the core of its unit: the state keeps all else. -/
theorem exec_next {i : Instr} {s t : State} (h : exec i s = .next t) :
    ∃ (f : Focus) (k : Core) (fl : Option Flush), s.focus = some f ∧
      t = { s.setCore f.core k with focus := none, raised := s.raised ++ fl.toList } := by
  cases i <;>
  · simp only [exec, execAlu, execLoad, execStore, execCbr, execJmp, execRet] at h
    obtain ⟨f, k, fl, h1, -, h2⟩ := onFocus_next.mp h
    exact ⟨f, k, fl, h1, h2⟩

/-! ### The cache controller -/

theorem commands_ok {c : CoreId} {kind : ReqKind} {l : LineAddr} {s t : State}
    {keys : List CmdKey} (h : commands c kind l s = .ok (t, keys)) :
    keys = commandKeys c kind l s ∧
      t = { s with cmds := keys.foldl (fun tb k => armCmd k tb) s.cmds } := by
  unfold commands at h
  split at h
  · simp at h
  · simp only [Except.ok.injEq, Prod.mk.injEq] at h
    exact ⟨h.2.symm, by rw [← h.1, ← h.2]⟩

theorem moveTo_ok {c : CoreId} {r : ReqState} {ph ph' : Phase} {s t : State} :
    moveTo c r ph s = .ok (t, ph') ↔ t = setReq c (some { r with phase := ph }) s ∧ ph' = ph := by
  simp [moveTo, eq_comm]

/-- Everything one transition of a cached request can do (R299). -/
theorem advanceCached_ok {c : CoreId} {r : ReqState} {s t : State} {ph : Phase}
    (h : advanceCached c r s = .ok (t, ph)) :
    (r.phase = .locking ∧ t = s ∧ ph = .locking ∧
      (s.semGet r.line).tryLock (lockMode r.kind (s.dirGet c r.line)) = none) ∨
    (∃ v s1 keys, r.phase = .locking ∧
      (s.semGet r.line).tryLock (lockMode r.kind (s.dirGet c r.line)) = some v ∧
      commands c r.kind r.line (s.semSet r.line v) = .ok (s1, keys) ∧
      ph = (if keys = [] then enterAccess c r.line s1 else .waiting keys) ∧
      t = setReq c (some { r with
        mode := some (lockMode r.kind (s.dirGet c r.line)), phase := ph }) s1) ∨
    (∃ keys, r.phase = .waiting keys ∧ t = s ∧ ph = .waiting keys ∧
      ∃ k ∈ keys, cmdFind k s.cmds = some .pending) ∨
    (∃ keys, r.phase = .waiting keys ∧ (∀ k ∈ keys, cmdFind k s.cmds ≠ some .pending) ∧
      ph = enterAccess c r.line s ∧ t = setReq c (some { r with phase := ph }) s) ∨
    (∃ n src, r.phase = .access n src ∧ 1 < n ∧ ph = .access (n - 1) src ∧
      t = setReq c (some { r with phase := ph }) s) ∨
    (∃ n src s1 data, r.phase = .access n src ∧ n ≤ 1 ∧ complete c r src s = .ok (s1, data) ∧
      ph = .finished data ∧ t = setReq c (some { r with phase := ph }) s1) ∨
    (∃ data, r.phase = .finished data ∧ t = s ∧ ph = .finished data) := by
  unfold advanceCached at h
  split at h
  · rename_i hp
    dsimp only at h
    split at h
    · rename_i hl
      simp only [Except.ok.injEq, Prod.mk.injEq] at h
      exact .inl ⟨hp, h.1.symm, h.2.symm, hl⟩
    · rename_i v hl
      obtain ⟨⟨s1, keys⟩, h1, h2⟩ := bind_ok.mp h
      obtain ⟨rfl, rfl⟩ := moveTo_ok.mp h2
      exact .inr (.inl ⟨v, s1, keys, hp, hl, h1, rfl, rfl⟩)
  · rename_i keys hp
    split at h
    · rename_i hk
      simp only [Except.ok.injEq, Prod.mk.injEq] at h
      exact .inr (.inr (.inl ⟨keys, hp, h.1.symm, h.2.symm, by simpa using hk⟩))
    · rename_i hk
      obtain ⟨rfl, rfl⟩ := moveTo_ok.mp h
      exact .inr (.inr (.inr (.inl ⟨keys, hp, by simpa using hk, rfl, rfl⟩)))
  · rename_i n src hp
    split at h
    · rename_i hn
      obtain ⟨rfl, rfl⟩ := moveTo_ok.mp h
      exact .inr (.inr (.inr (.inr (.inl ⟨n, src, hp, hn, rfl, rfl⟩))))
    · rename_i hn
      obtain ⟨⟨s1, data⟩, h1, h2⟩ := bind_ok.mp h
      obtain ⟨rfl, rfl⟩ := moveTo_ok.mp h2
      exact .inr (.inr (.inr (.inr (.inr (.inl ⟨n, src, s1, data, hp, by omega, h1, rfl, rfl⟩)))))
  · rename_i data hp
    simp only [Except.ok.injEq, Prod.mk.injEq] at h
    exact .inr (.inr (.inr (.inr (.inr (.inr ⟨data, hp, h.1.symm, h.2.symm⟩)))))

/-- Everything the completion of a request can do (R303, R305): a READ takes its data and leaves the
line, a WRITE finds no peer with the line and leaves it Modified; either releases its lock. -/
theorem complete_ok {c : CoreId} {r : ReqState} {src : Source} {s t : State}
    {cells : List Host.Cell} (h : complete c r src s = .ok (t, cells)) :
    ∃ m, r.mode = some m ∧
      ((r.kind = .read ∧ ∃ d s1, readData c src r.line s = .ok (d, s1) ∧
          releaseLock r.line m s1 = .ok t ∧ cells = lineCells r.line d) ∨
        (r.kind = .write ∧ ∃ s1 st, fetchForWrite c src r.line s = .ok s1 ∧
          lruWrite (s1.core c).l1d r.line r.bytes = .ok st ∧
          (∀ d ∈ peers s c, s.dirGet d r.line = .i) ∧
          releaseLock r.line m ((setL1d c st s1).dirSet c r.line .m) = .ok t ∧ cells = [])) := by
  unfold complete at h
  split at h
  · simp at h
  · rename_i m hm
    refine ⟨m, hm, ?_⟩
    split at h
    · rename_i hk
      obtain ⟨⟨d, s1⟩, h1, h2⟩ := bind_ok.mp h
      obtain ⟨s2, h3, h4⟩ := bind_ok.mp h2
      obtain ⟨rfl, rfl⟩ : s2 = t ∧ lineCells r.line d = cells := by simpa using h4
      exact .inl ⟨hk, d, s1, h1, h3, rfl⟩
    · rename_i hk
      obtain ⟨s1, h1, h2⟩ := bind_ok.mp h
      obtain ⟨st, h3, h4⟩ := bind_ok.mp h2
      split at h4
      · simp at h4
      · rename_i hp
        obtain ⟨s3, h5, h6⟩ := bind_ok.mp h4
        obtain ⟨rfl, rfl⟩ : s3 = t ∧ [] = cells := by simpa using h6
        exact .inr ⟨hk, s1, st, h1, h3, by simpa using hp, h5, rfl⟩

/-- Everything one transition of a request without data caches can do (R310). -/
theorem advanceUncached_ok {c : CoreId} {r : ReqState} {s t : State} {ph : Phase}
    (h : advanceUncached c r s = .ok (t, ph)) :
    (r.phase = .locking ∧ ph = .access s.cfg.memLat .mem ∧
      t = setReq c (some { r with phase := ph }) s) ∨
    (∃ n src, r.phase = .access n src ∧ 1 < n ∧ ph = .access (n - 1) .mem ∧
      t = setReq c (some { r with phase := ph }) s) ∨
    (∃ n src, r.phase = .access n src ∧ n ≤ 1 ∧ r.kind = .read ∧
      ph = .finished (lineCells r.line (Memory.readLine s.mem s.cfg.lineSize r.line)) ∧
      t = setReq c (some { r with phase := ph }) s) ∨
    (∃ n src, r.phase = .access n src ∧ n ≤ 1 ∧ r.kind = .write ∧ ph = .finished [] ∧
      t = setReq c (some { r with phase := ph }) { s with mem := Memory.writeAll s.mem r.bytes }) ∨
    (∃ data, r.phase = .finished data ∧ t = s ∧ ph = .finished data) := by
  unfold advanceUncached at h
  split at h
  · rename_i hp
    obtain ⟨rfl, rfl⟩ := moveTo_ok.mp h
    exact .inl ⟨hp, rfl, rfl⟩
  · simp at h
  · rename_i n src hp
    split at h
    · rename_i hn
      obtain ⟨rfl, rfl⟩ := moveTo_ok.mp h
      exact .inr (.inl ⟨n, src, hp, hn, rfl, rfl⟩)
    · rename_i hn
      split at h
      · rename_i hk
        obtain ⟨rfl, rfl⟩ := moveTo_ok.mp h
        exact .inr (.inr (.inl ⟨n, src, hp, by omega, hk, rfl, rfl⟩))
      · rename_i hk
        obtain ⟨rfl, rfl⟩ := moveTo_ok.mp h
        exact .inr (.inr (.inr (.inl ⟨n, src, hp, by omega, hk, rfl, rfl⟩)))
  · rename_i data hp
    simp only [Except.ok.injEq, Prod.mk.injEq] at h
    exact .inr (.inr (.inr (.inr ⟨data, hp, h.1.symm, h.2.symm⟩)))

/-- Everything carrying out one command can do (R312): nothing when the line is gone, else the line is
dropped, after its data went to the next level when it was Modified. -/
theorem runCommand_ok {key : CmdKey} {s t : State} (h : runCommand key s = .ok t) :
    ∃ s1, t = { s1 with cmds := cmdDone key s1.cmds } ∧
      ((s.dirGet key.target key.line = .i ∧ s1 = s) ∨
        (s.dirGet key.target key.line = .s ∧
          lruContains (s.core key.target).l1d key.line = true ∧
          s1 = (setL1d key.target (lruRemove (s.core key.target).l1d key.line) s).dirSet
            key.target key.line .i) ∨
        (s.dirGet key.target key.line = .m ∧ ∃ d st,
          lruRead (s.core key.target).l1d key.line = .ok (d, st) ∧
          s1 = (setL1d key.target (lruRemove st key.line) (writeNext key.line d s)).dirSet
            key.target key.line .i)) := by
  unfold runCommand at h
  dsimp only at h
  split at h
  · rename_i hd
    exact ⟨_, (Except.ok.inj h).symm, .inl ⟨hd, rfl⟩⟩
  · rename_i hd
    split at h
    · rename_i hl
      exact ⟨_, (Except.ok.inj h).symm, .inr (.inl ⟨hd, hl, rfl⟩)⟩
    · simp at h
  · rename_i hd
    obtain ⟨⟨d, st⟩, h1, h2⟩ := bind_ok.mp h
    exact ⟨_, (Except.ok.inj h2).symm, .inr (.inr ⟨hd, d, st, h1, rfl⟩)⟩

theorem poll_ok {c : CoreId} {who : Requester} {s t : State} {ph : Phase}
    (h : poll c who s = .ok (t, ph)) :
    ∃ r, (s.core c).req = some r ∧ r.who = who ∧
      ((s.cfg.l1dPresent = true ∧ advanceCached c r s = .ok (t, ph)) ∨
        (s.cfg.l1dPresent = false ∧ advanceUncached c r s = .ok (t, ph))) := by
  unfold poll at h
  split at h
  · simp at h
  · rename_i r hr
    split at h
    · simp at h
    · rename_i hw
      split at h
      · exact ⟨r, hr, not_not.mp hw, .inl ⟨by assumption, h⟩⟩
      · exact ⟨r, hr, not_not.mp hw, .inr ⟨by simp_all, h⟩⟩

theorem enterAccess_not_finished (c : CoreId) (l : LineAddr) (s : State) (data : List Host.Cell) :
    enterAccess c l s ≠ .finished data := by
  simp [enterAccess]

/-- A request that is Locking does not finish in its next poll, so a request polled in the cycle of
its submission waits at least to the next cycle (R299, R310). -/
theorem poll_locking_not_finished {c : CoreId} {who : Requester} {s t : State} {r : ReqState}
    {data : List Host.Cell} (hr : (s.core c).req = some r) (hp : r.phase = .locking) :
    poll c who s ≠ .ok (t, .finished data) := by
  intro h
  obtain ⟨r', hr', -, h | h⟩ := poll_ok h
  · obtain rfl : r = r' := by simpa [hr] using hr'
    rcases advanceCached_ok h.2 with h1 | ⟨_, _, keys, -, -, -, h1, -⟩ | ⟨_, h1, -⟩ | ⟨_, h1, -⟩ |
      ⟨_, _, h1, -⟩ | ⟨_, _, _, _, h1, -⟩ | ⟨_, h1, -⟩
    · simp at h1
    · split at h1
      · exact enterAccess_not_finished _ _ _ _ h1.symm
      · simp at h1
    all_goals simp [hp] at h1
  · obtain rfl : r = r' := by simpa [hr] using hr'
    have h2 := h.2
    rw [advanceUncached, hp] at h2
    simpa using (moveTo_ok.mp h2).2

theorem abandon_ok {c : CoreId} {s t : State} (h : abandon c s = .ok t) :
    (∃ r, (s.core c).req = some r ∧ ∃ m v, r.mode = some m ∧
      (s.semGet r.line).release m = .ok v ∧ t = setReq c none (s.semSet r.line v)) ∨
    (∃ r, (s.core c).req = some r ∧ r.mode = none ∧ t = setReq c none s) ∨
    ((s.core c).req = none ∧ t = s) := by
  unfold abandon at h
  split at h
  · exact .inr (.inr ⟨by assumption, by simpa using h.symm⟩)
  · rename_i r hr
    split at h
    · exact .inr (.inl ⟨r, hr, by assumption, by simpa using h.symm⟩)
    · rename_i m hm
      obtain ⟨s1, h1, h2⟩ := bind_ok.mp h
      obtain ⟨v, h3, rfl⟩ := releaseLock_ok.mp h1
      exact .inl ⟨r, hr, m, v, hm, h3, by simpa using h2.symm⟩

/-- Everything a unit that reads lines can do in a cycle (R221): wait, go on to its next line, or run
its instruction on the bytes gathered. -/
theorem unitMemory_ok {c : CoreId} {i : Nat} {s t : State} {w : Work} {todo : List LineAddr}
    {got : ByteMap} (he : s.euState c i = .memRd w todo got) (h : unitMemory c i s = .ok t) :
    ∃ s1 ph, poll c (.eu i) s = .ok (s1, ph) ∧
      (((∀ data, ph ≠ .finished data) ∧ t = s1) ∨
        ∃ data, ph = .finished data ∧
          ((todo.tail = [] ∧
              runFocused c i w (some (addBytes got data)) (setReq c none s1) = .ok t) ∨
            ∃ l rest k ph2, todo.tail = l :: rest ∧
              submit .read l (.eu i) w.run.seq [] ((setReq c none s1).core c) = .ok k ∧
              poll c (.eu i) (((setReq c none s1).setCore c k).setEu c i
                (.memRd w (l :: rest) (addBytes got data))) = .ok (t, ph2))) := by
  unfold unitMemory at h
  rw [he] at h
  obtain ⟨⟨s1, ph⟩, h1, h2⟩ := bind_ok.mp h
  refine ⟨s1, ph, h1, ?_⟩
  cases ph with
  | finished data =>
    refine .inr ⟨data, rfl, ?_⟩
    dsimp only at h2
    split at h2
    · rename_i ht
      exact .inl ⟨ht, h2⟩
    · rename_i l rest ht
      obtain ⟨k, h3, h4⟩ := bind_ok.mp h2
      obtain ⟨⟨s4, ph2⟩, h5, h6⟩ := bind_ok.mp h4
      obtain rfl : s4 = t := by simpa using h6
      exact .inr ⟨l, rest, k, ph2, ht, h3, h5⟩
  | locking => exact .inl ⟨by simp, by simpa using h2.symm⟩
  | waiting keys => exact .inl ⟨by simp, by simpa using h2.symm⟩
  | access n src => exact .inl ⟨by simp, by simpa using h2.symm⟩

/-- A unit that holds a result: it leaves for EW when there is room, else the unit keeps it (R221). -/
theorem unitPush_ok {c : CoreId} {i : Nat} {s t : State} {w : Work} {v : Result}
    (he : s.euState c i = .push w v) (h : unitPush c i s = .ok t) :
    (∃ ew, (s.core c).ew.add s.cfg.busCap v = .ok ew ∧
      t = (s.setCore c { s.core c with ew := ew }).setEu c i .idle) ∨
    (s.cfg.busCap ≤ (s.core c).ew.entry.length ∧ t = s) := by
  unfold unitPush at h
  rw [he] at h
  dsimp only at h
  split at h
  · obtain ⟨ew, h1, h2⟩ := bind_ok.mp h
    exact .inl ⟨ew, h1, (Except.ok.inj h2).symm⟩
  · rename_i hc
    exact .inr ⟨by simpa [Bus.canAdd] using hc, (Except.ok.inj h).symm⟩

/-! ### Issue -/

theorem isCtl_eq (i : Instr) : isCtl i = decide (3 ≤ i.code) := by cases i <;> rfl

theorem isLoad_eq (i : Instr) : isLoad i = decide (i.code = 1) := by cases i <;> rfl

theorem isStore_eq (i : Instr) : isStore i = decide (i.code = 2) := by cases i <;> rfl

theorem isRet_eq (i : Instr) : isRet i = decide (i.code = 5) := by cases i <;> rfl

theorem meets_eq_true {a b : List RegId} : meets a b = true ↔ ∃ q, q ∈ a ∧ q ∈ b := by
  simp [meets]

/-- The verdict by its three stages (R189, R190 to R193, R194). -/
theorem verdict_cases (g : Cfg) (sc : Scan) (r : Runner) :
    (mustStop g sc = true ∧ verdict g sc r = .stop) ∨
    (mustStop g sc = false ∧ mustHold sc.core sc.skipped r = true ∧ verdict g sc r = .hold) ∨
    (mustStop g sc = false ∧ mustHold sc.core sc.skipped r = false ∧
      verdict g sc r = classify g sc.core r.desc.instr) := by
  unfold verdict
  cases h1 : mustStop g sc <;> cases h2 : mustHold sc.core sc.skipped r <;> simp

theorem classify_ne_stop (g : Cfg) (k : Core) (i : Instr) : classify g k i ≠ .stop := by
  unfold classify
  repeat' split
  all_goals simp

/-- A granted runner enters IE, and the records of R198 are made. -/
theorem doIssue_ok {g : Cfg} {gr : Grant} {r : Runner} {k t : Core} (h : doIssue g gr r k = .ok t) :
    ∃ ie, k.ie.add g.busCap ⟨r, gr.forward⟩ = .ok ie ∧
      t = { k with
        ie := ie
        rob := robInsert ⟨r.seq, r.pc, r.desc, .issued, gr.slots r.desc.instr.writes⟩ k.rob
        pw := pwRaise k.pw r.desc.instr.writes
        freePhys := k.freePhys - gr.slots r.desc.instr.writes
        links := k.links ++ gr.links r
        fwdCount := k.fwdCount + (gr.links r).length
        curIssued := k.curIssued ++ [r.seq] } := by
  unfold doIssue at h
  obtain ⟨ie, h1, h2⟩ := bind_ok.mp h
  exact ⟨ie, h1, (Except.ok.inj h2).symm⟩

/-- Everything one round of phase 1 can do (R187). -/
theorem issuePending_cons_ok {g : Cfg} {r : Runner} {rest : List Runner} {sc sc' : Scan} {b : Bool}
    (h : issuePending g (r :: rest) sc = .ok (sc', b)) :
    (verdict g sc r = .stop ∧ sc' = sc ∧ b = true) ∨
    (verdict g sc r = .hold ∧ issuePending g rest (sc.heldBack r) = .ok (sc', b)) ∨
    (∃ gr k, verdict g sc r = .issue gr ∧
      doIssue g gr r { sc.core with pendingQ := pendingRemove sc.core.pendingQ r } = .ok k ∧
      issuePending g rest (sc.granted r k) = .ok (sc', b)) := by
  unfold issuePending at h
  split at h
  · rename_i hv
    simp only [Except.ok.injEq, Prod.mk.injEq] at h
    exact .inl ⟨hv, h.1.symm, h.2.symm⟩
  · rename_i hv
    exact .inr (.inl ⟨hv, h⟩)
  · rename_i gr hv
    obtain ⟨k, h1, h2⟩ := bind_ok.mp h
    exact .inr (.inr ⟨gr, k, hv, h1, h2⟩)

/-- A runner held in phase 2 moves to the pending queue when there is room (R188). -/
theorem parkHeld_ok {g : Cfg} {k t : Core} (h : parkHeld g k = .ok t) :
    (∃ r rest, k.pendingQ.length < g.pqCap ∧ k.di.visible = r :: rest ∧
      t = { k with di := { k.di with visible := rest }, pendingQ := k.pendingQ ++ [r] }) ∨
    (g.pqCap ≤ k.pendingQ.length ∧ t = k) := by
  unfold parkHeld at h
  split at h
  · rename_i hq
    obtain ⟨⟨r, di⟩, h1, h2⟩ := bind_ok.mp h
    obtain ⟨q, h3, h4⟩ := bind_ok.mp h2
    obtain ⟨h5, h6⟩ := Bus.get_ok.mp h1
    obtain rfl : k.pendingQ ++ [r] = q := by simpa [pendingPush, hq] using h3
    exact .inl ⟨r, di.visible, hq, h5, by rw [← Except.ok.inj h4, ← h6]⟩
  · rename_i hq
    exact .inr ⟨not_lt.mp hq, (Except.ok.inj h).symm⟩

/-- Everything one round of phase 2 can do (R187). -/
theorem issueFresh_succ_ok {g : Cfg} {n : Nat} {sc sc' : Scan}
    (h : issueFresh g (n + 1) sc = .ok sc') :
    (sc.core.di.visible = [] ∧ sc' = sc) ∨
    ∃ r rest, sc.core.di.visible = r :: rest ∧
      ((verdict g sc r = .stop ∧ sc' = sc) ∨
        (verdict g sc r = .hold ∧ ∃ k, parkHeld g sc.core = .ok k ∧
          sc' = { sc with core := k, held := true }) ∨
        ∃ gr k, verdict g sc r = .issue gr ∧
          doIssue g gr r { sc.core with di := { sc.core.di with visible := rest } } = .ok k ∧
          issueFresh g n (sc.granted r k) = .ok sc') := by
  unfold issueFresh at h
  split at h
  · rename_i hv
    exact .inl ⟨by simpa [Bus.hasVisible] using hv, (Except.ok.inj h).symm⟩
  · obtain ⟨r, h1, h2⟩ := bind_ok.mp h
    cases hv : sc.core.di.visible with
    | nil => simp [Bus.peek, hv] at h1
    | cons r' rest =>
      obtain rfl : r' = r := by simpa [Bus.peek, hv] using h1
      refine .inr ⟨r', rest, rfl, ?_⟩
      split at h2
      · rename_i hd
        exact .inl ⟨hd, (Except.ok.inj h2).symm⟩
      · rename_i hd
        obtain ⟨k, h3, h4⟩ := bind_ok.mp h2
        exact .inr (.inl ⟨hd, k, h3, (Except.ok.inj h4).symm⟩)
      · rename_i gr hd
        obtain ⟨⟨x, di⟩, h3, h4⟩ := bind_ok.mp h2
        obtain ⟨k, h5, h6⟩ := bind_ok.mp h4
        obtain ⟨h7, h8⟩ := Bus.get_ok.mp h3
        rw [hv] at h7
        obtain ⟨-, rfl⟩ := List.cons.inj h7
        exact .inr (.inr ⟨gr, k, hd, by rw [← h8]; exact h5, h6⟩)

/-! ### Flush, commit, the cycle and the step -/

/-- Everything one round of the drain can do (R266). -/
theorem drainLoop_succ_ok {n : Nat} {k t : Core} (h : drainLoop (n + 1) k = .ok t) :
    (k.ew.visible = [] ∧ t = k) ∨
    ∃ v rest e, k.ew.visible = v :: rest ∧ robFind k.rob v.seq = some e ∧
      drainLoop n { k with
        ew := { k.ew with visible := rest }
        rob := robSetStatus k.rob v.seq (.completed v.out) } = .ok t := by
  unfold drainLoop at h
  split at h
  · rename_i hv
    exact .inl ⟨by simpa [Bus.hasVisible] using hv, (Except.ok.inj h).symm⟩
  · obtain ⟨⟨v, ew⟩, h1, h2⟩ := bind_ok.mp h
    obtain ⟨h3, h4⟩ := Bus.get_ok.mp h1
    dsimp only at h2
    split at h2
    · simp at h2
    · rename_i e he
      exact .inr ⟨v, ew.visible, e, h3, he, by rw [← h4]; exact h2⟩

theorem flushBack_ok {b : Seq} {t : Option Word} {k k' : Core} (h : flushBack b t k = .ok k') :
    ∃ pw, discardEntries (k.rob.filter (fun e => decide (b < e.seq))) k.pw = .ok pw ∧
      k' = { k with
        pw := pw
        freePhys := k.freePhys + heldSlots (k.rob.filter (fun e => decide (b < e.seq)))
        rob := k.rob.filter (fun e => decide (e.seq ≤ b))
        links := k.links.filter (fun l => decide (l.prod ≤ b) && decide (l.cons ≤ b))
        expect := k.expect.filter (fun e => decide (e.1 ≤ b))
        flushCount := k.flushCount + (if t.isSome then 1 else 0) } := by
  unfold flushBack at h
  obtain ⟨pw, h1, h2⟩ := bind_ok.mp h
  exact ⟨pw, h1, by simpa using h2.symm⟩

theorem euFlush_ok {c : CoreId} {b : Seq} {s t : State} (h : euFlush c b s = .ok t) :
    ∃ s1, ((requestYounger b (s.core c) = true ∧ abandon c s = .ok s1) ∨
        (requestYounger b (s.core c) = false ∧ s1 = s)) ∧
      t = s1.setCore c { s1.core c with
        eu := (s1.core c).eu.map (fun e => if EuState.younger b e then .idle else e) } := by
  unfold euFlush at h
  split at h
  · rename_i hy
    obtain ⟨s1, h1, h2⟩ := bind_ok.mp h
    exact ⟨s1, .inl ⟨hy, h1⟩, by simpa using h2.symm⟩
  · rename_i hy
    obtain ⟨s1, h1, h2⟩ := bind_ok.mp h
    exact ⟨s1, .inr ⟨by simpa using hy, by simpa using h1.symm⟩, by simpa using h2.symm⟩

theorem applyFlush_ok {c : CoreId} {b : Seq} {t : Option Word} {s u : State}
    (h : applyFlush c b t s = .ok u) :
    ∃ s1 k, euFlush c b (s.setCore c (flushFront b t (s.core c))) = .ok s1 ∧
      flushBack b t (s1.core c) = .ok k ∧ u = s1.setCore c k := by
  unfold applyFlush at h
  obtain ⟨s1, h1, h2⟩ := bind_ok.mp h
  obtain ⟨k, h3, h4⟩ := bind_ok.mp h2
  exact ⟨s1, k, h1, h3, by simpa using h4.symm⟩

theorem retire_ok {e : RobEntry} {o : ExecutionResult} {k k' : Core} (h : retire e o k = .ok k') :
    ∃ pw, pwLower k.pw e.desc.instr.writes = .ok pw ∧
      k' = { k with
        x := commitRegs o k.x
        pw := pw
        freePhys := k.freePhys + e.slots
        rob := robRemove k.rob e.seq
        sprog := none } := by
  unfold retire at h
  obtain ⟨pw, h1, h2⟩ := bind_ok.mp h
  exact ⟨pw, h1, by simpa using h2.symm⟩

theorem finish_ok {c : CoreId} {e : RobEntry} {o : ExecutionResult} {s t : State}
    (h : finish c e o s = .ok t) :
    ∃ k, retire e o (s.core c) = .ok k ∧
      ((o.terminate = true ∧
          applyFlush c e.seq none (s.setCore c { k with done := true }) = .ok t) ∨
        (o.terminate = false ∧ t = s.setCore c k)) := by
  unfold finish at h
  obtain ⟨k, h1, h2⟩ := bind_ok.mp h
  refine ⟨k, h1, ?_⟩
  split at h2
  · exact .inl ⟨by assumption, h2⟩
  · exact .inr ⟨by simp_all, by simpa using h2.symm⟩

/-- Everything one round of the commit loop can do (R268). -/
theorem commitOne_ok {c : CoreId} {s t : State} {more : Bool} (h : commitOne c s = .ok (t, more)) :
    (∃ p e o s1 all, (s.core c).sprog = some p ∧ robFind (s.core c).rob p.seq = some e ∧
      entryResult e.status = some o ∧
      storeLines c p.seq o.memChange p.todo s = .ok (s1, all) ∧
      ((all = true ∧ more = true ∧ finish c e o s1 = .ok t) ∨
        (all = false ∧ more = false ∧ t = s1))) ∨
    ((s.core c).sprog = none ∧ commitHead (s.core c) = none ∧ t = s ∧ more = false) ∨
    (∃ e, (s.core c).sprog = none ∧ commitHead (s.core c) = some e ∧
      (((e.status = .issued ∨ e.status = .executed) ∧ t = s ∧ more = false) ∨
        (∃ err, e.status = .completed (.err err) ∧ t = takeError c err s ∧ more = false) ∨
        (∃ o, e.status = .completed (.ok o) ∧ commitOk c e o s = .ok (t, more)))) := by
  unfold commitOne at h
  split at h
  · rename_i p hp
    split at h
    · simp at h
    · rename_i e he
      split at h
      · simp at h
      · rename_i o ho
        obtain ⟨⟨s1, all⟩, h1, h2⟩ := bind_ok.mp h
        refine .inl ⟨p, e, o, s1, all, hp, he, ho, h1, ?_⟩
        cases all with
        | true =>
          obtain ⟨s2, h3, h4⟩ := bind_ok.mp h2
          simp only [Except.ok.injEq, Prod.mk.injEq] at h4
          exact .inl ⟨rfl, h4.2.symm, by rw [← h4.1]; exact h3⟩
        | false =>
          simp only [Bool.false_eq_true, if_false, Except.ok.injEq, Prod.mk.injEq] at h2
          exact .inr ⟨rfl, h2.2.symm, h2.1.symm⟩
  · rename_i hp
    split at h
    · rename_i hh
      simp only [Except.ok.injEq, Prod.mk.injEq] at h
      exact .inr (.inl ⟨hp, hh, h.1.symm, h.2.symm⟩)
    · rename_i e he
      refine .inr (.inr ⟨e, hp, he, ?_⟩)
      split at h
      · rename_i hs
        simp only [Except.ok.injEq, Prod.mk.injEq] at h
        exact .inl ⟨.inl hs, h.1.symm, h.2.symm⟩
      · rename_i hs
        simp only [Except.ok.injEq, Prod.mk.injEq] at h
        exact .inl ⟨.inr hs, h.1.symm, h.2.symm⟩
      · rename_i err hs
        simp only [Except.ok.injEq, Prod.mk.injEq] at h
        exact .inr (.inl ⟨err, hs, h.1.symm, h.2.symm⟩)
      · rename_i o hs
        exact .inr (.inr ⟨o, hs, h⟩)

theorem commitOk_ok {c : CoreId} {e : RobEntry} {o : ExecutionResult} {s t : State} {more : Bool}
    (h : commitOk c e o s = .ok (t, more)) :
    (o.memChange = [] ∧ more = true ∧ finish c e o s = .ok t) ∨
    (∃ s1 all, o.memChange ≠ [] ∧
      storeLines c e.seq o.memChange (linesOf s.cfg (o.memChange.map (fun p => p.1.toNat)))
        (setSprog c (some ⟨e.seq, linesOf s.cfg (o.memChange.map (fun p => p.1.toNat)), 0⟩) s)
          = .ok (s1, all) ∧
      ((all = true ∧ more = true ∧ finish c e o s1 = .ok t) ∨
        (all = false ∧ more = false ∧ t = s1))) := by
  unfold commitOk at h
  split at h
  · rename_i hm
    obtain ⟨s1, h1, h2⟩ := bind_ok.mp h
    simp only [Except.ok.injEq, Prod.mk.injEq] at h2
    exact .inl ⟨hm, h2.2.symm, by rw [← h2.1]; exact h1⟩
  · rename_i hm
    dsimp only at h
    obtain ⟨⟨s1, all⟩, h1, h2⟩ := bind_ok.mp h
    refine .inr ⟨s1, all, hm, h1, ?_⟩
    cases all with
    | true =>
      obtain ⟨s2, h3, h4⟩ := bind_ok.mp h2
      simp only [Except.ok.injEq, Prod.mk.injEq] at h4
      exact .inl ⟨rfl, h4.2.symm, by rw [← h4.1]; exact h3⟩
    | false =>
      simp only [Bool.false_eq_true, if_false, Except.ok.injEq, Prod.mk.injEq] at h2
      exact .inr ⟨rfl, h2.2.symm, h2.1.symm⟩

theorem storeLines_cons_ok {c : CoreId} {b : Seq} {ch : List (Word × Byte)} {l : LineAddr}
    {rest : List LineAddr} {s t : State} {all : Bool}
    (h : storeLines c b ch (l :: rest) s = .ok (t, all)) :
    ∃ s1 s2 ph, ensureWrite c b l ch s = .ok s1 ∧ poll c .wb s1 = .ok (s2, ph) ∧
      ((∃ data, ph = .finished data ∧ storeLines c b ch rest
          (setSprog c (some ⟨b, rest, 0⟩) (setReq c none s2)) = .ok (t, all)) ∨
        ((∀ data, ph ≠ .finished data) ∧ t = s2 ∧ all = false)) := by
  simp only [storeLines] at h
  obtain ⟨s1, h1, h2⟩ := bind_ok.mp h
  obtain ⟨⟨s2, ph⟩, h3, h4⟩ := bind_ok.mp h2
  refine ⟨s1, s2, ph, h1, h3, ?_⟩
  cases ph with
  | finished data => exact .inl ⟨data, rfl, h4⟩
  | locking => exact .inr ⟨by simp, by simp_all⟩
  | waiting keys => exact .inr ⟨by simp, by simp_all⟩
  | access n src => exact .inr ⟨by simp, by simp_all⟩

theorem commitLoop_succ_ok {c : CoreId} {n : Nat} {s t : State}
    (h : commitLoop c (n + 1) s = .ok t) :
    (¬(s.status = .running ∧ (s.core c).done = false) ∧ t = s) ∨
    ∃ s1 more, commitOne c s = .ok (s1, more) ∧
      ((more = true ∧ commitLoop c n s1 = .ok t) ∨ (more = false ∧ t = s1)) := by
  simp only [commitLoop] at h
  split at h
  · obtain ⟨⟨s1, more⟩, h1, h2⟩ := bind_ok.mp h
    refine .inr ⟨s1, more, h1, ?_⟩
    cases more with
    | true => exact .inl ⟨rfl, h2⟩
    | false => exact .inr ⟨rfl, by simpa using h2.symm⟩
  · rename_i hn
    exact .inl ⟨hn, by simpa using h.symm⟩

theorem wbStep_ok {c : CoreId} {s t : State} (h : wbStep c s = .ok t) :
    ∃ k, drainLoop s.cfg.wbUnits (s.core c) = .ok k ∧
      commitLoop c s.cfg.wbUnits (s.setCore c k) = .ok t := bind_ok.mp h

theorem coreCycle_ok {c : CoreId} {s t : State} (h : coreCycle c s = .ok t) :
    ((s.core c).done = true ∧ snoopStep c s = .ok t) ∨
    ((s.core c).done = false ∧ ∃ s1 s2, beforeExecute c s = .ok s1 ∧
      unitsStep c (List.range s.cfg.nEu) s1 = .ok s2 ∧ afterExecute c s2 = .ok t) := by
  unfold coreCycle at h
  split at h
  · exact .inl ⟨by assumption, h⟩
  · obtain ⟨s1, h1, h2⟩ := bind_ok.mp h
    obtain ⟨s2, h3, h4⟩ := bind_ok.mp h2
    exact .inr ⟨by simp_all, s1, s2, h1, h3, h4⟩

theorem beforeExecute_ok {c : CoreId} {s t : State} (h : beforeExecute c s = .ok t) :
    ∃ k, frontEnd s.cfg c (s.input c).prog (s.core c) = .ok k ∧
      snoopStep c (s.setCore c k) = .ok t := bind_ok.mp h

theorem afterExecute_ok {c : CoreId} {s t : State} (h : afterExecute c s = .ok t) :
    ∃ s1 s2, applyRaised c s = .ok s1 ∧ wbStep c s1 = .ok s2 ∧ t = settle c s2 := by
  obtain ⟨s1, h1, h2⟩ := bind_ok.mp h
  obtain ⟨s2, h3, h4⟩ := bind_ok.mp h2
  exact ⟨s1, s2, h1, h3, by simpa using h4.symm⟩

theorem frontEnd_ok {g : Cfg} {c : CoreId} {prog : List ProgEntry} {k t : Core}
    (h : frontEnd g c prog k = .ok t) :
    ∃ k1 k2, fetchStep g prog.length (connectAll g k) = .ok k1 ∧ decodeStep g c prog k1 = .ok k2 ∧
      issueStep g k2 = .ok t := by
  obtain ⟨k1, h1, h2⟩ := bind_ok.mp h
  obtain ⟨k2, h3, h4⟩ := bind_ok.mp h2
  exact ⟨k1, k2, h1, h3, h4⟩

theorem runCores_cons_ok {c : CoreId} {rest : List CoreId} {s t : State}
    (h : runCores (c :: rest) s = .ok t) :
    ∃ s1, coreCycle c s = .ok s1 ∧
      ((s1.status = .running ∧ runCores rest s1 = .ok t) ∨ (s1.status ≠ .running ∧ t = s1)) := by
  simp only [runCores] at h
  obtain ⟨s1, h1, h2⟩ := bind_ok.mp h
  refine ⟨s1, h1, ?_⟩
  split at h2
  · exact .inl ⟨by assumption, h2⟩
  · exact .inr ⟨by assumption, by simpa using h2.symm⟩

/-- Everything a step can do: nothing, a fault with the state before it, or the core cycles in order
with the end of the step, R55 holding after them (R340). -/
theorem step_next {s t : State} (h : step s = .next t) :
    (s.status ≠ .running ∧ t = s) ∨
    (s.status = .running ∧ loadRefusal s = none ∧ ∃ f, t = { s with status := .fault f }) ∨
    (s.status = .running ∧ loadRefusal s = none ∧ ∃ u,
      runCores (List.range s.cfg.numCores) s = .ok u ∧ brokenInvariant (endStep u) = none ∧
      t = endStep u) := by
  unfold step globalStep at h
  split at h
  · rename_i hr
    split at h
    · simp at h
    · rename_i hl
      unfold cycleStep concludeStep at h
      split at h
      · simp at h
      · rename_i f _
        exact .inr (.inl ⟨hr, hl, f, by simpa using h.symm⟩)
      · rename_i u hu
        split at h
        · rename_i f _
          exact .inr (.inl ⟨hr, hl, f, by simpa using h.symm⟩)
        · rename_i hb
          exact .inr (.inr ⟨hr, hl, u, hu, hb, by simpa using h.symm⟩)
  · rename_i hr
    exact .inl ⟨hr, by simpa using h.symm⟩

/-! ### Boot and the façade -/

@[simp] theorem spreadInputs_one (g : Cfg) (inp : CoreInput) :
    spreadInputs g [inp] = inp :: List.replicate (g.numCores - 1) inp.sameProgram := rfl

theorem spreadInputs_of_length_ne_one (g : Cfg) {inputs : List CoreInput}
    (h : inputs.length ≠ 1) : spreadInputs g inputs = inputs := by
  unfold spreadInputs
  split
  · exact absurd rfl h
  · rfl

/-- A boot answers the reset state of its inputs, and nothing of it is refused (R367, R380). -/
theorem boot_ok {g : Cfg} {inputs : List CoreInput} {image : List Host.Cell} {s : State} :
    boot g inputs image = .ok s ↔
      s = State.init g (spreadInputs g inputs) (memoryOfImage g image) ∧ loadRefusal s = none := by
  unfold boot
  dsimp only
  constructor
  · intro h
    split at h
    · cases h
    · rename_i hr
      obtain rfl := Except.ok.inj h
      exact ⟨rfl, hr⟩
  · rintro ⟨rfl, hr⟩
    simp [hr]

/-- A stopped machine takes no further step (R31), however much fuel is left. -/
theorem runSteps_of_stopped {s : State} (h : s.status ≠ .running) (n : Nat) :
    runSteps n s = .next s := by
  induction n with
  | zero => rfl
  | succ n ih => simp [runSteps, globalStep, h, ih]

@[simp] theorem observe_result (s : State) : s.observe.result = runResult s := rfl

@[simp] theorem observe_cycles (s : State) : s.observe.cycles = s.cycle := rfl

@[simp] theorem observe_registers (s : State) :
    s.observe.registers = s.cores.map (fun k => k.x) := rfl

@[simp] theorem observe_memory (s : State) :
    s.observe.memory = (List.range s.cfg.memSize).map s.memView := rfl

@[simp] theorem observe_counters (s : State) :
    s.observe.counters = s.cores.map (fun k => ⟨k.fwdCount, k.stallCount, k.flushCount⟩) := rfl

end Sys2Proof.Machine
end

