-- ==== Sys2Proof/Laws/PerInstr.lean ====
section
/-! SUPPORT. The family of statements made for each constructor of `Instr`: the class code and the two
register lists are all there is to the static part of an instruction (R101, R102), so the table of
class codes gives the instruction back. -/

namespace Sys2Proof.Laws.ClassCode

/-- The class code is one of the six of R102, and with the lists R and W it gives the instruction. -/
def Statement (i : Instr) : Prop :=
  i.code ≤ 5 ∧ instrOfCode i.code i.reads i.writes = some i

theorem alu (r w : List RegId) : Statement (.alu r w) := ⟨by simp [Instr.code], rfl⟩

theorem load (r w : List RegId) : Statement (.load r w) := ⟨by simp [Instr.code], rfl⟩

theorem store (r w : List RegId) : Statement (.store r w) := ⟨by simp [Instr.code], rfl⟩

theorem cbr (r w : List RegId) : Statement (.cbr r w) := ⟨by simp [Instr.code], rfl⟩

theorem jmp (r w : List RegId) : Statement (.jmp r w) := ⟨by simp [Instr.code], rfl⟩

theorem ret (r w : List RegId) : Statement (.ret r w) := ⟨by simp [Instr.code], rfl⟩

end Sys2Proof.Laws.ClassCode
end

