-- ==== Sys2Proof/Tests/Slice0.lean ====
section
/-! SUPPORT. The model's own tests: ill-formed terms that each check refuses, header words written out
from the table of R103, single steps with the spec's own results, and for every statement with
hypotheses a concrete case that meets them. -/

namespace Sys2Proof.Tests

open Sys2Proof.Machine

/-! ### Well-formedness: one ill-formed term for each check -/

theorem test_wf_refuses_read_register_32 : (Instr.alu [32] []).wf = false := by decide
theorem test_wf_refuses_written_register_32 : (Instr.load [] [32]).wf = false := by decide
theorem test_wf_accepts_register_31 : (Instr.store [31] [31]).wf = true := by decide
theorem test_wf_refuses_repeated_read : (Instr.cbr [1, 1] []).wf = false := by decide
theorem test_wf_refuses_repeated_write : (Instr.jmp [] [5, 5]).wf = false := by decide
theorem test_no_header_for_three_reads : (Instr.ret [1, 2, 3] []).hasHeader = false := by decide
theorem test_no_header_for_two_writes : (Instr.alu [] [1, 2]).hasHeader = false := by decide

theorem test_cfg_T_is_well_formed : Cfg.T.wf = true := by decide
theorem test_cfg_refuses_zeros :
    [{ Cfg.T with numCores := 0 }, { Cfg.T with memSize := 0 }, { Cfg.T with busCap := 0 },
      { Cfg.T with pqCap := 0 }, { Cfg.T with robCap := 0 }, { Cfg.T with fetchWidth := 0 },
      { Cfg.T with decodeWidth := 0 }, { Cfg.T with issueWidth := 0 }, { Cfg.T with nEu := 0 },
      { Cfg.T with wbUnits := 0 }, { Cfg.T with l1iLines := 0 }, { Cfg.T with l1iLine := 0 },
      { Cfg.T with l1dLines := 0 }, { Cfg.T with lineSize := 0 }, { Cfg.T with memLat := 0 },
      { Cfg.T with l1Lat := 0 }, { Cfg.T with l3Lat := 0 }].all (fun g => !g.wf) = true := by
  decide
theorem test_cfg_refuses_other_widths :
    [{ Cfg.T with iw := 2 }, { Cfg.T with l1iLine := 6 }, { Cfg.T with lineSize := 5 },
      { Cfg.T with memSize := 2 ^ 32 + 4 }].all (fun g => !g.wf) = true := by decide
theorem test_cfg_refuses_l3_without_l1d :
    ({ Cfg.T with l1dPresent := false, l3Lines := 1 }).wf = false := by decide
theorem test_program_refuses_misaligned_entry : programWf Cfg.T 1 2 = false := by decide
theorem test_program_refuses_end_past_u32 : programWf Cfg.T (2 ^ 30) 0 = false := by decide

/-! ### Decoding: words written out from the table of R103 -/

theorem test_decode_alu :
    decodeHeader 0b00000000000_00000_0_00000_1_00001_1_000 = .ok (.alu [0] [1]) := rfl
theorem test_decode_load :
    decodeHeader 0b00000000000_00000_0_00001_1_00010_1_001 = .ok (.load [1] [2]) := rfl
theorem test_decode_store :
    decodeHeader 0b00000000000_00010_1_00000_1_00000_0_010 = .ok (.store [0, 2] []) := rfl
theorem test_decode_cbr :
    decodeHeader 0b00000000000_00001_1_00000_1_00000_0_011 = .ok (.cbr [0, 1] []) := rfl
theorem test_decode_jmp :
    decodeHeader 0b00000000000_00000_0_00000_0_00101_1_100 = .ok (.jmp [] [5]) := rfl
theorem test_decode_ret :
    decodeHeader 0b00000000000_00000_0_00000_0_00000_0_101 = .ok (.ret [] []) := rfl
theorem test_decode_highest_registers :
    decodeHeader 0b00000000000_11111_1_11110_1_11101_1_000 = .ok (.alu [30, 31] [29]) := rfl
theorem test_decode_refuses_class_6 : decodeHeader 6 = .error .reservedClass := rfl
theorem test_decode_refuses_class_7 : decodeHeader 7 = .error .reservedClass := rfl
theorem test_decode_refuses_rsv :
    decodeHeader 0b00000000001_00000_0_00000_0_00000_0_000 = .error .reservedBits := rfl
theorem test_decode_refuses_unused_field :
    decodeHeader 0b00000000000_00000_0_00000_0_00001_0_000 = .error .unusedField := rfl
theorem test_decode_refuses_second_without_first :
    decodeHeader 0b00000000000_00010_1_00000_0_00000_0_000 = .error .secondWithoutFirst := rfl
theorem test_decode_refuses_repeated_register :
    decodeHeader 0b00000000000_00010_1_00010_1_00000_0_000 = .error .repeatedRegister := rfl

/-! ### Small states -/

/-- A core of configuration T after reset. -/
def blankCore : Core := Core.init Cfg.T CoreInput.blank

/-- A runner. -/
def runner (i : Instr) (ops : Oracle) (pc : Word) (b : Seq) : Runner := ⟨⟨i, ops⟩, pc, b⟩

/-- A work item at pc 8 with sequence ID 0. -/
def work (i : Instr) (ops : Oracle) : Work := ⟨runner i ops 8 0, none, none⟩

/-- A core that has just taken an instruction into its unit, with x2 = 3. -/
def taken (i : Instr) (ops : Oracle) : Core :=
  { blankCore with
    x := regWrite zeroRegs 2 3
    pendingBranch := setsPendingBranch i
    rob := [⟨0, 8, ⟨i, ops⟩, .issued, 0⟩] }

/-- A unit about to ask for the meaning of an instruction, on a given core. -/
def unitOn (k : Core) (i : Instr) (ops : Oracle) (got : Option ByteMap) : State :=
  { State.reset with cores := [k], focus := some ⟨0, 0, work i ops, got⟩ }

/-- The same on the core of `taken`. -/
def unit (i : Instr) (ops : Oracle) (got : Option ByteMap) : State := unitOn (taken i ops) i ops got

/-- Its focus. -/
def focusOf (i : Instr) (ops : Oracle) (got : Option ByteMap) : Focus := ⟨0, 0, work i ops, got⟩

/-- What a unit holds and the flushes raised after a meaning. -/
def seen (o : Host.Outcome State Fault Refusal) : Option (List EuState × List Flush) :=
  match o with
  | .next s => some ((s.core 0).eu, s.raised)
  | .fault _ => none
  | .refused _ => none

/-- The fault of an outcome. -/
def faultOf (o : Host.Outcome State Fault Refusal) : Option Fault :=
  match o with
  | .next _ => none
  | .fault f => some f
  | .refused _ => none

/-- A result in the unit with the flushes raised beside it. -/
def holds (i : Instr) (ops : Oracle) (out : ResultOut) (fl : List Flush) :
    Option (List EuState × List Flush) :=
  some ([.push (work i ops) ⟨0, out⟩], fl)

/-! ### One step of each class (95_test_vectors.md, V-EX) -/

/-- V-EX 1. -/
theorem test_alu_holds_its_result :
    seen (exec (.alu [0] [1]) (unit (.alu [0] [1]) (.addi 1 0 5) none))
      = holds (.alu [0] [1]) (.addi 1 0 5) (.ok ⟨some (1, 5), [], none, false⟩) [] := by decide
/-- V-EX 2. -/
theorem test_alu_division_by_zero_is_recorded :
    seen (exec (.alu [4] [3]) (unit (.alu [4] [3]) .divByZero none))
      = holds (.alu [4] [3]) .divByZero (.err (.exec "division by zero")) [⟨0, none⟩] := by decide
/-- R231, example: the bytes 03 00 00 00 read as 3. -/
theorem test_load_reads_little_endian :
    seen (exec (.load [0] [3]) (unit (.load [0] [3]) (.lw 3 0 0)
        (some [(0, 3), (1, 0), (2, 0), (3, 0)])))
      = holds (.load [0] [3]) (.lw 3 0 0) (.ok ⟨some (3, 3), [], none, false⟩) [] := by decide
/-- V-EX 5. -/
theorem test_load_address_100_is_recorded :
    seen (exec (.load [0] [2]) (unit (.load [0] [2]) (.lw 2 100 0) none))
      = holds (.load [0] [2]) (.lw 2 100 0) (.err (.addr 100)) [⟨0, none⟩] := by decide
/-- V-EX 6. -/
theorem test_store_carries_its_bytes :
    seen (exec (.store [0, 2] []) (unit (.store [0, 2] []) (.sw 2 0 0) none))
      = holds (.store [0, 2] []) (.sw 2 0 0)
          (.ok ⟨none, [(0, 3), (1, 0), (2, 0), (3, 0)], none, false⟩) [] := by decide
/-- R72: the first address past MEM_SIZE. -/
theorem test_store_at_the_end_of_memory_is_recorded :
    seen (exec (.store [0, 2] []) (unit (.store [0, 2] []) (.sb 2 64 0) none))
      = holds (.store [0, 2] []) (.sb 2 64 0) (.err (.addr 64)) [⟨0, none⟩] := by decide
/-- V-EX 7. -/
theorem test_cbr_taken_flushes :
    seen (exec (.cbr [0, 2] []) (unit (.cbr [0, 2] []) (.bne 2 0 8) none))
      = holds (.cbr [0, 2] []) (.bne 2 0 8) (.ok ⟨none, [], some 16, false⟩) [⟨0, some 16⟩] := by
  decide
/-- V-EX 8. -/
theorem test_cbr_not_taken_does_not_flush :
    seen (exec (.cbr [0, 2] []) (unit (.cbr [0, 2] []) (.beq 2 0 8) none))
      = holds (.cbr [0, 2] []) (.beq 2 0 8) (.ok ⟨none, [], none, false⟩) [] := by decide
/-- V-EX 9, at pc 8. -/
theorem test_jmp_flushes_on_a_miss :
    seen (exec (.jmp [] [5]) (unit (.jmp [] [5]) (.jal 5 8) none))
      = holds (.jmp [] [5]) (.jal 5 8) (.ok ⟨some (5, 12), [], some 16, false⟩) [⟨0, some 16⟩] := by
  decide
/-- V-EX 10. -/
theorem test_jmp_to_6_is_recorded :
    seen (exec (.jmp [] []) (unit (.jmp [] []) (.const [] [] (.ok ⟨none, [], some 6, false⟩)) none))
      = holds (.jmp [] []) (.const [] [] (.ok ⟨none, [], some 6, false⟩)) (.err (.align 6))
          [⟨0, none⟩] := by decide
/-- V-EX 11. -/
theorem test_ret_terminating_does_not_flush :
    seen (exec (.ret [] []) (unit (.ret [] []) .ret none))
      = holds (.ret [] []) .ret (.ok ⟨none, [], none, true⟩) [] := by decide
/-- V-EX 12. -/
theorem test_ret_to_20_flushes :
    seen (exec (.ret [] [])
        (unit (.ret [] []) (.const [] [] (.ok ⟨none, [], some 20, false⟩)) none))
      = holds (.ret [] []) (.const [] [] (.ok ⟨none, [], some 20, false⟩))
          (.ok ⟨none, [], some 20, false⟩) [⟨0, some 20⟩] := by decide
/-- V-EX 3. -/
theorem test_alu_with_a_memory_change_faults :
    faultOf (exec (.alu [] [])
        (unit (.alu [] []) (.const [] [] (.ok ⟨none, [(0, 1)], none, false⟩)) none))
      = some .oracle := by decide

/-- S1, R287: the line store of two lines. -/
theorem test_line_store_evicts_the_least_recent :
    (lruPush 2 ([(2, ()), (4, ())] : LruStore Unit) 6 ()) = ([(4, ()), (6, ())], some (2, ())) := by
  decide
/-- S2, cycle 5, with BUS_CAP = 1. -/
theorem test_bus_drains_buffer_then_entry :
    (Bus.mk [3] [2] [] : Bus Nat).connect 1 = ⟨[], [3], [2]⟩ := by decide

/-! ### A case for the hypotheses of every statement: encoding -/

theorem case_EncodedHeader :
    (Instr.alu [30, 31] [29]).wf = true ∧ (Instr.alu [30, 31] [29]).hasHeader = true := by decide
theorem case_DecodedHeader : decodeHeader 0x00000628 = .ok (.alu [1] [2]) := rfl
theorem case_HeaderFields_one_read : encodeHeader (.alu [1] [2]) = some 0x00000628 := rfl
theorem case_HeaderFields_two_reads : encodeHeader (.store [0, 2] []) = some 0x00028202 := rfl
theorem case_HeaderFields_none : encodeHeader (.ret [] []) = some 0x00000005 := rfl
theorem case_HeaderFields_larger_sets :
    2 < (Instr.alu [1, 2, 3] []).reads.length ∧ 1 < (Instr.alu [] [1, 2]).writes.length := by decide

/-- A machine whose program is one illegal header. -/
def illegalProgram (h : BitVec 32) : State :=
  { State.reset with inputs := [{ CoreInput.blank with prog := [⟨.header h, .nop⟩] }] }

theorem case_IllegalHeader_class_6 :
    headerField 6 0 3 = 6 ∧ (illegalProgram 6).status = .running ∧
      (illegalProgram 6).inputs[0]? = some { CoreInput.blank with prog := [⟨.header 6, .nop⟩] } := by
  decide
/-- When nothing else is ill-formed the refusal is DESC, of core 0 and index 0. -/
theorem case_IllegalHeader_refusal :
    (illegalProgram 6).cfg.wf = true ∧ (illegalProgram 6).shaped = true ∧
      (illegalProgram 6).inputs.all
        (fun j => programWf (illegalProgram 6).cfg j.prog.length j.entry) = true ∧
      step (illegalProgram 6) = .refused (.descriptor 0 0) := ⟨by decide, by decide, by decide, rfl⟩
theorem case_IllegalHeader_class_7 : headerField 7 0 3 = 7 := by decide
theorem case_IllegalHeader_lowest_reserved_bit : headerField 0x00200000 21 11 ≠ 0 := by decide
theorem case_IllegalHeader_highest_reserved_bit : headerField 0x80000000 21 11 ≠ 0 := by decide

/-! ### Buses and the front end -/

/-- A result of a sequence ID. -/
def resultOf (b : Seq) : Result := ⟨b, .ok .empty⟩

theorem case_BusMoves_full_positions :
    (Bus.mk [resultOf 3] [resultOf 2] [resultOf 1]).visible.length ≤ 1 ∧
      ((Bus.mk [resultOf 3] [resultOf 2] [resultOf 1]).connect 1).entry ≠ [] := by decide
theorem case_BusMoves_added_value :
    ∃ b', (Bus.mk [] [] [resultOf 1]).add 2 (resultOf 2) = .ok b' ∧ 1 + 0 + 0 < 2 :=
  ⟨_, rfl, by decide⟩

theorem case_Fetch_miss_detects :
    blankCore.complete = false ∧ Cfg.T.fetchWidth = 1 ∧ blankCore.fstate = .idle ∧
      blankCore.pc.toNat < endPc Cfg.T 1 ∧ lruContains blankCore.l1i (lineI Cfg.T blankCore.pc) = false
  := by decide
theorem case_Fetch_miss_counts : ({ blankCore with fstate := .miss 3 }).fstate = .miss 3 ∧ 1 < 3 := by
  decide
/-- A core whose L1I holds the line of its pc. -/
def fetching (fd : Bus Word) : Core :=
  { blankCore with l1i := [(lineI Cfg.T blankCore.pc, ())], fd := fd }
theorem case_Fetch_hit :
    (fetching .empty).complete = false ∧ (fetching .empty).fstate = .idle ∧
      (fetching .empty).pc.toNat < endPc Cfg.T 1 ∧
      lruContains (fetching .empty).l1i (lineI Cfg.T (fetching .empty).pc) = true ∧
      (fetching .empty).fd.entry.length < Cfg.T.busCap := by decide
theorem case_Fetch_full : Cfg.T.busCap ≤ (fetching ⟨[0], [], []⟩).fd.entry.length := by decide
theorem case_Fetch_end : endPc Cfg.T 0 ≤ blankCore.pc.toNat := by decide
theorem case_Fetch_complete : ({ blankCore with complete := true }).complete = true := rfl
theorem case_Fetch_miss_arrives :
    ({ blankCore with fstate := .miss 1 }).fstate = .miss 1 ∧
      ({ blankCore with fstate := .miss 1 }).pc.toNat < endPc Cfg.T 1 ∧
      ({ blankCore with fstate := .miss 1 }).fd.entry.length < Cfg.T.busCap := by decide

theorem case_DecodeUnit :
    ({ blankCore with fd := ⟨[], [], [0]⟩ }).pendingBranch = false ∧
      ({ blankCore with fd := ⟨[], [], [0]⟩ }).di.entry.length < Cfg.T.busCap ∧
      ([⟨.header 5, .ret⟩] : List ProgEntry)[(0 : Word).toNat / Cfg.T.iw]? = some ⟨.header 5, .ret⟩
  := by decide
theorem case_DecodeUnit_blocked : ({ blankCore with pendingBranch := true }).pendingBranch = true := rfl

/-! ### Issue -/

/-- A scan at the start of an issue step. -/
def scanOf (k : Core) : Scan := ⟨k, [], 0, false, false⟩

/-- A core with `addi x1, x0, 5` issued in the preceding cycle. -/
def oneInFlight : Core :=
  { blankCore with
    pw := [(1, 1)]
    prevIssued := [0]
    rob := [⟨0, 0, ⟨.alu [0] [1], .addi 1 0 5⟩, .issued, 0⟩] }

theorem case_IssueGrants_plain :
    verdict Cfg.T (scanOf blankCore) (runner (.alu [0] [1]) (.addi 1 0 5) 0 0) = .issue .plain := by
  decide
/-- V-ISS 1. -/
theorem case_IssueGrants_forward :
    verdict Cfg.T (scanOf oneInFlight) (runner (.alu [1] [2]) (.add 2 1 1) 4 1)
      = .issue (.fwd 0 1) := by decide
/-- V-ISS 4. -/
theorem case_IssueGrants_rename :
    verdict Cfg.T (scanOf oneInFlight) (runner (.alu [0] [1]) (.addi 1 0 2) 4 1) = .issue .rename := by
  decide
theorem case_StopsPassed (k : Core) (hi : k.ie = .empty) (hr : k.rob.length ≤ 1) :
    StopsPassed Cfg.T (scanOf k) := by
  refine ⟨rfl, show (0 : Nat) ≠ 1 by decide, ?_, ?_⟩
  · simp only [scanOf, hi]
    decide
  · have : Cfg.T.robCap = 16 := rfl
    simp only [scanOf, this]
    omega
theorem case_HoldsPassed (k : Core) (q p : RegId) (ops : Oracle) :
    HoldsPassed (scanOf k) (runner (.alu [q] [p]) ops 4 1) := by
  refine ⟨?_, ?_, fun _ hp => (nomatch hp), ?_⟩ <;> simp [runner, Instr.code]
theorem case_IssueGrants_plain_issues :
    pwGet blankCore.pw 0 = 0 ∧ pwGet blankCore.pw 1 = 0 := by decide
theorem case_IssueGrants_forward_issues :
    Cfg.T.fwdEnabled = true ∧ pwGet oneInFlight.pw 1 = 1 ∧ pwGet oneInFlight.pw 2 = 0 ∧
      oneInFlight.rob = [⟨0, 0, ⟨.alu [0] [1], .addi 1 0 5⟩, .issued, 0⟩] ∧
      0 ∈ oneInFlight.prevIssued ∧ oneInFlight.links = [] := by decide
theorem case_IssueGrants_rename_issues :
    Cfg.T.renameEnabled = true ∧ pwGet oneInFlight.pw 0 = 0 ∧ 0 < pwGet oneInFlight.pw 1 ∧
      1 ≤ oneInFlight.freePhys := by decide
theorem case_IssuedRunner_stops : ¬StopsPassed Cfg.T { scanOf blankCore with ctlIssued := true } :=
  fun h => by cases h.1
theorem case_IssuedRunner_holds :
    ¬HoldsPassed (scanOf oneInFlight) (runner (.ret [] []) .ret 4 1) :=
  fun h => by cases h.2.1 rfl
theorem case_IssuedRunner_control :
    verdict Cfg.T (scanOf oneInFlight) (runner (.cbr [0, 2] []) (.bne 2 0 8) 4 1)
      = .issue .plain := by decide
theorem case_IssuedRunner_return :
    verdict Cfg.T (scanOf blankCore) (runner (.ret [] []) .ret 4 1) = .issue .plain := by decide
theorem case_IssuedRunner_memory_behind_a_skipped_alu :
    verdict Cfg.T ⟨{ blankCore with rob := [⟨0, 0, ⟨.load [] [1], .nop⟩, .executed, 0⟩] },
        [runner (.alu [4] [5]) (.addi 5 4 1) 4 1], 0, false, true⟩
        (runner (.load [0] [2]) (.lw 2 0 0) 8 2) = .issue .plain := by decide
theorem case_IssueRecords : oneInFlight.ie.entry.length < Cfg.T.busCap := by decide
/-- A core with `addi x1, x0, 5` in flight, a runner on DI and a pending queue. -/
def issuing (pending : List Runner) (r : Runner) : Core :=
  { oneInFlight with pendingQ := pending, di := ⟨[], [], [r]⟩, curIssued := [] }
/-- A runner that is held behind the one in flight, and one that is not. -/
def heldRet : Runner := runner (.ret [] []) .ret 4 1
def freeAlu : Runner := runner (.alu [0] [3]) (.addi 3 0 5) 8 2
/-- V-ISS 8. -/
theorem case_IssueStep_held :
    (issuing [] heldRet).pendingQ = [] ∧ 1 ≤ Cfg.T.pqCap ∧
      verdict Cfg.T ⟨issuing [] heldRet, [], 0, false, false⟩ heldRet = .hold := by decide
theorem case_IssueStep_full_queue :
    Cfg.T.pqCap ≤ (issuing (List.replicate 4 heldRet) heldRet).pendingQ.length ∧
      verdict Cfg.T (scanOf (issuing (List.replicate 4 heldRet) heldRet)) heldRet = .hold := by decide
theorem case_IssueStep_stop :
    verdict Cfg.T { scanOf (issuing [] freeAlu) with ctlIssued := true } freeAlu = .stop := by decide
theorem case_IssueStep_granted_from_di :
    ∃ gr k, verdict Cfg.T (scanOf (issuing [] freeAlu)) freeAlu = .issue gr ∧
      doIssue Cfg.T gr freeAlu { issuing [] freeAlu with di := ⟨[], [], []⟩ } = .ok k :=
  ⟨.plain, _, by decide, rfl⟩
theorem case_IssueStep_granted_from_pending :
    ∃ gr k, verdict Cfg.T (scanOf (issuing [freeAlu] heldRet)) freeAlu = .issue gr ∧
      (issuing [freeAlu] heldRet).pendingQ = [] ++ freeAlu :: [] ∧
      doIssue Cfg.T gr freeAlu { issuing [freeAlu] heldRet with pendingQ := [] ++ [] } = .ok k :=
  ⟨.plain, _, by decide, rfl, rfl⟩
theorem case_IssueStep_phase_1_stops :
    ∃ sc, issuePending { Cfg.T with issueWidth := 1 } [freeAlu, freeAlu]
      (scanOf (issuing [freeAlu, freeAlu] heldRet)) = .ok (sc, true) := ⟨_, rfl⟩
theorem case_IssueStep_phase_2 :
    ∃ sc sc2, issuePending Cfg.T [] (scanOf (issuing [] freeAlu)) = .ok (sc, false) ∧
      issueFresh Cfg.T sc.core.di.visible.length sc = .ok sc2 := ⟨_, _, rfl, rfl⟩
/-- R187: a pending runner is issued and the one on DI waits, and nothing was held. -/
theorem test_issue_step_issues_a_pending_runner :
    (issueStep Cfg.T (issuing [freeAlu] heldRet)).toOption.map
      (fun k => (k.pendingQ, k.rob.map (fun e => e.seq), k.prevIssued, k.stallCount))
      = some ([], [0, 2], [2], 0) := by decide

/-! ### The instruction classes -/

/-- A result whose register, if any, is in W, with no memory change and no new pc keeps the contract of
every class. -/
theorem keepsContract_of_register {i : Instr} {s : State} {f : Focus} {o : ExecutionResult}
    (h : ∀ q v, o.regChange = some (q, v) → q ∈ i.writes) (hm : o.memChange = [])
    (hp : isCtl i = false → o.pcChange = none) : keepsContract i s f o :=
  ⟨h, by simp [hm], fun _ => hm, hp⟩

theorem case_AluRuns :
    runsTo (.alu [0] [1]) (unit (.alu [0] [1]) (.addi 1 0 5) none)
      (focusOf (.alu [0] [1]) (.addi 1 0 5) none) [] ⟨some (1, 5), [], none, false⟩ := by
  refine ⟨⟨rfl, rfl, rfl, rfl⟩, rfl, keepsContract_of_register ?_ rfl (fun _ => rfl), ?_⟩
  · intro q v h
    cases h
    decide
  · intro l hl
    simp [unit, unitOn, taken, blankCore, Core.init, focusOf, State.core] at hl

/-- An access across a line boundary: lines 0 and 4. -/
theorem case_LoadRequestsItsFirstLine :
    (unit (.load [0] [1]) (.lw 1 2 0) none).focus = some (focusOf (.load [0] [1]) (.lw 1 2 0) none) ∧
      focusWrites (unit (.load [0] [1]) (.lw 1 2 0) none)
        (focusOf (.load [0] [1]) (.lw 1 2 0) none) = [] ∧
      firstIllegal Cfg.T (focusReads (unit (.load [0] [1]) (.lw 1 2 0) none)
        (focusOf (.load [0] [1]) (.lw 1 2 0) none)) = none ∧
      linesOf Cfg.T ((focusReads (unit (.load [0] [1]) (.lw 1 2 0) none)
        (focusOf (.load [0] [1]) (.lw 1 2 0) none)).map BitVec.toNat) = [0, 4] ∧
      ((unit (.load [0] [1]) (.lw 1 2 0) none).core 0).req = none := by decide

/-- The bytes of line 0. -/
def lineZero : ByteMap := [(0, 3), (1, 0), (2, 0), (3, 0)]

theorem case_LoadRuns_on_its_bytes :
    runsTo (.load [0] [3]) (unit (.load [0] [3]) (.lw 3 0 0) (some lineZero))
      (focusOf (.load [0] [3]) (.lw 3 0 0) (some lineZero)) lineZero
      ⟨some (3, 3), [], none, false⟩ := by
  refine ⟨⟨rfl, rfl, .inl rfl⟩, rfl, keepsContract_of_register ?_ rfl (fun _ => rfl), ?_⟩
  · intro q v h
    cases h
    decide
  · intro l hl
    simp [unit, unitOn, taken, blankCore, Core.init, focusOf, State.core] at hl

theorem case_LoadRuns_without_an_address :
    runsTo (.load [] []) (unit (.load [] []) .nop none) (focusOf (.load [] []) .nop none) []
      ⟨none, [], none, false⟩ := by
  refine ⟨⟨rfl, rfl, .inr ⟨rfl, rfl, rfl⟩⟩, rfl,
    keepsContract_of_register (fun _ _ h => nomatch h) rfl (fun _ => rfl), ?_⟩
  intro l hl
  simp [unit, unitOn, taken, blankCore, Core.init, focusOf, State.core] at hl

theorem case_StoreCarriesItsBytes :
    runsTo (.store [0, 2] []) (unit (.store [0, 2] []) (.sb 2 63 0) none)
      (focusOf (.store [0, 2] []) (.sb 2 63 0) none) [] ⟨none, [(63, 3)], none, false⟩ := by
  refine ⟨⟨rfl, rfl, rfl, rfl⟩, rfl, ⟨?_, ?_, ?_, fun _ => rfl⟩, ?_⟩
  · intro q v h
    cases h
  · intro e he
    rw [List.mem_singleton.mp he]
    decide
  · intro h
    cases h
  · intro l hl
    simp [unit, unitOn, taken, blankCore, Core.init, focusOf, State.core] at hl

/-- A control instruction of no register runs to a result with only a new pc and a termination. -/
theorem control_runs (i : Instr) (p : Option Word) (t : Bool)
    (hi : i = .cbr [] [] ∨ i = .jmp [] [] ∨ i = .ret [] []) :
    runsTo i (unit i (.const [] [] (.ok ⟨none, [], p, t⟩)) none)
      (focusOf i (.const [] [] (.ok ⟨none, [], p, t⟩)) none) [] ⟨none, [], p, t⟩ := by
  have hd : ∀ k : Core, k.links = [] → deliverable k 0 := by
    intro k hk l hl
    simp [hk] at hl
  rcases hi with rfl | rfl | rfl <;>
    exact ⟨⟨rfl, rfl, rfl, rfl⟩, rfl,
      keepsContract_of_register (fun _ _ h => nomatch h) rfl (fun h => nomatch h), hd _ rfl⟩

theorem case_ConditionalBranch_taken :
    (16 : Word) = (some (16 : Word)).getD (8 + BitVec.ofNat 32 Cfg.T.iw) ∧
      (16 : Word).toNat % Cfg.T.iw = 0 ∧
      runsTo (.cbr [] []) (unit (.cbr [] []) (.const [] [] (.ok ⟨none, [], some 16, false⟩)) none)
        (focusOf (.cbr [] []) (.const [] [] (.ok ⟨none, [], some 16, false⟩)) none) []
        ⟨none, [], some 16, false⟩ :=
  ⟨rfl, rfl, control_runs _ _ _ (by simp)⟩

theorem case_ConditionalBranch_not_taken :
    (12 : Word) = (none : Option Word).getD (8 + BitVec.ofNat 32 Cfg.T.iw) ∧
      (12 : Word).toNat % Cfg.T.iw = 0 ∧
      runsTo (.cbr [] []) (unit (.cbr [] []) (.const [] [] (.ok ⟨none, [], none, false⟩)) none)
        (focusOf (.cbr [] []) (.const [] [] (.ok ⟨none, [], none, false⟩)) none) []
        ⟨none, [], none, false⟩ :=
  ⟨rfl, rfl, control_runs _ _ _ (by simp)⟩

theorem case_Jump :
    (4 : Word).toNat % Cfg.T.iw = 0 ∧
      runsTo (.jmp [] []) (unit (.jmp [] []) (.const [] [] (.ok ⟨none, [], some 4, false⟩)) none)
        (focusOf (.jmp [] []) (.const [] [] (.ok ⟨none, [], some 4, false⟩)) none) []
        ⟨none, [], some 4, false⟩ :=
  ⟨rfl, control_runs _ _ _ (by simp)⟩

theorem case_Return_terminates :
    runsTo (.ret [] []) (unit (.ret [] []) (.const [] [] (.ok ⟨none, [], some 6, true⟩)) none)
      (focusOf (.ret [] []) (.const [] [] (.ok ⟨none, [], some 6, true⟩)) none) []
      ⟨none, [], some 6, true⟩ := control_runs _ _ _ (by simp)

theorem case_Return_jumps :
    (20 : Word).toNat % Cfg.T.iw = 0 ∧
      runsTo (.ret [] []) (unit (.ret [] []) (.const [] [] (.ok ⟨none, [], some 20, false⟩)) none)
        (focusOf (.ret [] []) (.const [] [] (.ok ⟨none, [], some 20, false⟩)) none) []
        ⟨none, [], some 20, false⟩ :=
  ⟨rfl, control_runs _ _ _ (by simp)⟩

theorem case_Return_falls_through :
    runsTo (.ret [] []) (unit (.ret [] []) (.const [] [] (.ok ⟨none, [], none, false⟩)) none)
      (focusOf (.ret [] []) (.const [] [] (.ok ⟨none, [], none, false⟩)) none) []
      ⟨none, [], none, false⟩ := control_runs _ _ _ (by simp)

theorem case_OracleError_alu :
    readyToRun (.alu [4] [3]) (unit (.alu [4] [3]) .divByZero none)
        (focusOf (.alu [4] [3]) .divByZero none) [] ∧
      focusAnswer (unit (.alu [4] [3]) .divByZero none) (focusOf (.alu [4] [3]) .divByZero none) []
        = .err "division by zero" := ⟨⟨rfl, rfl, rfl, rfl⟩, rfl⟩

theorem case_OracleError_load :
    readyToRun (.load [] []) (unit (.load [] []) (.const [0] [] (.err "e")) (some [(0, 0)]))
        (focusOf (.load [] []) (.const [0] [] (.err "e")) (some [(0, 0)])) [(0, 0)] ∧
      focusAnswer (unit (.load [] []) (.const [0] [] (.err "e")) (some [(0, 0)]))
        (focusOf (.load [] []) (.const [0] [] (.err "e")) (some [(0, 0)])) [(0, 0)] = .err "e" :=
  ⟨⟨rfl, rfl, .inl rfl⟩, rfl⟩

/-- The first illegal address is MEM_SIZE itself, 64. -/
theorem case_IllegalAddress_load :
    (focusReads (unit (.load [0] [2]) (.lw 2 62 0) none) (focusOf (.load [0] [2]) (.lw 2 62 0) none)).find?
      (fun b => decide (Cfg.T.memSize ≤ b.toNat)) = some 64 ∧
    focusWrites (unit (.load [0] [2]) (.lw 2 62 0) none) (focusOf (.load [0] [2]) (.lw 2 62 0) none)
      = [] := by decide

theorem case_IllegalAddress_store :
    (focusWrites (unit (.store [0, 2] []) (.sb 2 64 0) none)
        (focusOf (.store [0, 2] []) (.sb 2 64 0) none)).find?
      (fun b => decide (Cfg.T.memSize ≤ b.toNat)) = some 64 ∧
    focusReads (unit (.store [0, 2] []) (.sb 2 64 0) none)
      (focusOf (.store [0, 2] []) (.sb 2 64 0) none) = [] := by decide

theorem case_MisalignedTarget (i : Instr)
    (hi : i = .cbr [] [] ∨ i = .jmp [] [] ∨ i = .ret [] []) :
    (6 : Word).toNat % Cfg.T.iw ≠ 0 ∧
      runsTo i (unit i (.const [] [] (.ok ⟨none, [], some 6, false⟩)) none)
        (focusOf i (.const [] [] (.ok ⟨none, [], some 6, false⟩)) none) []
        ⟨none, [], some 6, false⟩ :=
  ⟨by decide, control_runs _ _ _ hi⟩

theorem case_BrokenContract_addresses :
    isLoad (.alu [] []) = false ∧
      focusReads (unit (.alu [] []) (.const [0] [] (.ok .empty)) none)
        (focusOf (.alu [] []) (.const [0] [] (.ok .empty)) none) ≠ [] ∧
      isStore (.load [] []) = false ∧
      focusWrites (unit (.load [] []) (.const [] [0] (.ok .empty)) none)
        (focusOf (.load [] []) (.const [] [0] (.ok .empty)) none) ≠ [] := by decide

/-- An answer that names register 1, byte 0 and a new pc, given to an ALU with empty W. -/
def badAnswer : ExecutionResult := ⟨some (1, 0), [(0, 0)], some 4, false⟩

theorem case_BrokenContract_results :
    readyToRun (.alu [] []) (unit (.alu [] []) (.const [] [] (.ok badAnswer)) none)
        (focusOf (.alu [] []) (.const [] [] (.ok badAnswer)) none) [] ∧
      focusAnswer (unit (.alu [] []) (.const [] [] (.ok badAnswer)) none)
        (focusOf (.alu [] []) (.const [] [] (.ok badAnswer)) none) [] = .ok badAnswer ∧
      (1 : RegId) ∉ (Instr.alu [] []).writes ∧
      (0 : Word) ∉ focusWrites (unit (.alu [] []) (.const [] [] (.ok badAnswer)) none)
        (focusOf (.alu [] []) (.const [] [] (.ok badAnswer)) none) ∧
      isStore (.alu [] []) = false ∧ badAnswer.memChange ≠ [] ∧
      isCtl (.alu [] []) = false ∧ badAnswer.pcChange ≠ none :=
  ⟨⟨rfl, rfl, rfl, rfl⟩, rfl, by decide, by decide, rfl, by decide, rfl, by decide⟩

/-- A request under way on core 0. -/
def someRequest : ReqState := ⟨.read, 0, .eu 0, 0, [], none, .locking⟩

theorem case_ImpossibleExecutions_second_request :
    linesOf Cfg.T ((focusReads
        (unitOn { blankCore with req := some someRequest } (.load [0] [1]) (.lw 1 0 0) none)
        (focusOf (.load [0] [1]) (.lw 1 0 0) none)).map BitVec.toNat) = [0] ∧
      ((unitOn { blankCore with req := some someRequest } (.load [0] [1]) (.lw 1 0 0) none).core 0).req
        = some someRequest := by decide

/-- A core whose link from sequence ID 0 has its value already. -/
def linkWritten : Core := { blankCore with links := [⟨0, 1, 1, some 5⟩] }

theorem case_ImpossibleExecutions_cell_written :
    readyToRun (.alu [] []) (unitOn linkWritten (.alu [] []) .nop none)
        (focusOf (.alu [] []) .nop none) [] ∧
      keepsContract (.alu [] []) (unitOn linkWritten (.alu [] []) .nop none)
        (focusOf (.alu [] []) .nop none) .empty ∧
      ((unitOn linkWritten (.alu [] []) .nop none).core 0).links.find?
        (fun j => decide (j.prod = 0)) = some ⟨0, 1, 1, some 5⟩ :=
  ⟨⟨rfl, rfl, rfl, rfl⟩, keepsContract_of_register (fun _ _ h => nomatch h) rfl (fun _ => rfl),
    rfl⟩

theorem case_ImpossibleExecutions_no_unit : State.reset.focus = none := rfl

theorem case_ExecutionTouches :
    ∃ t, exec (.jmp [] [5]) (unit (.jmp [] [5]) (.jal 5 8) none) = .next t := ⟨_, rfl⟩

/-- The machine of configuration T with the header word of `jal x5, +8` brought to its unit. -/
def placed : State := State.reset.withFetchWord 32 0x0000005C

theorem case_StepRuns_unit :
    ((beforeExecute 0 placed).toOption.map fun s =>
        (s.euState 0 0, (s.core 0).ie.visible))
      = some (.idle, [⟨runner (.jmp [] [5]) .nop 0 0, none⟩]) := by decide
theorem case_StepRuns_step :
    placed.status = .running ∧ loadRefusal placed = none ∧ placed.cfg.numCores = 1 ∧
      placed.cfg.nEu = 1 ∧ (placed.core 0).done = false := by decide
/-- A machine whose unit waits for a value that has arrived. -/
def forwarded : State :=
  { State.reset with
    cores := [{ blankCore with
      eu := [.waitFwd ⟨runner (.alu [1] [2]) (.add 2 1 1) 4 1, some (0, 1), none⟩]
      links := [⟨0, 1, 1, some 5⟩] }] }
theorem case_StepRuns_forwarded :
    (forwarded.core 0).links.find? (fun j => decide (j.cons = 1)) = some ⟨0, 1, 1, some 5⟩ := by
  decide
/-- R202: the consumer adds the forwarded 5 to itself. -/
theorem test_forwarded_value_is_used :
    (unitForward 0 0 forwarded).toOption.map (fun s => ((s.core 0).eu, (s.core 0).links))
      = some ([.push ⟨runner (.alu [1] [2]) (.add 2 1 1) 4 1, some (0, 1), some (1, 5)⟩
          ⟨1, .ok ⟨some (2, 10), [], none, false⟩⟩], []) := by decide
/-- A machine without data caches whose unit reads the last line of its `lw x3, 0(x0)`, or that line
before one more. -/
def reading (todo : List LineAddr) : State :=
  { State.reset with
    cfg := { Cfg.T with l1dPresent := false }
    mem := [(0, 3)]
    cores := [{ blankCore with
      rob := [⟨0, 8, ⟨.load [0] [3], .lw 3 0 0⟩, .issued, 0⟩]
      eu := [.memRd (work (.load [0] [3]) (.lw 3 0 0)) todo []]
      req := some ⟨.read, 0, .eu 0, 0, [], none, .access 1 .mem⟩ }] }
theorem case_StepRuns_last_line :
    ∃ s1, poll 0 (.eu 0) (reading [0]) = .ok (s1, .finished lineZero) ∧ ([0] : List LineAddr).tail = [] :=
  ⟨_, rfl, rfl⟩
theorem case_StepRuns_next_line :
    ∃ s1 t, poll 0 (.eu 0) (reading [0, 4]) = .ok (s1, .finished lineZero) ∧
      unitMemory 0 0 (reading [0, 4]) = .ok t := ⟨_, _, rfl, rfl⟩
theorem case_StepRuns_line_not_there :
    ∃ s1, poll 0 (.eu 0) (setReq 0 (some ⟨.read, 0, .eu 0, 0, [], none, .access 3 .mem⟩) (reading [0]))
      = .ok (s1, .access 2 .mem) := ⟨_, rfl⟩
/-- R221, R231: with its last line the LOAD runs and holds the word 3. -/
theorem test_load_runs_when_its_last_line_arrives :
    (unitMemory 0 0 (reading [0])).toOption.map (fun s => ((s.core 0).eu, (s.core 0).req))
      = some ([.push (work (.load [0] [3]) (.lw 3 0 0)) ⟨0, .ok ⟨some (3, 3), [], none, false⟩⟩],
          none) := by decide
theorem case_PlacedWord : decodeHeader 0x0000005C = .ok (.jmp [] [5]) := rfl

/-! ### Branch unit and commit -/

theorem case_RecordedBranch_full_buffer :
    ([(0, 8), (4, 12)] : List (Word × Word)).length = 2 ∧
      (8 : Word) ∉ ([(0, 8), (4, 12)] : List (Word × Word)).map Prod.fst ∧
      (([(0, 8), (4, 12)] : List (Word × Word)).map Prod.fst).Nodup := by decide
theorem case_RecordedBranch_same_source :
    (4 : Word) ∈ ([(0, 8), (4, 12)] : List (Word × Word)).map Prod.fst := by decide

/-- The buffer entry of `addi x1, x0, 5`, completed with a result. -/
def doneEntry (o : ExecutionResult) : RobEntry :=
  ⟨0, 0, ⟨.alu [0] [1], .addi 1 0 5⟩, .completed (.ok o), 0⟩

/-- The result x1 = 5. -/
def five : ExecutionResult := ⟨some (1, 5), [], none, false⟩

/-- A machine whose core 0 has one entry in its buffer. -/
def withEntry (e : RobEntry) : State :=
  { State.reset with cores := [{ blankCore with pw := [(1, 1)], rob := [e] }] }

theorem case_Retirement (q : RegId) :
    (doneEntry five).desc.instr.writes.count q ≤ pwGet ((withEntry (doneEntry five)).core 0).pw q := by
  by_cases h : q = 1
  · subst h
    decide
  · have hc : (doneEntry five).desc.instr.writes.count q = 0 :=
      List.count_eq_zero.mpr (by simp [doneEntry, Instr.writes, h])
    rw [hc]
    exact Nat.zero_le _
theorem case_CommitTakesTheOldest :
    ((withEntry (doneEntry five)).core 0).sprog = none ∧
      ∃ t, commitOne 0 (withEntry (doneEntry five)) = .ok (t, true) := ⟨rfl, _, rfl⟩
/-- A core of one buffer entry and one result on EW. -/
def draining (b : Seq) : Core :=
  { blankCore with
    rob := [⟨0, 0, ⟨.alu [0] [1], .addi 1 0 5⟩, .executed, 0⟩]
    ew := ⟨[], [], [⟨b, .ok five⟩]⟩ }
theorem case_Drain_completes :
    ∀ v ∈ (draining 0).ew.visible.take 1, ∃ e ∈ (draining 0).rob, e.seq = v.seq := by decide
theorem case_Drain_without_entry :
    ∃ v ∈ (draining 7).ew.visible.take 1, ∀ e ∈ (draining 7).rob, e.seq ≠ v.seq := by decide
theorem case_Drain_then_commits :
    ∃ k, drainLoop Cfg.T.wbUnits (draining 0) = .ok k := ⟨_, rfl⟩
/-- R279: the drain makes the entry Completed. -/
theorem test_drain_completes_the_entry :
    (drainLoop 1 (draining 0)).toOption.map (fun k => (k.rob, k.ew))
      = some ([doneEntry five], .empty) := by decide
/-- A unit that holds a result, before EW. -/
def pushing (ew : Bus Result) : State :=
  { State.reset with
    cores := [{ blankCore with
      eu := [.push (work (.alu [0] [1]) (.addi 1 0 5)) ⟨0, .ok five⟩]
      ew := ew }] }
theorem case_Push_room :
    (pushing .empty).euState 0 0 = .push (work (.alu [0] [1]) (.addi 1 0 5)) ⟨0, .ok five⟩ ∧
      ((pushing .empty).core 0).ew.entry.length < Cfg.T.busCap := by decide
theorem case_Push_full :
    Cfg.T.busCap ≤ ((pushing ⟨[⟨7, .ok five⟩], [], []⟩).core 0).ew.entry.length := by decide
theorem case_CompletedHead :
    commitHead ((withEntry (doneEntry five)).core 0) = some (doneEntry five) ∧
      five.memChange = [] ∧ five.terminate = false ∧ (withEntry (doneEntry five)).cores.length = 1 := by
  decide
/-- The completed entry of a STORE of the bytes 6 to 9, which lie in the lines 4 and 8. -/
def storeEntry : RobEntry :=
  ⟨0, 8, ⟨.store [0, 2] [], .nop⟩,
    .completed (.ok ⟨none, [(6, 1), (7, 2), (8, 3), (9, 4)], none, false⟩), 0⟩
/-- A machine without data caches that commits that store, its WRITE of a line in a phase. -/
def storing (todo : List LineAddr) (l : LineAddr) (bytes : List Host.Cell) (ph : Phase) : State :=
  { State.reset with
    cfg := { Cfg.T with l1dPresent := false }
    cores := [{ blankCore with
      rob := [storeEntry]
      sprog := some ⟨0, todo, 0⟩
      req := some ⟨.write, l, .wb, 0, bytes, none, ph⟩ }] }
theorem case_StoreCommit_begins :
    MsiExclusive (withEntry storeEntry) ∧ ((withEntry storeEntry).core 0).sprog = none ∧
      ((withEntry storeEntry).core 0).req = none ∧
      commitHead ((withEntry storeEntry).core 0) = some storeEntry ∧
      linesOf Cfg.T [6, 7, 8, 9] = [4, 8] :=
  ⟨fun _ _ _ _ _ _ h => (nomatch h), rfl, rfl, rfl, by decide⟩
theorem case_StoreCommit_waits :
    ∃ t, poll 0 .wb (storing [4, 8] 4 [(6, 1), (7, 2)] (.access 2 .mem)) = .ok (t, .access 1 .mem) :=
  ⟨_, rfl⟩
theorem case_StoreCommit_next_line :
    ∃ s1 t, poll 0 .wb (storing [4, 8] 4 [(6, 1), (7, 2)] (.access 1 .mem)) = .ok (s1, .finished []) ∧
      commitOne 0 (storing [4, 8] 4 [(6, 1), (7, 2)] (.access 1 .mem)) = .ok (t, false) :=
  ⟨_, _, rfl, rfl⟩
theorem case_StoreCommit_last_line :
    ∃ s1, poll 0 .wb (storing [8] 8 [(8, 3), (9, 4)] (.access 1 .mem)) = .ok (s1, .finished []) ∧
      robFind ((storing [8] 8 [(8, 3), (9, 4)] (.access 1 .mem)).core 0).rob 0 = some storeEntry :=
  ⟨_, rfl, rfl⟩
theorem case_CommitTakesTheOldest_store :
    commitHead ((storing [8] 8 [(8, 3), (9, 4)] (.access 1 .mem)).core 0) = some storeEntry ∧
    ∃ t, commitOne 0 (storing [8] 8 [(8, 3), (9, 4)] (.access 1 .mem)) = .ok (t, true) := ⟨rfl, _, rfl⟩
/-- R273: the last line of the store is in memory and the instruction is gone. -/
theorem test_store_commit_writes_its_last_line :
    (commitOne 0 (storing [8] 8 [(8, 3), (9, 4)] (.access 1 .mem))).toOption.map
      (fun p => (p.1.mem, (p.1.core 0).rob, (p.1.core 0).sprog))
      = some ([(8, 3), (9, 4)], [], none) := by decide
/-- The same entry with a program error. -/
def errEntry : RobEntry :=
  ⟨0, 0, ⟨.alu [0] [1], .divByZero⟩, .completed (.err (.exec "division by zero")), 0⟩
theorem case_ErrorAtTheHead :
    (withEntry errEntry).status = .running ∧ ((withEntry errEntry).core 0).done = false ∧
      ((withEntry errEntry).core 0).sprog = none ∧
      commitHead ((withEntry errEntry).core 0) = some errEntry := by decide
/-- R271: the register is written and the count lowered. -/
theorem test_commit_writes_the_register :
    (commitOne 0 (withEntry (doneEntry five))).toOption.map
      (fun p => (regRead (p.1.core 0).x 1, (p.1.core 0).pw, (p.1.core 0).rob))
      = some (5, [], []) := by decide
theorem case_Terminating :
    ∃ t, finish 0 (doneEntry ⟨none, [], none, true⟩) ⟨none, [], none, true⟩
      (withEntry (doneEntry ⟨none, [], none, true⟩)) = .ok t := ⟨_, rfl⟩

/-! ### Memory and coherence -/

theorem case_LinePush_victim :
    lruPush 2 ([(0, [0]), (4, [1])] : LruStore (List Byte)) 8 [2]
      = ([(4, [1]), (8, [2])], some (0, [0])) ∧
      (([(0, [0]), (4, [1])] : LruStore (List Byte)).map Prod.fst).Nodup := by decide

/-- A machine of two cores in which core 0 has line 0 Modified and core 1 has line 4 Shared. -/
def twoCores : State :=
  { State.init { Cfg.T with numCores := 2 } [CoreInput.blank, CoreInput.blank] [] with
    dir := [(0, [(0, .m)]), (1, [(4, .s)])]
    cores := [{ blankCore with l1d := [(0, [7, 0, 0, 0])] },
      { blankCore with l1d := [(4, [0, 0, 0, 0])] }] }

/-- `twoCores` with a request of core c. -/
def asking (c : CoreId) (r : ReqState) (s : State) : State := setReq c (some r) s

theorem case_Request_writer_holds_the_line :
    (((twoCores.semSet 0 ⟨0, true⟩)).semGet 0).writer = true ∧
      ((asking 1 someRequest (twoCores.semSet 0 ⟨0, true⟩)).core 1).req = some someRequest ∧
      someRequest.phase = .locking ∧ twoCores.cfg.l1dPresent = true := by decide
theorem case_Request_takes_the_lock :
    ∃ t, poll 1 (.eu 0) (asking 1 someRequest twoCores)
      = .ok (t, .waiting [⟨0, 0, .writeBack⟩]) := ⟨_, rfl⟩
theorem case_Request_local_write_lock :
    ∃ t, poll 0 (.eu 0) (asking 0 someRequest twoCores) = .ok (t, .access 1 .l1) := ⟨_, rfl⟩
theorem case_Request_not_beside_modified : ¬modifiedBesideShared twoCores 1 someRequest :=
  fun h => by cases h.1
/-- A WRITE of core 1 on line 4, Shared there and, against R55, Modified in core 0. -/
theorem case_Request_beside_modified :
    modifiedBesideShared (twoCores.dirSet 0 4 .m) 1 { someRequest with kind := .write, line := 4 } :=
  ⟨rfl, by decide, 0, by decide, by decide, by decide⟩
theorem case_Request_waits :
    cmdFind ⟨0, 0, .writeBack⟩ ([(⟨0, 0, .writeBack⟩, .pending)] : List (CmdKey × CmdStatus))
      = some .pending := rfl
theorem case_Request_stops_waiting :
    ∀ k ∈ ([⟨0, 0, .writeBack⟩] : List CmdKey), cmdFind k twoCores.cmds ≠ some .pending := by decide
theorem case_Request_completes :
    readyToComplete (twoCores.semSet 4 ⟨1, false⟩) 1
      { someRequest with line := 4, mode := some .read, phase := .access 1 .l1 } .l1 :=
  ⟨⟨.read, ⟨0, false⟩, rfl, rfl⟩, fun _ => by decide, fun h => by cases h⟩
/-- R304: a line that no cache holds is served from memory. -/
theorem test_request_enters_access :
    (poll 1 (.eu 0) (asking 1 { someRequest with line := 8, phase := .waiting [] } twoCores)).toOption.map
      Prod.snd = some (.access 3 .mem) := by decide
theorem case_RequestArms_write_back :
    ∃ t, commands 1 .write 0 twoCores = .ok (t, [⟨0, 0, .writeBack⟩]) := ⟨_, rfl⟩
theorem case_RequestArms_evict :
    ∃ t, commands 0 .read 4 twoCores = .ok (t, [⟨1, 4, .evict⟩]) := ⟨_, rfl⟩
theorem case_RequestArms_local_hit : ∃ t, commands 0 .read 0 twoCores = .ok (t, []) := ⟨_, rfl⟩

/-- A request of core 1 that holds the lock of its line. -/
def holding (kind : ReqKind) (l : LineAddr) (m : LockMode) (bytes : List Host.Cell) : ReqState :=
  ⟨kind, l, .eu 0, 0, bytes, some m, .access 1 .mem⟩

theorem case_Completion_read_from_memory :
    ∃ t cells, complete 1 (holding .read 8 .read []) .mem (twoCores.semSet 8 ⟨1, false⟩)
      = .ok (t, cells) := ⟨_, _, rfl⟩
theorem case_Completion_read_local :
    ∃ t cells, complete 1 (holding .read 4 .read []) .l1 (twoCores.semSet 4 ⟨1, false⟩)
      = .ok (t, cells) := ⟨_, _, rfl⟩
theorem case_Completion_write :
    ∃ t cells, complete 1 (holding .write 8 .write [(8, 1)]) .mem (twoCores.semSet 8 ⟨0, true⟩)
      = .ok (t, cells) := ⟨_, _, rfl⟩

/-- The directory of `twoCores` with any lock table. -/
theorem twoCores_dir (s : State) (hd : s.dir = twoCores.dir) (c : CoreId) (l : LineAddr) :
    s.dirGet c l = if c = 0 ∧ l = 0 then .m else if c = 1 ∧ l = 4 then .s else .i := by
  have h1 : ∀ a b : Nat, (a = b) = (b = a) := fun a b => propext eq_comm
  rcases c with _ | _ | c <;>
    simp [State.dirGet, hd, twoCores, mapGet, assocFind, h1]
  · split <;> simp_all
  · split <;> simp_all

theorem case_MsiExclusive (s : State) (hd : s.dir = twoCores.dir) : MsiExclusive s := by
  intro c d l _ _ hne h
  rw [twoCores_dir s hd] at h ⊢
  split at h
  · rename_i hc
    obtain ⟨rfl, rfl⟩ := hc
    simp [Ne.symm hne]
  · split at h <;> cases h

theorem twoCores_core (s : State) (hc : s.cores = twoCores.cores) (c : CoreId) (l : LineAddr)
    (d : List Byte) (hm : (l, d) ∈ (s.core c).l1d) :
    (c = 0 ∧ l = 0 ∧ d = [7, 0, 0, 0]) ∨ (c = 1 ∧ l = 4 ∧ d = [0, 0, 0, 0]) := by
  rcases c with _ | _ | c <;>
    simp_all [State.core, twoCores, Core.init]

theorem case_SoundStores : SoundStores twoCores := by
  refine ⟨by decide, ⟨by decide, fun e he => nomatch he⟩, fun _ => rfl, ?_⟩
  intro c
  refine ⟨⟨?_, ?_⟩, ?_, ?_⟩
  · rcases c with _ | _ | c <;> simp [State.core, twoCores, Core.init]
  · rintro ⟨l, d⟩ he
    rcases twoCores_core twoCores rfl c l d he with ⟨_, rfl, rfl⟩ | ⟨_, rfl, rfl⟩ <;> decide
  · rcases c with _ | _ | c <;> simp [State.core, twoCores, blankCore, Core.init]
  · rcases c with _ | _ | c <;> simp [State.core, twoCores, blankCore, Core.init]

theorem case_SoundStores_locked (t : List (LineAddr × Sem)) :
    SoundStores { twoCores with sem := t } := case_SoundStores

theorem case_SharedAgree : SharedAgree twoCores := by
  intro c l _ hs
  rw [twoCores_dir twoCores rfl] at hs
  split at hs
  · cases hs
  split at hs
  · rename_i _ h
    obtain ⟨rfl, rfl⟩ := h
    refine ⟨[0, 0, 0, 0], rfl, ?_⟩
    intro a ha
    have hr : a = 4 ∨ a = 5 ∨ a = 6 ∨ a = 7 := by
      have : a - a % 4 = 4 := ha
      omega
    rcases hr with rfl | rfl | rfl | rfl <;> decide
  · cases hs

theorem case_ReadFill :
    SoundStores (twoCores.semSet 8 ⟨1, false⟩) ∧ MsiExclusive (twoCores.semSet 8 ⟨1, false⟩) ∧
      lineOf twoCores.cfg.lineSize 8 = 8 ∧
      (∀ d, (twoCores.semSet 8 ⟨1, false⟩).dirGet d 8 ≠ .m) :=
  ⟨case_SoundStores_locked _, case_MsiExclusive _ rfl, by decide, fun d => by
    rw [twoCores_dir (twoCores.semSet 8 ⟨1, false⟩) rfl]; simp⟩
theorem case_WriteCompletion :
    SoundStores (twoCores.semSet 8 ⟨0, true⟩) ∧ MsiExclusive (twoCores.semSet 8 ⟨0, true⟩) ∧
      SharedAgree (twoCores.semSet 8 ⟨0, true⟩) ∧ lineOf twoCores.cfg.lineSize 8 = 8 ∧
      (∀ e ∈ (holding .write 8 .write [(11, 1)]).bytes, lineOf twoCores.cfg.lineSize e.1 = 8) ∧
      (twoCores.semSet 8 ⟨0, true⟩).dirGet 1 8 = .i :=
  ⟨case_SoundStores_locked _, case_MsiExclusive _ rfl, case_SharedAgree, by decide, by decide,
    by decide⟩

/-- `twoCores` in which core 0 is asked to write line 0 back. -/
def snooped : State := { twoCores with cmds := [(⟨0, 0, .writeBack⟩, .pending)] }

theorem case_SnoopCommand :
    SoundStores snooped ∧ MsiExclusive snooped ∧ 0 < snooped.cfg.numCores ∧
      cmdFind ⟨0, 0, .writeBack⟩ snooped.cmds = some .pending ∧
      ∃ t, runCommand ⟨0, 0, .writeBack⟩ snooped = .ok t :=
  ⟨case_SoundStores, case_MsiExclusive _ rfl, by decide, by decide, _, rfl⟩
theorem case_Snoop_step :
    (∃ t, snoopStep 0 snooped = .ok t) ∧ ((snooped.core 0).req = none) := ⟨⟨_, rfl⟩, rfl⟩
theorem case_Snoop_step_deferred :
    ∃ t, snoopStep 0 (asking 0 { someRequest with mode := some .write, phase := .access 1 .l1 } snooped)
      = .ok t := ⟨_, rfl⟩
theorem case_SnoopCommand_lines_agree : LinesAgree snooped := by
  intro c l _
  rw [twoCores_dir snooped rfl]
  rcases c with _ | _ | c <;>
    simp [snooped, State.core, twoCores, Core.init, lruContains, eq_comm]
/-- R312: the dirty byte 7 reaches memory. -/
theorem test_snoop_writes_the_dirty_line_back :
    (runCommand ⟨0, 0, .writeBack⟩ snooped).toOption.map
      (fun s => (s.mem, (s.core 0).l1d, s.dirGet 0 0)) = some ([(0, 7)], [], .i) := by decide

/-- A machine without data caches with a request. -/
def uncached (kind : ReqKind) (ph : Phase) : State :=
  { State.reset with
    cfg := { Cfg.T with l1dPresent := false }
    cores := [{ blankCore with req := some ⟨kind, 8, .eu 0, 0, [(8, 1)], none, ph⟩ }] }
theorem case_Uncached :
    [uncached .read .locking, uncached .read (.access 3 .mem), uncached .read (.access 1 .mem),
      uncached .write (.access 1 .mem)].all
        (fun s => !s.cfg.l1dPresent && (s.core 0).req.isSome && (poll 0 (.eu 0) s).toBool) = true := by
  decide

/-! ### Flush, the global step and reset -/

/-- A core with one instruction up to the boundary 0 and a younger one that writes x2. -/
def flushed : State :=
  { State.reset with
    cores := [{ blankCore with
      pw := [(1, 1), (2, 1)]
      freePhys := 3
      rob := [⟨0, 0, ⟨.alu [0] [1], .addi 1 0 5⟩, .issued, 0⟩,
        ⟨1, 4, ⟨.alu [0] [2], .addi 2 0 5⟩, .issued, 1⟩] }] }
theorem case_Flush_redirects : ∃ u, applyFlush 0 0 (some 8) flushed = .ok u := ⟨_, rfl⟩
theorem case_Flush_stops : ∃ u, applyFlush 0 0 none flushed = .ok u := ⟨_, rfl⟩
/-- A younger LOAD whose request holds the read lock of line 4, beside another reader. -/
def flushedLoad : State :=
  { State.reset with
    sem := [(4, ⟨2, false⟩)]
    cores := [{ blankCore with
      rob := [⟨1, 8, ⟨.load [0] [], .nop⟩, .issued, 0⟩]
      eu := [.memRd ⟨runner (.load [0] []) .nop 8 1, none, none⟩ [4] []]
      req := some ⟨.read, 4, .eu 0, 1, [], some .read, .access 2 .mem⟩ }] }
/-- R346, C7: results and runners up to the boundary stay where they are. -/
theorem test_flush_keeps_older_work :
    (applyFlush 0 1 none { flushedLoad with
        cores := flushedLoad.cores.map (fun k =>
          { k with ew := ⟨[resultOf 2], [], [resultOf 0]⟩, pendingQ := [heldRet, freeAlu] }) }).toOption.map
      (fun s => ((s.core 0).ew, (s.core 0).pendingQ))
      = some (⟨[], [], [resultOf 0]⟩, [heldRet]) := by decide
theorem case_Flush_younger_request :
    ∃ u, applyFlush 0 0 (some 8) flushedLoad = .ok u := ⟨_, rfl⟩
theorem case_Flush_older_request :
    ∃ u, applyFlush 0 1 (some 8) flushedLoad = .ok u := ⟨_, rfl⟩
theorem case_Terminating_younger_request :
    ∃ t, finish 0 ⟨0, 0, ⟨.ret [] [], .ret⟩, .completed (.ok ⟨none, [], none, true⟩), 0⟩
      ⟨none, [], none, true⟩ flushedLoad = .ok t := ⟨_, rfl⟩
/-- R240, R307: the request is gone, its unit is idle and one reader is left. -/
theorem test_flush_releases_the_lock_of_a_younger_load :
    (applyFlush 0 0 (some 8) flushedLoad).toOption.map
      (fun s => ((s.core 0).req, (s.core 0).eu, s.semGet 4))
      = some (none, [.idle], ⟨1, false⟩) := by decide
theorem case_Flush_counts :
    (flushed.core 0).freePhys + heldSlots (flushed.core 0).rob = flushed.cfg.nPhys ∧
      pwAgrees (flushed.core 0) = true ∧
      ∀ e ∈ (flushed.core 0).rob, e.desc.instr.wf = true := by decide
theorem case_Flush_counts_agree : CountsAgree (flushed.core 0) := by
  intro q hq
  have h := case_Flush_counts.2.1
  simp only [pwAgrees, List.all_eq_true, List.mem_range, decide_eq_true_eq] at h
  exact h q hq

theorem case_StepCounts_stopped : ({ State.reset with status := .completed }).status ≠ .running := by decide
theorem case_Step_answers : State.reset.status = .running ∧ ∃ t, step State.reset = .next t :=
  ⟨rfl, _, rfl⟩
/-- With no program the first step fetches nothing, and the core is done. -/
theorem case_RunCompletes :
    (match step State.reset with
      | .next t => decide (t.status = .completed)
      | .fault _ => false
      | .refused _ => false) = true := by decide
theorem case_RunGoesOn :
    (match step placed with
      | .next t => decide (t.status = .running)
      | .fault _ => false
      | .refused _ => false) = true := by decide
/-- A machine of two cores of which core 0 is done. -/
def oneDone : State :=
  { twoCores with
    cores := [{ blankCore with l1d := [(0, [7, 0, 0, 0])], done := true },
      { blankCore with l1d := [(4, [0, 0, 0, 0])] }] }
theorem case_DoneCore : (oneDone.core 0).done = true ∧ ∃ t, step oneDone = .next t := ⟨rfl, _, rfl⟩
theorem case_RegistersChangeOnlyInWriteBack :
    ∃ s1 s2 s3, beforeExecute 0 placed = .ok s1 ∧ unitsStep 0 [0] s1 = .ok s2 ∧
      applyRaised 0 s2 = .ok s3 := ⟨_, _, _, rfl, rfl, rfl⟩
theorem case_BlockInvariant : BlockInvariant State.reset := by
  refine ⟨?_, ?_, ?_, ?_⟩
  · intro c d l _ _ _ h
    cases h
  · intro c l hc
    obtain rfl : c = 0 := Nat.lt_one_iff.mp hc
    simp [State.core, State.reset, State.init, Core.init, State.dirGet, mapGet, assocFind,
      lruContains]
  · intro l h
    cases h
  · intro k hk
    obtain rfl : k = Core.init Cfg.T CoreInput.blank := List.mem_singleton.mp hk
    exact ⟨fun _ _ => rfl, by unfold WithinCaps; decide⟩
theorem case_SoundStores_step : SoundStores State.reset ∧ ∃ t, step State.reset = .next t := by
  refine ⟨⟨by decide, ⟨by decide, fun e he => nomatch he⟩, fun _ => rfl, ?_⟩, _, rfl⟩
  intro c
  rcases c with _ | c <;>
    simp [SoundStore, AsksForLines, State.core, State.reset, State.init, Core.init]
theorem case_SoundWork :
    (∀ k ∈ flushed.cores, SoundWork flushed.cfg { k with nextSeq := 2 }) ∧
      ∃ t, step { flushed with cores := flushed.cores.map (fun k => { k with nextSeq := 2 }) }
        = .next t := by
  refine ⟨?_, _, rfl⟩
  intro k hk
  rw [List.mem_singleton.mp hk]
  refine ⟨by decide, by decide, by decide, ?_, by decide⟩
  simp [Ascending]
theorem case_InFlight :
    placed.raised = [] ∧ (∀ k ∈ placed.cores, SoundWork placed.cfg k ∧ InFlightSound k) ∧
      ∃ t, step placed = .next t := by
  refine ⟨rfl, ?_, _, rfl⟩
  intro k hk
  obtain rfl : k = placed.core 0 := List.mem_singleton.mp hk
  refine ⟨⟨by decide, by decide, by decide, ?_, by decide⟩, by decide, ?_, ?_, ?_, ?_, ?_, ?_⟩
  · exact List.pairwise_singleton _ _
  · intro it hit
    obtain rfl := List.mem_singleton.mp hit
    exact ⟨_, List.mem_singleton_self _, rfl, rfl⟩
  · intro w hw
    cases List.mem_singleton.mp hw
  · intro w todo got hw
    cases List.mem_singleton.mp hw
  · intro w v hw
    cases List.mem_singleton.mp hw
  · intro v hv
    cases hv
  · intro p hp
    cases hp
theorem case_InFlight_reset (k : Core) (hk : k ∈ State.reset.cores) : InFlightSound k := by
  obtain rfl : k = Core.init Cfg.T CoreInput.blank := List.mem_singleton.mp hk
  refine ⟨by decide, ?_, ?_, ?_, ?_, ?_, ?_⟩ <;> simp [Core.init, Bus.empty, Cfg.T]
theorem case_CanonicalState : CanonicalState State.reset := by
  refine ⟨by decide, by decide, by decide, ?_, ?_, rfl, rfl⟩
  · intro row h
    cases h
  intro k hk
  obtain rfl : k = Core.init Cfg.T CoreInput.blank := List.mem_singleton.mp hk
  exact ⟨rfl, rfl⟩
theorem case_Protocol :
    ProtocolInvariant State.reset ∧ loadRefusal State.reset = none ∧
      ∃ u, runCores (List.range State.reset.cfg.numCores) State.reset = .ok u := by
  refine ⟨⟨case_CanonicalState, case_BlockInvariant, case_SoundStores_step.1, ?_, ?_⟩, rfl, _, rfl⟩
  · intro k hk
    obtain rfl : k = Core.init Cfg.T CoreInput.blank := List.mem_singleton.mp hk
    refine ⟨by decide, by decide, by decide, ?_, by decide⟩
    simp [Ascending, Core.init]
  · intro _
    refine ⟨fun l => ⟨rfl, rfl⟩, fun c r h => ?_⟩
    rcases c with _ | c <;> simp [State.core, State.reset, State.init, Core.init] at h
/-- R358, R381: one input gives its program to both cores, its entry and registers to core 0. -/
theorem case_Reset_one_input :
    ∃ s, boot { Cfg.T with numCores := 2 }
        [{ CoreInput.blank with prog := [nopEntry], entry := 4, initRegs := regWrite zeroRegs 1 7 }] []
      = .ok s ∧
      s.inputs.map (fun j => (j.prog, j.entry, regRead j.initRegs 1))
        = [([nopEntry], 4, 7), ([nopEntry], 0, 0)] := ⟨_, rfl, by decide⟩
/-- Two inputs for two cores stay as they are. -/
theorem case_Reset_two_inputs :
    ∃ s, boot { Cfg.T with numCores := 2 } [CoreInput.blank, CoreInput.blank] [] = .ok s :=
  ⟨_, rfl⟩
/-- R355: a step that faults is not counted, and the count before it is observed. -/
theorem test_faulted_run_shows_its_cycles :
    (runProgram 2 { State.reset with cycle := 7, sem := [(0, ⟨1, true⟩)] }).2.map
      (fun v => (v.result, v.cycles)) = some (.faulted .sem, 7) := by decide
/-- R355: a run whose first step completes it reports 1. -/
theorem test_completed_run_shows_its_cycles :
    (runProgram 2 State.reset).2.map (fun v => (v.result, v.cycles)) = some (.completed 1, 1) := by
  decide
/-- R372: the counters stand in the observation of a run. -/
theorem test_counters_are_observed :
    (runProgram 1 State.reset).2.map (fun v => v.counters) = some [⟨0, 0, 0⟩] := by decide
/-- Two bytes for address 3, of which the later stays, and a byte past MEM_SIZE, which is none. -/
theorem case_Reset :
    ∃ s, boot Cfg.T [CoreInput.blank] [(3, 1), (3, 2), (64, 9)] = .ok s ∧ s.mem = [(3, 2)] :=
  ⟨_, rfl, rfl⟩

end Sys2Proof.Tests
end

section
/-! SUPPORT. The frame of the execute stage (R14, R235): what every part of a meaning leaves of the
core of its unit, put together class by class. Settles O25. -/

namespace Sys2Proof.Machine

/-! ### What the memory view looks at -/

/-- The memory view reads the directory, the L1Ds, the shared cache and memory, and nothing else
(R86). -/
theorem memView_congr {s t : State} (hcfg : t.cfg = s.cfg) (hdir : t.dir = s.dir)
    (hl3 : t.l3 = s.l3) (hmem : t.mem = s.mem) (hl1d : ∀ c, (t.core c).l1d = (s.core c).l1d)
    (a : Nat) : t.memView a = s.memView a := by
  have howner : ∀ l, modifiedOwner t l = modifiedOwner s l := fun l => by
    unfold modifiedOwner State.dirGet
    rw [hcfg, hdir]
  simp only [State.memView, hcfg, howner, hl1d, hl3, hmem]

/-! ### The frame of a class -/

/-- Setting a status keeps everything else of the buffer's entries. -/
theorem robSetStatus_static (rob : List RobEntry) (b : Seq) (st : RobStatus) :
    (robSetStatus rob b st).map (fun e => (e.seq, e.pc, e.desc, e.slots))
      = rob.map (fun e => (e.seq, e.pc, e.desc, e.slots)) := by
  unfold robSetStatus
  rw [List.map_map]
  refine List.map_congr_left fun e _ => ?_
  by_cases he : e.seq = b <;> simp [he]

/-- What a meaning of class code `n` leaves of its core (R235): beside what an execution writes,
fetch and the branch-target buffer unless it is a JMP, the decode flag unless it is a JMP or a RET, the
controller request unless it is a LOAD. -/
structure ExecFrame (n : Nat) (k k' : Core) : Prop where
  beside : sameBesideExecution k k'
  fetch : n ≠ 4 → k'.pc = k.pc ∧ k'.fd = k.fd ∧ k'.complete = k.complete ∧
    k'.fstate = k.fstate ∧ k'.btb = k.btb
  decode : n ≠ 4 → n ≠ 5 → k'.pendingBranch = k.pendingBranch
  request : n ≠ 1 → k'.req = k.req

theorem sameBesideExecution_refl (k : Core) : sameBesideExecution k k := by
  simp [sameBesideExecution]

theorem sameBesideExecution_trans {k k' k'' : Core} (h : sameBesideExecution k k')
    (h' : sameBesideExecution k' k'') : sameBesideExecution k k'' := by
  simp_all only [sameBesideExecution, and_self]

theorem ExecFrame.refl (n : Nat) (k : Core) : ExecFrame n k k where
  beside := sameBesideExecution_refl k
  fetch _ := ⟨rfl, rfl, rfl, rfl, rfl⟩
  decode _ _ := rfl
  request _ := rfl

theorem ExecFrame.trans {n : Nat} {k k' k'' : Core} (h : ExecFrame n k k')
    (h' : ExecFrame n k' k'') : ExecFrame n k k'' where
  beside := sameBesideExecution_trans h.beside h'.beside
  fetch hn := by
    obtain ⟨hpc, hfd, hcomplete, hfstate, hbtb⟩ := h.fetch hn
    obtain ⟨hpc', hfd', hcomplete', hfstate', hbtb'⟩ := h'.fetch hn
    exact ⟨hpc'.trans hpc, hfd'.trans hfd, hcomplete'.trans hcomplete, hfstate'.trans hfstate,
      hbtb'.trans hbtb⟩
  decode hn hn' := (h'.decode hn hn').trans (h.decode hn hn')
  request hn := (h'.request hn).trans (h.request hn)

/-- Every class may write the statuses of the buffer, the links, the units and the expectations. -/
theorem ExecFrame.of_update (n : Nat) (k : Core) (rob : List RobEntry) (links : List Link)
    (eu : List EuState) (expect : List (Seq × Expect))
    (hrob : rob.map (fun e => (e.seq, e.pc, e.desc, e.slots))
      = k.rob.map (fun e => (e.seq, e.pc, e.desc, e.slots))) :
    ExecFrame n k { k with rob := rob, links := links, eu := eu, expect := expect } where
  beside := ⟨rfl, rfl, rfl, rfl, rfl, rfl, rfl, rfl, rfl, rfl, rfl, rfl, rfl, rfl, rfl, rfl, rfl,
    hrob⟩
  fetch _ := ⟨rfl, rfl, rfl, rfl, rfl⟩
  decode _ _ := rfl
  request _ := rfl

/-- A JMP may also write the fetch unit, the branch-target buffer and the decode flag. -/
theorem ExecFrame.of_jump_update (k : Core) (pc : Word) (complete : Bool) (fstate : FetchState)
    (fd : Bus Word) (btb : List (Word × Word)) (pendingBranch : Bool) :
    ExecFrame 4 k { k with
      pc := pc, complete := complete, fstate := fstate, fd := fd, btb := btb,
      pendingBranch := pendingBranch } where
  beside := sameBesideExecution_refl k
  fetch hn := absurd rfl hn
  decode hn := absurd rfl hn
  request _ := rfl

/-! ### The parts of a meaning -/

theorem recordError_frame (n i : Nat) (w : Work) (e : ProgramError) (k : Core) :
    ExecFrame n k (recordError i w e k).1 :=
  .of_update n k _ k.links _ _ (robSetStatus_static k.rob _ _)

theorem robSetStatus_frame (n : Nat) (b : Seq) (st : RobStatus) (k : Core) :
    ExecFrame n k { k with rob := robSetStatus k.rob b st } :=
  .of_update n k _ k.links k.eu k.expect (robSetStatus_static k.rob b st)

theorem deliver_frame (n : Nat) {b : Seq} {o : ExecutionResult} {k k' : Core}
    (h : deliver b o k = .ok k') : ExecFrame n k k' := by
  obtain ⟨links, rfl⟩ := deliver_ok h
  exact .of_update n k k.rob links k.eu k.expect rfl

theorem pushOk_frame (n i : Nat) (w : Work) (o : ExecutionResult) (k : Core) :
    ExecFrame n k (pushOk i w o k) :=
  .of_update n k k.rob k.links _ k.expect rfl

theorem flushTo_frame (n i : Nat) (w : Work) (o : ExecutionResult) (wrong : Bool) (t : Word)
    (k : Core) : ExecFrame n k (flushTo i w o wrong t k).1 :=
  pushOk_frame n i w o k

theorem setExpect_frame (n : Nat) (b : Seq) (e : Expect) (k : Core) :
    ExecFrame n k (setExpect b e k) :=
  .of_update n k k.rob k.links k.eu _ rfl

theorem dropExpect_frame (n : Nat) (b : Seq) (k : Core) : ExecFrame n k (dropExpect b k) :=
  .of_update n k k.rob k.links k.eu _ rfl

theorem fetchReset_frame (t : Word) (k : Core) : ExecFrame 4 k (fetchReset t k) :=
  .of_jump_update k t false .idle _ k.btb k.pendingBranch

theorem clearPendingBranch_frame (k : Core) : ExecFrame 5 k (clearPendingBranch k) where
  beside := sameBesideExecution_refl k
  fetch _ := ⟨rfl, rfl, rfl, rfl, rfl⟩
  decode _ hn := absurd rfl hn
  request _ := rfl

theorem assertJmp_frame (r : Runner) (k : Core) : ExecFrame 4 k (assertJmp r k) := by
  unfold assertJmp
  split
  · exact (setExpect_frame 4 _ _ k).trans (fetchReset_frame _ _)
  · exact setExpect_frame 4 _ _ k

theorem notifyJumpResolved_frame (g : Cfg) (b : Seq) (src dst : Word) (k : Core) :
    ExecFrame 4 k (notifyJumpResolved g b src dst k) := by
  unfold notifyJumpResolved
  dsimp only
  split
  · exact .of_jump_update k k.pc k.complete k.fstate k.fd _ false
  · exact .of_jump_update k dst false .idle _ _ false

/-! ### The class steps (R230 to R238) -/

theorem plainStep_frame (n : Nat) {i : Nat} {w : Work} {o : ExecutionResult} {k : Core}
    {r : Core × Option Flush} (h : plainStep i w o k = .ok r) : ExecFrame n k r.1 := by
  obtain rfl := Except.ok.inj h
  exact pushOk_frame n i w o k

theorem cbrStep_frame (n : Nat) {g : Cfg} {i : Nat} {w : Work} {o : ExecutionResult} {k : Core}
    {r : Core × Option Flush} (h : cbrStep g i w o k = .ok r) : ExecFrame n k r.1 := by
  rcases cbrStep_ok h with rfl | ⟨wrong, rfl⟩
  · exact recordError_frame n i w _ k
  · exact (dropExpect_frame n _ k).trans (flushTo_frame n i w o wrong _ _)

theorem jmpStep_frame {g : Cfg} {i : Nat} {w : Work} {o : ExecutionResult} {k : Core}
    {r : Core × Option Flush} (h : jmpStep g i w o k = .ok r) : ExecFrame 4 k r.1 := by
  rcases jmpStep_ok h with rfl | ⟨wrong, rfl⟩
  · exact recordError_frame 4 i w _ k
  · exact ((notifyJumpResolved_frame g _ _ _ k).trans (dropExpect_frame 4 _ _)).trans
      (flushTo_frame 4 i w o wrong _ _)

theorem retStep_frame {g : Cfg} {i : Nat} {w : Work} {o : ExecutionResult} {k : Core}
    {r : Core × Option Flush} (h : retStep g i w o k = .ok r) : ExecFrame 5 k r.1 := by
  have hdrop := dropExpect_frame 5 w.run.seq k
  rcases retStep_ok h with rfl | ⟨t, -, rfl | rfl⟩ | rfl
  · exact hdrop.trans (pushOk_frame 5 i w o _)
  · exact recordError_frame 5 i w _ k
  · exact hdrop.trans (flushTo_frame 5 i w o true t _)
  · exact (hdrop.trans (clearPendingBranch_frame _)).trans (pushOk_frame 5 i w o _)

/-! ### Running and starting (R224, R225) -/

/-- Running keeps the frame of a class when its assertion and its class step do. -/
theorem runWork_frame {n : Nat} {g : Cfg} {labels : Labels} {cr : ClassRule} {wl : List RegId}
    {assertStep : Core → Core} {classStep : ExecutionResult → Core → Res (Core × Option Flush)}
    {i : Nat} {w : Work} {got : ByteMap} {k : Core} {r : Core × Option Flush}
    (hassert : ExecFrame n k (assertStep k))
    (hclass : ∀ o k r, classStep o k = .ok r → ExecFrame n k r.1)
    (h : runWork g labels cr wl assertStep classStep i w got k = .ok r) : ExecFrame n k r.1 := by
  rcases runWork_ok h with ⟨e, rfl⟩ | ⟨o, k2, -, -, -, hdeliver, hstep⟩
  · exact hassert.trans (recordError_frame n i w _ _)
  · exact ((hassert.trans (robSetStatus_frame n _ _ _)).trans (deliver_frame n hdeliver)).trans
      (hclass o k2 r hstep)

/-- So does the start of a class other than LOAD. -/
theorem startWork_frame {n : Nat} {g : Cfg} {labels : Labels} {cr : ClassRule} {wl : List RegId}
    {assertStep : Core → Core} {classStep : ExecutionResult → Core → Res (Core × Option Flush)}
    {i : Nat} {w : Work} {k : Core} {r : Core × Option Flush}
    (hassert : ExecFrame n k (assertStep k))
    (hclass : ∀ o k r, classStep o k = .ok r → ExecFrame n k r.1)
    (h : startWork g labels cr wl assertStep classStep i w k = .ok r) : ExecFrame n k r.1 := by
  rcases startWork_ok h with ⟨a, -, rfl⟩ | hrun
  · exact recordError_frame n i w _ k
  · exact runWork_frame hassert hclass hrun

theorem startLoad_frame {g : Cfg} {labels : Labels} {wl : List RegId} {i : Nat} {w : Work}
    {k : Core} {r : Core × Option Flush} (h : startLoad g labels wl i w k = .ok r) :
    ExecFrame 1 k r.1 := by
  rcases startLoad_ok h with ⟨a, -, rfl⟩ | hrun | ⟨l, rest, -, -, rfl⟩
  · exact recordError_frame 1 i w _ k
  · exact runWork_frame (.refl 1 k) (fun _ _ _ => plainStep_frame 1) hrun
  · exact {
      beside := sameBesideExecution_refl k
      fetch := fun _ => ⟨rfl, rfl, rfl, rfl, rfl⟩
      decode := fun _ _ => rfl
      request := fun hn => absurd rfl hn }

/-! ### The meanings -/

/-- A meaning keeps the frame of a class when its operation on the core does. -/
theorem onFocus_frame {n : Nat} {s t : State}
    {op : Cfg → Labels → Focus → Core → Res (Core × Option Flush)}
    (hop : ∀ g labels f k r, op g labels f k = .ok r → ExecFrame n k r.1)
    (h : onFocus s op = .next t) :
    ∃ (f : Focus) (k : Core) (fl : Option Flush), s.focus = some f ∧
      ExecFrame n (s.core f.core) k ∧
      t = { s.setCore f.core k with focus := none, raised := s.raised ++ fl.toList } := by
  obtain ⟨f, k, fl, hf, hk, ht⟩ := onFocus_next.mp h
  exact ⟨f, k, fl, hf, hop _ _ _ _ _ hk, ht⟩

/-- Every meaning writes one core alone, that of the unit in focus, and keeps there the frame of its
class (R235). -/
theorem exec_frame {i : Instr} {s t : State} (h : exec i s = .next t) :
    ∃ (f : Focus) (k : Core) (fl : Option Flush), s.focus = some f ∧
      ExecFrame i.code (s.core f.core) k ∧
      t = { s.setCore f.core k with focus := none, raised := s.raised ++ fl.toList } := by
  cases i with
  | alu _ w =>
    simp only [exec, execAlu] at h
    exact onFocus_frame (fun _ _ _ k _ hr =>
      startWork_frame (.refl _ k) (fun _ _ _ => plainStep_frame _) hr) h
  | load _ w =>
    simp only [exec, execLoad] at h
    refine onFocus_frame (fun _ _ f k _ hr => ?_) h
    split at hr
    · exact startLoad_frame hr
    · exact runWork_frame (.refl _ k) (fun _ _ _ => plainStep_frame _) hr
  | store _ w =>
    simp only [exec, execStore] at h
    exact onFocus_frame (fun _ _ _ k _ hr =>
      startWork_frame (.refl _ k) (fun _ _ _ => plainStep_frame _) hr) h
  | cbr _ w =>
    simp only [exec, execCbr] at h
    exact onFocus_frame (fun _ _ _ k _ hr =>
      startWork_frame (setExpect_frame _ _ _ k) (fun _ _ _ => cbrStep_frame _) hr) h
  | jmp _ w =>
    simp only [exec, execJmp] at h
    exact onFocus_frame (fun _ _ _ k _ hr =>
      startWork_frame (assertJmp_frame _ k) (fun _ _ _ => jmpStep_frame) hr) h
  | ret _ w =>
    simp only [exec, execRet] at h
    exact onFocus_frame (fun _ _ _ k _ hr =>
      startWork_frame (setExpect_frame _ _ _ k) (fun _ _ _ => retStep_frame) hr) h

/-- Reading back the core that was written: a core that does not exist was not written, and keeps
every frame for that. -/
theorem ExecFrame.core_setCore {n : Nat} {s : State} {c : CoreId} {k : Core}
    (h : ExecFrame n (s.core c) k) : ExecFrame n (s.core c) ((s.setCore c k).core c) := by
  by_cases hc : c < s.cores.length
  · rwa [core_setCore_self s c k hc]
  · rw [setCore_absent s c k (not_lt.mp hc)]
    exact .refl n _

/-- Settles O25: a meaning writes the core of its unit alone (`exec_frame`), and that core keeps its
L1D, so no byte of the memory view can differ. -/
theorem executionTouchesNoArchitecturalState :
    Obligations.ExecutionTouchesNoArchitecturalState := by
  intro i s t h
  obtain ⟨f, k, fl, hfocus, hk, rfl⟩ := exec_frame h
  have hframe : ExecFrame i.code (s.core f.core) ((s.setCore f.core k).core f.core) :=
    hk.core_setCore
  have hothers : ∀ c, c ≠ f.core → (s.setCore f.core k).core c = s.core c :=
    fun c hc => core_setCore_ne s k (Ne.symm hc)
  have hl1d : ∀ c, ((s.setCore f.core k).core c).l1d = (s.core c).l1d := by
    intro c
    by_cases hc : c = f.core
    · obtain ⟨-, -, -, -, -, -, -, -, -, -, -, hl1d, -⟩ := hframe.beside
      rw [hc, hl1d]
    · rw [hothers c hc]
  exact ⟨rfl, rfl, rfl, rfl, rfl, fun _ => rfl, rfl, rfl, rfl, rfl,
    memView_congr rfl rfl rfl rfl hl1d, cores_length_setCore s f.core k, rfl, f, hfocus, hothers,
    hframe.beside, hframe.fetch, hframe.decode, hframe.request⟩

end Sys2Proof.Machine
end

section
/-! SUPPORT. The registers of every core through a core's cycle up to write-back (R14, R38): each
unit's step keeps them. Settles O53. -/

namespace Sys2Proof.Machine

/-! ### Keeping the registers -/

/-- Every core has the same registers in two states. -/
def SameRegs (s t : State) : Prop := ∀ d, (t.core d).x = (s.core d).x

theorem SameRegs.refl (s : State) : SameRegs s s := fun _ => rfl

theorem SameRegs.trans {s t u : State} (h : SameRegs s t) (h' : SameRegs t u) : SameRegs s u :=
  fun d => (h' d).trans (h d)

/-- A state with the same cores, whatever else was written. -/
theorem SameRegs.of_core_eq {s t : State} (h : ∀ d, t.core d = s.core d) : SameRegs s t :=
  fun d => by rw [h d]

/-- Writing a core back with its registers as they were. -/
theorem SameRegs.setCore {s : State} {c : CoreId} {k : Core} (h : k.x = (s.core c).x) :
    SameRegs s (s.setCore c k) := by
  intro d
  by_cases hd : c = d
  · subst hd
    by_cases hc : c < s.cores.length
    · rw [core_setCore_self s c k hc, h]
    · rw [setCore_absent s c k (not_lt.mp hc)]
  · rw [core_setCore_ne s k hd]

/-- What runs after a core was written back with its registers keeps them of the state before. -/
theorem SameRegs.after_setCore {s t : State} {c : CoreId} {k : Core}
    (h : SameRegs (s.setCore c k) t) (hx : k.x = (s.core c).x) : SameRegs s t :=
  (SameRegs.setCore hx).trans h

/-- So does what runs after a write to no core. -/
theorem SameRegs.after_core_eq {s s' t : State} (h : SameRegs s' t)
    (hcore : ∀ d, s'.core d = s.core d) : SameRegs s t :=
  (SameRegs.of_core_eq hcore).trans h

theorem setReq_sameRegs (c : CoreId) (r : Option ReqState) (s : State) :
    SameRegs s (setReq c r s) := .setCore rfl

theorem setL1d_sameRegs (c : CoreId) (st : LruStore (List Byte)) (s : State) :
    SameRegs s (setL1d c st s) := .setCore rfl

theorem setEu_sameRegs (c : CoreId) (i : Nat) (e : EuState) (s : State) :
    SameRegs s (s.setEu c i e) := .setCore rfl

theorem dirSet_sameRegs (c : CoreId) (l : LineAddr) (v : Msi) (s : State) :
    SameRegs s (s.dirSet c l v) := .of_core_eq fun _ => rfl

/-! ### The front end (R153, R170, R187) -/

theorem fetchLoop_x {g : Cfg} {size n : Nat} {k t : Core} (h : fetchLoop g size n k = .ok t) :
    t.x = k.x := by
  induction n generalizing k with
  | zero =>
    obtain rfl := Except.ok.inj h
    split <;> rfl
  | succ n ih =>
    unfold fetchLoop at h
    split at h
    · obtain rfl := Except.ok.inj h
      rfl
    split at h
    · obtain rfl := Except.ok.inj h
      rfl
    split at h
    · obtain rfl := Except.ok.inj h
      rfl
    obtain ⟨l1i, -, h⟩ := bind_ok.mp h
    obtain ⟨fd, -, h⟩ := bind_ok.mp h
    have hrest := ih h
    exact hrest

theorem fetchStep_x {g : Cfg} {size : Nat} {k t : Core} (h : fetchStep g size k = .ok t) :
    t.x = k.x := by
  unfold fetchStep at h
  split at h
  · rw [Except.ok.inj h]
  split at h
  · exact fetchLoop_x h
  split at h
  · obtain rfl := Except.ok.inj h
    rfl
  · have hloop := fetchLoop_x h
    exact hloop

theorem decodeLoop_x {g : Cfg} {c : CoreId} {prog : List ProgEntry} {n : Nat} {k t : Core}
    (h : decodeLoop g c prog n k = .ok t) : t.x = k.x := by
  induction n generalizing k with
  | zero => rw [Except.ok.inj h]
  | succ n ih =>
    unfold decodeLoop at h
    split at h
    · rw [Except.ok.inj h]
    obtain ⟨⟨a, fd⟩, -, h⟩ := bind_ok.mp h
    obtain ⟨d, -, h⟩ := bind_ok.mp h
    obtain ⟨di, -, h⟩ := bind_ok.mp h
    have hrest := ih h
    exact hrest

theorem doIssue_x {g : Cfg} {gr : Grant} {r : Runner} {k t : Core}
    (h : doIssue g gr r k = .ok t) : t.x = k.x := by
  obtain ⟨ie, -, rfl⟩ := doIssue_ok h
  rfl

theorem parkHeld_x {g : Cfg} {k t : Core} (h : parkHeld g k = .ok t) : t.x = k.x := by
  rcases parkHeld_ok h with ⟨r, rest, -, -, rfl⟩ | ⟨-, rfl⟩ <;> rfl

theorem issuePending_x {g : Cfg} {q : List Runner} {sc sc' : Scan} {b : Bool}
    (h : issuePending g q sc = .ok (sc', b)) : sc'.core.x = sc.core.x := by
  induction q generalizing sc with
  | nil =>
    simp only [issuePending, Except.ok.injEq, Prod.mk.injEq] at h
    rw [h.1]
  | cons r rest ih =>
    rcases issuePending_cons_ok h with ⟨-, rfl, -⟩ | ⟨-, hrest⟩ | ⟨gr, k, -, hissue, hrest⟩
    · rfl
    · have hx := ih hrest
      exact hx
    · have hx := doIssue_x hissue
      exact (ih hrest).trans hx

theorem issueFresh_x {g : Cfg} {n : Nat} {sc sc' : Scan} (h : issueFresh g n sc = .ok sc') :
    sc'.core.x = sc.core.x := by
  induction n generalizing sc with
  | zero => rw [Except.ok.inj h]
  | succ n ih =>
    rcases issueFresh_succ_ok h with ⟨-, rfl⟩ | ⟨r, rest, -, hround⟩
    · rfl
    rcases hround with ⟨-, rfl⟩ | ⟨-, k, hpark, rfl⟩ | ⟨gr, k, -, hissue, hrest⟩
    · rfl
    · exact parkHeld_x hpark
    · have hx := doIssue_x hissue
      exact (ih hrest).trans hx

theorem issueStep_x {g : Cfg} {k t : Core} (h : issueStep g k = .ok t) : t.x = k.x := by
  unfold issueStep at h
  obtain ⟨⟨sc1, stopped⟩, hpending, h⟩ := bind_ok.mp h
  have h1 : sc1.core.x = k.x := issuePending_x hpending
  cases stopped with
  | true =>
    obtain rfl := Except.ok.inj h
    exact h1
  | false =>
    obtain ⟨sc2, hfresh, h⟩ := bind_ok.mp h
    obtain rfl := Except.ok.inj h
    exact (issueFresh_x hfresh).trans h1

theorem frontEnd_x {g : Cfg} {c : CoreId} {prog : List ProgEntry} {k t : Core}
    (h : frontEnd g c prog k = .ok t) : t.x = k.x := by
  obtain ⟨k1, k2, hfetch, hdecode, hissue⟩ := frontEnd_ok h
  calc t.x = k2.x := issueStep_x hissue
    _ = k1.x := decodeLoop_x hdecode
    _ = (connectAll g k).x := fetchStep_x hfetch
    _ = k.x := connectAll_x g k

/-! ### The levels behind the L1D (R289 to R291) -/

theorem l3Push_sameRegs (l : LineAddr) (data : List Byte) (s : State) :
    SameRegs s (l3Push l data s) := by
  unfold l3Push
  dsimp only
  split <;> exact .of_core_eq fun _ => rfl

theorem writeNext_sameRegs (l : LineAddr) (data : List Byte) (s : State) :
    SameRegs s (writeNext l data s) := by
  unfold writeNext
  split
  · exact l3Push_sameRegs l data s
  · exact .of_core_eq fun _ => rfl

theorem nextRead_sameRegs {l : LineAddr} {s t : State} {d : List Byte}
    (h : nextRead l s = .ok (d, t)) : SameRegs s t := by
  unfold nextRead at h
  split at h
  · obtain ⟨⟨d', st⟩, -, h⟩ := bind_ok.mp h
    obtain ⟨-, rfl⟩ := Prod.mk.inj (Except.ok.inj h)
    exact .of_core_eq fun _ => rfl
  · obtain ⟨-, rfl⟩ := Prod.mk.inj (Except.ok.inj h)
    split
    · exact l3Push_sameRegs l _ s
    · exact .refl s

/-! ### The cache controller (R296 to R312) -/

theorem install_sameRegs (c : CoreId) (l : LineAddr) (data : List Byte) (s : State) :
    SameRegs s (install c l data s) := by
  have hpush := setL1d_sameRegs c (lruPush s.cfg.l1dLines (s.core c).l1d l data).1 s
  unfold install
  dsimp only
  split
  · exact hpush
  · refine hpush.trans (.trans ?_ (dirSet_sameRegs c _ .i _))
    split
    · exact writeNext_sameRegs _ _ _
    · exact .refl _

theorem readData_sameRegs {c : CoreId} {src : Source} {l : LineAddr} {s t : State}
    {d : List Byte} (h : readData c src l s = .ok (d, t)) : SameRegs s t := by
  unfold readData at h
  split at h
  · obtain ⟨⟨d', st⟩, -, h⟩ := bind_ok.mp h
    obtain ⟨-, rfl⟩ := Prod.mk.inj (Except.ok.inj h)
    exact setL1d_sameRegs c st s
  all_goals
    obtain ⟨⟨d', s1⟩, hread, h⟩ := bind_ok.mp h
    obtain ⟨-, rfl⟩ := Prod.mk.inj (Except.ok.inj h)
    exact ((nextRead_sameRegs hread).trans (install_sameRegs c l d' s1)).trans
      (dirSet_sameRegs c l .s _)

theorem fetchForWrite_sameRegs {c : CoreId} {src : Source} {l : LineAddr} {s t : State}
    (h : fetchForWrite c src l s = .ok t) : SameRegs s t := by
  unfold fetchForWrite at h
  split at h
  · obtain rfl := Except.ok.inj h
    exact .refl s
  all_goals
    obtain ⟨⟨d, s1⟩, hread, h⟩ := bind_ok.mp h
    obtain rfl := Except.ok.inj h
    exact (nextRead_sameRegs hread).trans (install_sameRegs c l d s1)

theorem releaseLock_sameRegs {l : LineAddr} {m : LockMode} {s t : State}
    (h : releaseLock l m s = .ok t) : SameRegs s t := by
  obtain ⟨v, -, rfl⟩ := releaseLock_ok.mp h
  exact .of_core_eq fun _ => rfl

theorem complete_sameRegs {c : CoreId} {r : ReqState} {src : Source} {s t : State}
    {cells : List Host.Cell} (h : complete c r src s = .ok (t, cells)) : SameRegs s t := by
  obtain ⟨m, -, ⟨-, d, s1, hread, hrelease, -⟩ | ⟨-, s1, st, hfetch, -, -, hrelease, -⟩⟩ :=
    complete_ok h
  · exact (readData_sameRegs hread).trans (releaseLock_sameRegs hrelease)
  · exact (((fetchForWrite_sameRegs hfetch).trans (setL1d_sameRegs c st s1)).trans
      (dirSet_sameRegs c r.line .m _)).trans (releaseLock_sameRegs hrelease)

theorem advanceCached_sameRegs {c : CoreId} {r : ReqState} {s t : State} {ph : Phase}
    (h : advanceCached c r s = .ok (t, ph)) : SameRegs s t := by
  rcases advanceCached_ok h with ⟨-, rfl, -⟩ | ⟨v, s1, keys, -, -, hcommands, -, rfl⟩ |
    ⟨keys, -, rfl, -⟩ | ⟨keys, -, -, -, rfl⟩ | ⟨n, src, -, -, -, rfl⟩ |
    ⟨n, src, s1, data, -, -, hcomplete, -, rfl⟩ | ⟨data, -, rfl, -⟩
  · exact .refl _
  · obtain ⟨-, rfl⟩ := commands_ok hcommands
    exact .trans (.of_core_eq fun _ => rfl) (setReq_sameRegs c _ _)
  · exact .refl _
  · exact setReq_sameRegs c _ s
  · exact setReq_sameRegs c _ s
  · exact (complete_sameRegs hcomplete).trans (setReq_sameRegs c _ s1)
  · exact .refl _

theorem advanceUncached_sameRegs {c : CoreId} {r : ReqState} {s t : State} {ph : Phase}
    (h : advanceUncached c r s = .ok (t, ph)) : SameRegs s t := by
  rcases advanceUncached_ok h with ⟨-, -, rfl⟩ | ⟨n, src, -, -, -, rfl⟩ |
    ⟨n, src, -, -, -, -, rfl⟩ | ⟨n, src, -, -, -, -, rfl⟩ | ⟨data, -, rfl, -⟩
  · exact setReq_sameRegs c _ s
  · exact setReq_sameRegs c _ s
  · exact setReq_sameRegs c _ s
  · exact .trans (.of_core_eq fun _ => rfl) (setReq_sameRegs c _ _)
  · exact .refl _

theorem poll_sameRegs {c : CoreId} {who : Requester} {s t : State} {ph : Phase}
    (h : poll c who s = .ok (t, ph)) : SameRegs s t := by
  obtain ⟨r, -, -, ⟨-, h⟩ | ⟨-, h⟩⟩ := poll_ok h
  · exact advanceCached_sameRegs h
  · exact advanceUncached_sameRegs h

theorem abandon_sameRegs {c : CoreId} {s t : State} (h : abandon c s = .ok t) :
    SameRegs s t := by
  rcases abandon_ok h with ⟨r, -, m, v, -, -, rfl⟩ | ⟨r, -, -, rfl⟩ | ⟨-, rfl⟩
  · exact .trans (.of_core_eq fun _ => rfl) (setReq_sameRegs c none _)
  · exact setReq_sameRegs c none s
  · exact .refl _

theorem runCommand_sameRegs {key : CmdKey} {s t : State} (h : runCommand key s = .ok t) :
    SameRegs s t := by
  obtain ⟨s1, rfl, hs1⟩ := runCommand_ok h
  refine .trans (t := s1) ?_ (.of_core_eq fun _ => rfl)
  rcases hs1 with ⟨-, rfl⟩ | ⟨-, -, rfl⟩ | ⟨-, d, st, -, rfl⟩
  · exact .refl _
  · exact (setL1d_sameRegs _ _ s).trans (dirSet_sameRegs _ _ .i _)
  · exact ((writeNext_sameRegs _ d s).trans (setL1d_sameRegs _ _ _)).trans
      (dirSet_sameRegs _ _ .i _)

theorem runCommands_sameRegs {d : CoreId} {keys : List CmdKey} {s t : State}
    (h : runCommands d keys s = .ok t) : SameRegs s t := by
  induction keys generalizing s with
  | nil =>
    obtain rfl := Except.ok.inj h
    exact .refl s
  | cons key rest ih =>
    unfold runCommands at h
    split at h
    · exact ih h
    · obtain ⟨s1, hcommand, hrest⟩ := bind_ok.mp h
      exact (runCommand_sameRegs hcommand).trans (ih hrest)

theorem beforeExecute_sameRegs {c : CoreId} {s t : State} (h : beforeExecute c s = .ok t) :
    SameRegs s t := by
  obtain ⟨k, hfront, hsnoop⟩ := beforeExecute_ok h
  exact (runCommands_sameRegs hsnoop).after_setCore (frontEnd_x hfront)

/-! ### The execute units (R221) -/

/-- The frame of a meaning (`exec_frame`) holds the registers. -/
theorem exec_sameRegs {i : Instr} {s t : State} (h : exec i s = .next t) : SameRegs s t := by
  obtain ⟨f, k, fl, -, hk, rfl⟩ := exec_frame h
  obtain ⟨hx, -⟩ := hk.beside
  exact .trans (.setCore hx) (.of_core_eq fun _ => rfl)

theorem runFocused_sameRegs {c : CoreId} {i : Nat} {w : Work} {got : Option ByteMap}
    {s t : State} (h : runFocused c i w got s = .ok t) : SameRegs s t := by
  unfold runFocused at h
  exact (exec_sameRegs (ofOutcome_ok.mp h)).after_core_eq fun _ => rfl

theorem unitTake_sameRegs {c : CoreId} {i : Nat} {s t : State} (h : unitTake c i s = .ok t) :
    SameRegs s t := by
  unfold unitTake at h
  split at h
  case h_1 =>
    split at h
    · obtain rfl := Except.ok.inj h
      exact .refl s
    obtain ⟨⟨it, ie⟩, -, h⟩ := bind_ok.mp h
    refine SameRegs.after_setCore (c := c) (k := { s.core c with ie := ie }) ?_ rfl
    dsimp only at h
    split at h
    · obtain rfl := Except.ok.inj h
      exact setEu_sameRegs c i _ _
    · exact runFocused_sameRegs h
  all_goals
    obtain rfl := Except.ok.inj h
    exact .refl s

theorem unitForward_sameRegs {c : CoreId} {i : Nat} {s t : State}
    (h : unitForward c i s = .ok t) : SameRegs s t := by
  unfold unitForward at h
  split at h
  case h_1 =>
    split at h
    · simp at h
    split at h
    · obtain rfl := Except.ok.inj h
      exact .refl s
    · exact (runFocused_sameRegs h).after_setCore rfl
  all_goals
    obtain rfl := Except.ok.inj h
    exact .refl s

theorem unitMemory_sameRegs {c : CoreId} {i : Nat} {s t : State}
    (h : unitMemory c i s = .ok t) : SameRegs s t := by
  cases he : s.euState c i with
  | memRd w todo got =>
    obtain ⟨s1, ph, hpoll, hph⟩ := unitMemory_ok he h
    refine (poll_sameRegs hpoll).trans ?_
    rcases hph with ⟨-, rfl⟩ | ⟨data, -, ⟨-, hrun⟩ | ⟨l, rest, k, ph2, -, hsubmit, hpoll2⟩⟩
    · exact .refl _
    · exact (setReq_sameRegs c none s1).trans (runFocused_sameRegs hrun)
    · obtain ⟨-, rfl⟩ := submit_ok.mp hsubmit
      have hunit := (setEu_sameRegs c i _ _).trans (poll_sameRegs hpoll2)
      exact (setReq_sameRegs c none s1).trans (hunit.after_setCore rfl)
  | idle | waitFwd | push =>
    simp only [unitMemory, he] at h
    obtain rfl := Except.ok.inj h
    exact .refl s

theorem unitPush_sameRegs {c : CoreId} {i : Nat} {s t : State}
    (h : unitPush c i s = .ok t) : SameRegs s t := by
  cases he : s.euState c i with
  | push w v =>
    rcases unitPush_ok he h with ⟨ew, -, rfl⟩ | ⟨-, rfl⟩
    · have hidle := setEu_sameRegs c i .idle (s.setCore c { s.core c with ew := ew })
      exact hidle.after_setCore rfl
    · exact .refl _
  | idle | waitFwd | memRd =>
    simp only [unitPush, he] at h
    obtain rfl := Except.ok.inj h
    exact .refl s

theorem unitStep_sameRegs {c : CoreId} {i : Nat} {s t : State} (h : unitStep c i s = .ok t) :
    SameRegs s t := by
  obtain ⟨s1, htake, h⟩ := bind_ok.mp h
  obtain ⟨s2, hforward, h⟩ := bind_ok.mp h
  obtain ⟨s3, hmemory, hpush⟩ := bind_ok.mp h
  exact (((unitTake_sameRegs htake).trans (unitForward_sameRegs hforward)).trans
    (unitMemory_sameRegs hmemory)).trans (unitPush_sameRegs hpush)

theorem unitsStep_sameRegs {c : CoreId} {units : List Nat} {s t : State}
    (h : unitsStep c units s = .ok t) : SameRegs s t := by
  induction units generalizing s with
  | nil =>
    obtain rfl := Except.ok.inj h
    exact .refl s
  | cons i rest ih =>
    obtain ⟨s1, hunit, hrest⟩ := bind_ok.mp h
    exact (unitStep_sameRegs hunit).trans (ih hrest)

/-! ### The flush (R345, R346) -/

theorem flushFront_x (b : Seq) (t : Option Word) (k : Core) : (flushFront b t k).x = k.x := by
  cases t <;> rfl

theorem euFlush_sameRegs {c : CoreId} {b : Seq} {s t : State} (h : euFlush c b s = .ok t) :
    SameRegs s t := by
  obtain ⟨s1, ⟨-, habandon⟩ | ⟨-, rfl⟩, rfl⟩ := euFlush_ok h
  · exact (abandon_sameRegs habandon).trans (.setCore rfl)
  · exact .setCore rfl

theorem applyFlush_sameRegs {c : CoreId} {b : Seq} {t : Option Word} {s u : State}
    (h : applyFlush c b t s = .ok u) : SameRegs s u := by
  obtain ⟨s1, k, heu, hback, rfl⟩ := applyFlush_ok h
  obtain ⟨pw, -, rfl⟩ := flushBack_ok hback
  exact (SameRegs.setCore (flushFront_x b t (s.core c))).trans
    ((euFlush_sameRegs heu).trans (.setCore rfl))

theorem applyRaised_sameRegs {c : CoreId} {s t : State} (h : applyRaised c s = .ok t) :
    SameRegs s t := by
  unfold applyRaised at h
  split at h
  · obtain rfl := Except.ok.inj h
    exact .refl s
  · exact (applyFlush_sameRegs h).after_core_eq fun _ => rfl

/-- Settles O53: the three parts of a core's cycle before write-back each keep every core's
registers. -/
theorem registersChangeOnlyInWriteBack : Obligations.RegistersChangeOnlyInWriteBack := by
  intro c units s s1 s2 s3 hbefore hunits hflush
  exact ((beforeExecute_sameRegs hbefore).trans (unitsStep_sameRegs hunits)).trans
    (applyRaised_sameRegs hflush)

end Sys2Proof.Machine
end

section
/-! SUPPORT. The check after a step and R55: the check finds nothing exactly where the invariants of
R55 hold, given the canonical form of the maps it reads. Settles O54. -/

namespace Sys2Proof.Machine

/-! ### Maps and line stores -/

/-- What a map reads is its default or a listed entry. -/
theorem mapGet_mem {α : Type} {d : α} {m : List (Nat × α)} {k : Nat} (h : mapGet d m k ≠ d) :
    (k, mapGet d m k) ∈ m := by
  unfold mapGet at h ⊢
  cases hf : assocFind k m with
  | none => simp [hf] at h
  | some v => exact assocFind_mem hf

/-- Where keys rise, every entry is what its key reads as. -/
theorem mapGet_of_mem {α : Type} (d : α) {m : List (Nat × α)} (hm : keysRise m = true) {k : Nat}
    {v : α} (h : (k, v) ∈ m) : mapGet d m k = v := by
  induction m with
  | nil => simp at h
  | cons e m ih =>
    obtain ⟨j, u⟩ := e
    obtain ⟨hhead, htail⟩ := keysRise_cons.mp hm
    rcases List.mem_cons.mp h with heq | hmem
    · obtain ⟨rfl, rfl⟩ := Prod.mk.inj heq
      simp [mapGet, assocFind]
    · have hlt : j < k := hhead _ hmem
      have hrest := ih htail hmem
      simpa [mapGet, assocFind, hlt.ne] using hrest

theorem lruContains_iff {α : Type} {st : LruStore α} {l : LineAddr} :
    lruContains st l = true ↔ ∃ d, (l, d) ∈ st := by
  simp [lruContains]

/-! ### The five parts of the check -/

theorem brokenInvariant_none {s : State} :
    brokenInvariant s = none ↔ msiExclusive s = true ∧ linesAgree s = true ∧ semsAgree s = true ∧
      s.cores.all pwAgrees = true ∧ s.cores.all (capsHold s.cfg) = true := by
  unfold brokenInvariant
  cases msiExclusive s <;> cases linesAgree s <;> cases semsAgree s <;>
    cases s.cores.all pwAgrees <;> cases s.cores.all (capsHold s.cfg) <;> simp

/-- A line with a directory entry that is not I is among the lines the check looks at. -/
theorem mem_trackedLines {s : State} {c : CoreId} {l : LineAddr} (h : s.dirGet c l ≠ .i) :
    l ∈ trackedLines s := by
  have hentry := mapGet_mem h
  have hrow : mapGet [] s.dir c ≠ [] := fun hnil => by simp [hnil] at hentry
  exact List.mem_flatMap.mpr ⟨_, mapGet_mem hrow, List.mem_map_of_mem hentry⟩

/-- The cores counted by `countDir` are distinct, so a count of at most one leaves one core. -/
theorem eq_of_countDir_le_one {s : State} {l : LineAddr} {p : Msi → Bool} {c d : CoreId}
    (h : countDir s l p ≤ 1) (hc : c < s.cfg.numCores) (hd : d < s.cfg.numCores)
    (hpc : p (s.dirGet c l) = true) (hpd : p (s.dirGet d l) = true) : c = d := by
  unfold countDir at h
  have hmem : ∀ {e}, e < s.cfg.numCores → p (s.dirGet e l) = true →
      e ∈ (List.range s.cfg.numCores).filter (fun c => p (s.dirGet c l)) := fun he hpe =>
    List.mem_filter.mpr ⟨List.mem_range.mpr he, hpe⟩
  have hcm := hmem hc hpc
  have hdm := hmem hd hpd
  generalize (List.range s.cfg.numCores).filter (fun c => p (s.dirGet c l)) = found at *
  match found with
  | [] => simp at hcm
  | [e] => simp_all
  | _ :: _ :: _ => simp at h

/-- One core for which the property holds, and no other, makes a count of one. -/
theorem countDir_eq_one {s : State} {l : LineAddr} {p : Msi → Bool} {c : CoreId}
    (hc : c < s.cfg.numCores) (hpc : p (s.dirGet c l) = true)
    (h : ∀ d, d < s.cfg.numCores → d ≠ c → p (s.dirGet d l) = false) : countDir s l p = 1 := by
  unfold countDir
  have hone : (List.range s.cfg.numCores).filter (fun d => p (s.dirGet d l))
      = (List.range s.cfg.numCores).filter (fun d => d == c) := by
    refine List.filter_congr fun d hd => ?_
    by_cases hdc : d = c
    · simp [hdc, hpc]
    · simp [hdc, h d (List.mem_range.mp hd) hdc]
  rw [hone, ← List.countP_eq_length_filter, ← List.count, List.count_eq_one_of_mem
    List.nodup_range (List.mem_range.mpr hc)]

theorem msiExclusive_iff {s : State} : msiExclusive s = true ↔ MsiExclusive s := by
  constructor
  · intro h c d l hc hd hcd hm
    by_contra hi
    have hl := List.all_eq_true.mp h l (mem_trackedLines (by rw [hm]; decide))
    rcases Bool.or_eq_true_iff.mp hl with hzero | hone
    · have hnone := of_decide_eq_true hzero
      unfold countDir at hnone
      have hfilter := List.filter_eq_nil_iff.mp (List.length_eq_zero_iff.mp hnone)
      simpa [hm] using hfilter c (List.mem_range.mpr hc)
    · exact hcd (eq_of_countDir_le_one (of_decide_eq_true hone).le hc hd (by simp [hm])
        (by simpa using hi))
  · intro h
    refine List.all_eq_true.mpr fun l _ => Bool.or_eq_true_iff.mpr ?_
    by_cases hm : ∃ c, c < s.cfg.numCores ∧ s.dirGet c l = .m
    · obtain ⟨c, hc, hm⟩ := hm
      refine .inr (decide_eq_true (countDir_eq_one hc (by simp [hm]) fun d hd hdc => ?_))
      simp [h c d l hc hd (Ne.symm hdc) hm]
    · refine .inl (decide_eq_true ?_)
      unfold countDir
      rw [List.length_eq_zero_iff, List.filter_eq_nil_iff]
      intro c hc
      simpa using fun hcm => hm ⟨c, List.mem_range.mp hc, hcm⟩

theorem linesAgree_of_check {s : State} (h : linesAgree s = true) : LinesAgree s := by
  intro c l hc
  have hcore := List.all_eq_true.mp h c (List.mem_range.mpr hc)
  obtain ⟨hstore, hdir⟩ := (Bool.and_eq_true _ _).mp hcore
  constructor
  · intro hl
    obtain ⟨d, hd⟩ := lruContains_iff.mp hl
    simpa using List.all_eq_true.mp hstore _ hd
  · intro hi
    have hentry := List.all_eq_true.mp hdir _ (mapGet_mem hi)
    rcases Bool.or_eq_true_iff.mp hentry with habsent | hl
    · exact absurd (of_decide_eq_true habsent) hi
    · exact hl

theorem check_of_linesAgree {s : State} (hrows : ∀ row ∈ s.dir, canonical Msi.i row.2 = true)
    (h : LinesAgree s) : linesAgree s = true := by
  refine List.all_eq_true.mpr fun c hc => ?_
  have hagree := fun l => h c l (List.mem_range.mp hc)
  refine (Bool.and_eq_true _ _).mpr ⟨List.all_eq_true.mpr fun e he => ?_,
    List.all_eq_true.mpr fun e he => ?_⟩
  · exact decide_eq_true ((hagree e.1).mp (lruContains_iff.mpr ⟨e.2, he⟩))
  · have hrow : mapGet [] s.dir c ≠ [] := fun hnil => by simp [hnil] at he
    obtain ⟨hrise, hlisted⟩ := canonical_iff.mp (hrows _ (mapGet_mem hrow))
    have hread : s.dirGet c e.1 = e.2 := mapGet_of_mem Msi.i hrise he
    simp [(hagree e.1).mpr (by rw [hread]; exact hlisted e he)]

theorem semsExclusive_of_check {s : State} (h : semsAgree s = true) : SemsExclusive s := by
  intro l hw
  have hentry := mapGet_mem (d := Sem.free) (m := s.sem) (k := l) fun hfree => by
    rw [State.semGet, hfree] at hw
    cases hw
  have hagree := List.all_eq_true.mp h _ hentry
  unfold State.semGet at hw ⊢
  simpa [hw] using hagree

theorem check_of_semsExclusive {s : State} (hrise : keysRise s.sem = true)
    (h : SemsExclusive s) : semsAgree s = true := by
  refine List.all_eq_true.mpr fun e he => ?_
  have hread : s.semGet e.1 = e.2 := mapGet_of_mem Sem.free hrise he
  have hexclusive := h e.1
  rw [hread] at hexclusive
  cases hw : e.2.writer with
  | false => rfl
  | true => simp [hexclusive hw]

theorem pwAgrees_iff {k : Core} : pwAgrees k = true ↔ CountsAgree k := by
  simp [pwAgrees, CountsAgree]

theorem capsHold_iff {g : Cfg} {k : Core} : capsHold g k = true ↔ WithinCaps g k := by
  simp [capsHold, WithinCaps, and_assoc]

/-- A state the check finds nothing in meets R55. -/
theorem blockInvariant_of_check {s : State} (h : brokenInvariant s = none) : BlockInvariant s := by
  obtain ⟨hmsi, hlines, hsems, hcounts, hcaps⟩ := brokenInvariant_none.mp h
  refine ⟨msiExclusive_iff.mp hmsi, linesAgree_of_check hlines, semsExclusive_of_check hsems,
    fun k hk => ⟨pwAgrees_iff.mp (List.all_eq_true.mp hcounts k hk),
      capsHold_iff.mp (List.all_eq_true.mp hcaps k hk)⟩⟩

/-- The check finds nothing in a state with canonical maps that meets R55. -/
theorem check_of_blockInvariant {s : State} (hcanonical : CanonicalState s)
    (h : BlockInvariant s) : brokenInvariant s = none := by
  obtain ⟨-, hsem, -, hrows, -⟩ := hcanonical
  obtain ⟨hmsi, hlines, hsems, hcores⟩ := h
  exact brokenInvariant_none.mpr ⟨msiExclusive_iff.mpr hmsi, check_of_linesAgree hrows hlines,
    check_of_semsExclusive (canonical_iff.mp hsem).1 hsems,
    List.all_eq_true.mpr fun k hk => pwAgrees_iff.mpr (hcores k hk).1,
    List.all_eq_true.mpr fun k hk => capsHold_iff.mpr (hcores k hk).2⟩

/-- Settles O54: a step that changes more than the status ends with the check. -/
theorem everyStepKeepsTheBlockInvariant : Obligations.EveryStepKeepsTheBlockInvariant := by
  intro s t hs h
  rcases step_next h with ⟨-, rfl⟩ | ⟨-, -, f, rfl⟩ | ⟨-, -, u, -, hcheck, rfl⟩
  · exact hs
  · exact hs
  · exact blockInvariant_of_check hcheck

end Sys2Proof.Machine
end

section
/-! SUPPORT. Reset (R56, R380): what a boot answers, field by field, and that it meets the
invariants. Settles O59 and O60. -/

namespace Sys2Proof.Machine

/-! ### The initial memory (R33) -/

/-- Of the bytes written to an address the last one stays (R75). -/
theorem Memory.read_writeAll (m : Memory) (cells : List Host.Cell) (a : Nat) :
    Memory.read (Memory.writeAll m cells) a
      = (((cells.filter (fun e => decide (e.1 = a))).map Prod.snd).getLast?).getD
          (Memory.read m a) := by
  induction cells generalizing m with
  | nil => rfl
  | cons e cells ih =>
    have hrest : Memory.writeAll m (e :: cells) = Memory.writeAll (Memory.write m e.1 e.2) cells :=
      rfl
    rw [hrest, ih]
    by_cases he : e.1 = a
    · subst he
      simp [List.getLast?_cons]
    · simp [he, Memory.read_write_ne m e.2 (Ne.symm he)]

theorem memoryOfImage_read (g : Cfg) (image : List Host.Cell) (a : Nat) :
    Memory.read (memoryOfImage g image) a
      = if a < g.memSize then
          (((image.filter (fun e => decide (e.1 = a))).map Prod.snd).getLast?).getD 0
        else 0 := by
  have hempty : Memory.read [] a = 0 := rfl
  unfold memoryOfImage
  rw [Memory.read_writeAll, List.filter_filter, hempty]
  by_cases ha : a < g.memSize
  · rw [if_pos ha]
    have hlegal : image.filter (fun e => decide (e.1 = a) && decide (e.1 < g.memSize))
        = image.filter (fun e => decide (e.1 = a)) := by
      refine List.filter_congr fun e _ => ?_
      by_cases he : e.1 = a <;> simp [he, ha]
    rw [hlegal]
  · have hnone : image.filter (fun e => decide (e.1 = a) && decide (e.1 < g.memSize)) = [] := by
      refine List.filter_eq_nil_iff.mpr fun e _ => ?_
      simpa using fun he : e.1 = a => he ▸ not_lt.mp ha
    rw [if_neg ha, hnone]
    rfl

/-! ### The cores and inputs of a reset state -/

/-- Nothing is refused of a well-formed configuration in a state of its shape (R367). -/
theorem loadRefusal_none {s : State} (h : loadRefusal s = none) :
    s.cfg.wf = true ∧ s.shaped = true := by
  unfold loadRefusal at h
  cases hwf : s.cfg.wf <;> cases hshape : s.shaped <;> simp_all

theorem shaped_lengths {s : State} (h : s.shaped = true) :
    s.cores.length = s.cfg.numCores ∧ s.inputs.length = s.cfg.numCores := by
  simp only [State.shaped, Bool.and_eq_true, decide_eq_true_eq] at h
  exact h.1

theorem Cfg.wf_lineSize {g : Cfg} (h : g.wf = true) : 1 ≤ g.lineSize := by
  simp only [Cfg.wf, Bool.and_eq_true, decide_eq_true_eq] at h
  tauto

/-- A core of a reset state holds the reset values of its input; one that does not exist reads as a
blank one. -/
theorem init_core (g : Cfg) (inputs : List CoreInput) (image : Memory) (c : CoreId) :
    (State.init g inputs image).core c
      = Core.init g ((State.init g inputs image).input c) := by
  simp only [State.core, State.input, State.init, List.getElem?_map]
  cases inputs[c]? <;> rfl

theorem mem_init_cores {g : Cfg} {inputs : List CoreInput} {image : Memory} {k : Core}
    (h : k ∈ (State.init g inputs image).cores) : ∃ inp, k = Core.init g inp := by
  obtain ⟨inp, -, rfl⟩ := List.mem_map.mp h
  exact ⟨inp, rfl⟩

/-- One input becomes core 0's, and the others have its program and labels and the defaults of R381
(R358). -/
theorem spreadInputs_one_read (g : Cfg) (inp : CoreInput) (image : Memory) (c : CoreId)
    (hpos : 0 < c) (hc : c < g.numCores) :
    (State.init g (spreadInputs g [inp]) image).input c = inp.sameProgram := by
  obtain ⟨d, rfl⟩ := Nat.exists_eq_succ_of_ne_zero hpos.ne'
  have hd : d < g.numCores - 1 := Nat.lt_sub_of_add_lt hc
  simp [State.input, State.init, hd]

/-- Settles O60: a boot answers `State.init`, whose cores are `Core.init`. -/
theorem resetSetsEveryField : Obligations.ResetSetsEveryField := by
  intro g inputs image s h
  obtain ⟨rfl, hload⟩ := boot_ok.mp h
  obtain ⟨hlength, -⟩ := shaped_lengths (loadRefusal_none hload).2
  refine ⟨rfl, fun hone => ?_, ?_, rfl, rfl, rfl, rfl, fun _ _ => rfl, fun _ => rfl,
    memoryOfImage_read g image, hlength, fun c _ => ?_⟩
  · exact spreadInputs_of_length_ne_one g hone
  · rintro inp rfl
    refine ⟨rfl, fun c hpos hc => ?_⟩
    rw [spreadInputs_one_read g inp _ c hpos hc]
    exact ⟨rfl, rfl, rfl, rfl⟩
  · rw [init_core]
    exact ⟨rfl, rfl, rfl, rfl, rfl, rfl, rfl, rfl, rfl, rfl, fun _ => rfl, rfl, rfl, rfl, rfl, rfl,
      rfl, rfl, rfl, rfl, rfl, rfl, rfl, rfl, rfl, rfl, rfl, rfl⟩

/-! ### The invariants at reset -/

theorem init_canonical (g : Cfg) (inputs : List CoreInput) {image : Memory}
    (himage : image.wf = true) : CanonicalState (State.init g inputs image) := by
  refine ⟨himage, rfl, rfl, fun row hrow => (List.not_mem_nil hrow).elim, fun k hk => ?_, rfl,
    rfl⟩
  obtain ⟨inp, rfl⟩ := mem_init_cores hk
  exact ⟨rfl, rfl⟩

theorem init_blockInvariant (g : Cfg) (inputs : List CoreInput) (image : Memory) :
    BlockInvariant (State.init g inputs image) := by
  have hmsi : MsiExclusive (State.init g inputs image) := fun c d l _ _ _ hm => nomatch hm
  have hsems : SemsExclusive (State.init g inputs image) := fun l hw => nomatch hw
  refine ⟨hmsi, fun c l _ => ?_, hsems, fun k hk => ?_⟩
  · rw [init_core]
    exact iff_of_false (fun hl => nomatch hl) (fun hi => hi rfl)
  · obtain ⟨inp, rfl⟩ := mem_init_cores hk
    exact ⟨fun _ _ => rfl, Nat.zero_le _, Nat.zero_le _, le_refl _⟩

theorem init_soundStores {g : Cfg} (inputs : List CoreInput) (image : Memory)
    (hline : 0 < g.lineSize) : SoundStores (State.init g inputs image) := by
  have hempty : SoundStore g [] := ⟨List.nodup_nil, fun e he => (List.not_mem_nil he).elim⟩
  refine ⟨hline, hempty, fun _ => rfl, fun c => ?_⟩
  rw [init_core]
  refine ⟨hempty, fun r hr => (nomatch hr), fun w todo got hw => ?_, fun p hp => (nomatch hp)⟩
  exact nomatch List.eq_of_mem_replicate hw

theorem init_soundWork (g : Cfg) (inp : CoreInput) : SoundWork g (Core.init g inp) :=
  ⟨List.nodup_nil, fun _ he => (List.not_mem_nil he).elim,
    fun _ hr => (List.not_mem_nil hr).elim, List.Pairwise.nil, rfl⟩

theorem init_inFlightSound (g : Cfg) (inp : CoreInput) : InFlightSound (Core.init g inp) := by
  have hidle : ∀ e ∈ (Core.init g inp).eu, e = .idle := fun e he => List.eq_of_mem_replicate he
  have hseqs : issuedSeqs (Core.init g inp) = [] := by
    have hunits : (Core.init g inp).eu.filterMap EuState.seq? = [] :=
      List.filterMap_eq_nil_iff.mpr fun e he => by rw [hidle e he]; rfl
    unfold issuedSeqs
    rw [hunits]
    rfl
  refine ⟨hseqs ▸ List.nodup_nil, fun it hit => (List.not_mem_nil hit).elim, fun w hw => ?_,
    fun w todo got hw => ?_, fun w v hw => ?_, fun v hv => (List.not_mem_nil hv).elim,
    fun p hp => (nomatch hp)⟩ <;>
  exact nomatch hidle _ hw

theorem init_protocolSound (g : Cfg) (inputs : List CoreInput) (image : Memory) :
    ProtocolSound (State.init g inputs image) := by
  intro _
  have hnone : ∀ l m, holders (State.init g inputs image) l m = 0 := by
    intro l m
    refine List.length_eq_zero_iff.mpr (List.filter_eq_nil_iff.mpr fun k hk => ?_)
    obtain ⟨inp, rfl⟩ := mem_init_cores hk
    simp [lockHeld, Core.init]
  refine ⟨fun l => ⟨(hnone l .read).symm, hnone l .write⟩, fun c r hr => ?_⟩
  rw [init_core] at hr
  cases hr

theorem init_protocolInvariant {g : Cfg} (inputs : List CoreInput) {image : Memory}
    (hline : 0 < g.lineSize) (himage : image.wf = true) :
    ProtocolInvariant (State.init g inputs image) := by
  refine ⟨init_canonical g inputs himage, init_blockInvariant g inputs image,
    init_soundStores inputs image hline, fun k hk => ?_, init_protocolSound g inputs image⟩
  obtain ⟨inp, rfl⟩ := mem_init_cores hk
  exact init_soundWork g inp

theorem init_inFlight_cores {g : Cfg} {inputs : List CoreInput} {image : Memory} :
    ∀ k ∈ (State.init g inputs image).cores, InFlightSound k := by
  intro k hk
  obtain ⟨inp, rfl⟩ := mem_init_cores hk
  exact init_inFlightSound g inp

/-- Settles O59: the reset state and every boot are `State.init`, in which nothing is cached, locked,
requested or in flight. -/
theorem resetStateMeetsTheInvariants : Obligations.ResetStateMeetsTheInvariants := by
  refine ⟨init_protocolInvariant _ (by decide) rfl, init_inFlight_cores, ?_⟩
  intro g inputs image s h
  obtain ⟨rfl, hload⟩ := boot_ok.mp h
  have hline : 1 ≤ g.lineSize := Cfg.wf_lineSize (loadRefusal_none hload).1
  have hshared : SharedAgree (State.init g (spreadInputs g inputs) (memoryOfImage g image)) :=
    fun c l _ hs => nomatch hs
  exact ⟨init_protocolInvariant _ hline (memoryOfImage_wf g image), hshared, init_inFlight_cores⟩

end Sys2Proof.Machine
end

section
/-! SUPPORT. The writes of the cache controller (47): every one of its operations for core c is a chain
of writes of that core's L1D, request or directory row, of a semaphore, of the snoop commands, or of the
levels behind. From this follow at once its frame and the canonical form of the maps it writes. -/

namespace Sys2Proof.Machine

open Relation (ReflTransGen)

/-! ### Reading a core back -/

theorem setCore_core (s : State) (c : CoreId) : s.setCore c (s.core c) = s := by
  by_cases hc : c < s.cores.length
  · have hself : s.cores.set c (s.core c) = s.cores := by
      simp [State.core, hc]
    simp only [State.setCore, hself]
  · exact setCore_absent s c _ (not_lt.mp hc)

theorem setCore_setCore (s : State) (c : CoreId) (k k' : Core) :
    (s.setCore c k).setCore c k' = s.setCore c k' := by
  simp [State.setCore]

/-- Writing a core that exists or not, either the write is read back or the core is as before. -/
theorem core_setCore_cases (s : State) (c d : CoreId) (k : Core) :
    (s.setCore c k).core d = s.core d ∨ d = c ∧ (s.setCore c k).core d = k := by
  by_cases hd : c = d
  · subst hd
    by_cases hc : c < s.cores.length
    · exact .inr ⟨rfl, core_setCore_self s c k hc⟩
    · exact .inl (by rw [setCore_absent s c k (not_lt.mp hc)])
  · exact .inl (core_setCore_ne s k hd)

theorem mem_cores_iff {s : State} {k : Core} :
    k ∈ s.cores ↔ ∃ d, d < s.cores.length ∧ s.core d = k := by
  simp only [List.mem_iff_getElem, State.core]
  constructor
  · rintro ⟨d, hd, rfl⟩
    exact ⟨d, hd, by simp [hd]⟩
  · rintro ⟨d, hd, rfl⟩
    exact ⟨d, hd, by simp [hd]⟩

theorem core_mem {s : State} {c : CoreId} (hc : c < s.cores.length) : s.core c ∈ s.cores :=
  mem_cores_iff.mpr ⟨c, hc, rfl⟩

/-! ### The writes -/

/-- One write of the cache controller for core c. -/
inductive CacheWrite (c : CoreId) (s : State) : State → Prop
  | l1d (st : LruStore (List Byte)) : CacheWrite c s (setL1d c st s)
  | req (r : Option ReqState) : CacheWrite c s (setReq c r s)
  | dir (l : LineAddr) (v : Msi) : CacheWrite c s (s.dirSet c l v)
  | sem (l : LineAddr) (v : Sem) : CacheWrite c s (s.semSet l v)
  | cmds (t : List (CmdKey × CmdStatus)) : CacheWrite c s { s with cmds := t }
  | levels (l3 : LruStore (List Byte)) (mem : Memory) :
      (s.mem.wf = true → mem.wf = true) → CacheWrite c s { s with l3 := l3, mem := mem }

/-- A chain of writes of the cache controller for core c. -/
abbrev CacheWrites (c : CoreId) : State → State → Prop := ReflTransGen (CacheWrite c)

theorem l3Push_writes (c : CoreId) (l : LineAddr) (data : List Byte) (s : State) :
    CacheWrites c s (l3Push l data s) := by
  unfold l3Push
  dsimp only
  split
  · exact .single (.levels _ _ id)
  · exact .single (.levels _ _ (Memory.wf_writeLine _ _))

theorem writeNext_writes (c : CoreId) (l : LineAddr) (data : List Byte) (s : State) :
    CacheWrites c s (writeNext l data s) := by
  unfold writeNext
  split
  · exact l3Push_writes c l data s
  · exact .single (.levels s.l3 _ (Memory.wf_writeLine _ _))

/-- Everything a read from the next level can do (R289). -/
theorem nextRead_ok {l : LineAddr} {s t : State} {d : List Byte} (h : nextRead l s = .ok (d, t)) :
    (∃ st, lruRead s.l3 l = .ok (d, st) ∧ t = { s with l3 := st }) ∨
      d = Memory.readLine s.mem s.cfg.lineSize l ∧
        (0 < s.cfg.l3Lines ∧ t = l3Push l d s ∨ s.cfg.l3Lines = 0 ∧ t = s) := by
  unfold nextRead at h
  split at h
  · obtain ⟨⟨d', st⟩, hread, h⟩ := bind_ok.mp h
    obtain ⟨rfl, rfl⟩ := Prod.mk.inj (Except.ok.inj h)
    exact .inl ⟨st, hread, rfl⟩
  · obtain ⟨rfl, rfl⟩ := Prod.mk.inj (Except.ok.inj h)
    by_cases hl3 : 0 < s.cfg.l3Lines
    · exact .inr ⟨rfl, .inl ⟨hl3, if_pos hl3⟩⟩
    · exact .inr ⟨rfl, .inr ⟨Nat.eq_zero_of_not_pos hl3, if_neg hl3⟩⟩

theorem nextRead_writes (c : CoreId) {l : LineAddr} {s t : State} {d : List Byte}
    (h : nextRead l s = .ok (d, t)) : CacheWrites c s t := by
  rcases nextRead_ok h with ⟨st, -, rfl⟩ | ⟨-, ⟨-, rfl⟩ | ⟨-, rfl⟩⟩
  · exact .single (.levels st s.mem id)
  · exact l3Push_writes c l d s
  · exact .refl

/-- Everything an install can do (R296): the line goes into the L1D, and its victim leaves. -/
theorem install_cases (c : CoreId) (l : LineAddr) (data : List Byte) (s : State) :
    (∃ st, lruPush s.cfg.l1dLines (s.core c).l1d l data = (st, none) ∧
      install c l data s = setL1d c st s) ∨
    ∃ st vl vd, lruPush s.cfg.l1dLines (s.core c).l1d l data = (st, some (vl, vd)) ∧
      install c l data s = (if s.dirGet c vl = .m then writeNext vl vd (setL1d c st s)
        else setL1d c st s).dirSet c vl .i := by
  unfold install
  rcases hpush : lruPush s.cfg.l1dLines (s.core c).l1d l data with ⟨st, _ | ⟨vl, vd⟩⟩
  · exact .inl ⟨st, rfl, rfl⟩
  · exact .inr ⟨st, vl, vd, rfl, rfl⟩

theorem install_writes (c : CoreId) (l : LineAddr) (data : List Byte) (s : State) :
    CacheWrites c s (install c l data s) := by
  rcases install_cases c l data s with ⟨st, -, heq⟩ | ⟨st, vl, vd, -, heq⟩
  · exact heq ▸ .single (.l1d st)
  · rw [heq]
    refine ReflTransGen.tail (ReflTransGen.trans (.single (.l1d st)) ?_) (.dir vl .i)
    split
    · exact writeNext_writes c vl vd _
    · exact .refl

/-- Everything a READ's data can come from (R303). -/
theorem readData_ok {c : CoreId} {src : Source} {l : LineAddr} {s t : State} {d : List Byte}
    (h : readData c src l s = .ok (d, t)) :
    (src = .l1 ∧ ∃ st, lruRead (s.core c).l1d l = .ok (d, st) ∧ t = setL1d c st s) ∨
      src ≠ .l1 ∧ ∃ s1, nextRead l s = .ok (d, s1) ∧ t = (install c l d s1).dirSet c l .s := by
  unfold readData at h
  split at h
  · obtain ⟨⟨d', st⟩, hread, h⟩ := bind_ok.mp h
    obtain ⟨rfl, rfl⟩ := Prod.mk.inj (Except.ok.inj h)
    exact .inl ⟨rfl, st, hread, rfl⟩
  all_goals
    obtain ⟨⟨d', s1⟩, hread, h⟩ := bind_ok.mp h
    obtain ⟨rfl, rfl⟩ := Prod.mk.inj (Except.ok.inj h)
    exact .inr ⟨by decide, s1, hread, rfl⟩

/-- Everything the fetch of a line to be written can do (R305). -/
theorem fetchForWrite_ok {c : CoreId} {src : Source} {l : LineAddr} {s t : State}
    (h : fetchForWrite c src l s = .ok t) :
    t = s ∨ ∃ d s1, nextRead l s = .ok (d, s1) ∧ t = install c l d s1 := by
  unfold fetchForWrite at h
  split at h
  · exact .inl (Except.ok.inj h).symm
  all_goals
    obtain ⟨⟨d, s1⟩, hread, h⟩ := bind_ok.mp h
    exact .inr ⟨d, s1, hread, (Except.ok.inj h).symm⟩

theorem readData_writes {c : CoreId} {src : Source} {l : LineAddr} {s t : State} {d : List Byte}
    (h : readData c src l s = .ok (d, t)) : CacheWrites c s t := by
  rcases readData_ok h with ⟨-, st, -, rfl⟩ | ⟨-, s1, hread, rfl⟩
  · exact .single (.l1d st)
  · exact ((nextRead_writes c hread).trans (install_writes c l d s1)).tail (.dir l .s)

theorem fetchForWrite_writes {c : CoreId} {src : Source} {l : LineAddr} {s t : State}
    (h : fetchForWrite c src l s = .ok t) : CacheWrites c s t := by
  rcases fetchForWrite_ok h with rfl | ⟨d, s1, hread, rfl⟩
  · exact .refl
  · exact (nextRead_writes c hread).trans (install_writes c l d s1)

theorem releaseLock_write (c : CoreId) {l : LineAddr} {m : LockMode} {s t : State}
    (h : releaseLock l m s = .ok t) : CacheWrite c s t := by
  obtain ⟨v, -, rfl⟩ := releaseLock_ok.mp h
  exact .sem l v

theorem complete_writes {c : CoreId} {r : ReqState} {src : Source} {s t : State}
    {cells : List Host.Cell} (h : complete c r src s = .ok (t, cells)) : CacheWrites c s t := by
  obtain ⟨m, -, ⟨-, d, s1, hread, hrelease, -⟩ | ⟨-, s1, st, hfetch, -, -, hrelease, -⟩⟩ :=
    complete_ok h
  · exact (readData_writes hread).tail (releaseLock_write c hrelease)
  · exact (((fetchForWrite_writes hfetch).tail (.l1d st)).tail (.dir r.line .m)).tail
      (releaseLock_write c hrelease)

theorem advanceCached_writes {c : CoreId} {r : ReqState} {s t : State} {ph : Phase}
    (h : advanceCached c r s = .ok (t, ph)) : CacheWrites c s t := by
  rcases advanceCached_ok h with ⟨-, rfl, -⟩ | ⟨v, s1, keys, -, -, hcommands, -, rfl⟩ |
    ⟨keys, -, rfl, -⟩ | ⟨keys, -, -, -, rfl⟩ | ⟨n, src, -, -, -, rfl⟩ |
    ⟨n, src, s1, data, -, -, hcomplete, -, rfl⟩ | ⟨data, -, rfl, -⟩
  · exact .refl
  · obtain ⟨-, rfl⟩ := commands_ok hcommands
    exact ((ReflTransGen.single (.sem r.line v)).tail (.cmds _)).tail (.req _)
  · exact .refl
  · exact .single (.req _)
  · exact .single (.req _)
  · exact (complete_writes hcomplete).tail (.req _)
  · exact .refl

theorem advanceUncached_writes {c : CoreId} {r : ReqState} {s t : State} {ph : Phase}
    (h : advanceUncached c r s = .ok (t, ph)) : CacheWrites c s t := by
  rcases advanceUncached_ok h with ⟨-, -, rfl⟩ | ⟨n, src, -, -, -, rfl⟩ |
    ⟨n, src, -, -, -, -, rfl⟩ | ⟨n, src, -, -, -, -, rfl⟩ | ⟨data, -, rfl, -⟩
  · exact .single (.req _)
  · exact .single (.req _)
  · exact .single (.req _)
  · exact (ReflTransGen.single (.levels s.l3 _ (Memory.wf_writeAll r.bytes))).tail (.req _)
  · exact .refl

theorem poll_writes {c : CoreId} {who : Requester} {s t : State} {ph : Phase}
    (h : poll c who s = .ok (t, ph)) : CacheWrites c s t := by
  obtain ⟨r, -, -, ⟨-, h⟩ | ⟨-, h⟩⟩ := poll_ok h
  · exact advanceCached_writes h
  · exact advanceUncached_writes h

theorem abandon_writes {c : CoreId} {s t : State} (h : abandon c s = .ok t) :
    CacheWrites c s t := by
  rcases abandon_ok h with ⟨r, -, m, v, -, -, rfl⟩ | ⟨r, -, -, rfl⟩ | ⟨-, rfl⟩
  · exact (ReflTransGen.single (.sem r.line v)).tail (.req none)
  · exact .single (.req none)
  · exact .refl

theorem runCommand_writes {key : CmdKey} {s t : State} (h : runCommand key s = .ok t) :
    CacheWrites key.target s t := by
  obtain ⟨s1, rfl, hs1⟩ := runCommand_ok h
  refine ReflTransGen.tail (b := s1) ?_ (.cmds _)
  rcases hs1 with ⟨-, rfl⟩ | ⟨-, -, rfl⟩ | ⟨-, d, st, -, rfl⟩
  · exact .refl
  · exact (ReflTransGen.single (.l1d _)).tail (.dir _ .i)
  · exact ((writeNext_writes _ _ d s).tail (.l1d _)).tail (.dir _ .i)

/-! ### The frame of the writes -/

/-- What the cache controller leaves for core c: the parameters and the outcome of the run, the model's
own fields, every other core, and all of core c but its L1D and its request. -/
structure CacheFrame (c : CoreId) (s t : State) : Prop where
  cfg : t.cfg = s.cfg
  inputs : t.inputs = s.inputs
  cycle : t.cycle = s.cycle
  focus : t.focus = s.focus
  raised : t.raised = s.raised
  length : t.cores.length = s.cores.length
  others : ∀ d, d ≠ c → t.core d = s.core d
  own : ∃ l1d req, t.core c = { s.core c with l1d := l1d, req := req }

theorem CacheFrame.refl (c : CoreId) (s : State) : CacheFrame c s s :=
  ⟨rfl, rfl, rfl, rfl, rfl, rfl, fun _ _ => rfl, (s.core c).l1d, (s.core c).req, rfl⟩

theorem CacheFrame.trans {c : CoreId} {s t u : State} (h : CacheFrame c s t)
    (h' : CacheFrame c t u) : CacheFrame c s u where
  cfg := h'.cfg.trans h.cfg
  inputs := h'.inputs.trans h.inputs
  cycle := h'.cycle.trans h.cycle
  focus := h'.focus.trans h.focus
  raised := h'.raised.trans h.raised
  length := h'.length.trans h.length
  others d hd := (h'.others d hd).trans (h.others d hd)
  own := by
    obtain ⟨l1d, req, hown⟩ := h.own
    obtain ⟨l1d', req', hown'⟩ := h'.own
    exact ⟨l1d', req', by rw [hown', hown]⟩

theorem setCore_cacheFrame (s : State) (c : CoreId) (l1d : LruStore (List Byte))
    (req : Option ReqState) :
    CacheFrame c s (s.setCore c { s.core c with l1d := l1d, req := req }) where
  cfg := rfl
  inputs := rfl
  cycle := rfl
  focus := rfl
  raised := rfl
  length := cores_length_setCore s c _
  others d hd := core_setCore_ne s _ (Ne.symm hd)
  own := by
    rcases core_setCore_cases s c c { s.core c with l1d := l1d, req := req } with h | ⟨-, h⟩
    · exact ⟨(s.core c).l1d, (s.core c).req, h⟩
    · exact ⟨l1d, req, h⟩

theorem CacheWrite.frame {c : CoreId} {s t : State} (h : CacheWrite c s t) : CacheFrame c s t := by
  cases h with
  | l1d st => exact setCore_cacheFrame s c st (s.core c).req
  | req r => exact setCore_cacheFrame s c (s.core c).l1d r
  | dir | sem | cmds | levels =>
    exact ⟨rfl, rfl, rfl, rfl, rfl, rfl, fun _ _ => rfl, (s.core c).l1d, (s.core c).req, rfl⟩

theorem CacheWrites.frame {c : CoreId} {s t : State} (h : CacheWrites c s t) :
    CacheFrame c s t := by
  induction h with
  | refl => exact .refl c s
  | tail _ hwrite ih => exact ih.trans hwrite.frame

/-! ### The canonical form of the shared maps -/

/-- Memory, semaphores and directory are in canonical form. -/
def CanonicalShared (s : State) : Prop :=
  s.mem.wf = true ∧ canonical Sem.free s.sem = true ∧ canonical [] s.dir = true ∧
    ∀ row ∈ s.dir, canonical Msi.i row.2 = true

/-- Writing a map whose values all have a property with such a value keeps that property. -/
theorem forall_mapSet {α : Type} [DecidableEq α] {d v : α} {m : List (Nat × α)} {k : Nat}
    {P : α → Prop} (hm : ∀ e ∈ m, P e.2) (hv : P v) : ∀ e ∈ mapSet d m k v, P e.2 := by
  intro e he
  unfold mapSet at he
  split at he
  · exact hm e (List.mem_of_mem_filter he)
  · rcases mem_assocInsert he with rfl | he
    · exact hv
    · exact hm e he

theorem dirRow_canonical {s : State} (h : ∀ row ∈ s.dir, canonical Msi.i row.2 = true)
    (c : CoreId) : canonical Msi.i (mapGet [] s.dir c) = true := by
  by_cases hrow : mapGet [] s.dir c = []
  · rw [hrow]
    rfl
  · exact h _ (mapGet_mem hrow)

theorem CacheWrite.canonical {c : CoreId} {s t : State} (h : CacheWrite c s t)
    (hs : CanonicalShared s) : CanonicalShared t := by
  obtain ⟨hmem, hsem, hdir, hrows⟩ := hs
  cases h with
  | l1d | req | cmds => exact ⟨hmem, hsem, hdir, hrows⟩
  | dir l v =>
    exact ⟨hmem, hsem, canonical_mapSet c _ hdir,
      forall_mapSet (P := fun row => Machine.canonical Msi.i row = true) hrows
        (canonical_mapSet l v (dirRow_canonical hrows c))⟩
  | sem l v => exact ⟨hmem, canonical_mapSet l v hsem, hdir, hrows⟩
  | levels l3 mem hwf => exact ⟨hwf hmem, hsem, hdir, hrows⟩

theorem CacheWrites.canonical {c : CoreId} {s t : State} (h : CacheWrites c s t)
    (hs : CanonicalShared s) : CanonicalShared t := by
  induction h with
  | refl => exact hs
  | tail _ hwrite ih => exact hwrite.canonical ih

end Sys2Proof.Machine
end

section
/-! SUPPORT. What a core does to its own work (41 to 46, 48): the moves of which its front end, its
execute units, its flush and its write-back are chains. Each move says under what condition the core
makes it and what of its work it changes; what no invariant reads (fetch, registers, links, counters) is
left open by `SameWork`. -/

namespace Sys2Proof.Machine

open Relation (ReflTransGen)

/-- A core with the same instructions in flight, buffer, counts, caches and requests; its expectations
stay a map when they were one. -/
structure SameWork (k k' : Core) : Prop where
  pw : k'.pw = k.pw := by rfl
  di : k'.di = k.di := by rfl
  ie : k'.ie = k.ie := by rfl
  ew : k'.ew = k.ew := by rfl
  nextSeq : k'.nextSeq = k.nextSeq := by rfl
  pendingQ : k'.pendingQ = k.pendingQ := by rfl
  freePhys : k'.freePhys = k.freePhys := by rfl
  rob : k'.rob = k.rob := by rfl
  eu : k'.eu = k.eu := by rfl
  sprog : k'.sprog = k.sprog := by rfl
  l1d : k'.l1d = k.l1d := by rfl
  req : k'.req = k.req := by rfl
  expect : keysRise k.expect = true → keysRise k'.expect = true := by exact id

theorem SameWork.refl (k : Core) : SameWork k k := {}

theorem SameWork.trans {k k' k'' : Core} (h : SameWork k k') (h' : SameWork k' k'') :
    SameWork k k'' where
  pw := h'.pw.trans h.pw
  di := h'.di.trans h.di
  ie := h'.ie.trans h.ie
  ew := h'.ew.trans h.ew
  nextSeq := h'.nextSeq.trans h.nextSeq
  pendingQ := h'.pendingQ.trans h.pendingQ
  freePhys := h'.freePhys.trans h.freePhys
  rob := h'.rob.trans h.rob
  eu := h'.eu.trans h.eu
  sprog := h'.sprog.trans h.sprog
  l1d := h'.l1d.trans h.l1d
  req := h'.req.trans h.req
  expect := h'.expect ∘ h.expect

/-- The state of unit i of a core. -/
def Core.unit (k : Core) (i : Nat) : EuState := (k.eu[i]?).getD .idle

theorem euState_eq (s : State) (c : CoreId) (i : Nat) : s.euState c i = (s.core c).unit i := rfl

/-- A unit that is not idle exists. -/
theorem Core.unit_mem {k : Core} {i : Nat} {e : EuState} (h : k.unit i = e) (he : e ≠ .idle) :
    e ∈ k.eu := by
  unfold Core.unit at h
  cases hi : k.eu[i]? with
  | none =>
    rw [hi] at h
    exact absurd h.symm he
  | some e' =>
    rw [hi] at h
    obtain rfl : e' = e := h
    exact List.mem_of_getElem? hi

/-- The instruction with sequence ID `b` is lifted from where it waits to run on unit i: from the head
of IE, or from the unit that waits for a forwarded value or for memory (R221). -/
inductive Lifted (i : Nat) (b : Seq) (k : Core) : Core → Prop
  | fromIssue {it : Issued} {rest : List Issued} : k.unit i = .idle → k.ie.visible = it :: rest →
      it.run.seq = b → Lifted i b k { k with ie := { k.ie with visible := rest } }
  | fromWait {w : Work} : k.unit i = .waitFwd w → w.run.seq = b → Lifted i b k k
  | fromMemory {w : Work} {todo : List LineAddr} {got : ByteMap} :
      k.unit i = .memRd w todo got → w.run.seq = b → Lifted i b k k

/-- The work of a core after a flush with boundary `b` (R346), its counts lowered to `pw`. -/
def flushedWork (b : Seq) (pw : List (RegId × Nat)) (k : Core) : Core :=
  { k with
    di := k.di.filter (fun r => decide (r.seq ≤ b))
    ie := k.ie.filter (fun it => decide (it.run.seq ≤ b))
    ew := k.ew.filter (fun v => decide (v.seq ≤ b))
    pendingQ := k.pendingQ.filter (fun r => decide (r.seq ≤ b))
    eu := k.eu.map (fun e => if EuState.younger b e then .idle else e)
    pw := pw
    freePhys := k.freePhys + heldSlots (k.rob.filter (fun e => decide (b < e.seq)))
    rob := k.rob.filter (fun e => decide (e.seq ≤ b)) }

/-- One move of a core's work, with the flush signals raised in this cycle beside it. -/
inductive WorkMove (g : Cfg) : Core × List Flush → Core × List Flush → Prop
  /-- what no invariant reads -/
  | same {k k' fs} : SameWork k k' → WorkMove g (k, fs) (k', fs)
  /-- R137 -/
  | connect {k fs} : WorkMove g (k, fs) (connectAll g k, fs)
  /-- R170 -/
  | decode {k fs} (d : Descriptor) (a : Word) : d.instr.wf = true →
      WorkMove g (k, fs) ({ k with
        di := { k.di with entry := k.di.entry ++ [⟨d, a, k.nextSeq⟩] }
        nextSeq := k.nextSeq + 1 }, fs)
  /-- R198: a runner leaves the pending queue or DI, where it stands if no two there share an ID -/
  | issue {k fs r gr k'} (di : Bus Runner) (q : List Runner) :
      (((unissued k).map (fun v => v.seq)).Nodup →
        (unissued k).Perm (r :: unissued { k with di := di, pendingQ := q })) →
      q.length ≤ k.pendingQ.length → k.rob.length ≠ g.robCap →
      gr.slots r.desc.instr.writes ≤ k.freePhys →
      doIssue g gr r { k with di := di, pendingQ := q } = .ok k' → WorkMove g (k, fs) (k', fs)
  /-- R188 -/
  | park {k fs r rest} : k.pendingQ.length < g.pqCap → k.di.visible = r :: rest →
      WorkMove g (k, fs)
        ({ k with di := { k.di with visible := rest }, pendingQ := k.pendingQ ++ [r] }, fs)
  /-- R221, Idle: the instruction waits for a forwarded value -/
  | wait {k fs i w k0} : Lifted i w.run.seq k k0 →
      WorkMove g (k, fs) ({ k0 with eu := k0.eu.set i (.waitFwd w) }, fs)
  /-- R221, R224: the instruction reads lines -/
  | read {k fs i w k0 todo got} : Lifted i w.run.seq k k0 →
      (AsksForLines g k → ∀ l ∈ todo, lineOf g.lineSize l = l) →
      WorkMove g (k, fs) ({ k0 with eu := k0.eu.set i (.memRd w todo got) }, fs)
  /-- R225: the instruction runs, and raises at most a flush of its own -/
  | run {k fs i w k0} (out : ResultOut) (fl : List Flush) : Lifted i w.run.seq k k0 →
      (∀ f ∈ fl, f.seq = w.run.seq) →
      WorkMove g (k, fs) ({ k0 with
        rob := robSetStatus k0.rob w.run.seq .executed
        eu := k0.eu.set i (.push w ⟨w.run.seq, out⟩) }, fs ++ fl)
  /-- R221, Push -/
  | leave {k fs i w v} : k.unit i = .push w v →
      WorkMove g (k, fs)
        ({ k with ew := { k.ew with entry := k.ew.entry ++ [v] }, eu := k.eu.set i .idle }, fs)
  /-- R346, by a flush raised in this cycle or with no store under way -/
  | flush {k fs b pw} : (k.sprog = none ∨ ∃ f ∈ fs, f.seq = b) →
      discardEntries (k.rob.filter (fun e => decide (b < e.seq))) k.pw = .ok pw →
      WorkMove g (k, fs) (flushedWork b pw k, [])
  /-- R266 -/
  | drain {k fs v rest} : k.ew.visible = v :: rest →
      WorkMove g (k, fs) ({ k with
        ew := { k.ew with visible := rest }
        rob := robSetStatus k.rob v.seq (.completed v.out) }, fs)
  /-- R268: the commit head's memory change begins -/
  | begin {k fs e o lines} : commitHead k = some e → e.status = .completed (.ok o) →
      (∀ l ∈ lines, lineOf g.lineSize l = l) →
      WorkMove g (k, fs) ({ k with sprog := some ⟨e.seq, lines, 0⟩ }, fs)
  /-- R273: a line of the store under way is written -/
  | advance {k fs p rest} : k.sprog = some p → (∀ l ∈ rest, l ∈ p.todo) →
      WorkMove g (k, fs) ({ k with sprog := some ⟨p.seq, rest, 0⟩ }, fs)
  /-- R271, R272, with no flush left to apply -/
  | retire {k e o k'} : e ∈ k.rob → e.status = .completed (.ok o) → retire e o k = .ok k' →
      WorkMove g (k, []) (k', [])

/-- A chain of moves of a core's work. -/
abbrev WorkMoves (g : Cfg) : Core × List Flush → Core × List Flush → Prop :=
  ReflTransGen (WorkMove g)

/-! ### Fetch and decode (R153, R170) -/

theorem fetchLoop_sameWork {g : Cfg} {size n : Nat} {k t : Core}
    (h : fetchLoop g size n k = .ok t) : SameWork k t := by
  induction n generalizing k with
  | zero =>
    obtain rfl := Except.ok.inj h
    split <;> exact {}
  | succ n ih =>
    unfold fetchLoop at h
    split at h
    · obtain rfl := Except.ok.inj h
      exact {}
    split at h
    · obtain rfl := Except.ok.inj h
      exact {}
    split at h
    · obtain rfl := Except.ok.inj h
      exact .refl k
    obtain ⟨l1i, -, h⟩ := bind_ok.mp h
    obtain ⟨fd, -, h⟩ := bind_ok.mp h
    exact SameWork.trans {} (ih h)

theorem fetchStep_sameWork {g : Cfg} {size : Nat} {k t : Core} (h : fetchStep g size k = .ok t) :
    SameWork k t := by
  unfold fetchStep at h
  split at h
  · obtain rfl := Except.ok.inj h
    exact .refl k
  split at h
  · exact fetchLoop_sameWork h
  split at h
  · obtain rfl := Except.ok.inj h
    exact {}
  · exact SameWork.trans {} (fetchLoop_sameWork h)

theorem headerField_lt (h : BitVec 32) (lo len : Nat) : headerField h lo len < 2 ^ len :=
  (h.extractLsb' lo len).isLt

theorem instrOfCode_some {code : Nat} {r w : List RegId} {i : Instr}
    (h : instrOfCode code r w = some i) : i.reads = r ∧ i.writes = w := by
  unfold instrOfCode at h
  split at h <;> cases h <;> exact ⟨rfl, rfl⟩

theorem mem_fieldList {valid reg q : Nat} : q ∈ fieldList valid reg ↔ valid = 1 ∧ q = reg := by
  unfold fieldList
  split <;> simp_all

theorem fieldList_nodup (valid reg : Nat) : (fieldList valid reg).Nodup := by
  unfold fieldList
  split
  · exact List.nodup_singleton reg
  · exact List.nodup_nil

/-- What the decoder reads is well formed: its register fields are five bits wide, and it refuses a
register named twice (R103, R104). -/
theorem decodeHeader_wf {h : BitVec 32} {i : Instr} (hi : decodeHeader h = .ok i) :
    i.wf = true := by
  simp only [decodeHeader] at hi
  split at hi
  · cases hi
  split at hi
  · cases hi
  split at hi
  · cases hi
  split at hi
  · cases hi
  rename_i hrepeated
  split at hi
  case h_2 => cases hi
  case h_1 j hcode =>
    obtain rfl := Except.ok.inj hi
    obtain ⟨hreads, hwrites⟩ := instrOfCode_some hcode
    have hwd := headerField_lt h 4 5
    have hr1 := headerField_lt h 10 5
    have hr2 := headerField_lt h 16 5
    simp only [Instr.wf, registersExist, registersDistinct, hreads, hwrites, Bool.and_eq_true,
      List.all_eq_true, decide_eq_true_eq, List.mem_append, mem_fieldList, List.nodup_append,
      fieldList_nodup, true_and, and_true]
    refine ⟨⟨?_, ?_⟩, ?_⟩
    · rintro q (⟨-, rfl⟩ | ⟨-, rfl⟩) <;> assumption
    · rintro q ⟨-, rfl⟩
      exact hwd
    · rintro q ⟨-, rfl⟩ p ⟨hvalid, rfl⟩ heq
      exact hrepeated ⟨hvalid, heq⟩

theorem descriptor_wf {e : ProgEntry} {d : Descriptor} (h : e.descriptor? = some d) :
    d.instr.wf = true := by
  obtain ⟨i, hi, rfl⟩ := Option.map_eq_some_iff.mp h
  unfold ProgEntry.instr? at hi
  split at hi
  · rename_i word _
    cases hword : decodeHeader word with
    | error _ => simp [hword, Except.toOption] at hi
    | ok j =>
      obtain rfl : j = i := by simpa [hword, Except.toOption] using hi
      exact decodeHeader_wf hword
  · split at hi
    · obtain rfl := Option.some.inj hi
      assumption
    · cases hi

theorem resolve_wf {g : Cfg} {c : CoreId} {prog : List ProgEntry} {a : Word} {d : Descriptor}
    (h : resolve g c prog a = .ok d) : d.instr.wf = true := by
  unfold resolve at h
  split at h
  · simp at h
  split at h
  · rename_i d' hd
    obtain rfl := Except.ok.inj h
    exact descriptor_wf hd
  · cases h

theorem decodeLoop_moves {g : Cfg} {c : CoreId} {prog : List ProgEntry} {n : Nat} {k t : Core}
    {fs : List Flush} (h : decodeLoop g c prog n k = .ok t) : WorkMoves g (k, fs) (t, fs) := by
  induction n generalizing k with
  | zero =>
    obtain rfl := Except.ok.inj h
    exact .refl
  | succ n ih =>
    unfold decodeLoop at h
    split at h
    · obtain rfl := Except.ok.inj h
      exact .refl
    obtain ⟨⟨a, fd⟩, -, h⟩ := bind_ok.mp h
    obtain ⟨d, hd, h⟩ := bind_ok.mp h
    obtain ⟨di, hdi, h⟩ := bind_ok.mp h
    obtain ⟨-, rfl⟩ := Bus.add_ok.mp hdi
    exact .head (.decode d a (resolve_wf hd)) (.head (.same {}) (ih h))

/-! ### Issue (R187, R198) -/

theorem issue_verdict {g : Cfg} {sc : Scan} {r : Runner} {gr : Grant}
    (h : verdict g sc r = .issue gr) :
    sc.core.rob.length ≠ g.robCap ∧ classify g sc.core r.desc.instr = .issue gr := by
  rcases verdict_cases g sc r with ⟨-, hv⟩ | ⟨-, -, hv⟩ | ⟨hstop, -, hv⟩
  · rw [hv] at h
    cases h
  · rw [hv] at h
    cases h
  · simp only [mustStop, Bool.or_eq_false_iff, decide_eq_false_iff_not] at hstop
    exact ⟨hstop.2, hv ▸ h⟩

/-- A grant takes no more rename slots than are free (R196). -/
theorem classify_slots {g : Cfg} {k : Core} {i : Instr} {gr : Grant}
    (h : classify g k i = .issue gr) : gr.slots i.writes ≤ k.freePhys := by
  cases gr with
  | plain | fwd => exact Nat.zero_le _
  | rename =>
    unfold classify at h
    split at h
    · cases h
    · split at h
      · split at h <;> cases h
      · cases h
    · split at h
      · rename_i hroom
        exact of_decide_eq_true ((Bool.and_eq_true _ _).mp hroom).2
      · cases h
    · cases h

/-- A queue with a runner whose ID no other has is that runner and the rest. -/
theorem perm_pendingRemove {q : List Runner} {r : Runner}
    (hq : (q.map (fun v => v.seq)).Nodup) (hr : r ∈ q) : q.Perm (r :: pendingRemove q r) := by
  obtain ⟨a, l₁, l₂, hnone, ha, hq', hrest⟩ :=
    List.exists_of_eraseP (p := fun e => decide (e.seq = r.seq)) hr (by simp)
  obtain rfl : a = r := List.inj_on_of_nodup_map hq (by simp [hq']) hr (of_decide_eq_true ha)
  rw [pendingRemove, hrest, hq']
  exact List.perm_middle

/-- Removing a visited runner takes none of those still to visit. -/
theorem suffix_pendingRemove {q rest : List Runner} {r : Runner} (h : r :: rest <:+ q) :
    rest <:+ pendingRemove q r := by
  obtain ⟨held, rfl⟩ := h
  by_cases hheld : ∃ e ∈ held, decide (e.seq = r.seq) = true
  · obtain ⟨e, he, hseq⟩ := hheld
    rw [pendingRemove, List.eraseP_append_left (p := fun e => decide (e.seq = r.seq)) hseq _ he]
    exact (List.suffix_cons r rest).trans (List.suffix_append _ _)
  · rw [pendingRemove, List.eraseP_append_right _ fun e he hseq => hheld ⟨e, he, hseq⟩,
      List.eraseP_cons_of_pos (by simp)]
    exact List.suffix_append _ _

/-- A granted runner of the pending queue issues. -/
theorem issueOld_move {g : Cfg} {sc : Scan} {r : Runner} {gr : Grant} {k' : Core} {fs : List Flush}
    (hv : verdict g sc r = .issue gr) (hr : r ∈ sc.core.pendingQ)
    (h : doIssue g gr r { sc.core with pendingQ := pendingRemove sc.core.pendingQ r } = .ok k') :
    WorkMove g (sc.core, fs) (k', fs) := by
  obtain ⟨hroom, hclass⟩ := issue_verdict hv
  refine .issue sc.core.di (pendingRemove sc.core.pendingQ r) (fun hnodup => ?_)
    (List.eraseP_sublist.length_le) hroom (classify_slots hclass) h
  have hq : (sc.core.pendingQ.map (fun v => v.seq)).Nodup := by
    simp only [unissued, List.append_assoc, List.map_append] at hnodup
    exact hnodup.of_append_left
  simp only [unissued, List.append_assoc]
  exact (perm_pendingRemove hq hr).append_right _

/-- A granted runner at the head of DI issues. -/
theorem issueNew_move {g : Cfg} {sc : Scan} {r : Runner} {rest : List Runner} {gr : Grant}
    {k' : Core} {fs : List Flush} (hv : verdict g sc r = .issue gr)
    (hr : sc.core.di.visible = r :: rest)
    (h : doIssue g gr r { sc.core with di := { sc.core.di with visible := rest } } = .ok k') :
    WorkMove g (sc.core, fs) (k', fs) := by
  obtain ⟨hroom, hclass⟩ := issue_verdict hv
  refine .issue { sc.core.di with visible := rest } sc.core.pendingQ (fun _ => ?_) (le_refl _) hroom
    (classify_slots hclass) h
  simp only [unissued, hr, List.append_assoc, List.cons_append]
  exact List.perm_middle

theorem doIssue_pendingQ {g : Cfg} {gr : Grant} {r : Runner} {k k' : Core}
    (h : doIssue g gr r k = .ok k') : k'.pendingQ = k.pendingQ := by
  obtain ⟨ie, -, rfl⟩ := doIssue_ok h
  rfl

/-- Phase 1 visits the runners of the pending queue, which stay there until they are visited. -/
theorem issuePending_moves {g : Cfg} {q : List Runner} {sc sc' : Scan} {b : Bool} {fs : List Flush}
    (hq : q <:+ sc.core.pendingQ) (h : issuePending g q sc = .ok (sc', b)) :
    WorkMoves g (sc.core, fs) (sc'.core, fs) := by
  induction q generalizing sc with
  | nil =>
    obtain ⟨rfl, -⟩ := Prod.mk.inj (Except.ok.inj h)
    exact .refl
  | cons r rest ih =>
    rcases issuePending_cons_ok h with ⟨-, rfl, -⟩ | ⟨-, hrest⟩ | ⟨gr, k, hv, hissue, hrest⟩
    · exact .refl
    · exact ih (sc := sc.heldBack r) ((List.suffix_cons r rest).trans hq) hrest
    · refine .head (issueOld_move hv (hq.subset List.mem_cons_self) hissue)
        (ih (sc := sc.granted r k) ?_ hrest)
      have hk : k.pendingQ = pendingRemove sc.core.pendingQ r := doIssue_pendingQ hissue
      exact hk ▸ suffix_pendingRemove hq

theorem parkHeld_moves {g : Cfg} {k t : Core} {fs : List Flush} (h : parkHeld g k = .ok t) :
    WorkMoves g (k, fs) (t, fs) := by
  rcases parkHeld_ok h with ⟨r, rest, hroom, hvisible, rfl⟩ | ⟨-, rfl⟩
  · exact .single (.park hroom hvisible)
  · exact .refl

theorem issueFresh_moves {g : Cfg} {n : Nat} {sc sc' : Scan} {fs : List Flush}
    (h : issueFresh g n sc = .ok sc') : WorkMoves g (sc.core, fs) (sc'.core, fs) := by
  induction n generalizing sc with
  | zero =>
    obtain rfl := Except.ok.inj h
    exact .refl
  | succ n ih =>
    rcases issueFresh_succ_ok h with ⟨-, rfl⟩ | ⟨r, rest, hvisible, hround⟩
    · exact .refl
    rcases hround with ⟨-, rfl⟩ | ⟨-, k, hpark, rfl⟩ | ⟨gr, k, hv, hissue, hrest⟩
    · exact .refl
    · exact parkHeld_moves hpark
    · exact .head (issueNew_move hv hvisible hissue) (ih (sc := sc.granted r k) hrest)

theorem issueStep_moves {g : Cfg} {k t : Core} {fs : List Flush} (h : issueStep g k = .ok t) :
    WorkMoves g (k, fs) (t, fs) := by
  unfold issueStep at h
  obtain ⟨⟨sc1, stopped⟩, hpending, h⟩ := bind_ok.mp h
  have hmoves := issuePending_moves (sc := ⟨{ k with curIssued := [] }, [], 0, false, false⟩)
    (fs := fs) List.suffix_rfl hpending
  have hphase1 : WorkMoves g (k, fs) (sc1.core, fs) := .head (.same {}) hmoves
  cases stopped with
  | true =>
    obtain rfl := Except.ok.inj h
    exact hphase1.tail (.same {})
  | false =>
    obtain ⟨sc2, hfresh, h⟩ := bind_ok.mp h
    obtain rfl := Except.ok.inj h
    exact (hphase1.trans (issueFresh_moves hfresh)).tail (.same {})

theorem frontEnd_moves {g : Cfg} {c : CoreId} {prog : List ProgEntry} {k t : Core}
    {fs : List Flush} (h : frontEnd g c prog k = .ok t) : WorkMoves g (k, fs) (t, fs) := by
  obtain ⟨k1, k2, hfetch, hdecode, hissue⟩ := frontEnd_ok h
  exact .head .connect (.head (.same (fetchStep_sameWork hfetch))
    ((decodeLoop_moves hdecode).trans (issueStep_moves hissue)))

/-! ### Running an instruction (R225) -/

/-- What an instruction's run leaves of its core: the unit holds its result, beside what no invariant
reads, or it is a LOAD that waits for its first line. -/
inductive Ran (g : Cfg) (i : Nat) (w : Work) (k : Core) : Core → Option Flush → Prop
  | pushed {k' fl} (out : ResultOut) : (∀ f ∈ fl, f.seq = w.run.seq) →
      SameWork { k with
        rob := robSetStatus k.rob w.run.seq .executed
        eu := k.eu.set i (.push w ⟨w.run.seq, out⟩) } k' → Ran g i w k k' fl
  | reading {l rest} : k.req = none → (∀ j ∈ l :: rest, lineOf g.lineSize j = j) →
      Ran g i w k { k with
        req := some ⟨.read, l, .eu i, w.run.seq, [], none, .locking⟩
        eu := k.eu.set i (.memRd w (l :: rest) []) } none

theorem robSetStatus_idem (rob : List RobEntry) (b : Seq) (st : RobStatus) :
    robSetStatus (robSetStatus rob b st) b st = robSetStatus rob b st := by
  unfold robSetStatus
  rw [List.map_map]
  refine List.map_congr_left fun e _ => ?_
  by_cases he : e.seq = b <;> simp [he]

theorem dropExpect_sameWork (b : Seq) (k : Core) : SameWork k (dropExpect b k) where
  expect := keysRise_filter _

theorem setExpect_sameWork (b : Seq) (e : Expect) (k : Core) : SameWork k (setExpect b e k) where
  expect := keysRise_insert b e

theorem assertJmp_sameWork (r : Runner) (k : Core) : SameWork k (assertJmp r k) := by
  unfold assertJmp
  split
  · exact (setExpect_sameWork _ _ k).trans {}
  · exact setExpect_sameWork _ _ k

theorem notifyJumpResolved_sameWork (g : Cfg) (b : Seq) (src dst : Word) (k : Core) :
    SameWork k (notifyJumpResolved g b src dst k) := by
  unfold notifyJumpResolved
  dsimp only
  split <;> exact {}

theorem deliver_sameWork {b : Seq} {o : ExecutionResult} {k k' : Core}
    (h : deliver b o k = .ok k') : SameWork k k' := by
  obtain ⟨links, rfl⟩ := deliver_ok h
  exact {}

/-- Recording an error is a push, where the buffer entry is Executed already and where it is not. -/
theorem ran_recordError {g : Cfg} {i : Nat} {w : Work} {k k1 : Core} (e : ProgramError)
    (h : SameWork { k with rob := k1.rob } k1)
    (hrob : robSetStatus k1.rob w.run.seq .executed = robSetStatus k.rob w.run.seq .executed) :
    Ran g i w k (recordError i w e k1).1 (recordError i w e k1).2 := by
  refine .pushed (.err e) (fun f hf => ?_) ?_
  · obtain rfl := Option.mem_some.mp hf
    rfl
  · exact { h with
      rob := hrob
      eu := by rw [recordError_eu, h.eu]
      expect := fun hrise => keysRise_filter _ (h.expect hrise) }

/-- A result is pushed on a core whose buffer entry is Executed. -/
theorem ran_pushOk {g : Cfg} {i : Nat} {w : Work} {o : ExecutionResult} {k k1 : Core}
    {fl : Option Flush}
    (h : SameWork { k with rob := robSetStatus k.rob w.run.seq .executed } k1)
    (hfl : ∀ f ∈ fl, f.seq = w.run.seq) : Ran g i w k (pushOk i w o k1) fl :=
  .pushed (.ok o) hfl { h with eu := by rw [pushOk_eu, h.eu] }

theorem ran_flushTo {g : Cfg} {i : Nat} {w : Work} {o : ExecutionResult} {k k1 : Core}
    (wrong : Bool) (t : Word)
    (h : SameWork { k with rob := robSetStatus k.rob w.run.seq .executed } k1) :
    Ran g i w k (flushTo i w o wrong t k1).1 (flushTo i w o wrong t k1).2 := by
  refine ran_pushOk h fun f hf => ?_
  cases wrong with
  | true =>
    obtain rfl := Option.mem_some.mp hf
    rfl
  | false => cases hf

/-- Recording an error once the buffer entry is Executed. -/
theorem ran_recordError_executed {g : Cfg} {i : Nat} {w : Work} {k k1 : Core} (e : ProgramError)
    (h : SameWork { k with rob := robSetStatus k.rob w.run.seq .executed } k1) :
    Ran g i w k (recordError i w e k1).1 (recordError i w e k1).2 := by
  refine ran_recordError e { h with rob := rfl } ?_
  rw [h.rob]
  exact robSetStatus_idem k.rob w.run.seq .executed

/-- A class step pushes a result or records an error on a core whose buffer entry is Executed. -/
def PushesOrErrs (g : Cfg) (i : Nat) (w : Work)
    (classStep : ExecutionResult → Core → Res (Core × Option Flush)) : Prop :=
  ∀ o k k1 r, SameWork { k with rob := robSetStatus k.rob w.run.seq .executed } k1 →
    classStep o k1 = .ok r → Ran g i w k r.1 r.2

theorem plainStep_pushes (g : Cfg) (i : Nat) (w : Work) : PushesOrErrs g i w (plainStep i w) := by
  intro o k k1 r hk h
  obtain rfl := Except.ok.inj h
  exact ran_pushOk hk (by simp)

theorem cbrStep_pushes (g : Cfg) (i : Nat) (w : Work) : PushesOrErrs g i w (cbrStep g i w) := by
  intro o k k1 r hk h
  rcases cbrStep_ok h with rfl | ⟨wrong, rfl⟩
  · exact ran_recordError_executed _ hk
  · exact ran_flushTo wrong _ (hk.trans (dropExpect_sameWork _ k1))

theorem jmpStep_pushes (g : Cfg) (i : Nat) (w : Work) : PushesOrErrs g i w (jmpStep g i w) := by
  intro o k k1 r hk h
  rcases jmpStep_ok h with rfl | ⟨wrong, rfl⟩
  · exact ran_recordError_executed _ hk
  · exact ran_flushTo wrong _ ((hk.trans (notifyJumpResolved_sameWork g _ _ _ k1)).trans
      (dropExpect_sameWork _ _))

theorem retStep_pushes (g : Cfg) (i : Nat) (w : Work) : PushesOrErrs g i w (retStep g i w) := by
  intro o k k1 r hk h
  have hdrop := hk.trans (dropExpect_sameWork w.run.seq k1)
  rcases retStep_ok h with rfl | ⟨t, -, rfl | rfl⟩ | rfl
  · exact ran_pushOk hdrop (by simp)
  · exact ran_recordError_executed _ hk
  · exact ran_flushTo true t hdrop
  · exact ran_pushOk (hdrop.trans {}) (by simp)

theorem runWork_ran {g : Cfg} {labels : Labels} {cr : ClassRule} {wl : List RegId}
    {assertStep : Core → Core} {classStep : ExecutionResult → Core → Res (Core × Option Flush)}
    {i : Nat} {w : Work} {got : ByteMap} {k : Core} {r : Core × Option Flush}
    (hassert : SameWork k (assertStep k)) (hclass : PushesOrErrs g i w classStep)
    (h : runWork g labels cr wl assertStep classStep i w got k = .ok r) : Ran g i w k r.1 r.2 := by
  rcases runWork_ok h with ⟨e, rfl⟩ | ⟨o, k2, -, -, -, hdeliver, hstep⟩
  · exact ran_recordError _ { hassert with rob := rfl } (by rw [hassert.rob])
  · refine hclass o k k2 r (.trans ?_ (deliver_sameWork hdeliver)) hstep
    exact { hassert with rob := by rw [hassert.rob] }

theorem startWork_ran {g : Cfg} {labels : Labels} {cr : ClassRule} {wl : List RegId}
    {assertStep : Core → Core} {classStep : ExecutionResult → Core → Res (Core × Option Flush)}
    {i : Nat} {w : Work} {k : Core} {r : Core × Option Flush}
    (hassert : SameWork k (assertStep k)) (hclass : PushesOrErrs g i w classStep)
    (h : startWork g labels cr wl assertStep classStep i w k = .ok r) : Ran g i w k r.1 r.2 := by
  rcases startWork_ok h with ⟨a, -, rfl⟩ | hrun
  · exact ran_recordError _ {} rfl
  · exact runWork_ran hassert hclass hrun

theorem mem_insertLine {l j : LineAddr} {ls : List LineAddr} (h : l ∈ insertLine j ls) :
    l = j ∨ l ∈ ls := by
  induction ls with
  | nil => exact .inl (List.mem_singleton.mp h)
  | cons i ls ih =>
    unfold insertLine at h
    split at h
    · exact List.mem_cons.mp h
    split at h
    · exact .inr h
    · rcases List.mem_cons.mp h with rfl | h
      · exact .inr List.mem_cons_self
      · exact (ih h).imp id (List.mem_cons_of_mem i)

/-- Every line of a list of addresses is a line address (R286). -/
theorem linesOf_aligned {g : Cfg} {addrs : List Nat} :
    ∀ l ∈ linesOf g addrs, lineOf g.lineSize l = l := by
  refine List.foldlRecOn (motive := fun ls => ∀ l ∈ ls, lineOf g.lineSize l = l) addrs _
    (fun l hl => (List.not_mem_nil hl).elim) fun ls hls a _ l hl => ?_
  rcases mem_insertLine hl with rfl | hl
  · exact lineOf_idem _ _
  · exact hls l hl

theorem startLoad_ran {g : Cfg} {labels : Labels} {wl : List RegId} {i : Nat} {w : Work}
    {k : Core} {r : Core × Option Flush} (h : startLoad g labels wl i w k = .ok r) :
    Ran g i w k r.1 r.2 := by
  rcases startLoad_ok h with ⟨a, -, rfl⟩ | hrun | ⟨l, rest, hlines, hreq, rfl⟩
  · exact ran_recordError _ {} rfl
  · exact runWork_ran {} (plainStep_pushes g i w) hrun
  · exact .reading hreq fun j hj => linesOf_aligned j (hlines ▸ hj)

/-- Every meaning runs the work item in focus on its core, and gives up the focus. -/
theorem onFocus_ran {s t : State} {op : Cfg → Labels → Focus → Core → Res (Core × Option Flush)}
    (hop : ∀ g labels f k r, op g labels f k = .ok r → Ran g f.unit f.work k r.1 r.2)
    (h : onFocus s op = .next t) :
    ∃ (f : Focus) (k : Core) (fl : Option Flush), s.focus = some f ∧
      Ran s.cfg f.unit f.work (s.core f.core) k fl ∧
      t = { s.setCore f.core k with focus := none, raised := s.raised ++ fl.toList } := by
  obtain ⟨f, k, fl, hf, hk, ht⟩ := onFocus_next.mp h
  exact ⟨f, k, fl, hf, hop _ _ _ _ _ hk, ht⟩

theorem exec_ran {i : Instr} {s t : State} (h : exec i s = .next t) :
    ∃ (f : Focus) (k : Core) (fl : Option Flush), s.focus = some f ∧
      Ran s.cfg f.unit f.work (s.core f.core) k fl ∧
      t = { s.setCore f.core k with focus := none, raised := s.raised ++ fl.toList } := by
  cases i with
  | alu _ w =>
    simp only [exec, execAlu] at h
    exact onFocus_ran (fun g _ f _ _ hr => startWork_ran {} (plainStep_pushes g f.unit f.work) hr) h
  | load _ w =>
    simp only [exec, execLoad] at h
    refine onFocus_ran (fun g _ f k _ hr => ?_) h
    split at hr
    · exact startLoad_ran hr
    · exact runWork_ran {} (plainStep_pushes g f.unit f.work) hr
  | store _ w =>
    simp only [exec, execStore] at h
    exact onFocus_ran (fun g _ f _ _ hr => startWork_ran {} (plainStep_pushes g f.unit f.work) hr) h
  | cbr _ w =>
    simp only [exec, execCbr] at h
    exact onFocus_ran (fun g _ f k _ hr =>
      startWork_ran (setExpect_sameWork _ _ k) (cbrStep_pushes g f.unit f.work) hr) h
  | jmp _ w =>
    simp only [exec, execJmp] at h
    exact onFocus_ran (fun g _ f k _ hr =>
      startWork_ran (assertJmp_sameWork _ k) (jmpStep_pushes g f.unit f.work) hr) h
  | ret _ w =>
    simp only [exec, execRet] at h
    exact onFocus_ran (fun g _ f k _ hr =>
      startWork_ran (setExpect_sameWork _ _ k) (retStep_pushes g f.unit f.work) hr) h

end Sys2Proof.Machine
end

section
/-! SUPPORT. A core's cycle (R341) as a chain of moves: those of its own work, and those of its cache
controller, where a request that finishes is taken at once. Every invariant of the machine is derived
from the moves, so that no proof walks through the cycle again. -/

namespace Sys2Proof.Machine

open Relation (ReflTransGen)

/-- The state with a core's work and the raised flushes written. -/
def State.withWork (s : State) (c : CoreId) (p : Core × List Flush) : State :=
  { s.setCore c p.1 with raised := p.2 }

theorem core_withWork_self {s : State} {c : CoreId} (hc : c < s.cores.length)
    (p : Core × List Flush) : (s.withWork c p).core c = p.1 := core_setCore_self s c p.1 hc

theorem core_withWork_ne (s : State) {c d : CoreId} (p : Core × List Flush) (h : d ≠ c) :
    (s.withWork c p).core d = s.core d := core_setCore_ne s p.1 (Ne.symm h)

theorem withWork_withWork (s : State) (c : CoreId) (p q : Core × List Flush) :
    (s.withWork c p).withWork c q = s.withWork c q := by
  simp [State.withWork, State.setCore]

theorem withWork_core (s : State) (c : CoreId) : s.withWork c (s.core c, s.raised) = s := by
  have hself := setCore_core s c
  unfold State.withWork
  rw [hself]

/-- One move of core c's cache controller. -/
inductive CacheMove (c : CoreId) (s : State) : State → Prop
  /-- R298, for a whole line where the core asks for such alone -/
  | submit {r : ReqState} : (s.core c).req = none → r.mode = none → r.phase = .locking →
      (AsksForLines s.cfg (s.core c) → lineOf s.cfg.lineSize r.line = r.line) →
      CacheMove c s (setReq c (some r) s)
  /-- R299, R310 -/
  | poll {who ph t} : poll c who s = .ok (t, ph) → (∀ data, ph ≠ .finished data) →
      CacheMove c s t
  /-- R299, R310: the request has finished, and who asked takes it -/
  | finish {who data t} : Machine.poll c who s = .ok (t, .finished data) →
      CacheMove c s (setReq c none t)
  /-- R307 -/
  | abandon {t} : abandon c s = .ok t → CacheMove c s t
  /-- R312 -/
  | snoop {key t} : key.target = c → runCommand key s = .ok t → CacheMove c s t

theorem CacheMove.writes {c : CoreId} {s t : State} (h : CacheMove c s t) : CacheWrites c s t := by
  cases h with
  | submit => exact .single (.req _)
  | poll hpoll => exact poll_writes hpoll
  | finish hpoll => exact (poll_writes hpoll).tail (.req none)
  | abandon habandon => exact abandon_writes habandon
  | snoop hkey hcommand => exact hkey ▸ runCommand_writes hcommand

theorem CacheMove.frame {c : CoreId} {s t : State} (h : CacheMove c s t) : CacheFrame c s t :=
  h.writes.frame

/-- One move of core c's cycle. -/
inductive Move (c : CoreId) (s : State) : State → Prop
  | work {p} : WorkMove s.cfg (s.core c, s.raised) p → Move c s (s.withWork c p)
  | cache {t} : CacheMove c s t → Move c s t
  | stop (st : Status) : Move c s { s with status := st }
  | unfocus : Move c s { s with focus := none }

/-- A chain of moves of core c's cycle. -/
abbrev Moves (c : CoreId) : State → State → Prop := ReflTransGen (Move c)

theorem Move.length {c : CoreId} {s t : State} (h : Move c s t) :
    t.cores.length = s.cores.length := by
  cases h with
  | work => exact cores_length_setCore s c _
  | cache hcache => exact hcache.frame.length
  | stop | unfocus => rfl

theorem Moves.length {c : CoreId} {s t : State} (h : Moves c s t) :
    t.cores.length = s.cores.length := by
  induction h with
  | refl => rfl
  | tail _ hmove ih => exact hmove.length.trans ih

/-- A chain of moves of a core's work is one of the machine. -/
theorem Moves.of_work {c : CoreId} {s : State} {p : Core × List Flush} (hc : c < s.cores.length)
    (h : WorkMoves s.cfg (s.core c, s.raised) p) : Moves c s (s.withWork c p) := by
  induction h with
  | refl => rw [withWork_core]
  | @tail p q _ hmove ih =>
    have hcore : (s.withWork c p).core c = p.1 := core_withWork_self hc p
    have hwork : Move c (s.withWork c p) ((s.withWork c p).withWork c q) := .work (by
      rw [hcore]
      exact hmove)
    rw [withWork_withWork] at hwork
    exact ih.tail hwork

theorem Moves.of_setCore {c : CoreId} {s : State} {k : Core} (hc : c < s.cores.length)
    (h : WorkMoves s.cfg (s.core c, s.raised) (k, s.raised)) : Moves c s (s.setCore c k) :=
  .of_work hc h

/-- What core c's write-back may rely on: only its own cycle writes these. -/
theorem CacheFrame.own_rob {c : CoreId} {s t : State} (h : CacheFrame c s t) :
    (t.core c).rob = (s.core c).rob ∧ (t.core c).eu = (s.core c).eu ∧
      (t.core c).sprog = (s.core c).sprog := by
  obtain ⟨l1d, req, hown⟩ := h.own
  rw [hown]
  exact ⟨rfl, rfl, rfl⟩

/-! ### Before the execute units (R341) -/

theorem runCommands_moves {c : CoreId} {keys : List CmdKey} {s t : State}
    (hkeys : ∀ key ∈ keys, key.target = c) (h : runCommands c keys s = .ok t) :
    Moves c s t ∧ t.raised = s.raised := by
  induction keys generalizing s with
  | nil =>
    obtain rfl := Except.ok.inj h
    exact ⟨.refl, rfl⟩
  | cons key rest ih =>
    have hrest := fun k hk => hkeys k (List.mem_cons_of_mem key hk)
    unfold runCommands at h
    split at h
    · exact ih hrest h
    · obtain ⟨s1, hcommand, h⟩ := bind_ok.mp h
      have hmove : CacheMove c s s1 := .snoop (hkeys key List.mem_cons_self) hcommand
      obtain ⟨hmoves, hraised⟩ := ih hrest h
      exact ⟨.head (.cache hmove) hmoves, hraised.trans hmove.frame.raised⟩

theorem snoopStep_moves {c : CoreId} {s t : State} (h : snoopStep c s = .ok t) :
    Moves c s t ∧ t.raised = s.raised := by
  refine runCommands_moves (fun key hkey => ?_) h
  obtain ⟨e, he, rfl⟩ := List.mem_map.mp hkey
  have hpending := (List.mem_filter.mp he).2
  simp only [Bool.and_eq_true, decide_eq_true_eq] at hpending
  exact hpending.1

theorem beforeExecute_moves {c : CoreId} {s t : State} (hc : c < s.cores.length)
    (h : beforeExecute c s = .ok t) : Moves c s t := by
  obtain ⟨k, hfront, hsnoop⟩ := beforeExecute_ok h
  exact (Moves.of_setCore hc (frontEnd_moves hfront)).trans (snoopStep_moves hsnoop).1

/-! ### The execute units (R221) -/

/-- An instruction lifted from where it waits asks for the first of its lines. -/
theorem reading_moves {c : CoreId} {i : Nat} {w : Work} {s : State} {k : Core} {l : LineAddr}
    {rest : List LineAddr} {got : ByteMap} (hc : c < s.cores.length)
    (hlift : Lifted i w.run.seq (s.core c) k) (hreq : k.req = none)
    (hlines : AsksForLines s.cfg (s.core c) → ∀ j ∈ l :: rest, lineOf s.cfg.lineSize j = j)
    (hl : AsksForLines s.cfg { k with eu := k.eu.set i (.memRd w (l :: rest) got) } →
      lineOf s.cfg.lineSize l = l) :
    Moves c s (s.setCore c { k with
      req := some ⟨.read, l, .eu i, w.run.seq, [], none, .locking⟩
      eu := k.eu.set i (.memRd w (l :: rest) got) }) := by
  have hread := Moves.of_setCore hc (.single (.read (got := got) hlift hlines))
  have hself := core_setCore_self s c { k with eu := k.eu.set i (.memRd w (l :: rest) got) } hc
  have hsubmit : CacheMove c (s.setCore c { k with eu := k.eu.set i (.memRd w (l :: rest) got) }) _ :=
    .submit (r := ⟨.read, l, .eu i, w.run.seq, [], none, .locking⟩) (by rw [hself]; exact hreq)
      rfl rfl (by rw [hself]; exact hl)
  rw [setReq_eq, hself, setCore_setCore] at hsubmit
  exact hread.tail (.cache hsubmit)

/-- An instruction lifted from where it waits runs on its unit. -/
theorem runFocused_moves {c : CoreId} {i : Nat} {w : Work} {got : Option ByteMap} {s t : State}
    {k : Core} (hc : c < s.cores.length) (hlift : Lifted i w.run.seq (s.core c) k)
    (h : runFocused c i w got (s.setCore c k) = .ok t) : Moves c s t := by
  obtain ⟨f, k', fl, hf, hran, rfl⟩ := exec_ran (ofOutcome_ok.mp h)
  obtain rfl := Option.some.inj hf
  have hcore : ({ s.setCore c k with focus := some ⟨c, i, w, got⟩ } : State).core c = k :=
    core_setCore_self s c k hc
  dsimp only at hran
  rw [hcore] at hran
  cases hran with
  | pushed out hfl hsame =>
    have hwork : WorkMoves s.cfg (s.core c, s.raised) (k', s.raised ++ fl.toList) :=
      .head (.run out fl.toList hlift fun f hf => hfl f (Option.mem_toList.mp hf))
        (.single (.same hsame))
    have hmoves := (Moves.of_work hc hwork).tail .unfocus
    simpa [State.withWork, State.setCore] using hmoves
  | reading hreq hlines =>
    have hmoves := (reading_moves (got := []) hc hlift hreq (fun _ => hlines)
      fun _ => hlines _ List.mem_cons_self).tail .unfocus
    simpa [State.setCore] using hmoves

/-- So does an instruction that waits on its unit already. -/
theorem runFocused_here_moves {c : CoreId} {i : Nat} {w : Work} {got : Option ByteMap}
    {s t : State} (hc : c < s.cores.length)
    (hlift : Lifted i w.run.seq (s.core c) (s.core c)) (h : runFocused c i w got s = .ok t) :
    Moves c s t :=
  runFocused_moves hc hlift (by rwa [setCore_core])

theorem unitTake_moves {c : CoreId} {i : Nat} {s t : State} (hc : c < s.cores.length)
    (h : unitTake c i s = .ok t) : Moves c s t := by
  unfold unitTake at h
  split at h
  case h_1 hidle =>
    split at h
    · obtain rfl := Except.ok.inj h
      exact .refl
    obtain ⟨⟨it, ie⟩, hget, h⟩ := bind_ok.mp h
    obtain ⟨hvisible, hie⟩ := Bus.get_ok.mp hget
    rw [hie] at h
    have hlift : Lifted i it.run.seq (s.core c) _ := .fromIssue hidle hvisible rfl
    dsimp only at h
    split at h
    · obtain rfl := Except.ok.inj h
      rw [setEu_eq, core_setCore_self s c _ hc, setCore_setCore]
      exact Moves.of_setCore hc (.single (.wait (w := ⟨it.run, it.fwd, none⟩) hlift))
    · exact runFocused_moves (w := ⟨it.run, it.fwd, none⟩) hc hlift h
  all_goals
    obtain rfl := Except.ok.inj h
    exact .refl

theorem unitForward_moves {c : CoreId} {i : Nat} {s t : State} (hc : c < s.cores.length)
    (h : unitForward c i s = .ok t) : Moves c s t := by
  unfold unitForward at h
  split at h
  case h_1 w hwait =>
    split at h
    · simp at h
    rename_i l _
    split at h
    · obtain rfl := Except.ok.inj h
      exact .refl
    · rename_i v _
      dsimp only at h
      have hlinks := Moves.of_setCore hc (.single (.same (k' := { s.core c with
        links := (s.core c).links.filter (fun j => decide (j.cons ≠ w.run.seq)) }) {}))
      refine hlinks.trans (runFocused_here_moves (by rwa [cores_length_setCore]) ?_ h)
      rw [core_setCore_self s c _ hc]
      exact .fromWait hwait rfl
  all_goals
    obtain rfl := Except.ok.inj h
    exact .refl

theorem unitMemory_moves {c : CoreId} {i : Nat} {s t : State} (hc : c < s.cores.length)
    (h : unitMemory c i s = .ok t) : Moves c s t := by
  cases he : s.euState c i with
  | memRd w todo got =>
    obtain ⟨s1, ph, hpoll, ⟨hwait, rfl⟩ | ⟨data, rfl, hnext⟩⟩ := unitMemory_ok he h
    · exact .single (.cache (.poll hpoll hwait))
    · have hfinish : CacheMove c s (setReq c none s1) := .finish hpoll
      have hc2 : c < (setReq c none s1).cores.length := by rwa [hfinish.frame.length]
      have hunit : ((setReq c none s1).core c).unit i = .memRd w todo got := by
        unfold Core.unit
        rw [hfinish.frame.own_rob.2.1]
        exact he
      refine .head (.cache hfinish) ?_
      generalize setReq c none s1 = s2 at *
      rcases hnext with ⟨-, hrun⟩ | ⟨l, rest, k, ph2, htail, hsubmit, hpoll2⟩
      · exact runFocused_here_moves hc2 (.fromMemory hunit rfl) hrun
      · obtain ⟨hreq, rfl⟩ := submit_ok.mp hsubmit
        have hmem := Core.unit_mem hunit (by simp)
        have hlines : AsksForLines s2.cfg (s2.core c) →
            ∀ j ∈ l :: rest, lineOf s2.cfg.lineSize j = j := fun hasks j hj =>
          hasks.2.1 w todo got hmem j (List.mem_of_mem_tail (htail ▸ hj))
        have hi : i < (s2.core c).eu.length := by
          by_contra hi
          simp [Core.unit, List.getElem?_eq_none (not_lt.mp hi)] at hunit
        have hread := reading_moves (l := l) (rest := rest) (got := addBytes got data) hc2
          (.fromMemory hunit rfl) hreq hlines
          fun hasks => hasks.2.1 w (l :: rest) _ (List.mem_set hi _) l List.mem_cons_self
        rw [setEu_eq, core_setCore_self s2 c _ hc2, setCore_setCore] at hpoll2
        refine hread.tail (.cache (.poll hpoll2 fun data hfinished => ?_))
        subst hfinished
        exact poll_locking_not_finished (by rw [core_setCore_self s2 c _ hc2]) rfl hpoll2
  | idle | waitFwd | push =>
    simp only [unitMemory, he] at h
    obtain rfl := Except.ok.inj h
    exact .refl

theorem unitPush_moves {c : CoreId} {i : Nat} {s t : State} (hc : c < s.cores.length)
    (h : unitPush c i s = .ok t) : Moves c s t := by
  cases he : s.euState c i with
  | push w v =>
    rcases unitPush_ok he h with ⟨ew, hadd, rfl⟩ | ⟨-, rfl⟩
    · obtain ⟨-, rfl⟩ := Bus.add_ok.mp hadd
      rw [setEu_eq, core_setCore_self s c _ hc, setCore_setCore]
      exact Moves.of_setCore hc (.single (.leave he))
    · exact .refl
  | idle | waitFwd | memRd =>
    simp only [unitPush, he] at h
    obtain rfl := Except.ok.inj h
    exact .refl

theorem unitsStep_moves {c : CoreId} {units : List Nat} {s t : State} (hc : c < s.cores.length)
    (h : unitsStep c units s = .ok t) : Moves c s t := by
  induction units generalizing s with
  | nil =>
    obtain rfl := Except.ok.inj h
    exact .refl
  | cons i rest ih =>
    obtain ⟨s4, hunit, hrest⟩ := bind_ok.mp h
    obtain ⟨s1, htake, hunit⟩ := bind_ok.mp hunit
    obtain ⟨s2, hforward, hunit⟩ := bind_ok.mp hunit
    obtain ⟨s3, hmemory, hpush⟩ := bind_ok.mp hunit
    have h1 := unitTake_moves hc htake
    have h2 := h1.trans (unitForward_moves (Moves.length h1 ▸ hc) hforward)
    have h3 := h2.trans (unitMemory_moves (Moves.length h2 ▸ hc) hmemory)
    have h4 := h3.trans (unitPush_moves (Moves.length h3 ▸ hc) hpush)
    exact h4.trans (ih (Moves.length h4 ▸ hc) hrest)

/-! ### The flush (R346) -/

/-- Giving a request up reads and writes nothing of its core but the request. -/
theorem abandon_setCore {c : CoreId} {s t : State} {k : Core} {fs : List Flush}
    (hc : c < s.cores.length) (hreq : k.req = (s.core c).req)
    (h : abandon c (s.withWork c (k, fs)) = .ok t) :
    ∃ s1, abandon c s = .ok s1 ∧ s1.core c = { s.core c with req := none } ∧
      t = s1.withWork c ({ k with req := none }, fs) := by
  have hself : (s.withWork c (k, fs)).core c = k := core_withWork_self hc _
  have hwrite : ∀ r v, setReq c none ((s.withWork c (k, fs)).semSet r v)
      = (setReq c none (s.semSet r v)).withWork c ({ k with req := none }, fs) := by
    intro r v
    rw [setReq_eq, core_semSet, hself]
    simp [State.withWork, State.setCore, setReq, State.semSet]
  rcases abandon_ok h with ⟨r, hr, m, v, hm, hv, rfl⟩ | ⟨r, hr, hm, rfl⟩ | ⟨hr, rfl⟩
  all_goals rw [hself, hreq] at hr
  · refine ⟨_, ?_, core_setCore_self (s.semSet r.line v) c _ hc, hwrite r.line v⟩
    have hrelease : releaseLock r.line m s = .ok (s.semSet r.line v) :=
      releaseLock_ok.mpr ⟨v, hv, rfl⟩
    simp only [abandon, hr, hm, hrelease]
    rfl
  · refine ⟨setReq c none s, by simp only [abandon, hr, hm],
      core_setCore_self s c _ hc, ?_⟩
    rw [setReq_eq, hself]
    simp [State.withWork, State.setCore, setReq]
  · have hnone : ∀ k : Core, k.req = none → k = { k with req := none } := fun k hk => by rw [← hk]
    exact ⟨s, by simp only [abandon, hr], hnone _ hr, by rw [← hnone k (hreq.trans hr)]⟩

/-- What a flush leaves of a core whose request was given up, or kept, beforehand. -/
theorem flushedWork_same {b : Seq} {t : Option Word} (k : Core)
    (req : Option ReqState) {k1 k' : Core}
    (hk1 : k1 = { flushFront b t k with req := req })
    (hback : flushBack b t { k1 with
      eu := k1.eu.map (fun e => if EuState.younger b e then .idle else e) } = .ok k') :
    ∃ pw, discardEntries (k.rob.filter (fun e => decide (b < e.seq))) k.pw = .ok pw ∧
      SameWork (flushedWork b pw { k with req := req }) k' := by
  subst hk1
  obtain ⟨pw, hpw, rfl⟩ := flushBack_ok hback
  cases t with
  | none => exact ⟨pw, hpw, { expect := keysRise_filter _ }⟩
  | some t => exact ⟨pw, hpw, { expect := keysRise_filter _ }⟩

theorem applyFlush_moves {c : CoreId} {b : Seq} {t : Option Word} {s u : State}
    (hc : c < s.cores.length) (hflush : (s.core c).sprog = none ∨ ∃ f ∈ s.raised, f.seq = b)
    (h : applyFlush c b t { s with raised := [] } = .ok u) : Moves c s u ∧ u.raised = [] := by
  obtain ⟨s3, k, heu, hback, rfl⟩ := applyFlush_ok h
  obtain ⟨s2, habandon, rfl⟩ := euFlush_ok heu
  have hfront : ∃ s1 req, Moves c s s1 ∧ s1.cfg = s.cfg ∧ s1.raised = s.raised ∧
      c < s1.cores.length ∧ s1.core c = { s.core c with req := req } ∧
      s2 = s1.withWork c ({ flushFront b t (s.core c) with req := req }, []) := by
    have hreq : (flushFront b t (s.core c)).req = (s.core c).req := by cases t <;> rfl
    rcases habandon with ⟨-, habandon⟩ | ⟨-, rfl⟩
    · obtain ⟨s1, hs1, hcore, hs2⟩ := abandon_setCore (fs := []) hc hreq habandon
      have hmove : CacheMove c s s1 := .abandon hs1
      exact ⟨s1, none, .single (.cache hmove), hmove.frame.cfg, hmove.frame.raised,
        hmove.frame.length ▸ hc, hcore, hs2⟩
    · refine ⟨s, (s.core c).req, .refl, rfl, rfl, hc, rfl, ?_⟩
      rw [← hreq]
      rfl
  obtain ⟨s1, req, hmoves, hcfg, hraised, hc1, hcore, rfl⟩ := hfront
  rw [core_withWork_self hc1, core_setCore_self _ c _ (by simpa [State.withWork] using hc1)] at hback
  obtain ⟨pw, hpw, hsame⟩ := flushedWork_same (s.core c) req rfl hback
  have hwork : WorkMoves s1.cfg (s1.core c, s1.raised) (k, []) := by
    rw [hcore, hraised]
    exact .head (.flush hflush hpw) (.single (.same hsame))
  refine ⟨hmoves.trans ?_, rfl⟩
  have hend := Moves.of_work hc1 hwork
  simpa [State.withWork, State.setCore] using hend

theorem oldestFlush_mem {fs : List Flush} {f : Flush} (h : oldestFlush fs = some f) : f ∈ fs := by
  induction fs with
  | nil => cases h
  | cons f' fs ih =>
    unfold oldestFlush at h
    split at h
    · obtain rfl := Option.some.inj h
      exact List.mem_cons_self
    · rename_i f2 hf2
      split at h
      · obtain rfl := Option.some.inj h
        exact List.mem_cons_of_mem f' (ih hf2)
      · obtain rfl := Option.some.inj h
        exact List.mem_cons_self

theorem oldestFlush_none {fs : List Flush} (h : oldestFlush fs = none) : fs = [] := by
  cases fs with
  | nil => rfl
  | cons f fs =>
    unfold oldestFlush at h
    split at h
    · cases h
    · split at h <;> cases h

theorem applyRaised_moves {c : CoreId} {s t : State} (hc : c < s.cores.length)
    (h : applyRaised c s = .ok t) : Moves c s t ∧ t.raised = [] := by
  unfold applyRaised at h
  split at h
  · rename_i hnone
    obtain rfl := Except.ok.inj h
    exact ⟨.refl, oldestFlush_none hnone⟩
  · rename_i f hf
    exact applyFlush_moves hc (.inr ⟨f, oldestFlush_mem hf, rfl⟩) h

/-! ### Write-back (R265 to R273) -/

theorem drainLoop_moves {g : Cfg} {n : Nat} {k t : Core} {fs : List Flush}
    (h : drainLoop n k = .ok t) : WorkMoves g (k, fs) (t, fs) := by
  induction n generalizing k with
  | zero =>
    obtain rfl := Except.ok.inj h
    exact .refl
  | succ n ih =>
    rcases drainLoop_succ_ok h with ⟨-, rfl⟩ | ⟨v, rest, e, hvisible, -, hrest⟩
    · exact .refl
    · exact .head (.drain hvisible) (ih hrest)

/-- What one move of the controller keeps for the write-back of its core. -/
structure StoreFrame (c : CoreId) (s t : State) : Prop where
  moves : Moves c s t
  raised : t.raised = s.raised
  rob : (t.core c).rob = (s.core c).rob

theorem StoreFrame.refl (c : CoreId) (s : State) : StoreFrame c s s := ⟨.refl, rfl, rfl⟩

theorem StoreFrame.trans {c : CoreId} {s t u : State} (h : StoreFrame c s t)
    (h' : StoreFrame c t u) : StoreFrame c s u :=
  ⟨h.moves.trans h'.moves, h'.raised.trans h.raised, h'.rob.trans h.rob⟩

theorem CacheMove.storeFrame {c : CoreId} {s t : State} (h : CacheMove c s t) :
    StoreFrame c s t := ⟨.single (.cache h), h.frame.raised, h.frame.own_rob.1⟩

theorem setSprog_storeFrame {c : CoreId} {s : State} {p : StoreProg} (hc : c < s.cores.length)
    (h : WorkMove s.cfg (s.core c, s.raised) ({ s.core c with sprog := some p }, s.raised)) :
    StoreFrame c s (setSprog c (some p) s) :=
  ⟨Moves.of_setCore hc (.single h), rfl, by rw [setSprog_eq, core_setCore_self s c _ hc]⟩

theorem ensureWrite_storeFrame {c : CoreId} {b : Seq} {l : LineAddr}
    {change : List (Word × Byte)} {s t : State}
    (hl : AsksForLines s.cfg (s.core c) → lineOf s.cfg.lineSize l = l)
    (h : ensureWrite c b l change s = .ok t) :
    StoreFrame c s t ∧ (t.core c).sprog = (s.core c).sprog ∧ t.cores.length = s.cores.length := by
  unfold ensureWrite at h
  split at h
  · obtain rfl := Except.ok.inj h
    exact ⟨.refl c s, rfl, rfl⟩
  · obtain ⟨k, hsubmit, h⟩ := bind_ok.mp h
    obtain ⟨hreq, rfl⟩ := submit_ok.mp hsubmit
    obtain rfl := Except.ok.inj h
    have hmove : CacheMove c s _ :=
      .submit (r := ⟨.write, l, .wb, b, lineBytes s.cfg l change, none, .locking⟩) hreq rfl rfl hl
    exact ⟨hmove.storeFrame, hmove.frame.own_rob.2.2, hmove.frame.length⟩

/-- Writing the lines of the store under way. -/
theorem storeLines_frame {c : CoreId} {b : Seq} {change : List (Word × Byte)}
    {todo : List LineAddr} {n : Nat} {s t : State} {all : Bool} (hc : c < s.cores.length)
    (hp : (s.core c).sprog = some ⟨b, todo, n⟩)
    (h : storeLines c b change todo s = .ok (t, all)) : StoreFrame c s t := by
  induction todo generalizing s n with
  | nil =>
    obtain ⟨rfl, -⟩ := Prod.mk.inj (Except.ok.inj h)
    exact .refl c s
  | cons l rest ih =>
    obtain ⟨s1, s2, ph, hensure, hpoll, hph⟩ := storeLines_cons_ok h
    obtain ⟨hfirst, hsprog, hlength⟩ := ensureWrite_storeFrame
      (fun hasks => hasks.2.2 _ hp l List.mem_cons_self) hensure
    refine hfirst.trans ?_
    rcases hph with ⟨data, rfl, hrest⟩ | ⟨hwait, rfl, -⟩
    · have hfinish : CacheMove c s1 (setReq c none s2) := .finish hpoll
      have hc3 : c < (setReq c none s2).cores.length := by rwa [hfinish.frame.length, hlength]
      have hp3 : ((setReq c none s2).core c).sprog = some ⟨b, l :: rest, n⟩ := by
        rw [hfinish.frame.own_rob.2.2, hsprog, hp]
      refine hfinish.storeFrame.trans ?_
      generalize setReq c none s2 = s3 at *
      refine (setSprog_storeFrame hc3 (.advance hp3 fun j => List.mem_cons_of_mem l)).trans
        (ih (n := 0) ?_ ?_ hrest)
      · simpa using hc3
      · rw [setSprog_eq, core_setCore_self s3 c _ hc3]
    · exact (CacheMove.poll hpoll hwait).storeFrame

theorem finish_moves {c : CoreId} {e : RobEntry} {o : ExecutionResult} {s t : State}
    (hc : c < s.cores.length) (hraised : s.raised = []) (he : e ∈ (s.core c).rob)
    (hstatus : e.status = .completed (.ok o)) (h : finish c e o s = .ok t) :
    Moves c s t ∧ t.raised = [] := by
  obtain ⟨k, hretire, hend⟩ := finish_ok h
  have hk : k.sprog = none := by
    obtain ⟨pw, -, rfl⟩ := retire_ok hretire
    rfl
  have hmove : WorkMove s.cfg (s.core c, s.raised) (k, s.raised) := by
    rw [hraised]
    exact .retire he hstatus hretire
  rcases hend with ⟨-, hflush⟩ | ⟨-, rfl⟩
  · have hdone : WorkMoves s.cfg (s.core c, s.raised) ({ k with done := true }, s.raised) :=
      .head hmove (.single (.same {}))
    have hclear : ({ s.setCore c { k with done := true } with raised := [] } : State)
        = s.setCore c { k with done := true } := by
      rw [← hraised]
      rfl
    rw [← hclear] at hflush
    obtain ⟨hmoves, ht⟩ := applyFlush_moves (by rwa [cores_length_setCore])
      (.inl (by rwa [core_setCore_self s c _ hc])) hflush
    exact ⟨(Moves.of_setCore hc hdone).trans hmoves, ht⟩
  · exact ⟨Moves.of_setCore hc (.single hmove), hraised⟩

theorem entryResult_some {st : RobStatus} {o : ExecutionResult} (h : entryResult st = some o) :
    st = .completed (.ok o) := by
  unfold entryResult at h
  split at h <;> simp_all

theorem oldestEntry_mem {rob : List RobEntry} {e : RobEntry} (h : oldestEntry rob = some e) :
    e ∈ rob := by
  induction rob with
  | nil => cases h
  | cons e' rob ih =>
    unfold oldestEntry at h
    split at h
    · obtain rfl := Option.some.inj h
      exact List.mem_cons_self
    · rename_i f hf
      split at h
      · obtain rfl := Option.some.inj h
        exact List.mem_cons_of_mem e' (ih hf)
      · obtain rfl := Option.some.inj h
        exact List.mem_cons_self

theorem commitHead_some {k : Core} {e : RobEntry} :
    commitHead k = some e ↔ oldestEntry k.rob = some e ∧ unissuedOlder k e.seq = false := by
  unfold commitHead
  split
  · rename_i hnone
    simp [hnone]
  · rename_i f hf
    rw [hf]
    split
    · rename_i holder
      constructor
      · intro h
        cases h
      · rintro ⟨h, hyounger⟩
        obtain rfl := Option.some.inj h
        rw [holder] at hyounger
        cases hyounger
    · rename_i hyounger
      constructor
      · intro h
        obtain rfl := Option.some.inj h
        exact ⟨rfl, by simpa using hyounger⟩
      · exact fun h => h.1

theorem commitHead_mem {k : Core} {e : RobEntry} (h : commitHead k = some e) : e ∈ k.rob :=
  oldestEntry_mem (commitHead_some.mp h).1

/-- A store whose lines are written retires, and waits while they are not. -/
theorem storeEnd_moves {c : CoreId} {e : RobEntry} {o : ExecutionResult} {s s1 t : State}
    {all more : Bool} (hc : c < s.cores.length) (hraised : s.raised = [])
    (he : e ∈ (s.core c).rob) (hstatus : e.status = .completed (.ok o))
    (hstore : StoreFrame c s s1)
    (h : (all = true ∧ more = true ∧ finish c e o s1 = .ok t) ∨
      (all = false ∧ more = false ∧ t = s1)) : Moves c s t ∧ t.raised = [] := by
  rcases h with ⟨-, -, hfinish⟩ | ⟨-, -, rfl⟩
  · obtain ⟨hmoves, ht⟩ := finish_moves (Moves.length hstore.moves ▸ hc)
      (hstore.raised.trans hraised) (hstore.rob ▸ he) hstatus hfinish
    exact ⟨hstore.moves.trans hmoves, ht⟩
  · exact ⟨hstore.moves, hstore.raised.trans hraised⟩

theorem commitOne_moves {c : CoreId} {s t : State} {more : Bool} (hc : c < s.cores.length)
    (hraised : s.raised = []) (h : commitOne c s = .ok (t, more)) :
    Moves c s t ∧ t.raised = [] := by
  rcases commitOne_ok h with ⟨p, e, o, s1, all, hp, he, ho, hlines, hend⟩ | ⟨-, -, rfl, -⟩ |
    ⟨e, -, he, ⟨-, rfl, -⟩ | ⟨err, -, rfl, -⟩ | ⟨o, hstatus, hcommit⟩⟩
  · exact storeEnd_moves hc hraised (List.mem_of_find?_eq_some he) (entryResult_some ho)
      (storeLines_frame hc hp hlines) hend
  · exact ⟨.refl, hraised⟩
  · exact ⟨.refl, hraised⟩
  · exact ⟨.single (.stop _), hraised⟩
  · rcases commitOk_ok hcommit with ⟨-, -, hfinish⟩ | ⟨s1, all, -, hlines, hend⟩
    · exact finish_moves hc hraised (commitHead_mem he) hstatus hfinish
    · have hbegin := setSprog_storeFrame hc (.begin (fs := s.raised) he hstatus
        (linesOf_aligned (g := s.cfg) (addrs := o.memChange.map (fun p => p.1.toNat))))
      refine storeEnd_moves hc hraised (commitHead_mem he) hstatus
        (hbegin.trans (storeLines_frame (n := 0) (by simpa using hc) ?_ hlines)) hend
      rw [setSprog_eq, core_setCore_self s c _ hc]

theorem commitLoop_moves {c : CoreId} {n : Nat} {s t : State} (hc : c < s.cores.length)
    (hraised : s.raised = []) (h : commitLoop c n s = .ok t) : Moves c s t ∧ t.raised = [] := by
  induction n generalizing s with
  | zero =>
    obtain rfl := Except.ok.inj h
    exact ⟨.refl, hraised⟩
  | succ n ih =>
    rcases commitLoop_succ_ok h with ⟨-, rfl⟩ | ⟨s1, more, hone, hmore⟩
    · exact ⟨.refl, hraised⟩
    obtain ⟨hmoves, hraised1⟩ := commitOne_moves hc hraised hone
    rcases hmore with ⟨-, hrest⟩ | ⟨-, rfl⟩
    · obtain ⟨hrest, ht⟩ := ih (Moves.length hmoves ▸ hc) hraised1 hrest
      exact ⟨hmoves.trans hrest, ht⟩
    · exact ⟨hmoves, hraised1⟩

theorem wbStep_moves {c : CoreId} {s t : State} (hc : c < s.cores.length)
    (hraised : s.raised = []) (h : wbStep c s = .ok t) : Moves c s t ∧ t.raised = [] := by
  obtain ⟨k, hdrain, hcommit⟩ := wbStep_ok h
  obtain ⟨hmoves, ht⟩ := commitLoop_moves (s := s.setCore c k) (by rwa [cores_length_setCore])
    hraised hcommit
  exact ⟨(Moves.of_setCore hc (drainLoop_moves hdrain)).trans hmoves, ht⟩

theorem settle_moves {c : CoreId} {s : State} (hc : c < s.cores.length) :
    Moves c s (settle c s) ∧ (settle c s).raised = s.raised := by
  unfold settle
  split
  · exact ⟨Moves.of_setCore hc (.single (.same {})), rfl⟩
  · exact ⟨.refl, rfl⟩

/-- A core's cycle is a chain of moves, and leaves no flush unapplied where none was. -/
theorem coreCycle_moves {c : CoreId} {s t : State} (hc : c < s.cores.length)
    (h : coreCycle c s = .ok t) : Moves c s t ∧ (s.raised = [] → t.raised = []) := by
  rcases coreCycle_ok h with ⟨-, hsnoop⟩ | ⟨-, s1, s2, hbefore, hunits, hafter⟩
  · obtain ⟨hmoves, hraised⟩ := snoopStep_moves hsnoop
    exact ⟨hmoves, hraised.trans⟩
  · obtain ⟨s3, s4, hflush, hwb, rfl⟩ := afterExecute_ok hafter
    have h1 := beforeExecute_moves hc hbefore
    have h2 := h1.trans (unitsStep_moves (Moves.length h1 ▸ hc) hunits)
    obtain ⟨h3, hraised⟩ := applyRaised_moves (Moves.length h2 ▸ hc) hflush
    have h3 := h2.trans h3
    obtain ⟨h4, hraised⟩ := wbStep_moves (Moves.length h3 ▸ hc) hraised hwb
    have h4 := h3.trans h4
    obtain ⟨h5, hsettle⟩ := settle_moves (Moves.length h4 ▸ hc)
    exact ⟨h4.trans h5, fun _ => hsettle.trans hraised⟩

/-! ### The cores in order (R340) -/

/-- What every core's cycle keeps, the cores in order keep. -/
theorem runCores_keep {P : State → Prop} {cs : List CoreId} {s t : State}
    (hcycle : ∀ c s t, c < s.cores.length → coreCycle c s = .ok t → P s → P t)
    (hcs : ∀ c ∈ cs, c < s.cores.length) (h : runCores cs s = .ok t) (hs : P s) : P t := by
  induction cs generalizing s with
  | nil =>
    obtain rfl := Except.ok.inj h
    exact hs
  | cons c rest ih =>
    obtain ⟨s1, hfirst, hrest⟩ := runCores_cons_ok h
    have hc := hcs c List.mem_cons_self
    have hs1 := hcycle c s s1 hc hfirst hs
    rcases hrest with ⟨-, hrest⟩ | ⟨-, rfl⟩
    · refine ih (fun d hd => ?_) hrest hs1
      rw [Moves.length (coreCycle_moves hc hfirst).1]
      exact hcs d (List.mem_cons_of_mem c hd)
    · exact hs1

/-- What every move keeps, a chain of moves keeps. -/
theorem Moves.keep {P : State → Prop} {c : CoreId} {s t : State}
    (hmove : ∀ s t, c < s.cores.length → Move c s t → P s → P t) (hc : c < s.cores.length)
    (h : Moves c s t) (hs : P s) : P t := by
  induction h with
  | refl => exact hs
  | tail hmoves hlast ih => exact hmove _ _ (Moves.length hmoves ▸ hc) hlast ih

end Sys2Proof.Machine
end

section
/-! SUPPORT. What every move keeps, and with it every step: the parameters of the run, the cycle count
until the end of the step, and the canonical forms. Settles O49, O50 and O58. -/

namespace Sys2Proof.Machine

/-! ### Steps -/

/-- Nothing is refused of a run in whose order each core exists. -/
theorem range_cores {s : State} (h : loadRefusal s = none) :
    ∀ c ∈ List.range s.cfg.numCores, c < s.cores.length := by
  obtain ⟨-, hshape⟩ := loadRefusal_none h
  intro c hc
  rw [(shaped_lengths hshape).1]
  exact List.mem_range.mp hc

/-- What every core's cycle keeps, a step keeps, where the cycle count and the status have no part in
it. -/
theorem step_keep {P : State → Prop}
    (hend : ∀ s n st, P s → P { s with cycle := n, status := st })
    (hcycle : ∀ c s t, c < s.cores.length → coreCycle c s = .ok t → P s → P t) {s t : State}
    (h : step s = .next t) (hs : P s) : P t := by
  rcases step_next h with ⟨-, rfl⟩ | ⟨-, -, f, rfl⟩ | ⟨-, hload, u, hrun, -, rfl⟩
  · exact hs
  · exact hend s s.cycle _ hs
  · exact hend u _ _ (runCores_keep hcycle (range_cores hload) hrun hs)

/-- What every move keeps of the cores, one at a time, a core's cycle keeps: a move writes its own core
alone, and the cache controller only that core's L1D and request. -/
theorem Move.keep_cores {P : Cfg → Core → Prop}
    (hcache : ∀ g k l1d req, P g k → P g { k with l1d := l1d, req := req })
    (hwork : ∀ g k fs k' fs', WorkMove g (k, fs) (k', fs') → P g k → P g k')
    {c : CoreId} {s t : State} (hc : c < s.cores.length) (h : Move c s t)
    (hs : ∀ k ∈ s.cores, P s.cfg k) : ∀ k ∈ t.cores, P t.cfg k := by
  cases h with
  | @work p hmove =>
    intro k hk
    rcases List.mem_or_eq_of_mem_set hk with hk | rfl
    · exact hs k hk
    · exact hwork _ _ _ _ _ hmove (hs _ (core_mem hc))
  | cache hmove =>
    have hframe := hmove.frame
    intro k hk
    obtain ⟨d, hd, rfl⟩ := mem_cores_iff.mp hk
    rw [hframe.cfg]
    rw [hframe.length] at hd
    by_cases hdc : d = c
    · obtain ⟨l1d, req, hown⟩ := hframe.own
      rw [hdc, hown]
      exact hcache _ _ _ _ (hs _ (core_mem hc))
    · rw [hframe.others d hdc]
      exact hs _ (core_mem hd)
  | stop | unfocus => exact hs

/-! ### The parameters and the cycle count (R32, R52) -/

/-- Two states of the same run at the same count. -/
structure SameRun (s t : State) : Prop where
  cfg : t.cfg = s.cfg
  inputs : t.inputs = s.inputs
  cycle : t.cycle = s.cycle

theorem Move.sameRun {c : CoreId} {s t : State} (h : Move c s t) : SameRun s t := by
  cases h with
  | cache hmove => exact ⟨hmove.frame.cfg, hmove.frame.inputs, hmove.frame.cycle⟩
  | work | stop | unfocus => exact ⟨rfl, rfl, rfl⟩

theorem SameRun.trans {s t u : State} (h : SameRun s t) (h' : SameRun t u) : SameRun s u :=
  ⟨h'.cfg.trans h.cfg, h'.inputs.trans h.inputs, h'.cycle.trans h.cycle⟩

theorem coreCycle_sameRun {c : CoreId} {s t : State} (hc : c < s.cores.length)
    (h : coreCycle c s = .ok t) : SameRun s t :=
  Moves.keep (P := SameRun s) (fun _ _ _ hmove hs => hs.trans hmove.sameRun) hc
    (coreCycle_moves hc h).1 ⟨rfl, rfl, rfl⟩

/-- Settles O49: no move of any core writes them. -/
theorem stepNeverChangesTheProgram : Obligations.StepNeverChangesTheProgram := by
  intro s t h
  refine step_keep (P := fun u => u.cfg = s.cfg ∧ u.inputs = s.inputs) (fun _ _ _ => id)
    (fun c u v hc hcycle hu => ?_) h ⟨rfl, rfl⟩
  have hrun := coreCycle_sameRun hc hcycle
  exact ⟨hrun.cfg.trans hu.1, hrun.inputs.trans hu.2⟩

theorem runCores_sameRun {cs : List CoreId} {s t : State} (hcs : ∀ c ∈ cs, c < s.cores.length)
    (h : runCores cs s = .ok t) : SameRun s t :=
  runCores_keep (P := SameRun s) (fun _ _ _ hc hcycle hs => hs.trans (coreCycle_sameRun hc hcycle))
    hcs h ⟨rfl, rfl, rfl⟩

/-- Settles O50: the cycle count is written at the end of a step alone. -/
theorem stepCountsOneCycleOrFaults : Obligations.StepCountsOneCycleOrFaults := by
  refine ⟨fun s hs => by simp [step, globalStep, hs], fun s t hs h => ?_⟩
  rcases step_next h with ⟨hstop, -⟩ | ⟨-, -, f, rfl⟩ | ⟨-, hload, u, hrun, -, rfl⟩
  · exact absurd hs hstop
  · exact .inr ⟨f, rfl⟩
  · exact .inl (congrArg (· + 1) (runCores_sameRun (range_cores hload) hrun).cycle)

/-! ### Canonical forms (R30) -/

theorem pwRaise_canonical {pw : List (RegId × Nat)} (w : List RegId) (h : canonical 0 pw = true) :
    canonical 0 (pwRaise pw w) = true :=
  List.foldlRecOn (motive := fun pw => canonical 0 pw = true) w _ h
    fun _ hpw q _ => canonical_mapSet q _ hpw

theorem pwLower_canonical {pw pw' : List (RegId × Nat)} {w : List RegId}
    (hlower : pwLower pw w = .ok pw') (h : canonical 0 pw = true) : canonical 0 pw' = true := by
  induction w generalizing pw with
  | nil =>
    obtain rfl := Except.ok.inj hlower
    exact h
  | cons q w ih => exact ih (pwLower_cons_ok.mp hlower).2 (canonical_mapSet q _ h)

theorem discardEntries_cons_ok {e : RobEntry} {rest : List RobEntry} {pw pw' : List (RegId × Nat)}
    (h : discardEntries (e :: rest) pw = .ok pw') :
    ∃ pw1, pwLower pw e.desc.instr.writes = .ok pw1 ∧ discardEntries rest pw1 = .ok pw' :=
  bind_ok.mp h

theorem discardEntries_canonical {gone : List RobEntry} {pw pw' : List (RegId × Nat)}
    (hdiscard : discardEntries gone pw = .ok pw') (h : canonical 0 pw = true) :
    canonical 0 pw' = true := by
  induction gone generalizing pw with
  | nil =>
    obtain rfl := Except.ok.inj hdiscard
    exact h
  | cons e rest ih =>
    obtain ⟨pw1, hlower, hrest⟩ := discardEntries_cons_ok hdiscard
    exact ih hrest (pwLower_canonical hlower h)

theorem Lifted.keep {i : Nat} {b : Seq} {k k0 : Core} (h : Lifted i b k k0) :
    ∃ ie, k0 = { k with ie := ie } := by
  cases h with
  | fromIssue => exact ⟨_, rfl⟩
  | fromWait | fromMemory => exact ⟨k.ie, rfl⟩

theorem WorkMove.canonicalCore {g : Cfg} {k k' : Core} {fs fs' : List Flush}
    (h : WorkMove g (k, fs) (k', fs')) (hk : CanonicalCore k) : CanonicalCore k' := by
  obtain ⟨hpw, hexpect⟩ := hk
  cases h with
  | same hsame => exact ⟨hsame.pw ▸ hpw, hsame.expect hexpect⟩
  | issue di q hr hq hroom hslots hissue =>
    obtain ⟨ie, -, rfl⟩ := doIssue_ok hissue
    exact ⟨pwRaise_canonical _ hpw, hexpect⟩
  | wait hlift | read hlift | run out fl hlift =>
    obtain ⟨ie, rfl⟩ := hlift.keep
    exact ⟨hpw, hexpect⟩
  | flush _ hdiscard => exact ⟨discardEntries_canonical hdiscard hpw, hexpect⟩
  | retire _ _ hretire =>
    obtain ⟨pw, hlower, rfl⟩ := retire_ok hretire
    exact ⟨pwLower_canonical hlower hpw, hexpect⟩
  | connect | decode | park | leave | drain | begin | advance => exact ⟨hpw, hexpect⟩

theorem Move.canonicalShared {c : CoreId} {s t : State} (h : Move c s t)
    (hs : CanonicalShared s) : CanonicalShared t := by
  cases h with
  | cache hmove => exact hmove.writes.canonical hs
  | work | stop | unfocus => exact hs

theorem Move.focus_none {c : CoreId} {s t : State} (h : Move c s t) (hs : s.focus = none) :
    t.focus = none := by
  cases h with
  | cache hmove => exact hmove.frame.focus.trans hs
  | work | stop => exact hs
  | unfocus => rfl

theorem coreCycle_canonicalState {c : CoreId} {s t : State} (hc : c < s.cores.length)
    (h : coreCycle c s = .ok t) (hs : CanonicalState s) : CanonicalState t := by
  obtain ⟨hmem, hsem, hdir, hrows, hcores, hfocus, hraised⟩ := hs
  obtain ⟨hmoves, hclear⟩ := coreCycle_moves hc h
  obtain ⟨hmem, hsem, hdir, hrows⟩ : CanonicalShared t :=
    Moves.keep (fun _ _ _ hmove => hmove.canonicalShared) hc hmoves ⟨hmem, hsem, hdir, hrows⟩
  have hcores : ∀ k ∈ t.cores, CanonicalCore k :=
    Moves.keep (P := fun s => ∀ k ∈ s.cores, CanonicalCore k) (fun _ _ hc hmove =>
      hmove.keep_cores (P := fun _ k => CanonicalCore k) (fun _ _ _ _ => id)
        (fun _ _ _ _ _ => WorkMove.canonicalCore) hc) hc hmoves hcores
  have hfocus : t.focus = none := Moves.keep (fun _ _ _ hmove => hmove.focus_none) hc hmoves hfocus
  exact ⟨hmem, hsem, hdir, hrows, hcores, hfocus, hclear hraised⟩

/-- Settles O58: every move keeps the maps canonical, and a core's cycle gives up the focus and applies
or drops its flushes. -/
theorem everyStepKeepsCanonicalForms : Obligations.EveryStepKeepsCanonicalForms := fun _ _ hs h =>
  step_keep (fun _ _ _ => id) (fun _ _ _ => coreCycle_canonicalState) h hs

end Sys2Proof.Machine
end

section
/-! SUPPORT. The accounts of a core's work (R41, R45, R47, R104, R172): every move keeps the sequence
IDs distinct, the buffer ordered, the rename slots and the pending-write counts in balance, and the
capacities. -/

namespace Sys2Proof.Machine

/-! ### Buses -/

/-- Everything on a bus, whichever position it is in. -/
def Bus.held {α : Type} (b : Bus α) : List α := b.entry ++ b.buffer ++ b.visible

/-- A connect moves values between positions (R133). -/
theorem connect_held {α : Type} (cap : Nat) (b : Bus α) : (b.connect cap).held.Perm b.held := by
  classical
  refine List.perm_iff_count.mpr fun a => ?_
  have hsplit : ∀ (n : Nat) (l : List α), (l.take n).count a + (l.drop n).count a = l.count a :=
    fun n l => by rw [← List.count_append, List.take_append_drop]
  simp only [Bus.held, Bus.connect, List.count_append]
  have hbuffer := hsplit (cap - b.visible.length) b.buffer
  generalize cap - (b.visible ++ List.take (cap - b.visible.length) b.buffer).length = n2
  generalize cap - (List.drop (cap - b.visible.length) b.buffer).length = n3
  have hentry := hsplit n2 b.entry
  have hrest := hsplit n3 (b.entry.drop n2)
  omega

theorem unissued_perm (k : Core) : (unissued k).Perm (k.pendingQ ++ k.di.held) := by
  classical
  refine List.perm_iff_count.mpr fun r => ?_
  simp only [unissued, Bus.held, List.count_append]
  omega

/-! ### The retirement buffer -/

theorem robInsert_perm (e : RobEntry) (rob : List RobEntry) : (robInsert e rob).Perm (e :: rob) := by
  induction rob with
  | nil => exact .refl _
  | cons f rest ih =>
    unfold robInsert
    split
    · exact .refl _
    · exact (ih.cons f).trans (.swap e f rest)

theorem robInsert_ascending {e : RobEntry} {rob : List RobEntry} (h : Ascending rob) :
    Ascending (robInsert e rob) := by
  induction rob with
  | nil => exact List.pairwise_singleton _ _
  | cons f rest ih =>
    obtain ⟨hf, hrest⟩ := List.pairwise_cons.mp h
    unfold robInsert
    split
    · rename_i hlt
      refine List.pairwise_cons.mpr ⟨fun x hx => ?_, h⟩
      rcases List.mem_cons.mp hx with rfl | hx
      · exact hlt.le
      · exact hlt.le.trans (hf x hx)
    · rename_i hle
      refine List.pairwise_cons.mpr ⟨fun x hx => ?_, ih hrest⟩
      rcases List.mem_cons.mp ((robInsert_perm e rest).mem_iff.mp hx) with rfl | hx
      · exact not_lt.mp hle
      · exact hf x hx

/-- Without two entries of one ID, removing an ID removes its entry alone. -/
theorem robRemove_perm {rob : List RobEntry} {e : RobEntry}
    (hrob : (rob.map (fun e => e.seq)).Nodup) (he : e ∈ rob) :
    rob.Perm (e :: robRemove rob e.seq) := by
  induction rob with
  | nil => cases he
  | cons f rest ih =>
    obtain ⟨hf, hrest⟩ := List.nodup_cons.mp hrob
    have hdistinct : ∀ x ∈ rest, x.seq ≠ f.seq := fun x hx heq =>
      hf (List.mem_map.mpr ⟨x, hx, heq⟩)
    rcases List.mem_cons.mp he with rfl | he
    · have hkeep : robRemove rest e.seq = rest :=
        List.filter_eq_self.mpr fun x hx => decide_eq_true (hdistinct x hx)
      have hremove : robRemove (e :: rest) e.seq = robRemove rest e.seq := by simp [robRemove]
      rw [hremove, hkeep]
    · have hremove : robRemove (f :: rest) e.seq = f :: robRemove rest e.seq := by
        simp [robRemove, Ne.symm (hdistinct e he)]
      rw [hremove]
      exact ((ih hrest he).cons f).trans (.swap e f _)

theorem heldSlots_cons (e : RobEntry) (rob : List RobEntry) :
    heldSlots (e :: rob) = e.slots + heldSlots rob := rfl

theorem heldSlots_perm {rob rob' : List RobEntry} (h : rob.Perm rob') :
    heldSlots rob = heldSlots rob' := (h.map _).sum_eq

/-- A flush splits the buffer at its boundary (R346). -/
theorem flush_perm (rob : List RobEntry) (b : Seq) :
    (rob.filter (fun e => decide (e.seq ≤ b)) ++ rob.filter (fun e => decide (b < e.seq))).Perm
      rob := by
  have hyounger : (fun e : RobEntry => decide (b < e.seq)) = fun e => !decide (e.seq ≤ b) := by
    funext e
    by_cases he : e.seq ≤ b
    · simp [he]
    · simp [he, Nat.lt_of_not_le he]
  rw [hyounger]
  exact List.filter_append_perm _ rob

/-! ### Sound work -/

/-- Sound work is a matter of the static part of the buffer's entries, of the runners that have not
issued in any order, of the next ID and of the free slots. -/
theorem SoundWork.congr {g : Cfg} {k k' : Core} (hk : SoundWork g k)
    (hrob : k'.rob.map (fun e => (e.seq, e.pc, e.desc, e.slots))
      = k.rob.map (fun e => (e.seq, e.pc, e.desc, e.slots)))
    (hunissued : (unissued k').Perm (unissued k)) (hnext : k'.nextSeq = k.nextSeq)
    (hfree : k'.freePhys = k.freePhys) : SoundWork g k' := by
  obtain ⟨hnodup, hentries, hrunners, hascending, hslots⟩ := hk
  have hseqs : k'.rob.map (fun e => e.seq) = k.rob.map (fun e => e.seq) := by
    simpa [Function.comp_def] using congrArg (List.map Prod.fst) hrob
  have hheld : heldSlots k'.rob = heldSlots k.rob := by
    unfold heldSlots
    simpa [Function.comp_def] using congrArg (fun l => (l.map (fun v => v.2.2.2)).sum) hrob
  refine ⟨?_, fun e he => ?_, fun r hr => ?_, ?_, ?_⟩
  · rw [hseqs]
    exact ((hunissued.map _).append_left _).nodup_iff.mpr hnodup
  · have hmem : (e.seq, e.pc, e.desc, e.slots) ∈ k.rob.map _ := hrob ▸ List.mem_map_of_mem he
    obtain ⟨e0, he0, heq⟩ := List.mem_map.mp hmem
    obtain ⟨hseq, -, hdesc, -⟩ : e0.seq = e.seq ∧ e0.pc = e.pc ∧ e0.desc = e.desc ∧
        e0.slots = e.slots := by simpa using heq
    rw [hnext, ← hseq, ← hdesc]
    exact hentries e0 he0
  · rw [hnext]
    exact hrunners r (hunissued.mem_iff.mp hr)
  · have hsorted : (k'.rob.map (fun e => e.seq)).Pairwise (· ≤ ·) :=
      hseqs ▸ List.pairwise_map.mpr hascending
    exact List.pairwise_map.mp hsorted
  · rw [hfree, hheld]
    exact hslots

theorem unissued_congr {k k' : Core} (hq : k'.pendingQ = k.pendingQ) (hdi : k'.di = k.di) :
    unissued k' = unissued k := by
  unfold unissued
  rw [hq, hdi]

/-- A runner decoded takes the next ID, which no other has (R172). -/
theorem SoundWork.decode {g : Cfg} {k : Core} {d : Descriptor} {a : Word} (hk : SoundWork g k)
    (hd : d.instr.wf = true) :
    SoundWork g { k with
      di := { k.di with entry := k.di.entry ++ [⟨d, a, k.nextSeq⟩] }
      nextSeq := k.nextSeq + 1 } := by
  obtain ⟨hnodup, hentries, hrunners, hascending, hslots⟩ := hk
  have hunissued : unissued { k with
      di := { k.di with entry := k.di.entry ++ [⟨d, a, k.nextSeq⟩] }, nextSeq := k.nextSeq + 1 }
        = unissued k ++ [⟨d, a, k.nextSeq⟩] := by simp [unissued]
  refine ⟨?_, fun e he => ?_, fun r hr => ?_, hascending, hslots⟩
  · rw [hunissued, List.map_append, ← List.append_assoc]
    refine List.nodup_append.mpr ⟨hnodup, List.nodup_singleton _, ?_⟩
    intro q hq p hp heq
    obtain rfl : p = k.nextSeq := List.mem_singleton.mp hp
    rcases List.mem_append.mp hq with hq | hq
    · obtain ⟨e, he, rfl⟩ := List.mem_map.mp hq
      exact (hentries e he).1.ne heq
    · obtain ⟨r, hr, rfl⟩ := List.mem_map.mp hq
      exact (hrunners r hr).1.ne heq
  · exact ⟨Nat.lt_succ_of_lt (hentries e he).1, (hentries e he).2⟩
  · rcases List.mem_append.mp (hunissued ▸ hr) with hr | hr
    · exact ⟨Nat.lt_succ_of_lt (hrunners r hr).1, (hrunners r hr).2⟩
    · obtain rfl := List.mem_singleton.mp hr
      exact ⟨Nat.lt_succ_self _, hd⟩

theorem SoundWork.unissued_nodup {g : Cfg} {k : Core} (hk : SoundWork g k) :
    ((unissued k).map (fun r => r.seq)).Nodup := hk.1.of_append_right

theorem SoundWork.rob_nodup {g : Cfg} {k : Core} (hk : SoundWork g k) :
    (k.rob.map (fun e => e.seq)).Nodup := hk.1.of_append_left

/-- An issue moves a runner into the buffer and takes its slots (R198). -/
theorem SoundWork.issue {g : Cfg} {k k' : Core} {r : Runner} {e : RobEntry} (hk : SoundWork g k)
    (hr : (unissued k).Perm (r :: unissued k')) (hseq : e.seq = r.seq) (hdesc : e.desc = r.desc)
    (hrob : k'.rob = robInsert e k.rob) (hnext : k'.nextSeq = k.nextSeq)
    (hslots : e.slots ≤ k.freePhys) (hfree : k'.freePhys = k.freePhys - e.slots) :
    SoundWork g k' := by
  obtain ⟨hnodup, hentries, hrunners, hascending, hsum⟩ := hk
  have hperm := robInsert_perm e k.rob
  obtain ⟨hrnext, hrwf⟩ := hrunners r (hr.mem_iff.mpr List.mem_cons_self)
  refine ⟨?_, fun f hf => ?_, fun v hv => ?_, ?_, ?_⟩
  · have hmoved : (k.rob.map (fun e => e.seq) ++ (unissued k).map (fun r => r.seq)).Perm
        (k'.rob.map (fun e => e.seq) ++ (unissued k').map (fun r => r.seq)) := by
      rw [hrob]
      refine ((hr.map _).append_left _).trans (.trans ?_ ((hperm.map _).append_right _).symm)
      rw [List.map_cons, List.map_cons, hseq]
      exact List.perm_middle
    exact hmoved.nodup_iff.mp hnodup
  · rw [hnext]
    rcases List.mem_cons.mp (hperm.mem_iff.mp (hrob ▸ hf)) with rfl | hf
    · rw [hseq, hdesc]
      exact ⟨hrnext, hrwf⟩
    · exact hentries f hf
  · rw [hnext]
    exact hrunners v (hr.mem_iff.mpr (List.mem_cons_of_mem r hv))
  · rw [hrob]
    exact robInsert_ascending hascending
  · rw [hrob, heldSlots_perm hperm, heldSlots_cons, hfree]
    omega

/-- Entries that leave the buffer give their slots back (R271, R346). -/
theorem SoundWork.release {g : Cfg} {k k' : Core} (p : RobEntry → Bool) (gone : List RobEntry)
    (hk : SoundWork g k) (hgone : (k.rob.filter p ++ gone).Perm k.rob) (hrob : k'.rob = k.rob.filter p)
    (hunissued : (unissued k').Sublist (unissued k)) (hnext : k'.nextSeq = k.nextSeq)
    (hfree : k'.freePhys = k.freePhys + heldSlots gone) : SoundWork g k' := by
  obtain ⟨hnodup, hentries, hrunners, hascending, hsum⟩ := hk
  have hsub : k'.rob.Sublist k.rob := hrob ▸ List.filter_sublist
  refine ⟨hnodup.sublist ((hsub.map _).append (hunissued.map _)), fun e he => ?_, fun r hr => ?_,
    hascending.sublist hsub, ?_⟩
  · exact hnext ▸ hentries e (hsub.subset he)
  · exact hnext ▸ hrunners r (hunissued.subset hr)
  · have hheld := heldSlots_perm hgone
    simp only [heldSlots, List.map_append, List.sum_append] at hheld hsum hfree ⊢
    rw [hrob, hfree]
    omega

theorem doIssue_soundWork {g : Cfg} {gr : Grant} {r : Runner} {k k' : Core} {di : Bus Runner}
    {q : List Runner} (hk : SoundWork g k)
    (hr : (unissued k).Perm (r :: unissued { k with di := di, pendingQ := q }))
    (hslots : gr.slots r.desc.instr.writes ≤ k.freePhys)
    (h : doIssue g gr r { k with di := di, pendingQ := q } = .ok k') : SoundWork g k' := by
  obtain ⟨ie, -, rfl⟩ := doIssue_ok h
  exact hk.issue (e := ⟨r.seq, r.pc, r.desc, .issued, gr.slots r.desc.instr.writes⟩) hr rfl rfl rfl
    rfl hslots rfl

theorem unissued_flushedWork (b : Seq) (pw : List (RegId × Nat)) (k : Core) :
    unissued (flushedWork b pw k) = (unissued k).filter (fun r => decide (r.seq ≤ b)) := by
  simp [unissued, flushedWork, Bus.filter]

theorem retire_perm {g : Cfg} {k : Core} {e : RobEntry} (hk : SoundWork g k) (he : e ∈ k.rob) :
    (robRemove k.rob e.seq ++ [e]).Perm k.rob :=
  List.perm_append_comm.trans (robRemove_perm hk.rob_nodup he).symm

theorem WorkMove.soundWork {g : Cfg} {k k' : Core} {fs fs' : List Flush}
    (h : WorkMove g (k, fs) (k', fs')) (hk : SoundWork g k) : SoundWork g k' := by
  cases h with
  | same hsame =>
    exact hk.congr (by rw [hsame.rob]) (by rw [unissued_congr hsame.pendingQ hsame.di])
      hsame.nextSeq hsame.freePhys
  | connect =>
    refine hk.congr rfl ?_ rfl rfl
    exact (unissued_perm _).trans
      (((connect_held g.busCap k.di).append_left _).trans (unissued_perm k).symm)
  | decode d a hd => exact hk.decode hd
  | issue di q hr _ _ hslots hissue =>
    exact doIssue_soundWork hk (hr hk.unissued_nodup) hslots hissue
  | park _ hvisible =>
    refine hk.congr rfl ?_ rfl rfl
    simp [unissued, hvisible]
  | wait hlift | read hlift =>
    obtain ⟨ie, rfl⟩ := hlift.keep
    exact hk.congr rfl (.refl _) rfl rfl
  | run out fl hlift =>
    obtain ⟨ie, rfl⟩ := hlift.keep
    exact hk.congr (robSetStatus_static _ _ _) (.refl _) rfl rfl
  | leave | begin | advance => exact hk.congr rfl (.refl _) rfl rfl
  | drain => exact hk.congr (robSetStatus_static _ _ _) (.refl _) rfl rfl
  | @flush _ _ b pw =>
    refine hk.release _ _ (flush_perm k.rob b) rfl ?_ rfl rfl
    rw [unissued_flushedWork]
    exact List.filter_sublist
  | retire he _ hretire =>
    obtain ⟨pw, -, rfl⟩ := retire_ok hretire
    exact hk.release _ _ (retire_perm hk he) rfl (List.Sublist.refl _) rfl (by simp [heldSlots])

/-! ### Pending-write counts (R41) -/

theorem writersOf_perm {rob rob' : List RobEntry} (h : rob.Perm rob') (q : RegId) :
    writersOf rob q = writersOf rob' q := (h.filter _).length_eq

theorem writersOf_append (rob rob' : List RobEntry) (q : RegId) :
    writersOf (rob ++ rob') q = writersOf rob q + writersOf rob' q := by
  simp [writersOf]

/-- A well-formed instruction counts once at each register it writes (R104). -/
theorem writersOf_cons {e : RobEntry} (he : e.desc.instr.wf = true) (rob : List RobEntry)
    (q : RegId) :
    writersOf (e :: rob) q = writersOf rob q + e.desc.instr.writes.count q := by
  have hnodup : e.desc.instr.writes.Nodup := by
    simp only [Instr.wf, registersDistinct, Bool.and_eq_true, decide_eq_true_eq] at he
    exact he.2
  rw [hnodup.count]
  unfold writersOf
  by_cases hq : q ∈ e.desc.instr.writes <;> simp [hq]

theorem writersOf_static {rob rob' : List RobEntry}
    (h : rob'.map (fun e => (e.seq, e.pc, e.desc, e.slots))
      = rob.map (fun e => (e.seq, e.pc, e.desc, e.slots))) (q : RegId) :
    writersOf rob' q = writersOf rob q := by
  have hcount : ∀ l : List RobEntry, writersOf l q
      = ((l.map (fun e => (e.seq, e.pc, e.desc, e.slots))).filter
          (fun v => v.2.2.1.instr.writes.contains q)).length := fun l => by
    rw [List.filter_map, List.length_map]
    rfl
  rw [hcount, hcount, h]

theorem CountsAgree.congr {k k' : Core} (hk : CountsAgree k) (hpw : k'.pw = k.pw)
    (hrob : k'.rob.map (fun e => (e.seq, e.pc, e.desc, e.slots))
      = k.rob.map (fun e => (e.seq, e.pc, e.desc, e.slots))) : CountsAgree k' := by
  intro q hq
  rw [hpw, writersOf_static hrob]
  exact hk q hq

/-- Discarded entries take their counts with them (R346). -/
theorem pwGet_discardEntries {gone : List RobEntry} {pw pw' : List (RegId × Nat)}
    (hwf : ∀ e ∈ gone, e.desc.instr.wf = true) (h : discardEntries gone pw = .ok pw') (q : RegId) :
    pwGet pw' q + writersOf gone q = pwGet pw q := by
  induction gone generalizing pw with
  | nil =>
    obtain rfl := Except.ok.inj h
    rfl
  | cons e rest ih =>
    obtain ⟨pw1, hlower, hrest⟩ := discardEntries_cons_ok h
    have hfirst := pwGet_lower hlower q
    have hothers := ih (fun f hf => hwf f (List.mem_cons_of_mem e hf)) hrest
    rw [writersOf_cons (hwf e List.mem_cons_self)]
    omega

theorem WorkMove.countsAgree {g : Cfg} {k k' : Core} {fs fs' : List Flush}
    (h : WorkMove g (k, fs) (k', fs')) (hwork : SoundWork g k) (hk : CountsAgree k) :
    CountsAgree k' := by
  have hwf : ∀ e ∈ k.rob, e.desc.instr.wf = true := fun e he => (hwork.2.1 e he).2
  cases h with
  | same hsame => exact hk.congr hsame.pw (by rw [hsame.rob])
  | @issue _ _ r gr _ di q hr _ _ _ hissue =>
    have hr := hr hwork.unissued_nodup
    have hrwf : r.desc.instr.wf = true :=
      (hwork.2.2.1 r (hr.mem_iff.mpr List.mem_cons_self)).2
    obtain ⟨ie, -, rfl⟩ := doIssue_ok hissue
    intro p hp
    rw [pwGet_raise, writersOf_perm (robInsert_perm _ _), writersOf_cons (by exact hrwf), hk p hp]
  | wait hlift | read hlift =>
    obtain ⟨ie, rfl⟩ := hlift.keep
    exact hk
  | run out fl hlift =>
    obtain ⟨ie, rfl⟩ := hlift.keep
    exact hk.congr rfl (robSetStatus_static _ _ _)
  | drain => exact hk.congr rfl (robSetStatus_static _ _ _)
  | @flush _ _ b pw _ hdiscard =>
    intro q hq
    have hlowered := pwGet_discardEntries
      (fun e he => hwf e (List.mem_of_mem_filter he)) hdiscard q
    have hsplit := writersOf_perm (flush_perm k.rob b) q
    rw [writersOf_append, ← hk q hq] at hsplit
    change pwGet pw q = writersOf (k.rob.filter (fun e => decide (e.seq ≤ b))) q
    omega
  | @retire _ e _ _ he _ hretire =>
    obtain ⟨pw, hlower, rfl⟩ := retire_ok hretire
    intro q hq
    have hlowered := pwGet_lower hlower q
    have hsplit := writersOf_perm (robRemove_perm hwork.rob_nodup he) q
    rw [writersOf_cons (hwf e he), ← hk q hq] at hsplit
    change pwGet pw q = writersOf (robRemove k.rob e.seq) q
    omega
  | connect | decode | park | leave | begin | advance => exact hk

/-! ### Capacities (R55 (e)) -/

theorem robSetStatus_length (rob : List RobEntry) (b : Seq) (st : RobStatus) :
    (robSetStatus rob b st).length = rob.length := List.length_map _

theorem WorkMove.withinCaps {g : Cfg} {k k' : Core} {fs fs' : List Flush}
    (h : WorkMove g (k, fs) (k', fs')) (hwork : SoundWork g k) (hk : WithinCaps g k) :
    WithinCaps g k' := by
  have hfree : k'.freePhys ≤ g.nPhys := by
    obtain ⟨-, -, -, -, hsum⟩ := h.soundWork hwork
    omega
  obtain ⟨hrob, hq, -⟩ := hk
  refine ⟨?_, ?_, hfree⟩
  · cases h with
    | same hsame => exact hsame.rob ▸ hrob
    | issue di q _ _ hroom _ hissue =>
      obtain ⟨ie, -, rfl⟩ := doIssue_ok hissue
      rw [(robInsert_perm _ _).length_eq, List.length_cons]
      exact Nat.lt_of_le_of_ne hrob hroom
    | wait hlift | read hlift =>
      obtain ⟨ie, rfl⟩ := hlift.keep
      exact hrob
    | run out fl hlift =>
      obtain ⟨ie, rfl⟩ := hlift.keep
      exact (robSetStatus_length _ _ _).trans_le hrob
    | drain => exact (robSetStatus_length _ _ _).trans_le hrob
    | flush => exact (List.length_filter_le _ _).trans hrob
    | retire _ _ hretire =>
      obtain ⟨pw, -, rfl⟩ := retire_ok hretire
      exact (List.length_filter_le _ _).trans hrob
    | connect | decode | park | leave | begin | advance => exact hrob
  · cases h with
    | same hsame => exact hsame.pendingQ ▸ hq
    | issue di q' _ hshorter _ _ hissue =>
      rw [doIssue_pendingQ hissue]
      exact hshorter.trans hq
    | park hroom => simpa using hroom
    | wait hlift | read hlift | run out fl hlift =>
      obtain ⟨ie, rfl⟩ := hlift.keep
      exact hq
    | flush => exact (List.length_filter_le _ _).trans hq
    | retire _ _ hretire =>
      obtain ⟨pw, -, rfl⟩ := retire_ok hretire
      exact hq
    | connect | decode | leave | drain | begin | advance => exact hq

end Sys2Proof.Machine
end

section
/-! SUPPORT. The instructions in flight (R47, R221, R268, R276): where each stands between its issue and
its drain, as one list of places beside the buffer, and the store under way as the commit head. Every
move keeps both. Settles O57. -/

namespace Sys2Proof.Machine

open List (Subperm)

/-! ### Places -/

/-- The sequence ID of the instruction in a unit with the status its entry has there (R225). -/
def EuState.place? : EuState → Option (Seq × RobStatus)
  | .idle => none
  | .waitFwd w => some (w.run.seq, .issued)
  | .memRd w _ _ => some (w.run.seq, .issued)
  | .push w _ => some (w.run.seq, .executed)

/-- The places of a core's instructions between issue and the drain, each with the status its entry has
there. -/
def places (k : Core) : List (Seq × RobStatus) :=
  k.ie.held.map (fun it => (it.run.seq, .issued)) ++ k.eu.filterMap EuState.place?
    ++ k.ew.held.map (fun v => (v.seq, .executed))

/-- No instruction stands in two places, and the buffer has the entry of each in the status its place
asks for. -/
def Placed (rob : List RobEntry) (ps : List (Seq × RobStatus)) : Prop :=
  (ps.map Prod.fst).Nodup ∧ ∀ p ∈ ps, ∃ e ∈ rob, e.seq = p.1 ∧ e.status = p.2

/-- Every unit that holds a result holds that of its own instruction. -/
def OwnResults (k : Core) : Prop := ∀ w v, EuState.push w v ∈ k.eu → v.seq = w.run.seq

/-- The instruction with ID `b` is completed with a result, and nothing that is issued or decoded is
older. -/
def CommitReady (k : Core) (b : Seq) : Prop :=
  (∃ h ∈ k.rob, h.seq = b ∧ ∃ o, h.status = .completed (.ok o)) ∧ (∀ e ∈ k.rob, b ≤ e.seq) ∧
    ∀ r ∈ unissued k, b ≤ r.seq

/-- A store under way is ready to commit. -/
def StoreReady (k : Core) : Prop := ∀ p, k.sprog = some p → CommitReady k p.seq

/-- Every flush signal raised in this cycle is of an instruction in the buffer. -/
def FlushesKnown (k : Core) (fs : List Flush) : Prop := ∀ f ∈ fs, ∃ e ∈ k.rob, e.seq = f.seq

/-! ### Entries -/

theorem entry_unique {rob : List RobEntry} (hrob : (rob.map (fun e => e.seq)).Nodup)
    {e f : RobEntry} (he : e ∈ rob) (hf : f ∈ rob) (h : e.seq = f.seq) : e = f :=
  List.inj_on_of_nodup_map hrob he hf h

theorem mem_robSetStatus_ne {rob : List RobEntry} {b : Seq} {st : RobStatus} {e : RobEntry}
    (he : e ∈ rob) (h : e.seq ≠ b) : e ∈ robSetStatus rob b st :=
  List.mem_map.mpr ⟨e, he, if_neg h⟩

theorem robSetStatus_seqs (rob : List RobEntry) (b : Seq) (st : RobStatus) :
    (robSetStatus rob b st).map (fun e => e.seq) = rob.map (fun e => e.seq) := by
  unfold robSetStatus
  rw [List.map_map]
  refine List.map_congr_left fun e _ => ?_
  by_cases he : e.seq = b <;> simp [he]

/-- The oldest entry of a buffer without two entries of one ID. -/
theorem oldestEntry_some {rob : List RobEntry} (hrob : (rob.map (fun e => e.seq)).Nodup)
    {h : RobEntry} : oldestEntry rob = some h ↔ h ∈ rob ∧ ∀ e ∈ rob, h.seq ≤ e.seq := by
  have hleast : ∀ {rob : List RobEntry} {f : RobEntry}, oldestEntry rob = some f →
      ∀ e ∈ rob, f.seq ≤ e.seq := by
    intro rob
    induction rob with
    | nil => exact fun hf => nomatch hf
    | cons e rest ih =>
      intro f hf e' he'
      unfold oldestEntry at hf
      cases hrest : oldestEntry rest with
      | none =>
        obtain rfl : e = f := by simpa [hrest] using hf
        cases rest with
        | nil =>
          obtain rfl := List.mem_singleton.mp he'
          exact le_refl _
        | cons x rest =>
          unfold oldestEntry at hrest
          split at hrest
          · cases hrest
          · split at hrest <;> cases hrest
      | some f2 =>
        have hf2 := ih hrest
        by_cases hlt : f2.seq < e.seq
        · obtain rfl : f2 = f := by simpa [hrest, hlt] using hf
          rcases List.mem_cons.mp he' with rfl | he'
          · exact hlt.le
          · exact hf2 e' he'
        · obtain rfl : e = f := by simpa [hrest, hlt] using hf
          rcases List.mem_cons.mp he' with rfl | he'
          · exact le_refl _
          · exact (not_lt.mp hlt).trans (hf2 e' he')
  constructor
  · exact fun hold => ⟨oldestEntry_mem hold, hleast hold⟩
  · rintro ⟨hmem, hle⟩
    cases hold : oldestEntry rob with
    | none =>
      cases rob with
      | nil => cases hmem
      | cons e rest =>
        unfold oldestEntry at hold
        split at hold
        · cases hold
        · split at hold <;> cases hold
    | some f =>
      have hf := oldestEntry_mem hold
      rw [entry_unique hrob hf hmem (le_antisymm (hleast hold h hmem) (hle f hf))]

theorem unissuedOlder_false {k : Core} {b : Seq} :
    unissuedOlder k b = false ↔ ∀ r ∈ unissued k, b ≤ r.seq := by
  have heq : unissuedOlder k b = (unissued k).any (fun r => decide (r.seq < b)) := rfl
  rw [heq, List.any_eq_false]
  simp

theorem commitHead_iff {k : Core} (hrob : (k.rob.map (fun e => e.seq)).Nodup) {h : RobEntry} :
    commitHead k = some h ↔
      h ∈ k.rob ∧ (∀ e ∈ k.rob, h.seq ≤ e.seq) ∧ ∀ r ∈ unissued k, h.seq ≤ r.seq := by
  rw [commitHead_some, oldestEntry_some hrob, unissuedOlder_false, and_assoc]

theorem storeReady_iff {g : Cfg} {k : Core} (hk : SoundWork g k) :
    StoreReady k ↔ ∀ p, k.sprog = some p →
      ∃ h o, commitHead k = some h ∧ h.seq = p.seq ∧ h.status = .completed (.ok o) := by
  refine forall₂_congr fun p _ => ?_
  constructor
  · rintro ⟨⟨h, hmem, hseq, o, hstatus⟩, hrob, hunissued⟩
    exact ⟨h, o, (commitHead_iff hk.rob_nodup).mpr ⟨hmem, hseq ▸ hrob, hseq ▸ hunissued⟩, hseq,
      hstatus⟩
  · rintro ⟨h, o, hhead, hseq, hstatus⟩
    obtain ⟨hmem, hrob, hunissued⟩ := (commitHead_iff hk.rob_nodup).mp hhead
    exact ⟨⟨h, hmem, hseq, o, hstatus⟩, hseq ▸ hrob, hseq ▸ hunissued⟩

/-! ### Placed -/

theorem Placed.perm {rob : List RobEntry} {ps qs : List (Seq × RobStatus)} (h : Placed rob ps)
    (hperm : qs.Perm ps) : Placed rob qs :=
  ⟨(hperm.map _).nodup_iff.mpr h.1, fun p hp => h.2 p (hperm.mem_iff.mp hp)⟩

theorem Placed.subperm {rob : List RobEntry} {ps qs : List (Seq × RobStatus)} (h : Placed rob ps)
    (hsub : Subperm qs ps) : Placed rob qs := by
  obtain ⟨rs, hperm, hsublist⟩ := hsub
  have hrs : Placed rob rs :=
    ⟨h.1.sublist (hsublist.map _), fun p hp => h.2 p (hsublist.subset hp)⟩
  exact hrs.perm hperm.symm

/-- A status is set where its instruction stands. -/
theorem Placed.setStatus {rob : List RobEntry} {ps : List (Seq × RobStatus)} {b : Seq}
    {st st' : RobStatus} (h : Placed rob ((b, st) :: ps)) :
    Placed (robSetStatus rob b st') ((b, st') :: ps) := by
  obtain ⟨hnodup, hentries⟩ := h
  refine ⟨hnodup, fun p hp => ?_⟩
  rcases List.mem_cons.mp hp with rfl | hp
  · obtain ⟨e, he, hseq, -⟩ := hentries _ List.mem_cons_self
    exact ⟨{ e with status := st' }, List.mem_map.mpr ⟨e, he, if_pos hseq⟩, hseq, rfl⟩
  · obtain ⟨e, he, hseq, hstatus⟩ := hentries p (List.mem_cons_of_mem _ hp)
    refine ⟨e, mem_robSetStatus_ne he fun heq => ?_, hseq, hstatus⟩
    exact (List.nodup_cons.mp hnodup).1 (List.mem_map.mpr ⟨p, hp, hseq.symm.trans heq⟩)

/-- An instruction that issues stands on IE, and nowhere else. -/
theorem Placed.insert {rob : List RobEntry} {ps : List (Seq × RobStatus)} {e : RobEntry}
    (h : Placed rob ps) (he : e.seq ∉ rob.map (fun e => e.seq)) :
    Placed (robInsert e rob) ((e.seq, e.status) :: ps) := by
  obtain ⟨hnodup, hentries⟩ := h
  have hmem : ∀ f, f ∈ robInsert e rob ↔ f ∈ e :: rob := fun f => (robInsert_perm e rob).mem_iff
  refine ⟨List.nodup_cons.mpr ⟨fun hin => he ?_, hnodup⟩, fun p hp => ?_⟩
  · obtain ⟨p, hp, hseq⟩ := List.mem_map.mp hin
    obtain ⟨f, hf, hfseq, -⟩ := hentries p hp
    exact List.mem_map.mpr ⟨f, hf, hfseq.trans hseq⟩
  · rcases List.mem_cons.mp hp with rfl | hp
    · exact ⟨e, (hmem e).mpr List.mem_cons_self, rfl, rfl⟩
    · obtain ⟨f, hf, hrest⟩ := hentries p hp
      exact ⟨f, (hmem f).mpr (List.mem_cons_of_mem e hf), hrest⟩

/-- A flush takes the younger instructions from their places and from the buffer. -/
theorem Placed.flush {rob : List RobEntry} {ps : List (Seq × RobStatus)} (h : Placed rob ps)
    (b : Seq) :
    Placed (rob.filter (fun e => decide (e.seq ≤ b))) (ps.filter (fun p => decide (p.1 ≤ b))) := by
  obtain ⟨hnodup, hentries⟩ := h
  refine ⟨hnodup.sublist (List.filter_sublist.map _), fun p hp => ?_⟩
  obtain ⟨hp, hle⟩ := List.mem_filter.mp hp
  obtain ⟨e, he, hseq, hstatus⟩ := hentries p hp
  exact ⟨e, List.mem_filter.mpr ⟨he, by rwa [hseq]⟩, hseq, hstatus⟩

/-- An entry leaves the buffer whose status no place asks for. -/
theorem Placed.remove {rob : List RobEntry} {ps : List (Seq × RobStatus)} {e : RobEntry}
    (h : Placed rob ps) (hrob : (rob.map (fun e => e.seq)).Nodup) (he : e ∈ rob)
    (hps : ∀ p ∈ ps, p.2 ≠ e.status) : Placed (robRemove rob e.seq) ps := by
  refine ⟨h.1, fun p hp => ?_⟩
  obtain ⟨f, hf, hseq, hstatus⟩ := h.2 p hp
  refine ⟨f, List.mem_filter.mpr ⟨hf, decide_eq_true fun heq => hps p hp ?_⟩, hseq, hstatus⟩
  rw [← hstatus, entry_unique hrob hf he heq]

theorem places_status {k : Core} {p : Seq × RobStatus} (h : p ∈ places k) :
    p.2 = .issued ∨ p.2 = .executed := by
  simp only [places, List.mem_append, List.mem_map, List.mem_filterMap] at h
  rcases h with (⟨it, -, rfl⟩ | ⟨e, -, he⟩) | ⟨v, -, rfl⟩
  · exact .inl rfl
  · cases e with
    | idle => cases he
    | waitFwd | memRd =>
      obtain rfl := Option.some.inj he
      exact .inl rfl
    | push =>
      obtain rfl := Option.some.inj he
      exact .inr rfl
  · exact .inr rfl

/-! ### Places after a move -/

/-- The places in the units: unit i's and the rest; writing unit i writes its place. -/
theorem unit_places (k : Core) (i : Nat) :
    ∃ rest, (k.eu.filterMap EuState.place?).Perm ((k.unit i).place?.toList ++ rest) ∧
      ∀ e, Subperm ((k.eu.set i e).filterMap EuState.place?) (e.place?.toList ++ rest) := by
  by_cases hi : i < k.eu.length
  · have hperm : ∀ e, ((k.eu.set i e).filterMap EuState.place?).Perm
        (e.place?.toList ++ (k.eu.take i ++ k.eu.drop (i + 1)).filterMap EuState.place?) := by
      intro e
      rw [List.set_eq_take_append_cons_drop, if_pos hi, List.filterMap_append,
        List.filterMap_append, List.filterMap_cons]
      cases e.place? with
      | none => exact .refl _
      | some p => exact List.perm_middle
    refine ⟨_, ?_, fun e => (hperm e).subperm⟩
    have hself : k.eu.set i (k.unit i) = k.eu := by simp [Core.unit, hi]
    have hunit := hperm (k.unit i)
    rwa [hself] at hunit
  · have hidle : k.unit i = .idle := by simp [Core.unit, hi]
    refine ⟨k.eu.filterMap EuState.place?, ?_, fun e => ?_⟩
    · rw [hidle]
      exact .refl _
    · rw [List.set_eq_of_length_le (not_lt.mp hi)]
      exact (List.sublist_append_right _ _).subperm

theorem Bus.held_pop {α : Type} {b : Bus α} {v : α} {rest : List α} (h : b.visible = v :: rest) :
    b.held.Perm (v :: { b with visible := rest }.held) := by
  simp only [Bus.held, h]
  exact List.perm_middle

/-- A lifted instruction leaves the one place it stood in, and takes the one in its unit. -/
theorem Lifted.places {i : Nat} {b : Seq} {k k0 : Core} (h : Lifted i b k k0) :
    ∃ others, (Machine.places k).Perm ((b, .issued) :: others) ∧
      ∀ e st, e.place? = some (b, st) →
        Subperm (Machine.places { k0 with eu := k0.eu.set i e }) ((b, st) :: others) := by
  obtain ⟨rest, hunits, hset⟩ := unit_places k i
  have hplaces : ∀ (xs ys zs zs' : List (Seq × RobStatus)) (p : Seq × RobStatus),
      Subperm zs' (p :: zs) → Subperm (xs ++ zs' ++ ys) (p :: (xs ++ zs ++ ys)) := by
    intro xs ys zs zs' p hsub
    have hmid : Subperm (xs ++ zs' ++ ys) (xs ++ p :: zs ++ ys) :=
      (List.subperm_append_right ys).mpr ((List.subperm_append_left xs).mpr hsub)
    refine hmid.trans (List.Perm.subperm ?_)
    rw [List.append_assoc, List.append_assoc, List.cons_append]
    exact List.perm_middle
  cases h with
  | @fromIssue it rest' hidle hvisible hseq =>
    subst hseq
    have hpop := ((Bus.held_pop hvisible).map (fun it : Issued => (it.run.seq, RobStatus.issued)))
    rw [hidle] at hunits
    refine ⟨_, (hpop.append hunits).append_right _, fun e st he => ?_⟩
    have hunit := hset e
    rw [he] at hunit
    exact hplaces _ _ _ _ _ hunit
  | fromWait hunit hseq | fromMemory hunit hseq =>
    rw [hunit] at hunits
    refine ⟨k.ie.held.map (fun it => (it.run.seq, .issued)) ++ rest
      ++ k.ew.held.map (fun v => (v.seq, .executed)),
      ((hunits.append_left _).append_right _).trans ?_, fun e st he => ?_⟩
    · simp only [EuState.place?, hseq, Option.toList_some, List.append_assoc, List.cons_append,
        List.nil_append]
      exact List.perm_middle
    · have hunit := hset e
      rw [he] at hunit
      exact hplaces _ _ _ _ _ hunit

theorem EuState.younger_place {e : EuState} {p : Seq × RobStatus} (h : e.place? = some p)
    (b : Seq) : EuState.younger b e = decide (b < p.1) := by
  cases e with
  | idle => cases h
  | waitFwd | memRd | push =>
    obtain rfl := Option.some.inj h
    rfl

theorem places_flushedWork (b : Seq) (pw : List (RegId × Nat)) (k : Core) :
    places (flushedWork b pw k) = (places k).filter (fun p => decide (p.1 ≤ b)) := by
  have hbus : ∀ {α : Type} (f : α → Seq × RobStatus) (bus : Bus α),
      (bus.filter (fun v => decide ((f v).1 ≤ b))).held.map f
        = (bus.held.map f).filter (fun p => decide (p.1 ≤ b)) := by
    intro α f bus
    simp [Bus.held, Bus.filter, List.filter_map, Function.comp_def]
  have hunits : (k.eu.map (fun e => if EuState.younger b e then .idle else e)).filterMap
        EuState.place?
      = (k.eu.filterMap EuState.place?).filter (fun p => decide (p.1 ≤ b)) := by
    rw [List.filterMap_map, List.filter_filterMap]
    refine List.filterMap_congr fun e _ => ?_
    cases hplace : e.place? with
    | none =>
      cases e with
      | idle => rfl
      | waitFwd | memRd | push => cases hplace
    | some p =>
      have hyounger := EuState.younger_place hplace b
      by_cases hle : p.1 ≤ b
      · simp [Option.filter, hyounger, hplace, hle, Nat.not_lt.mpr hle]
      · simp [Option.filter, hyounger, hle, Nat.lt_of_not_le hle, EuState.place?]
  have hie := hbus (fun it : Issued => (it.run.seq, RobStatus.issued)) k.ie
  have hew := hbus (fun v : Result => (v.seq, RobStatus.executed)) k.ew
  simp only [places, flushedWork, List.filter_append, hie, hunits, hew]

theorem places_congr {k k' : Core} (hie : k'.ie = k.ie) (heu : k'.eu = k.eu) (hew : k'.ew = k.ew) :
    places k' = places k := by
  unfold places
  rw [hie, heu, hew]

/-! ### The moves keep the places -/

theorem WorkMove.placed {g : Cfg} {k k' : Core} {fs fs' : List Flush}
    (h : WorkMove g (k, fs) (k', fs')) (hwork : SoundWork g k) (hown : OwnResults k)
    (hk : Placed k.rob (places k)) : Placed k'.rob (places k') := by
  cases h with
  | same hsame =>
    rw [hsame.rob, places_congr hsame.ie hsame.eu hsame.ew]
    exact hk
  | connect =>
    refine hk.perm ?_
    exact (((connect_held g.busCap k.ie).map _).append_right _).append
      ((connect_held g.busCap k.ew).map _)
  | @issue _ _ r gr _ di q hr _ _ _ hissue =>
    have hr := hr hwork.unissued_nodup
    obtain ⟨ie, hadd, rfl⟩ := doIssue_ok hissue
    obtain ⟨-, rfl⟩ := Bus.add_ok.mp hadd
    have hnew : r.seq ∉ k.rob.map (fun e => e.seq) := fun hin =>
      List.disjoint_of_nodup_append hwork.1 hin
        (List.mem_map_of_mem (hr.mem_iff.mpr List.mem_cons_self))
    refine (hk.insert (e := ⟨r.seq, r.pc, r.desc, .issued, gr.slots r.desc.instr.writes⟩)
      hnew).perm ?_
    simp only [places, Bus.held, List.map_append, List.append_assoc, List.map_cons,
      List.cons_append, List.nil_append]
    exact List.perm_middle
  | wait hlift | read hlift =>
    obtain ⟨others, hperm, hset⟩ := hlift.places
    obtain ⟨ie, rfl⟩ := hlift.keep
    exact (hk.perm hperm.symm).subperm (hset _ .issued rfl)
  | @run _ _ i w k0 out fl hlift =>
    obtain ⟨others, hperm, hset⟩ := hlift.places
    have hsub := hset (.push w ⟨w.run.seq, out⟩) .executed rfl
    obtain ⟨ie, rfl⟩ := hlift.keep
    exact (hk.perm hperm.symm).setStatus.subperm hsub
  | @leave _ _ i w v hunit =>
    obtain ⟨rest, hunits, hset⟩ := unit_places k i
    have hv : v.seq = w.run.seq := hown w v (Core.unit_mem hunit (by simp))
    rw [hunit] at hunits
    refine hk.subperm ?_
    have hidle : Subperm ((k.eu.set i .idle).filterMap EuState.place?) rest := hset .idle
    have hmoved : Subperm (places { k with
        ew := { k.ew with entry := k.ew.entry ++ [v] }, eu := k.eu.set i .idle })
        (k.ie.held.map (fun it => (it.run.seq, .issued)) ++ rest
          ++ (w.run.seq, .executed) :: k.ew.held.map (fun v => (v.seq, .executed))) := by
      refine ((List.subperm_append_right _).mpr ((List.subperm_append_left _).mpr hidle)).trans
        (List.Perm.subperm (List.Perm.append_left _ ?_))
      simp only [Bus.held, List.map_append, List.append_assoc, List.map_cons,
        List.cons_append, List.nil_append, hv]
      exact List.perm_middle
    refine hmoved.trans (List.Perm.subperm ?_)
    refine .trans ?_ ((hunits.symm.append_left _).append_right _)
    simp only [EuState.place?, Option.toList_some, List.append_assoc, List.cons_append,
      List.nil_append]
    exact List.perm_middle.append_left _
  | flush =>
    rw [places_flushedWork]
    exact hk.flush _
  | @drain _ _ v rest hvisible =>
    have hpop := (Bus.held_pop hvisible).map (fun v : Result => (v.seq, RobStatus.executed))
    have hfront : (places k).Perm ((v.seq, .executed) :: places { k with
        ew := { k.ew with visible := rest } }) :=
      (hpop.append_left _).trans List.perm_middle
    have hset := (hk.perm hfront.symm).setStatus (st' := .completed v.out)
    exact hset.subperm (List.sublist_cons_self _ _).subperm
  | retire he hstatus hretire =>
    obtain ⟨pw, -, rfl⟩ := retire_ok hretire
    refine hk.remove hwork.rob_nodup he fun p hp heq => ?_
    rcases places_status hp with hp | hp <;> rw [hp, hstatus] at heq <;> cases heq
  | decode | park | begin | advance => exact hk

theorem ownResults_set {k : Core} {eu : List EuState} {i : Nat} {e : EuState} (hk : OwnResults k)
    (heu : eu = k.eu) (he : ∀ w v, e = .push w v → v.seq = w.run.seq) :
    ∀ w v, EuState.push w v ∈ eu.set i e → v.seq = w.run.seq := by
  intro w v hmem
  rcases List.mem_or_eq_of_mem_set hmem with hmem | hmem
  · exact hk w v (heu ▸ hmem)
  · exact he w v hmem.symm

theorem WorkMove.ownResults {g : Cfg} {k k' : Core} {fs fs' : List Flush}
    (h : WorkMove g (k, fs) (k', fs')) (hk : OwnResults k) : OwnResults k' := by
  cases h with
  | same hsame =>
    unfold OwnResults
    rw [hsame.eu]
    exact hk
  | issue di q _ _ _ _ hissue =>
    obtain ⟨ie, -, rfl⟩ := doIssue_ok hissue
    exact hk
  | wait hlift | read hlift =>
    obtain ⟨ie, rfl⟩ := hlift.keep
    exact ownResults_set hk rfl fun _ _ he => nomatch he
  | run out fl hlift =>
    obtain ⟨ie, rfl⟩ := hlift.keep
    refine ownResults_set hk rfl fun w v he => ?_
    obtain ⟨rfl, rfl⟩ := EuState.push.inj he
    rfl
  | leave => exact ownResults_set hk rfl fun _ _ he => nomatch he
  | flush =>
    intro w v hmem
    obtain ⟨e, he, heq⟩ := List.mem_map.mp hmem
    split at heq
    · cases heq
    · exact hk w v (heq ▸ he)
  | retire _ _ hretire =>
    obtain ⟨pw, -, rfl⟩ := retire_ok hretire
    exact hk
  | connect | decode | park | drain | begin | advance => exact hk

/-! ### The moves keep the store under way ready -/

/-- An instruction stays ready to commit while it stays in the buffer and nothing older comes. -/
theorem CommitReady.keep {k k' : Core} {b : Seq} (h : CommitReady k b)
    (hhead : ∀ e ∈ k.rob, e.seq = b → (∃ o, e.status = .completed (.ok o)) → e ∈ k'.rob)
    (hrob : ∀ e ∈ k'.rob, (∃ f ∈ k.rob, f.seq = e.seq) ∨ b ≤ e.seq)
    (hunissued : ∀ r ∈ unissued k', r ∈ unissued k ∨ b ≤ r.seq) : CommitReady k' b := by
  obtain ⟨⟨e, he, hseq, hstatus⟩, hentries, hrunners⟩ := h
  refine ⟨⟨e, hhead e he hseq hstatus, hseq, hstatus⟩, fun f hf => ?_, fun r hr => ?_⟩
  · rcases hrob f hf with ⟨f', hf', heq⟩ | hle
    · exact heq ▸ hentries f' hf'
    · exact hle
  · exact (hunissued r hr).elim (hrunners r) id

/-- Setting the status of an instruction in flight leaves one that is ready to commit. -/
theorem CommitReady.setStatus {k : Core} {b q : Seq} {st st' : RobStatus} (h : CommitReady k b)
    (hrob : (k.rob.map (fun e => e.seq)).Nodup) (hq : ∃ e ∈ k.rob, e.seq = q ∧ e.status = st)
    (hst : ∀ o, st ≠ .completed (.ok o)) :
    CommitReady { k with rob := robSetStatus k.rob q st' } b := by
  obtain ⟨f, hf, hfseq, hfstatus⟩ := hq
  refine h.keep (fun e he _ hdone => mem_robSetStatus_ne he fun heq => ?_) (fun e he => .inl ?_)
    fun r hr => .inl hr
  · obtain ⟨o, ho⟩ := hdone
    obtain rfl := entry_unique hrob he hf (heq.trans hfseq.symm)
    exact hst o (hfstatus.symm.trans ho)
  · have hseqs : e.seq ∈ k.rob.map (fun e => e.seq) :=
      robSetStatus_seqs k.rob q st' ▸ List.mem_map_of_mem he
    exact List.mem_map.mp hseqs

theorem WorkMove.storeReady {g : Cfg} {k k' : Core} {fs fs' : List Flush}
    (h : WorkMove g (k, fs) (k', fs')) (hwork : SoundWork g k)
    (hplaced : Placed k.rob (places k)) (hflushes : FlushesKnown k fs) (hk : StoreReady k) :
    StoreReady k' := by
  intro p hp
  cases h with
  | same hsame =>
    refine (hk p (hsame.sprog ▸ hp)).keep (fun e he _ _ => hsame.rob ▸ he)
      (fun e he => .inl ⟨e, hsame.rob ▸ he, rfl⟩) fun r hr => .inl ?_
    rwa [unissued_congr hsame.pendingQ hsame.di] at hr
  | connect =>
    refine (hk p hp).keep (fun e he _ _ => he) (fun e he => .inl ⟨e, he, rfl⟩) fun r hr => .inl ?_
    have hperm := (connect_held g.busCap k.di).append_left k.pendingQ
    exact ((unissued_perm _).trans (hperm.trans (unissued_perm k).symm)).mem_iff.mp hr
  | decode d a =>
    have hready := hk p hp
    refine hready.keep (fun e he _ _ => he) (fun e he => .inl ⟨e, he, rfl⟩) fun r hr => ?_
    obtain ⟨⟨e, he, hseq, -⟩, -⟩ := hready
    simp only [unissued, ← List.append_assoc, List.mem_append, List.mem_singleton] at hr ⊢
    exact hr.imp id fun hr => by
      rw [hr, ← hseq]
      exact (hwork.2.1 e he).1.le
  | @issue _ _ r gr _ di q hr _ _ _ hissue =>
    have hr := hr hwork.unissued_nodup
    obtain ⟨ie, -, rfl⟩ := doIssue_ok hissue
    have hready := hk p hp
    refine hready.keep (fun e he _ _ => ?_) (fun e he => ?_) fun v hv => .inl ?_
    · exact (robInsert_perm _ _).mem_iff.mpr (List.mem_cons_of_mem _ he)
    · rcases List.mem_cons.mp ((robInsert_perm _ _).mem_iff.mp he) with rfl | he
      · exact .inr (hready.2.2 r (hr.mem_iff.mpr List.mem_cons_self))
      · exact .inl ⟨e, he, rfl⟩
    · exact hr.mem_iff.mpr (List.mem_cons_of_mem r hv)
  | park _ hvisible =>
    refine (hk p hp).keep (fun e he _ _ => he) (fun e he => .inl ⟨e, he, rfl⟩) fun r hr => .inl ?_
    simpa [unissued, hvisible] using hr
  | wait hlift | read hlift =>
    obtain ⟨ie, rfl⟩ := hlift.keep
    exact hk p hp
  | run out fl hlift =>
    obtain ⟨others, hperm, -⟩ := hlift.places
    have hentry := hplaced.2 _ (hperm.mem_iff.mpr List.mem_cons_self)
    obtain ⟨ie, rfl⟩ := hlift.keep
    exact (hk p hp).setStatus hwork.rob_nodup hentry fun _ => by simp
  | leave => exact hk p hp
  | @flush _ _ b pw hb hdiscard =>
    have hready := hk p hp
    have hle : p.seq ≤ b := by
      rcases hb with hnone | ⟨f, hf, rfl⟩
      · exact absurd hp (by rw [show (flushedWork b pw k).sprog = k.sprog from rfl, hnone]; simp)
      · obtain ⟨e, he, heq⟩ := hflushes f hf
        exact heq ▸ hready.2.1 e he
    refine hready.keep (fun e he hseq _ => List.mem_filter.mpr ⟨he, by simpa [hseq] using hle⟩)
      (fun e he => .inl ⟨e, List.mem_of_mem_filter he, rfl⟩) fun r hr => .inl ?_
    rw [unissued_flushedWork] at hr
    exact List.mem_of_mem_filter hr
  | @drain _ _ v rest hvisible =>
    have hin : (v.seq, RobStatus.executed) ∈ places k := by
      refine List.mem_append_right _ (List.mem_map_of_mem (f := fun v : Result => (v.seq, _)) ?_)
      simp [Bus.held, hvisible]
    exact (hk p hp).setStatus hwork.rob_nodup (hplaced.2 _ hin) fun _ => by simp
  | @begin _ _ e o lines hhead hstatus =>
    obtain rfl := Option.some.inj hp
    obtain ⟨hmem, hrob, hunissued⟩ := (commitHead_iff hwork.rob_nodup).mp hhead
    exact ⟨⟨e, hmem, rfl, o, hstatus⟩, hrob, hunissued⟩
  | advance hp' =>
    obtain rfl := Option.some.inj hp
    have hready := hk _ hp'
    exact hready
  | retire _ _ hretire =>
    obtain ⟨pw, -, rfl⟩ := retire_ok hretire
    cases hp

/-! ### The moves keep the flushes known -/

theorem WorkMove.flushesKnown {g : Cfg} {k k' : Core} {fs fs' : List Flush}
    (h : WorkMove g (k, fs) (k', fs')) (hplaced : Placed k.rob (places k))
    (hk : FlushesKnown k fs) : FlushesKnown k' fs' := by
  have hset : ∀ b st f, (∃ e ∈ k.rob, e.seq = f) →
      ∃ e ∈ robSetStatus k.rob b st, e.seq = f := by
    intro b st f hf
    have hseqs := List.mem_map.mpr hf
    rw [← robSetStatus_seqs k.rob b st] at hseqs
    exact List.mem_map.mp hseqs
  cases h with
  | same hsame => exact fun f hf => hsame.rob ▸ hk f hf
  | issue di q _ _ _ _ hissue =>
    obtain ⟨ie, -, rfl⟩ := doIssue_ok hissue
    intro f hf
    obtain ⟨e, he, heq⟩ := hk f hf
    exact ⟨e, (robInsert_perm _ _).mem_iff.mpr (List.mem_cons_of_mem _ he), heq⟩
  | wait hlift | read hlift =>
    obtain ⟨ie, rfl⟩ := hlift.keep
    exact hk
  | @run _ _ i w k0 out fl hlift hfl =>
    obtain ⟨others, hperm, -⟩ := hlift.places
    obtain ⟨e, he, hseq, -⟩ := hplaced.2 _ (hperm.mem_iff.mpr List.mem_cons_self)
    obtain ⟨ie, rfl⟩ := hlift.keep
    intro f hf
    rcases List.mem_append.mp hf with hf | hf
    · exact hset _ _ _ (hk f hf)
    · exact hset _ _ _ ⟨e, he, hseq.trans (hfl f hf).symm⟩
  | drain => exact fun f hf => hset _ _ _ (hk f hf)
  | flush | retire => exact fun f hf => (List.not_mem_nil hf).elim
  | connect | decode | park | leave | begin | advance => exact hk

/-! ### Steps -/

/-- A core's instructions in flight and its store under way are as R47, R221 and R276 say, and every
flush raised in this cycle is known. -/
structure Flying (k : Core) (fs : List Flush) : Prop where
  placed : Placed k.rob (places k)
  own : OwnResults k
  store : StoreReady k
  flushes : FlushesKnown k fs

theorem mem_places {k : Core} {p : Seq × RobStatus} :
    p ∈ places k ↔ (∃ it ∈ k.ie.held, (it.run.seq, .issued) = p) ∨
      (∃ e ∈ k.eu, e.place? = some p) ∨ ∃ v ∈ k.ew.held, (v.seq, .executed) = p := by
  simp only [places, List.mem_append, List.mem_map, List.mem_filterMap, or_assoc]

theorem places_seqs (k : Core) : (places k).map Prod.fst = issuedSeqs k := by
  have hunits : (k.eu.filterMap EuState.place?).map Prod.fst = k.eu.filterMap EuState.seq? := by
    rw [List.map_filterMap]
    refine List.filterMap_congr fun e _ => ?_
    cases e <;> rfl
  simp only [places, List.map_append, List.map_map, hunits]
  rfl

theorem inFlightSound_iff {g : Cfg} {k : Core} (hk : SoundWork g k) :
    InFlightSound k ↔ Flying k [] := by
  constructor
  · rintro ⟨hnodup, hie, hwait, hmem, hpush, hew, hstore⟩
    refine ⟨⟨places_seqs k ▸ hnodup, fun p hp => ?_⟩, fun w v hv => (hpush w v hv).1,
      (storeReady_iff hk).mpr hstore, fun f hf => (List.not_mem_nil hf).elim⟩
    rcases mem_places.mp hp with ⟨it, hit, rfl⟩ | ⟨e, he, hplace⟩ | ⟨v, hv, rfl⟩
    · exact hie it hit
    · cases e with
      | idle => cases hplace
      | waitFwd w =>
        obtain rfl := Option.some.inj hplace
        exact hwait w he
      | memRd w todo got =>
        obtain rfl := Option.some.inj hplace
        exact hmem w todo got he
      | push w v =>
        obtain rfl := Option.some.inj hplace
        exact (hpush w v he).2
    · exact hew v hv
  · rintro ⟨⟨hnodup, hentries⟩, hown, hstore, -⟩
    have hunit : ∀ e ∈ k.eu, ∀ p, e.place? = some p → entryIs k p.1 p.2 := fun e he p hp =>
      hentries p (mem_places.mpr (.inr (.inl ⟨e, he, hp⟩)))
    exact ⟨places_seqs k ▸ hnodup,
      fun it hit => hentries _ (mem_places.mpr (.inl ⟨it, hit, rfl⟩)),
      fun w hw => hunit _ hw _ rfl, fun w todo got hw => hunit _ hw _ rfl,
      fun w v hv => ⟨hown w v hv, hunit _ hv _ rfl⟩,
      fun v hv => hentries _ (mem_places.mpr (.inr (.inr ⟨v, hv, rfl⟩))),
      (storeReady_iff hk).mp hstore⟩

theorem WorkMove.flying {g : Cfg} {k k' : Core} {fs fs' : List Flush}
    (h : WorkMove g (k, fs) (k', fs')) (hwork : SoundWork g k) (hk : Flying k fs) :
    Flying k' fs' where
  placed := h.placed hwork hk.own hk.placed
  own := h.ownResults hk.own
  store := h.storeReady hwork hk.placed hk.flushes hk.store
  flushes := h.flushesKnown hk.placed hk.flushes

/-- The cores' work is sound; core c's instructions are in flight with the flushes it raised, and those
of every other core without one. -/
def FlyingOn (c : CoreId) (s : State) : Prop :=
  (∀ k ∈ s.cores, SoundWork s.cfg k) ∧ Flying (s.core c) s.raised ∧
    ∀ d, d < s.cores.length → d ≠ c → Flying (s.core d) []

theorem Move.soundWork {c : CoreId} {s t : State} (hc : c < s.cores.length) (h : Move c s t)
    (hs : ∀ k ∈ s.cores, SoundWork s.cfg k) : ∀ k ∈ t.cores, SoundWork t.cfg k :=
  h.keep_cores (P := SoundWork) (fun _ _ _ _ hk => hk) (fun _ _ _ _ _ => WorkMove.soundWork) hc hs

theorem Move.flyingOn {c : CoreId} {s t : State} (hc : c < s.cores.length) (h : Move c s t)
    (hs : FlyingOn c s) : FlyingOn c t := by
  obtain ⟨hwork, hown, hothers⟩ := hs
  refine ⟨h.soundWork hc hwork, ?_⟩
  cases h with
  | @work p hmove =>
    refine ⟨?_, fun d hd hdc => ?_⟩
    · rw [core_withWork_self hc]
      exact hmove.flying (hwork _ (core_mem hc)) hown
    · rw [core_withWork_ne s p hdc]
      exact hothers d (by simpa [State.withWork] using hd) hdc
  | cache hmove =>
    have hframe := hmove.frame
    obtain ⟨l1d, req, hcore⟩ := hframe.own
    refine ⟨?_, fun d hd hdc => ?_⟩
    · rw [hcore, hframe.raised]
      exact ⟨hown.placed, hown.own, hown.store, hown.flushes⟩
    · rw [hframe.others d hdc]
      exact hothers d (hframe.length ▸ hd) hdc
  | stop | unfocus => exact ⟨hown, hothers⟩

theorem coreCycle_soundWork {c : CoreId} {s t : State} (hc : c < s.cores.length)
    (h : coreCycle c s = .ok t) (hs : ∀ k ∈ s.cores, SoundWork s.cfg k) :
    ∀ k ∈ t.cores, SoundWork t.cfg k :=
  Moves.keep (P := fun s => ∀ k ∈ s.cores, SoundWork s.cfg k)
    (fun _ _ hc hmove => hmove.soundWork hc) hc (coreCycle_moves hc h).1 hs

/-- The work of every core is sound, its instructions are in flight, and no flush is left. -/
def AllFlying (s : State) : Prop :=
  (∀ k ∈ s.cores, SoundWork s.cfg k) ∧ s.raised = [] ∧
    ∀ d, d < s.cores.length → Flying (s.core d) []

theorem coreCycle_allFlying {c : CoreId} {s t : State} (hc : c < s.cores.length)
    (h : coreCycle c s = .ok t) (hs : AllFlying s) : AllFlying t := by
  obtain ⟨hwork, hraised, hflying⟩ := hs
  obtain ⟨hmoves, hclear⟩ := coreCycle_moves hc h
  have hend : FlyingOn c t := Moves.keep (fun _ _ hc hmove => hmove.flyingOn hc) hc hmoves
    ⟨hwork, hraised ▸ hflying c hc, fun d hd _ => hflying d hd⟩
  obtain ⟨hwork, hown, hothers⟩ := hend
  have hraised := hclear hraised
  refine ⟨hwork, hraised, fun d hd => ?_⟩
  by_cases hdc : d = c
  · rw [hdc, ← hraised]
    exact hown
  · exact hothers d hd hdc

theorem allFlying_iff {s : State} (hwork : ∀ k ∈ s.cores, SoundWork s.cfg k)
    (hraised : s.raised = []) : AllFlying s ↔ ∀ k ∈ s.cores, InFlightSound k := by
  constructor
  · rintro ⟨-, -, hflying⟩ k hk
    obtain ⟨d, hd, rfl⟩ := mem_cores_iff.mp hk
    exact (inFlightSound_iff (hwork _ hk)).mpr (hflying d hd)
  · exact fun hcores => ⟨hwork, hraised, fun d hd =>
      (inFlightSound_iff (hwork _ (core_mem hd))).mp (hcores _ (core_mem hd))⟩

/-- Settles O57: every move keeps the accounts of a core's work (`Move.soundWork`) and, with the flushes
of its cycle beside it, the places of its instructions and the store under way (`Move.flyingOn`). -/
theorem everyStepKeepsWorkInFlightSound : Obligations.EveryStepKeepsWorkInFlightSound := by
  intro s t hwork h
  have hwork' : ∀ k ∈ t.cores, SoundWork t.cfg k :=
    step_keep (P := fun s => ∀ k ∈ s.cores, SoundWork s.cfg k) (fun _ _ _ => id)
      (fun _ _ _ => coreCycle_soundWork) h hwork
  refine ⟨hwork', fun hraised hflying => ?_⟩
  have hend : AllFlying t := step_keep (fun _ _ _ => id) (fun _ _ _ => coreCycle_allFlying) h
    ((allFlying_iff hwork hraised).mpr hflying)
  exact (allFlying_iff hwork' hend.2.1).mp hend

end Sys2Proof.Machine
end

section
/-! SUPPORT. Sound line stores (R285, R290, R296): every move keeps one whole aligned line per line
address in every store, and cores that ask for whole lines alone. -/

namespace Sys2Proof.Machine

/-! ### One line store -/

theorem lruContains_remove {α : Type} (st : LruStore α) (l j : LineAddr) :
    lruContains (lruRemove st l) j = true ↔ j ≠ l ∧ lruContains st j = true := by
  simp only [lruContains_iff, lruRemove, assocErase, List.mem_filter, decide_eq_true_eq]
  exact ⟨fun ⟨d, hd, hj⟩ => ⟨hj, d, hd⟩, fun ⟨hj, d, hd⟩ => ⟨d, hd, hj⟩⟩

theorem lruContains_append {α : Type} (st : LruStore α) (l j : LineAddr) (d : α) :
    lruContains (st ++ [(l, d)]) j = true ↔ lruContains st j = true ∨ j = l := by
  simp only [lruContains_iff, List.mem_append, List.mem_singleton, Prod.mk.injEq, exists_or,
    exists_and_left, exists_eq, and_true]

/-- Putting a line at the recent end keeps every other line. -/
theorem lruContains_renew {α : Type} (st : LruStore α) (l j : LineAddr) (d : α) :
    lruContains (lruRemove st l ++ [(l, d)]) j = true ↔ lruContains st j = true ∨ j = l := by
  rw [lruContains_append, lruContains_remove]
  by_cases hj : j = l <;> simp [hj]

/-- Everything a push can do (R285): renew the line, evict the oldest, or add. -/
theorem lruPush_cases {α : Type} (cap : Nat) (st : LruStore α) (l : LineAddr) (d : α) :
    (lruPush cap st l d = (lruRemove st l ++ [(l, d)], none)) ∨
    (lruContains st l = false ∧ ∃ v rest, st = v :: rest ∧
      lruPush cap st l d = (rest ++ [(l, d)], some v)) ∨
    (lruContains st l = false ∧ lruPush cap st l d = (st ++ [(l, d)], none)) := by
  unfold lruPush
  cases hl : lruContains st l with
  | true => exact .inl rfl
  | false =>
    by_cases hfull : st.length = cap
    · cases st with
      | nil => exact .inr (.inr ⟨rfl, by simp [hfull]⟩)
      | cons v rest => exact .inr (.inl ⟨rfl, v, rest, rfl, by simp [hfull]⟩)
    · exact .inr (.inr ⟨rfl, by simp [hfull]⟩)

theorem not_mem_keys_of_absent {α : Type} {st : LruStore α} {l : LineAddr}
    (h : lruContains st l = false) : l ∉ st.map Prod.fst := by
  intro hl
  obtain ⟨⟨j, d⟩, he, rfl⟩ := List.mem_map.mp hl
  rw [lruContains_iff.mpr ⟨d, he⟩] at h
  cases h

theorem SoundStore.sublist {g : Cfg} {st st' : LruStore (List Byte)} (h : SoundStore g st)
    (hsub : st'.Sublist st) : SoundStore g st' :=
  ⟨h.1.sublist (hsub.map _), fun e he => h.2 e (hsub.subset he)⟩

theorem SoundStore.add {g : Cfg} {st : LruStore (List Byte)} {l : LineAddr} {d : List Byte}
    (h : SoundStore g st) (habsent : lruContains st l = false) (hl : lineOf g.lineSize l = l)
    (hd : d.length = g.lineSize) : SoundStore g (st ++ [(l, d)]) := by
  refine ⟨?_, fun e he => ?_⟩
  · rw [List.map_append]
    refine List.nodup_append.mpr ⟨h.1, List.nodup_singleton _, fun j hj i hi heq => ?_⟩
    obtain rfl : i = l := List.mem_singleton.mp hi
    exact not_mem_keys_of_absent habsent (heq ▸ hj)
  · rcases List.mem_append.mp he with he | he
    · exact h.2 e he
    · obtain rfl := List.mem_singleton.mp he
      exact ⟨hl, hd⟩

theorem SoundStore.remove {g : Cfg} {st : LruStore (List Byte)} (h : SoundStore g st)
    (l : LineAddr) : SoundStore g (lruRemove st l) := h.sublist List.filter_sublist

theorem lruRemove_absent {α : Type} (st : LruStore α) (l : LineAddr) :
    lruContains (lruRemove st l) l = false := by
  by_contra hl
  exact ((lruContains_remove st l l).mp (by simpa using hl)).1 rfl

theorem SoundStore.renew {g : Cfg} {st : LruStore (List Byte)} {l : LineAddr} {d : List Byte}
    (h : SoundStore g st) (hl : lineOf g.lineSize l = l) (hd : d.length = g.lineSize) :
    SoundStore g (lruRemove st l ++ [(l, d)]) :=
  (h.remove l).add (lruRemove_absent st l) hl hd

theorem SoundStore.find {g : Cfg} {st : LruStore (List Byte)} {l : LineAddr} {d : List Byte}
    (h : SoundStore g st) (hfind : lruFind st l = some d) :
    lineOf g.lineSize l = l ∧ d.length = g.lineSize := h.2 _ (assocFind_mem hfind)

theorem SoundStore.push {g : Cfg} {cap : Nat} {st st' : LruStore (List Byte)} {l : LineAddr}
    {d : List Byte} {v : Option (LineAddr × List Byte)} (h : SoundStore g st)
    (hl : lineOf g.lineSize l = l) (hd : d.length = g.lineSize)
    (hpush : lruPush cap st l d = (st', v)) :
    SoundStore g st' ∧ ∀ x, v = some x → lineOf g.lineSize x.1 = x.1 ∧ x.2.length = g.lineSize := by
  rcases lruPush_cases cap st l d with heq | ⟨habsent, w, rest, rfl, heq⟩ | ⟨habsent, heq⟩
  all_goals
    rw [heq] at hpush
    obtain ⟨rfl, rfl⟩ := Prod.mk.inj hpush
  · exact ⟨h.renew hl hd, fun x hx => nomatch hx⟩
  · have hrest : SoundStore g rest := h.sublist (List.sublist_cons_self w rest)
    refine ⟨hrest.add ?_ hl hd, fun x hx => ?_⟩
    · simp only [lruContains, List.any_cons, Bool.or_eq_false_iff] at habsent
      exact habsent.2
    · obtain rfl := Option.some.inj hx
      exact h.2 w List.mem_cons_self
  · exact ⟨h.add habsent hl hd, fun x hx => nomatch hx⟩

/-! ### The caches of the machine -/

/-- The line stores of the machine are sound, with no line in an absent shared cache. -/
structure SoundCaches (s : State) : Prop where
  line : 0 < s.cfg.lineSize
  l3 : SoundStore s.cfg s.l3
  absent : s.cfg.l3Lines = 0 → s.l3 = []
  l1d : ∀ c, SoundStore s.cfg (s.core c).l1d

theorem soundStores_iff {s : State} :
    SoundStores s ↔ SoundCaches s ∧ ∀ c, AsksForLines s.cfg (s.core c) :=
  ⟨fun ⟨hline, hl3, habsent, hcores⟩ =>
      ⟨⟨hline, hl3, habsent, fun c => (hcores c).1⟩, fun c => (hcores c).2⟩,
    fun ⟨h, hasks⟩ => ⟨h.line, h.l3, h.absent, fun c => ⟨h.l1d c, hasks c⟩⟩⟩

theorem SoundCaches.congr {s t : State} (h : SoundCaches s) (hcfg : t.cfg = s.cfg)
    (hl3 : t.l3 = s.l3) (hl1d : ∀ c, (t.core c).l1d = (s.core c).l1d) : SoundCaches t where
  line := hcfg ▸ h.line
  l3 := hcfg ▸ hl3 ▸ h.l3
  absent := hcfg ▸ hl3 ▸ h.absent
  l1d c := hcfg ▸ hl1d c ▸ h.l1d c

theorem SoundCaches.setL1d {s : State} {c : CoreId} {st : LruStore (List Byte)}
    (h : SoundCaches s) (hst : SoundStore s.cfg st) : SoundCaches (setL1d c st s) where
  line := h.line
  l3 := h.l3
  absent := h.absent
  l1d d := by
    rcases core_setCore_cases s c d { s.core c with l1d := st } with heq | ⟨-, heq⟩
    · rw [setL1d_eq, heq]
      exact h.l1d d
    · rw [setL1d_eq, heq]
      exact hst

theorem setReq_l1d (c : CoreId) (r : Option ReqState) (s : State) (d : CoreId) :
    ((setReq c r s).core d).l1d = (s.core d).l1d := by
  rcases core_setCore_cases s c d { s.core c with req := r } with heq | ⟨hd, heq⟩
  · rw [setReq_eq, heq]
  · rw [setReq_eq, heq, hd]

theorem SoundCaches.setReq {s : State} (h : SoundCaches s) (c : CoreId) (r : Option ReqState) :
    SoundCaches (setReq c r s) := h.congr rfl rfl (setReq_l1d c r s)

/-- The levels behind the L1D hold the shared cache and memory alone. -/
def LevelFrame (s t : State) : Prop := ∃ l3 mem, t = { s with l3 := l3, mem := mem }

theorem l3Push_levels (l : LineAddr) (data : List Byte) (s : State) :
    LevelFrame s (l3Push l data s) := by
  unfold l3Push
  dsimp only
  split
  · exact ⟨_, s.mem, rfl⟩
  · exact ⟨_, _, rfl⟩

theorem writeNext_levels (l : LineAddr) (data : List Byte) (s : State) :
    LevelFrame s (writeNext l data s) := by
  unfold writeNext
  split
  · exact l3Push_levels l data s
  · exact ⟨s.l3, _, rfl⟩

theorem nextRead_levels {l : LineAddr} {s t : State} {d : List Byte}
    (h : nextRead l s = .ok (d, t)) : LevelFrame s t := by
  rcases nextRead_ok h with ⟨st, -, rfl⟩ | ⟨-, ⟨-, rfl⟩ | ⟨-, rfl⟩⟩
  · exact ⟨st, s.mem, rfl⟩
  · exact l3Push_levels l d s
  · exact ⟨_, _, rfl⟩

theorem SoundCaches.l3Push {s : State} {l : LineAddr} {data : List Byte} (h : SoundCaches s)
    (hl3 : 0 < s.cfg.l3Lines) (hl : lineOf s.cfg.lineSize l = l)
    (hd : data.length = s.cfg.lineSize) : SoundCaches (l3Push l data s) := by
  have hst := (h.l3.push (cap := s.cfg.l3Lines) hl hd rfl).1
  unfold Machine.l3Push
  dsimp only
  split <;>
    exact ⟨h.line, hst, fun hzero => absurd hzero hl3.ne', h.l1d⟩

theorem SoundCaches.writeNext {s : State} {l : LineAddr} {data : List Byte} (h : SoundCaches s)
    (hl : lineOf s.cfg.lineSize l = l) (hd : data.length = s.cfg.lineSize) :
    SoundCaches (writeNext l data s) := by
  unfold Machine.writeNext
  split
  · exact h.l3Push (by assumption) hl hd
  · exact ⟨h.line, h.l3, h.absent, h.l1d⟩

theorem SoundCaches.nextRead {s t : State} {l : LineAddr} {d : List Byte} (h : SoundCaches s)
    (hl : lineOf s.cfg.lineSize l = l) (hread : nextRead l s = .ok (d, t)) :
    SoundCaches t ∧ d.length = s.cfg.lineSize := by
  rcases nextRead_ok hread with ⟨st, hst, rfl⟩ | ⟨rfl, ⟨hl3, rfl⟩ | ⟨-, rfl⟩⟩
  · obtain ⟨hfind, rfl⟩ := lruRead_ok.mp hst
    have hd := (h.l3.find hfind).2
    refine ⟨⟨h.line, h.l3.renew hl hd, fun hzero => ?_, h.l1d⟩, hd⟩
    rw [h.absent hzero] at hfind
    cases hfind
  · exact ⟨h.l3Push hl3 hl (readLine_length _ _ _), readLine_length _ _ _⟩
  · exact ⟨h, readLine_length _ _ _⟩

theorem SoundCaches.install {s : State} {c : CoreId} {l : LineAddr} {d : List Byte}
    (h : SoundCaches s) (hl : lineOf s.cfg.lineSize l = l) (hd : d.length = s.cfg.lineSize) :
    SoundCaches (install c l d s) := by
  rcases install_cases c l d s with ⟨st, hpush, heq⟩ | ⟨st, vl, vd, hpush, heq⟩
  all_goals
    rw [heq]
    obtain ⟨hst, hvictim⟩ := (h.l1d c).push hl hd hpush
  · exact h.setL1d hst
  · obtain ⟨hvl, hvd⟩ := hvictim _ rfl
    have hwritten : SoundCaches (if s.dirGet c vl = .m then Machine.writeNext vl vd
        (Machine.setL1d c st s) else Machine.setL1d c st s) := by
      split
      · exact (h.setL1d hst).writeNext hvl hvd
      · exact h.setL1d hst
    exact hwritten.congr rfl rfl fun _ => rfl

theorem SoundCaches.readData {s t : State} {c : CoreId} {src : Source} {l : LineAddr}
    {d : List Byte} (h : SoundCaches s) (hl : lineOf s.cfg.lineSize l = l)
    (hread : readData c src l s = .ok (d, t)) : SoundCaches t := by
  rcases readData_ok hread with ⟨-, st, hst, rfl⟩ | ⟨-, s1, hnext, rfl⟩
  · obtain ⟨hfind, rfl⟩ := lruRead_ok.mp hst
    exact h.setL1d ((h.l1d c).renew hl ((h.l1d c).find hfind).2)
  · obtain ⟨h1, hd⟩ := h.nextRead hl hnext
    obtain ⟨l3, mem, rfl⟩ := nextRead_levels hnext
    exact (h1.install hl hd).congr rfl rfl fun _ => rfl

theorem SoundCaches.fetchForWrite {s t : State} {c : CoreId} {src : Source} {l : LineAddr}
    (h : SoundCaches s) (hl : lineOf s.cfg.lineSize l = l)
    (hfetch : fetchForWrite c src l s = .ok t) : SoundCaches t := by
  rcases fetchForWrite_ok hfetch with rfl | ⟨d, s1, hnext, rfl⟩
  · exact h
  · obtain ⟨h1, hd⟩ := h.nextRead hl hnext
    obtain ⟨l3, mem, rfl⟩ := nextRead_levels hnext
    exact h1.install hl hd

theorem SoundCaches.complete {s t : State} {c : CoreId} {r : ReqState} {src : Source}
    {cells : List Host.Cell} (h : SoundCaches s) (hl : lineOf s.cfg.lineSize r.line = r.line)
    (hcomplete : complete c r src s = .ok (t, cells)) : SoundCaches t := by
  obtain ⟨m, -, ⟨-, d, s1, hread, hrelease, -⟩ | ⟨-, s1, st, hfetch, hwrite, -, hrelease, -⟩⟩ :=
    complete_ok hcomplete
  · obtain ⟨v, -, rfl⟩ := releaseLock_ok.mp hrelease
    exact (h.readData hl hread).congr rfl rfl fun _ => rfl
  · obtain ⟨v, -, rfl⟩ := releaseLock_ok.mp hrelease
    have h1 := h.fetchForWrite hl hfetch
    have hcfg : s1.cfg = s.cfg := (fetchForWrite_writes hfetch).frame.cfg
    obtain ⟨d, hfind, rfl⟩ := lruWrite_ok.mp hwrite
    have hst := (h1.l1d c).renew (hcfg ▸ hl)
      ((setLineBytes_length r.line d r.bytes).trans ((h1.l1d c).find hfind).2)
    exact (h1.setL1d (c := c) hst).congr rfl rfl fun _ => rfl

theorem SoundCaches.poll {s t : State} {c : CoreId} {who : Requester} {ph : Phase}
    (h : SoundCaches s) (hasks : AsksForLines s.cfg (s.core c))
    (hpoll : poll c who s = .ok (t, ph)) : SoundCaches t := by
  obtain ⟨r, hr, -, hadvance⟩ := poll_ok hpoll
  have hl := hasks.1 r hr
  rcases hadvance with ⟨-, hadvance⟩ | ⟨-, hadvance⟩
  · rcases advanceCached_ok hadvance with ⟨-, rfl, -⟩ | ⟨v, s1, keys, -, -, hcommands, -, rfl⟩ |
      ⟨keys, -, rfl, -⟩ | ⟨keys, -, -, -, rfl⟩ | ⟨n, src, -, -, -, rfl⟩ |
      ⟨n, src, s1, data, -, -, hcomplete, -, rfl⟩ | ⟨data, -, rfl, -⟩
    · exact h
    · obtain ⟨-, rfl⟩ := commands_ok hcommands
      refine SoundCaches.setReq ?_ c _
      exact h.congr rfl rfl fun _ => rfl
    · exact h
    · exact h.setReq c _
    · exact h.setReq c _
    · exact (h.complete hl hcomplete).setReq c _
    · exact h
  · rcases advanceUncached_ok hadvance with ⟨-, -, rfl⟩ | ⟨n, src, -, -, -, rfl⟩ |
      ⟨n, src, -, -, -, -, rfl⟩ | ⟨n, src, -, -, -, -, rfl⟩ | ⟨data, -, rfl, -⟩
    · exact h.setReq c _
    · exact h.setReq c _
    · exact h.setReq c _
    · refine SoundCaches.setReq ?_ c _
      exact h.congr rfl rfl fun _ => rfl
    · exact h

theorem SoundCaches.runCommand {s t : State} {key : CmdKey} (h : SoundCaches s)
    (hcommand : runCommand key s = .ok t) : SoundCaches t := by
  obtain ⟨s1, rfl, hs1⟩ := runCommand_ok hcommand
  refine SoundCaches.congr (s := s1) ?_ rfl rfl fun _ => rfl
  rcases hs1 with ⟨-, rfl⟩ | ⟨-, -, rfl⟩ | ⟨-, d, st, hread, rfl⟩
  · exact h
  · exact (h.setL1d ((h.l1d key.target).remove key.line)).congr rfl rfl fun _ => rfl
  · obtain ⟨hfind, rfl⟩ := lruRead_ok.mp hread
    obtain ⟨hl, hd⟩ := (h.l1d key.target).find hfind
    have hst := ((h.l1d key.target).renew hl hd).remove key.line
    have hlevels := writeNext_levels key.line d s
    have hwritten := h.writeNext hl hd
    obtain ⟨l3, mem, heq⟩ := hlevels
    rw [heq] at hwritten ⊢
    exact (hwritten.setL1d (c := key.target) hst).congr rfl rfl fun _ => rfl

/-! ### What a core asks for -/

theorem core_req_lt {s : State} {c : CoreId} {r : ReqState} (h : (s.core c).req = some r) :
    c < s.cores.length := by
  by_contra hc
  rw [State.core, List.getElem?_eq_none (not_lt.mp hc)] at h
  cases h

theorem req_setReq {s : State} {c : CoreId} (hc : c < s.cores.length) (r : Option ReqState) :
    ((setReq c r s).core c).req = r := by
  rw [setReq_eq, core_setCore_self s c _ hc]

/-- A poll moves the request of its core to the phase it answers, and may write its lock mode. -/
theorem poll_req {c : CoreId} {who : Requester} {s t : State} {ph : Phase}
    (h : poll c who s = .ok (t, ph)) :
    ∃ r mode, (s.core c).req = some r ∧
      (t.core c).req = some { r with mode := mode, phase := ph } := by
  obtain ⟨r, hr, -, hadvance⟩ := poll_ok h
  have hc := core_req_lt hr
  have hstay : ∀ ph, r.phase = ph → (s.core c).req = some { r with mode := r.mode, phase := ph } :=
    fun ph hph => by rw [hr, ← hph]
  rcases hadvance with ⟨-, hadvance⟩ | ⟨-, hadvance⟩
  · rcases advanceCached_ok hadvance with ⟨hph, rfl, rfl, -⟩ |
      ⟨v, s1, keys, -, -, hcommands, -, rfl⟩ | ⟨keys, hph, rfl, rfl, -⟩ | ⟨keys, -, -, -, rfl⟩ |
      ⟨n, src, -, -, -, rfl⟩ | ⟨n, src, s1, data, -, -, hcomplete, -, rfl⟩ |
      ⟨data, hph, rfl, rfl⟩
    · exact ⟨r, r.mode, hr, hstay _ hph⟩
    · obtain ⟨-, rfl⟩ := commands_ok hcommands
      exact ⟨r, _, hr, req_setReq (by exact hc) _⟩
    · exact ⟨r, r.mode, hr, hstay _ hph⟩
    · exact ⟨r, r.mode, hr, req_setReq hc _⟩
    · exact ⟨r, r.mode, hr, req_setReq hc _⟩
    · have hlength := (complete_writes hcomplete).frame.length
      exact ⟨r, r.mode, hr, req_setReq (hlength ▸ hc) _⟩
    · exact ⟨r, r.mode, hr, hstay _ hph⟩
  · rcases advanceUncached_ok hadvance with ⟨-, -, rfl⟩ | ⟨n, src, -, -, -, rfl⟩ |
      ⟨n, src, -, -, -, -, rfl⟩ | ⟨n, src, -, -, -, -, rfl⟩ | ⟨data, hph, rfl, rfl⟩
    · exact ⟨r, r.mode, hr, req_setReq hc _⟩
    · exact ⟨r, r.mode, hr, req_setReq hc _⟩
    · exact ⟨r, r.mode, hr, req_setReq hc _⟩
    · exact ⟨r, r.mode, hr, req_setReq (by exact hc) _⟩
    · exact ⟨r, r.mode, hr, hstay _ hph⟩

/-- What a core asks for is a matter of its request's line, its units and its store under way. -/
theorem AsksForLines.with_req {g : Cfg} {k k' : Core} (h : AsksForLines g k)
    (heu : k'.eu = k.eu) (hsprog : k'.sprog = k.sprog)
    (hreq : ∀ r, k'.req = some r → lineOf g.lineSize r.line = r.line) : AsksForLines g k' := by
  obtain ⟨-, hunits, hstore⟩ := h
  exact ⟨hreq, fun w todo got hw => hunits w todo got (heu ▸ hw), fun p hp => hstore p (hsprog ▸ hp)⟩

theorem setL1d_req (c : CoreId) (st : LruStore (List Byte)) (s : State) (d : CoreId) :
    ((setL1d c st s).core d).req = (s.core d).req := by
  rcases core_setCore_cases s c d { s.core c with l1d := st } with heq | ⟨hd, heq⟩
  · rw [setL1d_eq, heq]
  · rw [setL1d_eq, heq, hd]

/-- A snoop command leaves every request (R312). -/
theorem runCommand_req {key : CmdKey} {s t : State} (h : runCommand key s = .ok t) (d : CoreId) :
    (t.core d).req = (s.core d).req := by
  obtain ⟨s1, rfl, hs1⟩ := runCommand_ok h
  rcases hs1 with ⟨-, rfl⟩ | ⟨-, -, rfl⟩ | ⟨-, data, st, -, rfl⟩
  · rfl
  · exact setL1d_req _ _ s d
  · obtain ⟨l3, mem, heq⟩ := writeNext_levels key.line data s
    rw [heq]
    exact setL1d_req _ _ { s with l3 := l3, mem := mem } d

theorem CacheMove.asksForLines {c : CoreId} {s t : State} (h : CacheMove c s t)
    (hs : AsksForLines s.cfg (s.core c)) : AsksForLines t.cfg (t.core c) := by
  obtain ⟨-, heu, hsprog⟩ := h.frame.own_rob
  rw [h.frame.cfg]
  refine hs.with_req heu hsprog fun r' hr' => ?_
  have hsetReq : ∀ {u : State} {v : Option ReqState},
      ((setReq c v u).core c).req = some r' → v = some r' := fun hv => by
    have hc := core_req_lt hv
    rwa [req_setReq (by simpa using hc)] at hv
  cases h with
  | submit _ _ _ hl =>
    obtain rfl := Option.some.inj (hsetReq hr')
    exact hl hs
  | poll hpoll =>
    obtain ⟨r, mode, hr, ht⟩ := poll_req hpoll
    obtain rfl := Option.some.inj (ht.symm.trans hr')
    exact hs.1 r hr
  | finish => exact nomatch hsetReq hr'
  | abandon habandon =>
    rcases abandon_ok habandon with ⟨r, -, m, v, -, -, rfl⟩ | ⟨r, -, -, rfl⟩ | ⟨-, rfl⟩
    · exact nomatch hsetReq hr'
    · exact nomatch hsetReq hr'
    · exact hs.1 r' hr'
  | snoop hkey hcommand =>
    rw [runCommand_req hcommand] at hr'
    exact hs.1 r' hr'

theorem CacheMove.soundCaches {c : CoreId} {s t : State} (h : CacheMove c s t)
    (hs : SoundCaches s) (hasks : AsksForLines s.cfg (s.core c)) : SoundCaches t := by
  cases h with
  | submit => exact hs.setReq c _
  | poll hpoll => exact hs.poll hasks hpoll
  | finish hpoll => exact (hs.poll hasks hpoll).setReq c none
  | abandon habandon =>
    rcases abandon_ok habandon with ⟨r, -, m, v, -, -, rfl⟩ | ⟨r, -, -, rfl⟩ | ⟨-, rfl⟩
    · refine SoundCaches.setReq ?_ c none
      exact hs.congr rfl rfl fun _ => rfl
    · exact hs.setReq c none
    · exact hs
  | snoop _ hcommand => exact hs.runCommand hcommand

/-! ### Moves of a core's work -/

theorem WorkMove.caches {g : Cfg} {k k' : Core} {fs fs' : List Flush}
    (h : WorkMove g (k, fs) (k', fs')) : k'.l1d = k.l1d ∧ k'.req = k.req := by
  cases h with
  | same hsame => exact ⟨hsame.l1d, hsame.req⟩
  | issue di q _ _ _ _ hissue =>
    obtain ⟨ie, -, rfl⟩ := doIssue_ok hissue
    exact ⟨rfl, rfl⟩
  | wait hlift | read hlift | run out fl hlift =>
    obtain ⟨ie, rfl⟩ := hlift.keep
    exact ⟨rfl, rfl⟩
  | retire _ _ hretire =>
    obtain ⟨pw, -, rfl⟩ := retire_ok hretire
    exact ⟨rfl, rfl⟩
  | connect | decode | park | leave | flush | drain | begin | advance => exact ⟨rfl, rfl⟩

/-- Writing a unit keeps what a core asks for when the unit asks for whole lines alone. -/
theorem AsksForLines.set_unit {g : Cfg} {k k' : Core} {i : Nat} {e : EuState}
    (h : AsksForLines g k) (hreq : k'.req = k.req) (hsprog : k'.sprog = k.sprog)
    (heu : k'.eu = k.eu.set i e)
    (he : ∀ w todo got, e = .memRd w todo got → ∀ l ∈ todo, lineOf g.lineSize l = l) :
    AsksForLines g k' := by
  obtain ⟨hrequest, hunits, hstore⟩ := h
  refine ⟨fun r hr => hrequest r (hreq ▸ hr), fun w todo got hw => ?_,
    fun p hp => hstore p (hsprog ▸ hp)⟩
  rcases List.mem_or_eq_of_mem_set (heu ▸ hw) with hw | hw
  · exact hunits w todo got hw
  · exact he w todo got hw.symm

theorem WorkMove.asksForLines {g : Cfg} {k k' : Core} {fs fs' : List Flush}
    (h : WorkMove g (k, fs) (k', fs')) (hk : AsksForLines g k) : AsksForLines g k' := by
  have hreq := h.caches.2
  have hrequest : ∀ r, k'.req = some r → lineOf g.lineSize r.line = r.line := fun r hr =>
    hk.1 r (hreq ▸ hr)
  cases h with
  | same hsame => exact hk.with_req hsame.eu hsame.sprog hrequest
  | issue di q _ _ _ _ hissue =>
    obtain ⟨ie, -, rfl⟩ := doIssue_ok hissue
    exact hk
  | wait hlift =>
    obtain ⟨ie, rfl⟩ := hlift.keep
    exact hk.set_unit rfl rfl rfl fun _ _ _ he => nomatch he
  | read hlift hlines =>
    obtain ⟨ie, rfl⟩ := hlift.keep
    refine hk.set_unit rfl rfl rfl fun w todo got he => ?_
    obtain ⟨rfl, rfl, rfl⟩ := EuState.memRd.inj he
    exact hlines hk
  | run out fl hlift =>
    obtain ⟨ie, rfl⟩ := hlift.keep
    exact hk.set_unit rfl rfl rfl fun _ _ _ he => nomatch he
  | leave => exact hk.set_unit rfl rfl rfl fun _ _ _ he => nomatch he
  | flush =>
    refine ⟨hrequest, fun w todo got hw => ?_, hk.2.2⟩
    obtain ⟨e, he, heq⟩ := List.mem_map.mp hw
    split at heq
    · cases heq
    · exact hk.2.1 w todo got (heq ▸ he)
  | begin _ _ hlines =>
    refine ⟨hrequest, hk.2.1, fun p hp => ?_⟩
    obtain rfl := Option.some.inj hp
    exact hlines
  | advance hp hrest =>
    refine ⟨hrequest, hk.2.1, fun p' hp' l hl => ?_⟩
    obtain rfl := Option.some.inj hp'
    exact hk.2.2 _ hp l (hrest l hl)
  | retire _ _ hretire =>
    obtain ⟨pw, -, rfl⟩ := retire_ok hretire
    exact ⟨hrequest, hk.2.1, fun p hp => nomatch hp⟩
  | connect | decode | park | drain => exact hk

theorem withWork_l1d {s : State} {c : CoreId} {k : Core} {fs : List Flush}
    (h : k.l1d = (s.core c).l1d ∧ k.req = (s.core c).req) (d : CoreId) :
    ((s.withWork c (k, fs)).core d).l1d = (s.core d).l1d ∧
      ((s.withWork c (k, fs)).core d).req = (s.core d).req := by
  rcases core_setCore_cases s c d k with heq | ⟨hd, heq⟩
  · exact ⟨congrArg Core.l1d heq, congrArg Core.req heq⟩
  · subst hd
    exact ⟨(congrArg Core.l1d heq).trans h.1, (congrArg Core.req heq).trans h.2⟩

theorem Move.soundStores {c : CoreId} {s t : State} (hc : c < s.cores.length) (h : Move c s t)
    (hs : SoundStores s) : SoundStores t := by
  obtain ⟨hcaches, hasks⟩ := soundStores_iff.mp hs
  refine soundStores_iff.mpr ?_
  cases h with
  | @work p hmove =>
    obtain ⟨k, fs⟩ := p
    refine ⟨hcaches.congr rfl rfl fun d => (withWork_l1d hmove.caches d).1, fun d => ?_⟩
    by_cases hd : d = c
    · rw [hd, core_withWork_self hc]
      exact hmove.asksForLines (hasks c)
    · rw [core_withWork_ne s _ hd]
      exact hasks d
  | cache hmove =>
    refine ⟨hmove.soundCaches hcaches (hasks c), fun d => ?_⟩
    by_cases hd : d = c
    · exact hd ▸ hmove.asksForLines (hasks c)
    · rw [hmove.frame.others d hd, hmove.frame.cfg]
      exact hasks d
  | stop | unfocus => exact ⟨hcaches.congr rfl rfl fun _ => rfl, hasks⟩

end Sys2Proof.Machine
end

section
/-! SUPPORT. L1D and directory (R55 (a), (b), R296, R303, R305, R312): what an install, a completion and
a snoop command write of the directory, and that each L1D keeps to its row. -/

namespace Sys2Proof.Machine

/-- A core's L1D and its directory row agree on a line (R55 (b)). -/
def AgreeAt (s : State) (d : CoreId) (j : LineAddr) : Prop :=
  lruContains (s.core d).l1d j = true ↔ s.dirGet d j ≠ .i

/-- Every directory entry but core c's of line l stays or becomes I. -/
def DirShrinks (c : CoreId) (l : LineAddr) (s t : State) : Prop :=
  ∀ d j, ¬(d = c ∧ j = l) → t.dirGet d j = s.dirGet d j ∨ t.dirGet d j = .i

theorem dirGet_congr {s t : State} (h : t.dir = s.dir) (d : CoreId) (j : LineAddr) :
    t.dirGet d j = s.dirGet d j := by
  unfold State.dirGet
  rw [h]

theorem dirGet_dirSet_self (s : State) (c : CoreId) (l : LineAddr) (v : Msi) :
    (s.dirSet c l v).dirGet c l = v := by
  unfold State.dirGet
  rw [dirSet_dir, mapGet_set_self, mapGet_set_self]

theorem dirGet_dirSet_ne (s : State) {c d : CoreId} {l j : LineAddr} (v : Msi)
    (h : ¬(d = c ∧ j = l)) : (s.dirSet c l v).dirGet d j = s.dirGet d j := by
  unfold State.dirGet
  rw [dirSet_dir]
  by_cases hd : d = c
  · subst hd
    rw [mapGet_set_self, mapGet_set_ne _ _ _ fun hj => h ⟨rfl, hj⟩]
  · rw [mapGet_set_ne _ _ _ hd]

theorem AgreeAt.congr {s t : State} {d : CoreId} {j : LineAddr} (h : AgreeAt s d j)
    (hl1d : (t.core d).l1d = (s.core d).l1d) (hdir : t.dirGet d j = s.dirGet d j) :
    AgreeAt t d j := by
  unfold AgreeAt
  rw [hl1d, hdir]
  exact h

theorem core_setL1d_self {s : State} {c : CoreId} (hc : c < s.cores.length)
    (st : LruStore (List Byte)) : ((setL1d c st s).core c).l1d = st := by
  rw [setL1d_eq, core_setCore_self s c _ hc]

theorem core_setL1d_ne {s : State} {c d : CoreId} (h : d ≠ c) (st : LruStore (List Byte)) :
    (setL1d c st s).core d = s.core d := core_setCore_ne s _ (Ne.symm h)

/-! ### Installing a line (R296) -/

/-- A push holds the line pushed, and every line it held but the victim. -/
theorem lruPush_contains {cap : Nat} {st st' : LruStore (List Byte)} {l : LineAddr} {d : List Byte}
    {v : Option (LineAddr × List Byte)} (hst : (st.map Prod.fst).Nodup)
    (h : lruPush cap st l d = (st', v)) :
    lruContains st' l = true ∧ (v = none → ∀ j, j ≠ l →
        (lruContains st' j = true ↔ lruContains st j = true)) ∧
      ∀ x, v = some x → lruContains st' x.1 = false ∧ x.1 ≠ l ∧ ∀ j, j ≠ l → j ≠ x.1 →
        (lruContains st' j = true ↔ lruContains st j = true) := by
  rcases lruPush_cases cap st l d with heq | ⟨habsent, w, rest, rfl, heq⟩ | ⟨habsent, heq⟩
  all_goals
    rw [heq] at h
    obtain ⟨rfl, rfl⟩ := Prod.mk.inj h
  · refine ⟨(lruContains_renew st l l d).mpr (.inr rfl), fun _ j hj => ?_, fun x hx => nomatch hx⟩
    rw [lruContains_renew]
    exact or_iff_left hj
  · refine ⟨(lruContains_append rest l l d).mpr (.inr rfl), fun hv => (nomatch hv), fun x hx => ?_⟩
    obtain rfl := Option.some.inj hx
    simp only [lruContains, List.any_cons, Bool.or_eq_false_iff, decide_eq_false_iff_not] at habsent
    obtain ⟨hwl, -⟩ := habsent
    have hw : lruContains rest w.1 = false := by
      by_contra hw
      obtain ⟨e, he⟩ := lruContains_iff.mp (by simpa using hw)
      exact (List.nodup_cons.mp hst).1 (List.mem_map.mpr ⟨_, he, rfl⟩)
    refine ⟨?_, hwl, fun j hj hjw => ?_⟩
    · by_contra hin
      rcases (lruContains_append rest l w.1 d).mp (by simpa using hin) with hin | hin
      · rw [hw] at hin
        cases hin
      · exact hwl hin
    · have hcons : lruContains (w :: rest) j = lruContains rest j := by
        simp [lruContains, Ne.symm hjw]
      rw [lruContains_append, hcons]
      exact or_iff_left hj
  · refine ⟨(lruContains_append st l l d).mpr (.inr rfl), fun _ j hj => ?_, fun x hx => nomatch hx⟩
    rw [lruContains_append]
    exact or_iff_left hj

/-- What an install leaves: the line in the L1D, agreement everywhere else, and a directory that lost
at most the victim. -/
structure Installed (c : CoreId) (l : LineAddr) (s t : State) : Prop where
  length : t.cores.length = s.cores.length
  present : lruContains (t.core c).l1d l = true
  agree : ∀ d j, ¬(d = c ∧ j = l) → AgreeAt s d j → AgreeAt t d j
  shrinks : ∀ d j, t.dirGet d j = s.dirGet d j ∨ t.dirGet d j = .i

theorem install_installed {s : State} {c : CoreId} {l : LineAddr} {data : List Byte}
    (hc : c < s.cores.length) (hst : ((s.core c).l1d.map Prod.fst).Nodup) :
    Installed c l s (install c l data s) := by
  rcases install_cases c l data s with ⟨st, hpush, heq⟩ | ⟨st, vl, vd, hpush, heq⟩
  all_goals obtain ⟨hpresent, hkeep, hvictim⟩ := lruPush_contains hst hpush
  · rw [heq]
    have hkeep := hkeep rfl
    refine ⟨by simp, by rwa [core_setL1d_self hc], fun d j hdj h => ?_, fun d j => .inl rfl⟩
    by_cases hd : d = c
    · subst hd
      unfold AgreeAt
      rw [core_setL1d_self hc, hkeep j fun hj => hdj ⟨rfl, hj⟩]
      exact h
    · exact h.congr (by rw [core_setL1d_ne hd]) rfl
  · obtain ⟨hgone, hvl, hkeep⟩ := hvictim _ rfl
    have hlevels : ∃ l3 mem, (if s.dirGet c vl = .m then writeNext vl vd (setL1d c st s)
        else setL1d c st s) = { setL1d c st s with l3 := l3, mem := mem } := by
      split
      · exact writeNext_levels vl vd _
      · exact ⟨_, _, rfl⟩
    obtain ⟨l3, mem, hlevels⟩ := hlevels
    rw [heq, hlevels]
    have hcore : ∀ d, (({ setL1d c st s with l3 := l3, mem := mem } : State).dirSet c vl .i).core d
        = (setL1d c st s).core d := fun d => rfl
    have hdir : ∀ d j, ¬(d = c ∧ j = vl) → (({ setL1d c st s with l3 := l3, mem := mem } :
        State).dirSet c vl .i).dirGet d j = s.dirGet d j := fun d j hdj =>
      dirGet_dirSet_ne _ .i hdj
    refine ⟨by simp, by rw [hcore, core_setL1d_self hc]; exact hpresent, fun d j hdj h => ?_,
      fun d j => ?_⟩
    · by_cases hd : d = c
      · subst hd
        unfold AgreeAt
        rw [hcore, core_setL1d_self hc]
        by_cases hj : j = vl
        · subst hj
          rw [dirGet_dirSet_self, hgone]
          simp
        · rw [hkeep j (fun hjl => hdj ⟨rfl, hjl⟩) hj, hdir d j fun hv => hj hv.2]
          exact h
      · exact h.congr (by rw [hcore, core_setL1d_ne hd]) (hdir d j fun hv => hd hv.1)
    · by_cases hdj : d = c ∧ j = vl
      · obtain ⟨rfl, rfl⟩ := hdj
        exact .inr (dirGet_dirSet_self _ d j .i)
      · exact .inl (hdir d j hdj)

/-! ### Completing a request (R303, R305) -/

/-- What the completion of a request leaves: L1D and directory agree where they did, the directory
shrinks but for the request's own line, which a READ leaves Shared when it was fetched and a WRITE
leaves Modified with no peer holding it; its lock is released. -/
structure Completed (c : CoreId) (r : ReqState) (src : Source) (s t : State) : Prop where
  agree : ∀ d j, AgreeAt s d j → AgreeAt t d j
  shrinks : DirShrinks c r.line s t
  line : (r.kind = .read ∧ src = .l1 ∧ t.dirGet c r.line = s.dirGet c r.line) ∨
    (r.kind = .read ∧ src ≠ .l1 ∧ t.dirGet c r.line = .s) ∨
    (r.kind = .write ∧ t.dirGet c r.line = .m ∧ ∀ d ∈ peers s c, s.dirGet d r.line = .i)
  cmds : t.cmds = s.cmds
  lock : ∃ m v, r.mode = some m ∧ (s.semGet r.line).release m = .ok v ∧
    t.sem = mapSet .free s.sem r.line v

/-- Completion of a line that is in the L1D: its entry is set, all else stays. -/
theorem agree_dirSet {s t : State} {c : CoreId} {l : LineAddr} {v : Msi} (hv : v ≠ .i)
    (hpresent : lruContains (t.core c).l1d l = true)
    (h : ∀ d j, ¬(d = c ∧ j = l) → AgreeAt s d j → AgreeAt t d j) (d : CoreId) (j : LineAddr)
    (hs : AgreeAt s d j) : AgreeAt (t.dirSet c l v) d j := by
  by_cases hdj : d = c ∧ j = l
  · obtain ⟨rfl, rfl⟩ := hdj
    exact iff_of_true hpresent (by rwa [dirGet_dirSet_self])
  · exact (h d j hdj hs).congr rfl (dirGet_dirSet_ne t v hdj)

theorem dirShrinks_dirSet {s t : State} {c : CoreId} {l : LineAddr} {v : Msi}
    (h : ∀ d j, t.dirGet d j = s.dirGet d j ∨ t.dirGet d j = .i) :
    DirShrinks c l s (t.dirSet c l v) := by
  intro d j hdj
  rw [dirGet_dirSet_ne t v hdj]
  exact h d j

/-- The controller leaves semaphores and commands alone while it moves lines. -/
theorem install_sem (c : CoreId) (l : LineAddr) (data : List Byte) (s : State) :
    (install c l data s).sem = s.sem ∧ (install c l data s).cmds = s.cmds := by
  rcases install_cases c l data s with ⟨st, -, heq⟩ | ⟨st, vl, vd, -, heq⟩
  · rw [heq]
    exact ⟨rfl, rfl⟩
  · rw [heq]
    split
    · obtain ⟨l3, mem, hlevels⟩ := writeNext_levels vl vd (setL1d c st s)
      rw [hlevels]
      exact ⟨rfl, rfl⟩
    · exact ⟨rfl, rfl⟩

/-- Fetching a line to be written keeps the agreement off that line. -/
theorem fetchForWrite_agree {s t : State} {c : CoreId} {src : Source} {l : LineAddr}
    (hc : c < s.cores.length) (hst : ((s.core c).l1d.map Prod.fst).Nodup)
    (h : fetchForWrite c src l s = .ok t) :
    (∀ d j, ¬(d = c ∧ j = l) → AgreeAt s d j → AgreeAt t d j) ∧
      (∀ d j, t.dirGet d j = s.dirGet d j ∨ t.dirGet d j = .i) ∧ t.sem = s.sem ∧
      t.cmds = s.cmds := by
  rcases fetchForWrite_ok h with rfl | ⟨d, s1, hnext, rfl⟩
  · exact ⟨fun _ _ _ hs => hs, fun _ _ => .inl rfl, rfl, rfl⟩
  · obtain ⟨l3, mem, rfl⟩ := nextRead_levels hnext
    have hinstalled := install_installed (l := l) (data := d)
      (s := { s with l3 := l3, mem := mem }) hc hst
    obtain ⟨hsem, hcmds⟩ := install_sem c l d { s with l3 := l3, mem := mem }
    exact ⟨hinstalled.agree, hinstalled.shrinks, hsem, hcmds⟩

theorem complete_completed {s t : State} {c : CoreId} {r : ReqState} {src : Source}
    {cells : List Host.Cell} (hc : c < s.cores.length)
    (hst : ((s.core c).l1d.map Prod.fst).Nodup) (h : complete c r src s = .ok (t, cells)) :
    Completed c r src s t := by
  obtain ⟨m, hm, ⟨hkind, d, s1, hread, hrelease, -⟩ |
    ⟨hkind, s1, st, hfetch, hwrite, hpeers, hrelease, -⟩⟩ := complete_ok h
  all_goals obtain ⟨v, hv, rfl⟩ := releaseLock_ok.mp hrelease
  · rcases readData_ok hread with ⟨rfl, st, hst', rfl⟩ | ⟨hsrc, s2, hnext, rfl⟩
    · obtain ⟨d', hfind, rfl⟩ : ∃ d', lruFind (s.core c).l1d r.line = some d' ∧
          st = lruRemove (s.core c).l1d r.line ++ [(r.line, d')] :=
        ⟨d, (lruRead_ok.mp hst').1, (lruRead_ok.mp hst').2⟩
      have hpresent := (lruFind_some_iff_contains _ _).mp ⟨d', hfind⟩
      refine ⟨fun e j hs => ?_, fun _ _ _ => .inl rfl, .inl ⟨hkind, rfl, rfl⟩, rfl,
        m, v, hm, hv, rfl⟩
      by_cases he : e = c
      · subst he
        unfold AgreeAt
        rw [core_semSet, core_setL1d_self hc, lruContains_renew]
        refine Iff.trans ⟨fun hj => ?_, .inl⟩ hs
        exact hj.elim id fun hj => hj ▸ hpresent
      · exact hs.congr (by rw [core_semSet, core_setL1d_ne he]) rfl
    · obtain ⟨l3, mem, rfl⟩ := nextRead_levels hnext
      have hinstalled := install_installed (l := r.line) (data := d)
        (s := { s with l3 := l3, mem := mem }) hc hst
      obtain ⟨hsem, hcmds⟩ := install_sem c r.line d { s with l3 := l3, mem := mem }
      refine ⟨fun e j hs => ?_, dirShrinks_dirSet hinstalled.shrinks,
        .inr (.inl ⟨hkind, hsrc, dirGet_dirSet_self _ c r.line .s⟩), hcmds, m, v, hm, ?_, ?_⟩
      · exact agree_dirSet (by decide) hinstalled.present hinstalled.agree e j hs
      · have hsame : ((install c r.line d { s with l3 := l3, mem := mem }).dirSet c r.line
            .s).semGet r.line = s.semGet r.line := by
          simp only [State.semGet, dirSet_sem, hsem]
        exact hsame ▸ hv
      · simp only [semSet_sem, dirSet_sem, hsem]
  · obtain ⟨hagree, hshrinks, hsem, hcmds⟩ := fetchForWrite_agree hc hst hfetch
    have hc1 : c < s1.cores.length := by rwa [(fetchForWrite_writes hfetch).frame.length]
    obtain ⟨d, hfind, rfl⟩ := lruWrite_ok.mp hwrite
    refine ⟨fun e j hs => ?_, dirShrinks_dirSet hshrinks,
      .inr (.inr ⟨hkind, dirGet_dirSet_self _ c r.line .m, hpeers⟩), hcmds, m, v, hm, ?_, ?_⟩
    · refine agree_dirSet (t := setL1d c _ s1) (by decide) ?_ (fun e j hej hs => ?_) e j hs
      · rw [core_setL1d_self hc1, lruContains_renew]
        exact .inr rfl
      · have h1 := hagree e j hej hs
        by_cases he : e = c
        · subst he
          unfold AgreeAt
          rw [core_setL1d_self hc1, lruContains_renew, or_iff_left fun hj => hej ⟨rfl, hj⟩]
          exact h1
        · exact h1.congr (by rw [core_setL1d_ne he]) rfl
    · have hsame : ((setL1d c (lruRemove (s1.core c).l1d r.line
          ++ [(r.line, setLineBytes r.line d r.bytes)]) s1).dirSet c r.line .m).semGet r.line
          = s.semGet r.line := by simp only [State.semGet, dirSet_sem, setL1d_sem, hsem]
      exact hsame ▸ hv
    · simp only [semSet_sem, dirSet_sem, setL1d_sem, hsem]

/-! ### Snoop commands (R312) -/

/-- What a snoop command leaves: L1D and directory agree where they did, the directory shrinks, its own
entry is I and it is done; the semaphores stay. -/
structure Snooped (key : CmdKey) (s t : State) : Prop where
  agree : ∀ d j, AgreeAt s d j → AgreeAt t d j
  shrinks : ∀ d j, t.dirGet d j = s.dirGet d j ∨ t.dirGet d j = .i
  dropped : t.dirGet key.target key.line = .i
  cmds : t.cmds = cmdDone key s.cmds
  sem : t.sem = s.sem

/-- Dropping a line from an L1D and from its directory row. -/
theorem dropLine_agree {s : State} {c : CoreId} {l : LineAddr} {st : LruStore (List Byte)}
    (hc : c < s.cores.length)
    (hst : ∀ j, lruContains st j = true ↔ j ≠ l ∧ lruContains (s.core c).l1d j = true)
    (d : CoreId) (j : LineAddr) (h : AgreeAt s d j) :
    AgreeAt ((setL1d c st s).dirSet c l .i) d j := by
  by_cases hd : d = c
  · subst hd
    unfold AgreeAt
    rw [core_dirSet, core_setL1d_self hc, hst]
    by_cases hj : j = l
    · subst hj
      rw [dirGet_dirSet_self]
      simp
    · rw [dirGet_dirSet_ne _ _ fun hv => hj hv.2]
      exact Iff.trans ⟨fun hv => hv.2, fun hv => ⟨hj, hv⟩⟩ h
  · refine h.congr (by rw [core_dirSet, core_setL1d_ne hd]) ?_
    exact dirGet_dirSet_ne _ _ fun hv => hd hv.1

theorem dropLine_shrinks (s : State) (c : CoreId) (l : LineAddr) (st : LruStore (List Byte))
    (d : CoreId) (j : LineAddr) :
    ((setL1d c st s).dirSet c l .i).dirGet d j = s.dirGet d j ∨
      ((setL1d c st s).dirSet c l .i).dirGet d j = .i := by
  by_cases hdj : d = c ∧ j = l
  · obtain ⟨rfl, rfl⟩ := hdj
    exact .inr (dirGet_dirSet_self _ d j .i)
  · exact .inl (dirGet_dirSet_ne _ .i hdj)

theorem runCommand_snooped {s t : State} {key : CmdKey} (hc : key.target < s.cores.length)
    (h : runCommand key s = .ok t) : Snooped key s t := by
  obtain ⟨s1, rfl, hs1⟩ := runCommand_ok h
  rcases hs1 with ⟨hi, rfl⟩ | ⟨-, -, rfl⟩ | ⟨-, d, st, hread, rfl⟩
  · exact ⟨fun _ _ hs => hs, fun _ _ => .inl rfl, hi, rfl, rfl⟩
  · exact ⟨dropLine_agree hc (lruContains_remove _ _), dropLine_shrinks s _ _ _,
      dirGet_dirSet_self _ _ _ .i, rfl, rfl⟩
  · obtain ⟨hfind, rfl⟩ := lruRead_ok.mp hread
    obtain ⟨l3, mem, heq⟩ := writeNext_levels key.line d s
    rw [heq]
    refine ⟨dropLine_agree (s := { s with l3 := l3, mem := mem }) hc fun j => ?_,
      dropLine_shrinks { s with l3 := l3, mem := mem } _ _ _, dirGet_dirSet_self _ _ _ .i, rfl, rfl⟩
    rw [lruContains_remove, lruContains_renew]
    exact and_congr_right fun hj => or_iff_left hj

end Sys2Proof.Machine
end

section
/-! SUPPORT. Locks (R295, R300, R301): what a move of a core's cycle does to the semaphores and to the
locks its request holds, that the semaphores count the locks, and that a write lock is held alone. -/

namespace Sys2Proof.Machine

/-! ### One lock -/

theorem lockHeld_of_req {k : Core} {r : ReqState} (h : k.req = some r) (l : LineAddr) :
    lockHeld k l = if r.line = l then r.mode else none := by
  simp only [lockHeld, h]

theorem lockHeld_of_no_req {k : Core} (h : k.req = none) (l : LineAddr) : lockHeld k l = none := by
  simp only [lockHeld, h]

theorem lockHeld_of_no_mode {k : Core} {r : ReqState} (h : k.req = some r) (hm : r.mode = none)
    (l : LineAddr) : lockHeld k l = none := by
  rw [lockHeld_of_req h, hm, ite_self]

/-- The lock held is a matter of the request's line and mode. -/
theorem lockHeld_congr {k k' : Core} {r r' : ReqState} (h : k.req = some r) (h' : k'.req = some r')
    (hline : r'.line = r.line) (hmode : r'.mode = r.mode) (l : LineAddr) :
    lockHeld k' l = lockHeld k l := by
  rw [lockHeld_of_req h, lockHeld_of_req h', hline, hmode]

theorem semGet_congr {s t : State} (h : t.sem = s.sem) (l : LineAddr) : t.semGet l = s.semGet l := by
  unfold State.semGet
  rw [h]

theorem semGet_of_mapSet {s t : State} {l : LineAddr} {v : Sem} (h : t.sem = mapSet .free s.sem l v)
    (j : LineAddr) : t.semGet j = if j = l then v else s.semGet j := by
  unfold State.semGet
  rw [h]
  split
  · rename_i hj
    rw [hj, mapGet_set_self]
  · rename_i hj
    rw [mapGet_set_ne _ _ _ hj]

/-! ### What a move does to the locks -/

/-- A move of core c takes a lock, gives one up, or leaves the locks as they are. (Without data caches
requests take none, and a lock of the start stays where it is.) -/
inductive LockMove (c : CoreId) (s t : State) : Prop
  | keep : t.sem = s.sem →
      (s.cfg.l1dPresent = true → ∀ j, lockHeld (t.core c) j = lockHeld (s.core c) j) → LockMove c s t
  | take {l m v} : (s.semGet l).tryLock m = some v → t.sem = mapSet .free s.sem l v →
      (∀ j, lockHeld (s.core c) j = none) →
      (∀ j, lockHeld (t.core c) j = if l = j then some m else none) → LockMove c s t
  | give {l m v} : (s.semGet l).release m = .ok v → t.sem = mapSet .free s.sem l v →
      (∀ j, lockHeld (s.core c) j = if l = j then some m else none) →
      (∀ j, lockHeld (t.core c) j = none) → LockMove c s t

/-- A request of a machine with data caches stands in the protocol. -/
def OwnSound (s : State) (c : CoreId) : Prop :=
  s.cfg.l1dPresent = true → ∀ r, (s.core c).req = some r → RequestSound s c r

/-- Two states with the same semaphores, directory, snoop commands and L1Ds. -/
structure SameShared (s t : State) : Prop where
  sem : t.sem = s.sem
  dir : t.dir = s.dir
  cmds : t.cmds = s.cmds
  l1d : ∀ d, (t.core d).l1d = (s.core d).l1d

/-- Without data caches a request moves memory and itself alone (R310). -/
theorem advanceUncached_shared {c : CoreId} {r : ReqState} {s t : State} {ph : Phase}
    (h : advanceUncached c r s = .ok (t, ph)) : SameShared s t := by
  have hmoved : ∀ mem req, SameShared s (setReq c req { s with mem := mem }) := fun mem req =>
    ⟨rfl, rfl, rfl, setReq_l1d c req { s with mem := mem }⟩
  rcases advanceUncached_ok h with ⟨-, -, rfl⟩ | ⟨n, src, -, -, -, rfl⟩ |
    ⟨n, src, -, -, -, -, rfl⟩ | ⟨n, src, -, -, -, -, rfl⟩ | ⟨data, -, rfl, -⟩
  · exact hmoved s.mem _
  · exact hmoved s.mem _
  · exact hmoved s.mem _
  · exact hmoved _ _
  · exact ⟨rfl, rfl, rfl, fun _ => rfl⟩

theorem poll_lockMove {c : CoreId} {who : Requester} {s t : State} {ph : Phase}
    (hown : OwnSound s c) (h : poll c who s = .ok (t, ph)) (hph : ∀ data, ph ≠ .finished data) :
    LockMove c s t := by
  obtain ⟨r, hr, -, ⟨hcached, hadvance⟩ | ⟨huncached, hadvance⟩⟩ := poll_ok h
  · have hc := core_req_lt hr
    have hmoved : ∀ ph : Phase, LockMove c s (setReq c (some { r with phase := ph }) s) := fun _ =>
      .keep rfl fun _ => lockHeld_congr hr (req_setReq hc _) rfl rfl
    rcases advanceCached_ok hadvance with ⟨-, rfl, -⟩ |
      ⟨v, s1, keys, hlocking, htake, hcommands, -, rfl⟩ | ⟨keys, -, rfl, -⟩ |
      ⟨keys, -, -, -, rfl⟩ | ⟨n, src, -, -, -, rfl⟩ | ⟨n, src, s1, data, -, -, -, hfinished, -⟩ |
      ⟨data, -, -, hfinished⟩
    · exact .keep rfl fun _ _ => rfl
    · obtain ⟨-, rfl⟩ := commands_ok hcommands
      obtain ⟨hmode, -⟩ := hown hcached r hr
      exact .take htake rfl (lockHeld_of_no_mode hr (hmode.mp hlocking))
        (lockHeld_of_req (req_setReq (by exact hc) _))
    · exact .keep rfl fun _ _ => rfl
    · exact hmoved _
    · exact hmoved _
    · exact absurd hfinished (hph data)
    · exact absurd hfinished (hph data)
  · exact .keep (advanceUncached_shared hadvance).sem fun hcached =>
      absurd hcached (by simp [huncached])

theorem finish_lockMove {c : CoreId} {who : Requester} {s t : State} {data : List Host.Cell}
    (hstores : SoundCaches s) (hown : OwnSound s c)
    (h : poll c who s = .ok (t, .finished data)) : LockMove c s (setReq c none t) := by
  have hnone : ∀ j, lockHeld ((setReq c none t).core c) j = none := by
    refine lockHeld_of_no_req (req_setReq ?_ none)
    obtain ⟨r, mode, -, hr⟩ := poll_req h
    exact core_req_lt hr
  obtain ⟨r, hr, -, ⟨hcached, hadvance⟩ | ⟨huncached, hadvance⟩⟩ := poll_ok h
  · have hc := core_req_lt hr
    obtain ⟨-, -, hunfinished, -⟩ := hown hcached r hr
    rcases advanceCached_ok hadvance with ⟨-, -, hph, -⟩ | ⟨v, s1, keys, -, -, -, hph, -⟩ |
      ⟨keys, -, -, hph, -⟩ | ⟨keys, -, -, hph, -⟩ | ⟨n, src, -, -, hph, -⟩ |
      ⟨n, src, s1, d, -, -, hcomplete, -, rfl⟩ | ⟨d, hfinished, -⟩
    · cases hph
    · split at hph
      · exact absurd hph.symm (enterAccess_not_finished _ _ _ _)
      · cases hph
    · cases hph
    · exact absurd hph.symm (enterAccess_not_finished _ _ _ _)
    · cases hph
    · obtain ⟨m, v, hm, hrelease, hsem⟩ :=
        (complete_completed hc (hstores.l1d c).1 hcomplete).lock
      exact .give hrelease hsem (fun j => by rw [lockHeld_of_req hr, hm]) hnone
    · exact absurd hfinished (hunfinished d)
  · exact .keep (advanceUncached_shared hadvance).sem fun hcached =>
      absurd hcached (by simp [huncached])

theorem CacheMove.lockMove {c : CoreId} {s t : State} (hc : c < s.cores.length)
    (hstores : SoundCaches s) (hown : OwnSound s c) (h : CacheMove c s t) : LockMove c s t := by
  cases h with
  | submit hnone hmode =>
    refine .keep rfl fun _ j => ?_
    rw [lockHeld_of_no_mode (req_setReq hc _) hmode, lockHeld_of_no_req hnone]
  | poll hpoll hph => exact poll_lockMove hown hpoll hph
  | finish hpoll => exact finish_lockMove hstores hown hpoll
  | abandon habandon =>
    rcases abandon_ok habandon with ⟨r, hr, m, v, hm, hrelease, rfl⟩ | ⟨r, hr, hm, rfl⟩ | ⟨-, rfl⟩
    · exact .give hrelease rfl (fun j => by rw [lockHeld_of_req hr, hm])
        (lockHeld_of_no_req (req_setReq (by exact hc) none))
    · refine .keep rfl fun _ j => ?_
      rw [lockHeld_of_no_req (req_setReq hc none), lockHeld_of_no_mode hr hm]
    · exact .keep rfl fun _ _ => rfl
  | snoop hkey hcommand =>
    refine .keep (runCommand_snooped (hkey ▸ hc) hcommand).sem fun _ j => ?_
    simp only [lockHeld, runCommand_req hcommand]

theorem Move.lockMove {c : CoreId} {s t : State} (hc : c < s.cores.length)
    (hstores : SoundCaches s) (hown : OwnSound s c) (h : Move c s t) : LockMove c s t := by
  cases h with
  | @work p hmove =>
    obtain ⟨k, fs⟩ := p
    refine .keep rfl fun _ j => ?_
    simp only [lockHeld, (withWork_l1d hmove.caches c).2]
  | cache hmove => exact hmove.lockMove hc hstores hown
  | stop | unfocus => exact .keep rfl fun _ _ => rfl

/-! ### Semaphores exclude (R55 (c)) -/

theorem LockMove.semsExclusive {c : CoreId} {s t : State} (h : LockMove c s t)
    (hs : SemsExclusive s) : SemsExclusive t := by
  have hset : ∀ {l v}, t.sem = mapSet .free s.sem l v → (v.writer = true → v.readers = 0) →
      SemsExclusive t := by
    intro l v hsem hv j
    rw [semGet_of_mapSet hsem]
    split
    · exact hv
    · exact hs j
  cases h with
  | keep hsem => exact fun j => semGet_congr hsem j ▸ hs j
  | take htake hsem =>
    obtain ⟨hfree, ⟨-, rfl⟩ | ⟨-, hreaders, rfl⟩⟩ := Sem.tryLock_some.mp htake
    · exact hset hsem fun hw => absurd hw (by simp [hfree])
    · exact hset hsem fun _ => hreaders
  | @give l m v hrelease hsem =>
    rcases Sem.release_ok.mp hrelease with ⟨-, hreaders, rfl⟩ | ⟨-, hw, rfl⟩
    · exact hset hsem fun hw => absurd (hs l hw) hreaders.ne'
    · exact hset hsem fun hw => nomatch hw

/-! ### Semaphores count the locks (R36, R300) -/

/-- A core's part in the count of a lock's holders. -/
def holds (k : Core) (l : LineAddr) (m : LockMode) : Nat := if lockHeld k l = some m then 1 else 0

theorem holders_eq_countP (s : State) (l : LineAddr) (m : LockMode) :
    holders s l m = s.cores.countP (fun k => decide (lockHeld k l = some m)) :=
  (List.countP_eq_length_filter ..).symm

/-- Writing a core changes the count of a lock's holders by that core's part. -/
theorem holders_update {c : CoreId} {s t : State} (hc : c < s.cores.length)
    (hlength : t.cores.length = s.cores.length) (hothers : ∀ d, d ≠ c → t.core d = s.core d)
    (l : LineAddr) (m : LockMode) :
    holders t l m + holds (s.core c) l m = holders s l m + holds (t.core c) l m := by
  have hget : ∀ {u : State} {d : CoreId} (hd : d < u.cores.length), u.cores[d] = u.core d :=
    fun hd => by simp [State.core, hd]
  have hcores : t.cores = s.cores.set c (t.core c) := by
    refine List.ext_getElem (by rw [hlength, List.length_set]) fun d hd hd' => ?_
    rw [List.getElem_set, hget hd]
    split
    · rename_i heq
      rw [heq]
    · rename_i hne
      rw [hothers d (Ne.symm hne), hget]
  have hcount : holds (s.core c) l m ≤ holders s l m := by
    rw [holders_eq_countP]
    unfold holds
    split
    · rename_i hheld
      exact List.countP_pos_iff.mpr ⟨_, core_mem hc, decide_eq_true hheld⟩
    · exact Nat.zero_le _
  have hset : holders t l m = holders s l m - holds (s.core c) l m + holds (t.core c) l m := by
    simp only [holders_eq_countP, holds]
    rw [hcores, List.countP_set hc, hget hc]
    simp only [decide_eq_true_eq]
  omega

theorem holders_pos {s : State} {c : CoreId} {l : LineAddr} {m : LockMode} (hc : c < s.cores.length)
    (h : lockHeld (s.core c) l = some m) : 0 < holders s l m := by
  rw [holders_eq_countP]
  exact List.countP_pos_iff.mpr ⟨_, core_mem hc, decide_eq_true h⟩

theorem LockMove.locksCounted {c : CoreId} {s t : State} (hc : c < s.cores.length)
    (hcached : s.cfg.l1dPresent = true)
    (hlength : t.cores.length = s.cores.length) (hothers : ∀ d, d ≠ c → t.core d = s.core d)
    (h : LockMove c s t) (hs : LocksCounted s) : LocksCounted t := by
  intro j
  obtain ⟨hreaders, hwriters⟩ := hs j
  have hread := holders_update hc hlength hothers j .read
  have hwrite := holders_update hc hlength hothers j .write
  unfold holds at hread hwrite
  cases h with
  | keep hsem hheld =>
    rw [hheld hcached] at hread hwrite
    rw [semGet_congr hsem]
    omega
  | @take l m v htake hsem hnone hheld =>
    rw [hnone, hheld] at hread hwrite
    rw [semGet_of_mapSet hsem]
    by_cases hj : j = l
    · subst hj
      obtain ⟨hfree, ⟨rfl, rfl⟩ | ⟨rfl, -, rfl⟩⟩ := Sem.tryLock_some.mp htake
      all_goals
        simp [hfree] at hread hwrite hwriters ⊢
        omega
    · rw [if_neg (Ne.symm hj)] at hread hwrite
      rw [if_neg hj]
      omega
  | @give l m v hrelease hsem hheld hnone =>
    rw [hnone, hheld] at hread hwrite
    rw [semGet_of_mapSet hsem]
    by_cases hj : j = l
    · subst hj
      rcases Sem.release_ok.mp hrelease with ⟨rfl, hpos, rfl⟩ | ⟨rfl, hw, rfl⟩
      · simp at hread hwrite ⊢
        omega
      · simp [hw] at hread hwrite hwriters ⊢
        omega
    · rw [if_neg (Ne.symm hj)] at hread hwrite
      rw [if_neg hj]
      omega

/-- A write lock is held alone. -/
theorem write_lock_alone {s : State} (hsems : SemsExclusive s) (hcounted : LocksCounted s)
    {c d : CoreId} {l : LineAddr} (hc : c < s.cores.length) (hd : d < s.cores.length) (hcd : d ≠ c)
    (hwrite : lockHeld (s.core c) l = some .write) : lockHeld (s.core d) l = none := by
  obtain ⟨hreaders, hwriters⟩ := hcounted l
  have hwriter : (s.semGet l).writer = true := by
    by_contra hfree
    rw [if_neg hfree] at hwriters
    exact (holders_pos hc hwrite).ne' hwriters
  rw [hsems l hwriter] at hreaders
  rw [if_pos hwriter] at hwriters
  cases hheld : lockHeld (s.core d) l with
  | none => rfl
  | some m =>
    exfalso
    cases m with
    | read => exact (holders_pos hd hheld).ne hreaders
    | write =>
      have hupdate := holders_update (t := setReq c none s) hc (by simp)
        (fun e he => core_setCore_ne s _ (Ne.symm he)) l .write
      have hrest : 0 < holders (setReq c none s) l .write :=
        holders_pos (c := d) (by simpa using hd)
          (by rw [setReq_eq, core_setCore_ne s _ (Ne.symm hcd), hheld])
      simp [holds, hwrite, lockHeld_of_no_req (req_setReq hc none)] at hupdate
      omega

end Sys2Proof.Machine
end

section
/-! SUPPORT. The coherence protocol (R300, R302, R306): what a move of a core's cycle does to the
directory, and that it keeps MSI exclusion, the agreement of L1D and directory, and every request in
the protocol. -/

namespace Sys2Proof.Machine

/-! ### Snoop commands (R302, R312) -/

theorem cmdFind_append (k : CmdKey) (t u : List (CmdKey × CmdStatus)) :
    cmdFind k (t ++ u) = (cmdFind k t).or (cmdFind k u) := by
  induction t with
  | nil => rfl
  | cons e t ih =>
    simp only [List.cons_append, cmdFind, ih]
    split <;> rfl

theorem cmdFind_filter_self (k : CmdKey) (t : List (CmdKey × CmdStatus)) :
    cmdFind k (t.filter (fun e => decide (e.1 ≠ k))) = none := by
  induction t with
  | nil => rfl
  | cons e t ih =>
    by_cases he : e.1 = k
    · simpa [he] using ih
    · rw [List.filter_cons_of_pos (by simpa using he), cmdFind, if_neg he, ih]

theorem cmdFind_filter_ne {k j : CmdKey} (h : k ≠ j) (t : List (CmdKey × CmdStatus)) :
    cmdFind k (t.filter (fun e => decide (e.1 ≠ j))) = cmdFind k t := by
  induction t with
  | nil => rfl
  | cons e t ih =>
    by_cases he : e.1 = j
    · rw [List.filter_cons_of_neg (by simpa using he), cmdFind, if_neg (he ▸ h.symm), ih]
    · rw [List.filter_cons_of_pos (by simpa using he), cmdFind, cmdFind, ih]

theorem cmdFind_armCmd_self (k : CmdKey) (t : List (CmdKey × CmdStatus)) :
    cmdFind k (armCmd k t) = some .pending := by
  unfold armCmd
  split
  · assumption
  · rw [cmdFind_append, cmdFind_filter_self]
    simp [cmdFind]

theorem cmdFind_armCmd_ne {k j : CmdKey} (h : k ≠ j) (t : List (CmdKey × CmdStatus)) :
    cmdFind k (armCmd j t) = cmdFind k t := by
  unfold armCmd
  split
  · rfl
  · rw [cmdFind_append, cmdFind_filter_ne h]
    simp [cmdFind, Ne.symm h]

/-- Arming commands leaves the pending ones pending. -/
theorem pending_armCmd {k : CmdKey} (j : CmdKey) {t : List (CmdKey × CmdStatus)}
    (h : cmdFind k t = some .pending) : cmdFind k (armCmd j t) = some .pending := by
  by_cases hk : k = j
  · rw [hk]
    exact cmdFind_armCmd_self j t
  · rwa [cmdFind_armCmd_ne hk]

theorem pending_armAll {k : CmdKey} (keys : List CmdKey) {t : List (CmdKey × CmdStatus)}
    (h : cmdFind k t = some .pending) :
    cmdFind k (keys.foldl (fun t j => armCmd j t) t) = some .pending :=
  List.foldlRecOn (motive := fun t => cmdFind k t = some .pending) keys _ h
    fun _ ht j _ => pending_armCmd j ht

/-- Every command armed is pending. -/
theorem armed_pending {k : CmdKey} {keys : List CmdKey} (hk : k ∈ keys)
    (t : List (CmdKey × CmdStatus)) :
    cmdFind k (keys.foldl (fun t j => armCmd j t) t) = some .pending := by
  induction keys generalizing t with
  | nil => cases hk
  | cons j rest ih =>
    rcases List.mem_cons.mp hk with rfl | hk
    · exact pending_armAll rest (cmdFind_armCmd_self k t)
    · exact ih hk _

theorem cmdFind_cmdDone_ne {k j : CmdKey} (h : k ≠ j) (t : List (CmdKey × CmdStatus)) :
    cmdFind k (cmdDone j t) = cmdFind k t := by
  induction t with
  | nil => rfl
  | cons e t ih =>
    unfold cmdDone at ih ⊢
    by_cases he : e.1 = j
    · simp only [List.map_cons, if_pos he, cmdFind, if_neg (he ▸ h.symm : e.1 ≠ k), ih]
    · simp only [List.map_cons, if_neg he, cmdFind, ih]

/-! ### What a move does to the directory -/

/-- A move of core c leaves L1Ds and directory and the pending commands, completes the request of its
core, or carries out a snoop command. -/
inductive DirMove (c : CoreId) (s t : State) : Prop
  | keep : (∀ d, (t.core d).l1d = (s.core d).l1d) → t.dir = s.dir →
      (∀ k, cmdFind k s.cmds = some .pending → cmdFind k t.cmds = some .pending) → DirMove c s t
  | complete {r n src} : s.cfg.l1dPresent = true → (s.core c).req = some r →
      r.phase = .access n src → Completed c r src s t → DirMove c s t
  | snoop {key} : Snooped key s t → DirMove c s t

theorem DirMove.refl (c : CoreId) (s : State) : DirMove c s s :=
  .keep (fun _ => rfl) rfl fun _ => id

/-- Writing a request has no part in the directory. -/
theorem DirMove.setReq {c : CoreId} {s t : State} (h : DirMove c s t) (d : CoreId)
    (req : Option ReqState) : DirMove c s (setReq d req t) := by
  have hl1d := setReq_l1d d req t
  have hagree : ∀ {e j}, AgreeAt t e j → AgreeAt (Machine.setReq d req t) e j := fun h =>
    h.congr (hl1d _) rfl
  cases h with
  | keep hsame hdir hcmds => exact .keep (fun e => (hl1d e).trans (hsame e)) hdir hcmds
  | complete hcached hr hph hdone =>
    obtain ⟨hs, hshrinks, hline, hcmds, hlock⟩ := hdone
    exact .complete hcached hr hph ⟨fun e j he => hagree (hs e j he), hshrinks, hline, hcmds, hlock⟩
  | snoop hdone =>
    obtain ⟨hs, hshrinks, hdropped, hcmds, hsem⟩ := hdone
    exact .snoop ⟨fun e j he => hagree (hs e j he), hshrinks, hdropped, hcmds, hsem⟩

theorem poll_dirMove {c : CoreId} {who : Requester} {s t : State} {ph : Phase}
    (hstores : SoundCaches s) (h : poll c who s = .ok (t, ph)) : DirMove c s t := by
  obtain ⟨r, hr, -, ⟨hcached, hadvance⟩ | ⟨-, hadvance⟩⟩ := poll_ok h
  · rcases advanceCached_ok hadvance with ⟨-, rfl, -⟩ | ⟨v, s1, keys, -, -, hcommands, -, rfl⟩ |
      ⟨keys, -, rfl, -⟩ | ⟨keys, -, -, -, rfl⟩ | ⟨n, src, -, -, -, rfl⟩ |
      ⟨n, src, s1, data, hph, -, hcomplete, -, rfl⟩ | ⟨data, -, rfl, -⟩
    · exact .refl c _
    · obtain ⟨-, rfl⟩ := commands_ok hcommands
      refine DirMove.setReq ?_ c _
      exact .keep (fun _ => rfl) rfl fun _ => pending_armAll keys
    · exact .refl c _
    · exact (DirMove.refl c s).setReq c _
    · exact (DirMove.refl c s).setReq c _
    · refine DirMove.setReq ?_ c _
      exact .complete hcached hr hph
        (complete_completed (core_req_lt hr) (hstores.l1d c).1 hcomplete)
    · exact .refl c _
  · have hsame := advanceUncached_shared hadvance
    exact .keep hsame.l1d hsame.dir fun _ => hsame.cmds ▸ id

theorem CacheMove.dirMove {c : CoreId} {s t : State} (hc : c < s.cores.length)
    (hstores : SoundCaches s) (h : CacheMove c s t) : DirMove c s t := by
  cases h with
  | submit => exact (DirMove.refl c s).setReq c _
  | poll hpoll => exact poll_dirMove hstores hpoll
  | finish hpoll => exact (poll_dirMove hstores hpoll).setReq c none
  | abandon habandon =>
    rcases abandon_ok habandon with ⟨r, -, m, v, -, -, rfl⟩ | ⟨r, -, -, rfl⟩ | ⟨-, rfl⟩
    · refine DirMove.setReq ?_ c none
      exact .keep (fun _ => rfl) rfl fun _ => id
    · exact (DirMove.refl c s).setReq c none
    · exact .refl c _
  | snoop hkey hcommand => exact .snoop (runCommand_snooped (hkey ▸ hc) hcommand)

theorem Move.dirMove {c : CoreId} {s t : State} (hc : c < s.cores.length)
    (hstores : SoundCaches s) (h : Move c s t) : DirMove c s t := by
  cases h with
  | @work p hmove =>
    obtain ⟨k, fs⟩ := p
    exact .keep (fun d => (withWork_l1d hmove.caches d).1) rfl fun _ => id
  | cache hmove => exact hmove.dirMove hc hstores
  | stop | unfocus => exact .keep (fun _ => rfl) rfl fun _ => id

/-! ### R55 (a), (b) -/

theorem DirMove.linesAgree {c : CoreId} {s t : State} (h : DirMove c s t) (hcfg : t.cfg = s.cfg)
    (hs : LinesAgree s) : LinesAgree t := by
  intro d j hd
  have hsd : AgreeAt s d j := hs d j (hcfg ▸ hd)
  cases h with
  | keep hl1d hdir => exact hsd.congr (hl1d d) (dirGet_congr hdir d j)
  | complete _ _ _ hdone => exact hdone.agree d j hsd
  | snoop hdone => exact hdone.agree d j hsd

theorem mem_peers {s : State} {c d : CoreId} : d ∈ peers s c ↔ d < s.cfg.numCores ∧ d ≠ c := by
  simp [peers]

/-- MSI exclusion where the directory shrinks but for one entry, which no peer contradicts. -/
theorem MsiExclusive.shrink {s t : State} {c : CoreId} {l : LineAddr} (hs : MsiExclusive s)
    (hcfg : t.cfg = s.cfg) (hshrinks : DirShrinks c l s t)
    (hm : c < s.cfg.numCores → t.dirGet c l = .m → ∀ d ∈ peers s c, s.dirGet d l = .i)
    (hi : c < s.cfg.numCores → t.dirGet c l ≠ .i → ∀ d ∈ peers s c, s.dirGet d l ≠ .m) :
    MsiExclusive t := by
  intro e f j he hf hef hej
  rw [hcfg] at he hf
  by_cases hec : e = c ∧ j = l
  · obtain ⟨rfl, rfl⟩ := hec
    rcases hshrinks f j fun hfe => hef hfe.1.symm with hfj | hfj
    · rw [hfj]
      exact hm he hej f (mem_peers.mpr ⟨hf, Ne.symm hef⟩)
    · exact hfj
  · have hsej : s.dirGet e j = .m := by
      rcases hshrinks e j hec with heq | heq
      · exact heq ▸ hej
      · rw [heq] at hej
        cases hej
    by_cases hfc : f = c ∧ j = l
    · obtain ⟨rfl, rfl⟩ := hfc
      by_contra hfj
      exact hi hf hfj e (mem_peers.mpr ⟨he, hef⟩) hsej
    · rcases hshrinks f j hfc with hfj | hfj
      · rw [hfj]
        exact hs e f j he hf hef hsej
      · exact hfj

theorem Completed.msiExclusive {c : CoreId} {r : ReqState} {n : Nat} {src : Source} {s t : State}
    (h : Completed c r src s t) (hcfg : t.cfg = s.cfg) (hsound : RequestSound s c r)
    (hph : r.phase = .access n src) (hs : MsiExclusive s) : MsiExclusive t := by
  obtain ⟨-, -, -, -, hfetched⟩ := hsound
  refine hs.shrink hcfg h.shrinks (fun hc hm d hd => ?_) fun hc hi d hd hdm => ?_
  all_goals obtain ⟨hdn, hdc⟩ := mem_peers.mp hd
  · rcases h.line with ⟨-, -, hsame⟩ | ⟨-, -, hshared⟩ | ⟨-, -, hpeers⟩
    · exact hs c d r.line hc hdn (Ne.symm hdc) (hsame ▸ hm)
    · rw [hshared] at hm
      cases hm
    · exact hpeers d hd
  · rcases h.line with ⟨-, -, hsame⟩ | ⟨hkind, hsrc, -⟩ | ⟨-, -, hpeers⟩
    · exact hi (hsame ▸ hs d c r.line hdn hc hdc hdm)
    · exact hfetched n src hph hkind hsrc d hdn hdc hdm
    · exact nomatch (hpeers d hd).symm.trans hdm

theorem DirMove.msiExclusive {c : CoreId} {s t : State} (h : DirMove c s t) (hcfg : t.cfg = s.cfg)
    (hown : OwnSound s c) (hs : MsiExclusive s) : MsiExclusive t := by
  cases h with
  | keep _ hdir =>
    intro e f j he hf hef hej
    rw [dirGet_congr hdir] at hej ⊢
    exact hs e f j (hcfg ▸ he) (hcfg ▸ hf) hef hej
  | complete hcached hr hph hdone => exact hdone.msiExclusive hcfg (hown hcached _ hr) hph hs
  | @snoop key hdone =>
    exact hs.shrink hcfg (fun d j _ => hdone.shrinks d j)
      (fun _ hm => nomatch hdone.dropped.symm.trans hm) fun _ hi => absurd hdone.dropped hi

/-! ### Requests a move does not touch -/

/-- A request stays in the protocol while no peer of it becomes Modified and a pending command stays
so until its target has lost the line. -/
theorem RequestSound.keep {s t : State} {d : CoreId} {r : ReqState} (h : RequestSound s d r)
    (hcfg : t.cfg = s.cfg)
    (hdir : r.mode.isSome → ∀ e, e ≠ d → t.dirGet e r.line = .m → s.dirGet e r.line = .m)
    (hcmds : ∀ k, cmdFind k s.cmds = some .pending →
      cmdFind k t.cmds = some .pending ∨ t.dirGet k.target k.line = .i) : RequestSound t d r := by
  obtain ⟨hmode, hwrite, hunfinished, hwaiting, hfetched⟩ := h
  have hsome : r.phase ≠ .locking → r.mode.isSome := fun hph => by
    rwa [Option.isSome_iff_ne_none, Ne, ← hmode]
  refine ⟨hmode, hwrite, hunfinished, fun keys hph e he hed hem => ?_,
    fun n src hph hkind hsrc e he hed hem => ?_⟩
  · have hmoved := hdir (hsome (by simp [hph])) e hed hem
    obtain ⟨k, hk, rfl, hline, hpending⟩ := hwaiting keys hph e (hcfg ▸ he) hed hmoved
    refine ⟨k, hk, rfl, hline, (hcmds k hpending).resolve_right fun hgone => ?_⟩
    rw [hline, hem] at hgone
    cases hgone
  · exact hfetched n src hph hkind hsrc e (hcfg ▸ he) hed
      (hdir (hsome (by simp [hph])) e hed hem)

theorem Snooped.requestSound {key : CmdKey} {s t : State} (h : Snooped key s t)
    (hcfg : t.cfg = s.cfg) {d : CoreId} {r : ReqState} (hs : RequestSound s d r) :
    RequestSound t d r := by
  refine hs.keep hcfg (fun _ e _ hem => ?_) fun k hk => ?_
  · rcases h.shrinks e r.line with heq | heq
    · exact heq ▸ hem
    · exact nomatch heq.symm.trans hem
  · by_cases hkey : k = key
    · exact .inr (hkey ▸ h.dropped)
    · rw [h.cmds, cmdFind_cmdDone_ne hkey]
      exact .inl hk

/-- The machine's locks and requests are in the protocol and its semaphores exclude (data caches
present). -/
structure InProtocol (s : State) : Prop where
  cached : s.cfg.l1dPresent = true
  sems : SemsExclusive s
  locks : LocksCounted s
  requests : ∀ c r, (s.core c).req = some r → RequestSound s c r

/-- A completion does not disturb the request of another core: a WRITE's lock is held alone. -/
theorem Completed.requestSound {c : CoreId} {r : ReqState} {src : Source} {s t : State}
    (h : Completed c r src s t) (hcfg : t.cfg = s.cfg) (hs : InProtocol s)
    (hr : (s.core c).req = some r) {d : CoreId} (hdc : d ≠ c) {q : ReqState}
    (hq : (s.core d).req = some q) : RequestSound t d q := by
  refine (hs.requests d q hq).keep hcfg (fun hmode e _ hem => ?_)
    fun k hk => .inl (h.cmds ▸ hk)
  by_cases hec : e = c ∧ q.line = r.line
  · obtain ⟨rfl, hline⟩ := hec
    rcases h.line with ⟨-, -, hsame⟩ | ⟨-, -, hshared⟩ | ⟨hkind, -, -⟩
    · rwa [hline, ← hsame, ← hline]
    · rw [hline, hshared] at hem
      cases hem
    · obtain ⟨m, v, hm, -⟩ := h.lock
      obtain ⟨-, hwrite, -⟩ := hs.requests e r hr
      have halone := write_lock_alone hs.sems hs.locks (core_req_lt hr) (core_req_lt hq) hdc
        (l := r.line) (by rw [lockHeld_of_req hr, if_pos rfl, hm, hwrite hkind m hm])
      rw [lockHeld_of_req hq, if_pos hline] at halone
      simp [halone] at hmode
  · rcases h.shrinks e q.line hec with heq | heq
    · exact heq ▸ hem
    · exact nomatch heq.symm.trans hem

theorem DirMove.otherRequest {c : CoreId} {s t : State} (h : DirMove c s t) (hcfg : t.cfg = s.cfg)
    (hs : InProtocol s) {d : CoreId} (hdc : d ≠ c) {r : ReqState}
    (hr : (s.core d).req = some r) : RequestSound t d r := by
  cases h with
  | keep _ hdir hcmds =>
    exact (hs.requests d r hr).keep hcfg (fun _ e _ hem => dirGet_congr hdir e _ ▸ hem)
      fun k hk => .inl (hcmds k hk)
  | complete _ hown _ hdone => exact hdone.requestSound hcfg hs hown hdc hr
  | snoop hdone => exact hdone.requestSound hcfg (hs.requests d r hr)

end Sys2Proof.Machine
end

section
/-! SUPPORT. A core's own request in the protocol (R299, R302, R304), and the invariant of the block and
the protocol over the core cycles. Settles O55. -/

namespace Sys2Proof.Machine

/-! ### A core's own request -/

/-- A request that enters Locking asks nothing of its peers. -/
theorem requestSound_locking (s : State) (c : CoreId) {r : ReqState} (hmode : r.mode = none)
    (hph : r.phase = .locking) : RequestSound s c r := by
  simp [RequestSound, hmode, hph]

/-- A request asks for the commands of all its peers, or for none when its core holds the line
(R302). -/
theorem commandKeys_cases (c : CoreId) (kind : ReqKind) (l : LineAddr) (s : State) :
    commandKeys c kind l s = (peers s c).flatMap (fun d => peerCommand d l (s.dirGet d l)) ∨
      (commandKeys c kind l s = [] ∧ s.dirGet c l ≠ .i) := by
  unfold commandKeys
  split
  case h_1 hown | h_2 hown | h_3 hown => exact .inr ⟨rfl, by simp [hown]⟩
  case h_4 | h_5 | h_6 => exact .inl rfl

/-- Each Modified peer of a request that asks for commands gets one (R302). -/
theorem modified_peer_commanded {s : State} {c d : CoreId} {kind : ReqKind} {l : LineAddr}
    (hkeys : commandKeys c kind l s ≠ [] ∨ s.dirGet c l = .i) (hd : d < s.cfg.numCores) (hdc : d ≠ c)
    (hm : s.dirGet d l = .m) : ⟨d, l, .writeBack⟩ ∈ commandKeys c kind l s := by
  rcases commandKeys_cases c kind l s with hall | ⟨hnone, hown⟩
  · rw [hall]
    exact List.mem_flatMap.mpr ⟨d, mem_peers.mpr ⟨hd, hdc⟩, by simp [hm, peerCommand]⟩
  · exact (hkeys.elim (absurd hnone) fun hi => absurd hi hown)

/-- A line that is not fetched from the own L1D is one the core does not hold (R304). -/
theorem enterAccess_fetch {s : State} {c : CoreId} {l : LineAddr} {n : Nat} {src : Source}
    (h : enterAccess c l s = .access n src) (hsrc : src ≠ .l1) : s.dirGet c l = .i := by
  cases hown : s.dirGet c l with
  | i => rfl
  | s | m =>
    simp only [enterAccess, latencyAndSource, hown, Phase.access.injEq] at h
    exact absurd h.2.symm hsrc

theorem enterAccess_is_access (c : CoreId) (l : LineAddr) (s : State) :
    ∃ n src, enterAccess c l s = .access n src := ⟨_, _, rfl⟩

/-- The state of a request that has got its lock, with its commands armed (R301, R302). -/
theorem lockTaken_requestSound {s t : State} {c : CoreId} {r : ReqState} {keys : List CmdKey}
    (hkeys : keys = commandKeys c r.kind r.line s) (hdir : t.dir = s.dir) (hcfg : t.cfg = s.cfg)
    (harmed : ∀ k ∈ keys, cmdFind k t.cmds = some .pending)
    {ph : Phase} (hph : ph = if keys = [] then enterAccess c r.line t else .waiting keys) :
    RequestSound t c { r with
      mode := some (lockMode r.kind (s.dirGet c r.line)), phase := ph } := by
  obtain ⟨n, src, haccess⟩ := enterAccess_is_access c r.line t
  have hown := dirGet_congr hdir c r.line
  by_cases hnil : keys = []
  · rw [if_pos hnil, haccess] at hph
    subst hph
    refine ⟨by simp, fun hkind m hm => ?_, by simp, by simp, fun n' src' hph hkind hsrc d hd hdc hdm => ?_⟩
    · simpa [show r.kind = .write from hkind, lockMode, eq_comm] using hm
    · obtain ⟨rfl, rfl⟩ := Phase.access.inj hph
      rw [dirGet_congr hdir] at hdm
      have hcommand := modified_peer_commanded (kind := r.kind)
        (.inr (hown ▸ enterAccess_fetch haccess hsrc)) (hcfg ▸ hd) hdc hdm
      rw [← hkeys, hnil] at hcommand
      cases hcommand
  · rw [if_neg hnil] at hph
    subst hph
    refine ⟨by simp, fun hkind m hm => ?_, by simp, fun keys' hph d hd hdc hdm => ?_, by simp⟩
    · simpa [show r.kind = .write from hkind, lockMode, eq_comm] using hm
    · obtain rfl := Phase.waiting.inj hph
      rw [dirGet_congr hdir] at hdm
      have hcommand := modified_peer_commanded (kind := r.kind) (.inl (hkeys ▸ hnil)) (hcfg ▸ hd)
        hdc hdm
      rw [← hkeys] at hcommand
      exact ⟨_, hcommand, rfl, rfl, harmed _ hcommand⟩

/-- A request that goes on to Access, or counts down there, while no peer it must know of is
Modified. -/
theorem RequestSound.to_access {s : State} {c : CoreId} {r : ReqState} {n : Nat} {src : Source}
    (h : RequestSound s c r) (hleft : r.phase ≠ .locking)
    (hfetched : r.kind = .read → src ≠ .l1 → ∀ d, d < s.cfg.numCores → d ≠ c →
      s.dirGet d r.line ≠ .m) : RequestSound s c { r with phase := .access n src } := by
  obtain ⟨hmode, hwrite, -⟩ := h
  refine ⟨by simpa using fun hm => hleft (hmode.mpr hm), hwrite, by simp, by simp,
    fun n' src' hph hkind hsrc => ?_⟩
  obtain ⟨rfl, rfl⟩ := Phase.access.inj hph
  exact hfetched hkind hsrc

theorem poll_requestSound {c : CoreId} {who : Requester} {s t : State} {ph : Phase}
    (hcached : s.cfg.l1dPresent = true) (hown : OwnSound s c) (h : poll c who s = .ok (t, ph))
    (hph : ∀ data, ph ≠ .finished data) : OwnSound t c := by
  intro _ q hq
  obtain ⟨r, hr, -, ⟨-, hadvance⟩ | ⟨huncached, -⟩⟩ := poll_ok h
  · have hc := core_req_lt hr
    have hsound := hown hcached r hr
    have ⟨_, _, _, hpeers, hfetched⟩ := hsound
    have hframe : ∀ r, RequestSound s c r → RequestSound (setReq c (some r) s) c r := fun _ hs =>
      hs.keep rfl (fun _ _ _ => id) fun _ => .inl
    rcases advanceCached_ok hadvance with ⟨-, rfl, -⟩ |
      ⟨v, s1, keys, -, -, hcommands, hnext, rfl⟩ | ⟨keys, -, rfl, -⟩ |
      ⟨keys, hwaiting, hdone, hnext, rfl⟩ | ⟨n, src, haccess, -, rfl, rfl⟩ |
      ⟨n, src, s1, data, -, -, -, hfinished, -⟩ | ⟨data, -, -, hfinished⟩
    · exact hown hcached q hq
    · obtain ⟨hkeys, rfl⟩ := commands_ok hcommands
      obtain rfl := Option.some.inj ((req_setReq (by exact hc) _).symm.trans hq)
      refine lockTaken_requestSound (s := s) hkeys (by rfl) (by rfl) (fun k hk => ?_) hnext
      exact armed_pending hk s.cmds
    · exact hown hcached q hq
    · obtain rfl := Option.some.inj ((req_setReq hc _).symm.trans hq)
      refine hframe _ (hnext ▸ hsound.to_access (by simp [hwaiting]) fun _ _ d hd hdc hdm => ?_)
      obtain ⟨k, hk, -, -, hpending⟩ := hpeers keys hwaiting d hd hdc hdm
      exact hdone k hk hpending
    · obtain rfl := Option.some.inj ((req_setReq hc _).symm.trans hq)
      exact hframe _ (hsound.to_access (by simp [haccess]) (hfetched n src haccess))
    · exact absurd hfinished (hph data)
    · exact absurd hfinished (hph data)
  · exact absurd hcached (by simp [huncached])

theorem CacheMove.ownRequest {c : CoreId} {s t : State} (hc : c < s.cores.length)
    (hcached : s.cfg.l1dPresent = true) (hown : OwnSound s c) (h : CacheMove c s t) :
    OwnSound t c := by
  have hgone : ∀ {u : State}, c < u.cores.length → OwnSound (setReq c none u) c := fun hu _ q hq => by
    rw [req_setReq hu] at hq
    cases hq
  cases h with
  | submit _ hmode hph =>
    intro _ q hq
    obtain rfl := Option.some.inj ((req_setReq hc _).symm.trans hq)
    exact requestSound_locking _ c hmode hph
  | poll hpoll hph => exact poll_requestSound hcached hown hpoll hph
  | finish hpoll =>
    obtain ⟨r, mode, -, hr⟩ := poll_req hpoll
    exact hgone (core_req_lt hr)
  | abandon habandon =>
    rcases abandon_ok habandon with ⟨r, -, m, v, -, -, rfl⟩ | ⟨r, -, -, rfl⟩ | ⟨-, rfl⟩
    · exact hgone hc
    · exact hgone hc
    · exact hown
  | snoop hkey hcommand =>
    intro _ q hq
    rw [runCommand_req hcommand] at hq
    have hcfg : t.cfg = s.cfg := (runCommand_writes hcommand).frame.cfg
    exact (runCommand_snooped (hkey ▸ hc) hcommand).requestSound hcfg (hown hcached q hq)

theorem Move.ownRequest {c : CoreId} {s t : State} (hc : c < s.cores.length)
    (hcached : s.cfg.l1dPresent = true) (hown : OwnSound s c) (h : Move c s t) : OwnSound t c := by
  have hsame : t.dir = s.dir → t.cmds = s.cmds → t.cfg = s.cfg →
      (t.core c).req = (s.core c).req → OwnSound t c := fun hdir hcmds hcfg hreq _ q hq =>
    (hown hcached q (hreq ▸ hq)).keep hcfg (fun _ e _ hem => dirGet_congr hdir e _ ▸ hem)
      fun _ hk => .inl (hcmds ▸ hk)
  cases h with
  | @work p hmove =>
    obtain ⟨k, fs⟩ := p
    exact hsame rfl rfl rfl (withWork_l1d hmove.caches c).2
  | cache hmove => exact hmove.ownRequest hc hcached hown
  | stop | unfocus => exact hsame rfl rfl rfl rfl

/-! ### The caches of the machine in the protocol -/

/-- The line stores are sound, R55 (a), (b) and (c) hold, and the protocol does. -/
structure Coherent (s : State) : Prop where
  stores : SoundStores s
  msi : MsiExclusive s
  lines : LinesAgree s
  sems : SemsExclusive s
  protocol : ProtocolSound s

theorem Coherent.ownSound {s : State} (h : Coherent s) (c : CoreId) : OwnSound s c :=
  fun hcached => (h.protocol hcached).2 c

theorem Move.others {c : CoreId} {s t : State} (h : Move c s t) {d : CoreId} (hdc : d ≠ c) :
    t.core d = s.core d := by
  cases h with
  | work => exact core_withWork_ne s _ hdc
  | cache hmove => exact hmove.frame.others d hdc
  | stop | unfocus => rfl

theorem Move.protocolSound {c : CoreId} {s t : State} (hc : c < s.cores.length) (h : Move c s t)
    (hs : Coherent s) : ProtocolSound t := by
  intro hcached
  have hcfg := h.sameRun.cfg
  have hcaches := (soundStores_iff.mp hs.stores).1
  rw [hcfg] at hcached
  obtain ⟨hlocks, hrequests⟩ := hs.protocol hcached
  refine ⟨(h.lockMove hc hcaches (hs.ownSound c)).locksCounted hc hcached h.length
    (fun _ => h.others) hlocks, fun d r hr => ?_⟩
  by_cases hdc : d = c
  · subst hdc
    exact h.ownRequest hc hcached (hs.ownSound d) (hcfg ▸ hcached) r hr
  · rw [h.others hdc] at hr
    exact (h.dirMove hc hcaches).otherRequest hcfg ⟨hcached, hs.sems, hlocks, hrequests⟩ hdc hr

theorem Move.coherent {c : CoreId} {s t : State} (hc : c < s.cores.length) (h : Move c s t)
    (hs : Coherent s) : Coherent t := by
  have hcaches := (soundStores_iff.mp hs.stores).1
  have hdir := h.dirMove hc hcaches
  have hcfg := h.sameRun.cfg
  exact {
    stores := h.soundStores hc hs.stores
    msi := hdir.msiExclusive hcfg (hs.ownSound c) hs.msi
    lines := hdir.linesAgree hcfg hs.lines
    sems := (h.lockMove hc hcaches (hs.ownSound c)).semsExclusive hs.sems
    protocol := h.protocolSound hc hs }

/-! ### The core cycles -/

/-- The work of a core is sound, its counts agree and it keeps within its capacities. -/
def SoundCore (g : Cfg) (k : Core) : Prop := SoundWork g k ∧ CountsAgree k ∧ WithinCaps g k

theorem WorkMove.soundCore {g : Cfg} {k k' : Core} {fs fs' : List Flush}
    (h : WorkMove g (k, fs) (k', fs')) (hk : SoundCore g k) : SoundCore g k' := by
  obtain ⟨hwork, hcounts, hcaps⟩ := hk
  exact ⟨h.soundWork hwork, h.countsAgree hwork hcounts, h.withinCaps hwork hcaps⟩

theorem protocolInvariant_iff {s : State} :
    ProtocolInvariant s ↔ CanonicalState s ∧ Coherent s ∧ ∀ k ∈ s.cores, SoundCore s.cfg k :=
  ⟨fun ⟨hcanonical, ⟨hmsi, hlines, hsems, hcores⟩, hstores, hwork, hprotocol⟩ =>
      ⟨hcanonical, ⟨hstores, hmsi, hlines, hsems, hprotocol⟩, fun k hk => ⟨hwork k hk, hcores k hk⟩⟩,
    fun ⟨hcanonical, ⟨hstores, hmsi, hlines, hsems, hprotocol⟩, hcores⟩ =>
      ⟨hcanonical, ⟨hmsi, hlines, hsems, fun k hk => (hcores k hk).2⟩, hstores,
        fun k hk => (hcores k hk).1, hprotocol⟩⟩

theorem coreCycle_protocolInvariant {c : CoreId} {s t : State} (hc : c < s.cores.length)
    (h : coreCycle c s = .ok t) (hs : ProtocolInvariant s) : ProtocolInvariant t := by
  obtain ⟨hcanonical, hcoherent, hcores⟩ := protocolInvariant_iff.mp hs
  have hmoves := (coreCycle_moves hc h).1
  refine protocolInvariant_iff.mpr ⟨coreCycle_canonicalState hc h hcanonical,
    Moves.keep (fun _ _ hc hmove => hmove.coherent hc) hc hmoves hcoherent, ?_⟩
  exact Moves.keep (P := fun s => ∀ k ∈ s.cores, SoundCore s.cfg k) (fun _ _ hc hmove =>
    hmove.keep_cores (P := SoundCore) (fun _ _ _ _ hk => hk)
      (fun _ _ _ _ _ => WorkMove.soundCore) hc) hc hmoves hcores

/-- A step whose core cycles answer is their end, when the check finds nothing broken. -/
theorem step_of_runCores {s u : State} (hrunning : s.status = .running)
    (hload : loadRefusal s = none) (h : runCores (List.range s.cfg.numCores) s = .ok u)
    (hcheck : brokenInvariant (endStep u) = none) : step s = .next (endStep u) := by
  simp only [step, globalStep, hrunning, if_true, hload, cycleStep, h, concludeStep, hcheck]

/-- Settles O55: every move of a core's cycle keeps the line stores sound, R55 and the protocol; the
check reads nothing that the end of the step writes. -/
theorem coreCyclesKeepTheProtocol : Obligations.CoreCyclesKeepTheProtocol := by
  intro s u hs hrunning hload h
  have hu : ProtocolInvariant u :=
    runCores_keep (fun _ _ _ => coreCycle_protocolInvariant) (range_cores hload) h hs
  have ⟨hcanonical, hblock, _⟩ := hu
  have hcheck : brokenInvariant (endStep u) = none :=
    check_of_blockInvariant (s := endStep u) hcanonical hblock
  exact ⟨hu, step_of_runCores hrunning hload h hcheck⟩

end Sys2Proof.Machine
end

section
/-! SUPPORT. The addresses of an access (R72, R75, R76): its lines in ascending order, its first illegal
address and the bytes it writes. Settles O21, O26 and O36. -/

namespace Sys2Proof.Machine

/-- Settles O36: the list is written byte by byte, and each byte replaces the one before it. -/
theorem laterByteOfAWriteWins : Obligations.LaterByteOfAWriteWins := Memory.read_writeAll

/-! ### The lines of an access -/

theorem mem_insertLine_iff {l j : LineAddr} {ls : List LineAddr} :
    l ∈ insertLine j ls ↔ l = j ∨ l ∈ ls := by
  refine ⟨mem_insertLine, fun h => ?_⟩
  induction ls with
  | nil => simpa [insertLine] using h
  | cons i ls ih =>
    unfold insertLine
    split_ifs with hlt heq
    · exact List.mem_cons.mpr h
    · exact h.elim (fun hl => List.mem_cons.mpr (.inl (hl.trans heq))) id
    · rcases h with hl | hl
      · exact List.mem_cons_of_mem i (ih (.inl hl))
      · exact (List.mem_cons.mp hl).elim (fun hi => List.mem_cons.mpr (.inl hi))
          fun hl => List.mem_cons_of_mem i (ih (.inr hl))

theorem insertLine_ascending {j : LineAddr} {ls : List LineAddr} (h : ls.Pairwise (· < ·)) :
    (insertLine j ls).Pairwise (· < ·) := by
  induction ls with
  | nil => exact List.pairwise_singleton _ j
  | cons i ls ih =>
    obtain ⟨hi, hls⟩ := List.pairwise_cons.mp h
    unfold insertLine
    split_ifs with hlt heq
    · refine List.pairwise_cons.mpr ⟨fun l hl => ?_, h⟩
      exact (List.mem_cons.mp hl).elim (fun hl => hl ▸ hlt) fun hl => hlt.trans (hi l hl)
    · exact h
    · refine List.pairwise_cons.mpr ⟨fun l hl => ?_, ih hls⟩
      rcases mem_insertLine hl with rfl | hl
      · exact lt_of_le_of_ne (not_lt.mp hlt) (Ne.symm heq)
      · exact hi l hl

theorem mem_linesOf {g : Cfg} {addrs : List Nat} {l : LineAddr} :
    l ∈ linesOf g addrs ↔ ∃ a ∈ addrs, l = lineOf g.lineSize a := by
  induction addrs using List.reverseRecOn with
  | nil => simp [linesOf]
  | append_singleton addrs a ih =>
    have hlast : linesOf g (addrs ++ [a]) = insertLine (lineOf g.lineSize a) (linesOf g addrs) := by
      simp [linesOf]
    rw [hlast, mem_insertLine_iff, ih]
    simp [or_and_right, exists_or, or_comm]

/-- Settles O26: the lines are inserted one by one, each in its place of the ascending list. -/
theorem accessSplitsIntoAscendingLines : Obligations.AccessSplitsIntoAscendingLines :=
  fun _ addrs => ⟨List.foldlRecOn (motive := List.Pairwise (· < ·)) addrs _ .nil
    fun _ hls _ _ => insertLine_ascending hls, fun _ => mem_linesOf⟩

/-! ### Illegal addresses -/

/-- A LOAD that names no write address records its first illegal read address (R224). -/
theorem startLoad_illegal {g : Cfg} {labels : Labels} {wl : List RegId} {i : Nat} {w : Work}
    {k : Core} {a : Word} (hwrites : writeAddrs g w k.x = [])
    (ha : firstIllegal g (readAddrs g w k.x) = some a) :
    startLoad g labels wl i w k = .ok (recordError i w (.addr a) k) := by
  simp [startLoad, addressContract, hwrites, ha]

/-- A STORE that names no read address records its first illegal write address (R224). -/
theorem startWork_store_illegal {g : Cfg} {labels : Labels} {wl : List RegId}
    {assertStep : Core → Core} {classStep : ExecutionResult → Core → Res (Core × Option Flush)}
    {i : Nat} {w : Work} {k : Core} {a : Word} (hreads : readAddrs g w k.x = [])
    (ha : firstIllegal g (writeAddrs g w k.x) = some a) :
    startWork g labels storeRule wl assertStep classStep i w k
      = .ok (recordError i w (.addr a) k) := by
  simp [startWork, addressContract, storeRule, hreads, ha]

/-- A meaning whose operation records an error leaves it on its core and raises its flush (R226). -/
theorem onFocus_recordError {s : State} {f : Focus} {e : ProgramError}
    {op : Cfg → Labels → Focus → Core → Res (Core × Option Flush)} (hf : s.focus = some f)
    (hop : op s.cfg (s.input f.core).labels f (s.core f.core)
      = .ok (recordError f.unit f.work e (s.core f.core))) :
    onFocus s op = .next (ranState s f (erredCore f e (s.core f.core))
      [⟨f.work.run.seq, none⟩]) :=
  onFocus_next.mpr ⟨f, _, _, hf, hop, rfl⟩

/-- Settles O21: the start of either class checks its addresses before it asks for a line or runs. -/
theorem illegalAddressIsRecorded : Obligations.IllegalAddressIsRecorded := by
  intro r w s f a hf hgot
  refine ⟨fun hwrites ha => ?_, fun hreads ha => ?_⟩
  · simp only [exec, execLoad]
    refine onFocus_recordError hf ?_
    rw [hgot]
    exact startLoad_illegal hwrites ha
  · simp only [exec, execStore]
    exact onFocus_recordError hf (startWork_store_illegal hreads ha)

end Sys2Proof.Machine
end

section
/-! SUPPORT. The levels behind the L1D (R289 to R291): the bytes of a line as cells, what a line store
finds after each of its operations, and the byte the shared cache and memory have for an address. -/

namespace Sys2Proof.Machine

/-! ### Bytes of a line -/

/-- The last byte a list of cells has for an address (R75). -/
def lastByte (cells : List Host.Cell) (a : Nat) : Option Byte :=
  ((cells.filter (fun e => decide (e.1 = a))).map Prod.snd).getLast?

theorem read_writeAll_lastByte (m : Memory) (cells : List Host.Cell) (a : Nat) :
    Memory.read (Memory.writeAll m cells) a = (lastByte cells a).getD (Memory.read m a) :=
  Memory.read_writeAll m cells a

theorem mem_of_lastByte {cells : List Host.Cell} {a : Nat} {b : Byte}
    (h : lastByte cells a = some b) : (a, b) ∈ cells := by
  obtain ⟨⟨i, b'⟩, he, rfl⟩ := List.mem_map.mp (List.mem_of_getLast? h)
  obtain ⟨he, hi⟩ := List.mem_filter.mp he
  exact of_decide_eq_true hi ▸ he

theorem lastByte_none {cells : List Host.Cell} {a : Nat} :
    lastByte cells a = none ↔ ∀ b, (a, b) ∉ cells := by
  simp only [lastByte, List.getLast?_eq_none_iff, List.map_eq_nil_iff, List.filter_eq_nil_iff,
    decide_eq_true_eq]
  exact ⟨fun h b hb => h _ hb rfl, fun h e he hea => h e.2 (hea ▸ he)⟩

theorem lastByte_append_singleton (cells : List Host.Cell) (e : Host.Cell) (a : Nat) :
    lastByte (cells ++ [e]) a = if e.1 = a then some e.2 else lastByte cells a := by
  by_cases he : e.1 = a <;> simp [lastByte, List.filter_append, he]

theorem mem_lineCells {l : LineAddr} {data : List Byte} {e : Host.Cell} :
    e ∈ lineCells l data ↔ l ≤ e.1 ∧ data[e.1 - l]? = some e.2 := by
  have hget : ∀ i : Nat, (lineCells l data)[i]? = data[i]?.map fun b => (l + i, b) := by
    intro i
    by_cases hi : i < data.length <;> simp [lineCells, hi]
  rw [List.mem_iff_getElem?]
  constructor
  · rintro ⟨i, hi⟩
    rw [hget] at hi
    obtain ⟨b, hb, rfl⟩ := Option.map_eq_some_iff.mp hi
    exact ⟨Nat.le_add_right l i, by simpa using hb⟩
  · rintro ⟨hl, hb⟩
    exact ⟨e.1 - l, by simp [hget, hb, hl]⟩

theorem lastByte_lineCells {l : LineAddr} {a : Nat} (data : List Byte) (hl : l ≤ a) :
    lastByte (lineCells l data) a = data[a - l]? := by
  cases hlast : lastByte (lineCells l data) a with
  | some b => exact (mem_lineCells.mp (mem_of_lastByte hlast)).2.symm
  | none =>
    have habsent := lastByte_none.mp hlast
    simp only [mem_lineCells, hl, true_and] at habsent
    exact (Option.eq_none_iff_forall_ne_some.mpr habsent).symm

theorem lineOf_eq_iff {size l a : Nat} (hsize : 0 < size)
    (hl : lineOf size l = l) : lineOf size a = l ↔ l ≤ a ∧ a < l + size := by
  constructor
  · rintro rfl
    exact ⟨lineOf_le size a, lt_lineOf_add a hsize⟩
  · rintro ⟨hle, hlt⟩
    have hmod : a % size = a - l := by
      obtain ⟨n, hn⟩ : size ∣ l := hl ▸ lineOf_dvd size l
      obtain ⟨i, rfl⟩ := Nat.exists_eq_add_of_le hle
      rw [hn, Nat.mul_add_mod, Nat.add_sub_cancel_left, Nat.mod_eq_of_lt (by omega)]
    rw [lineOf, hmod, Nat.sub_sub_self hle]

/-- The cells of a whole line are the addresses of the line with its bytes (R303). -/
theorem mem_lineCells_iff {size l : Nat} {data : List Byte} {e : Host.Cell} (hsize : 0 < size)
    (hl : lineOf size l = l) (hdata : data.length = size) :
    e ∈ lineCells l data ↔ lineOf size e.1 = l ∧ e.2 = lineByte (some data) (e.1 - l) := by
  rw [mem_lineCells, lineOf_eq_iff hsize hl, and_assoc]
  refine and_congr_right fun hle => ?_
  by_cases hin : e.1 - l < data.length
  · have hlt : e.1 < l + size := by omega
    simp [lineByte, hin, hlt, eq_comm]
  · have hlt : ¬e.1 < l + size := by omega
    simp [hin, hlt]

/-- A whole line written to memory is read back at its addresses, and no other byte changes
(R290, R291). -/
theorem read_writeLine {size l : Nat} {data : List Byte} (m : Memory) (a : Nat) (hsize : 0 < size)
    (hl : lineOf size l = l) (hdata : data.length = size) :
    Memory.read (Memory.writeLine m l data) a
      = if lineOf size a = l then lineByte (some data) (a - l) else Memory.read m a := by
  rw [Memory.writeLine, read_writeAll_lastByte]
  by_cases ha : lineOf size a = l
  · obtain ⟨hle, hlt⟩ := (lineOf_eq_iff hsize hl).mp ha
    have hin : a - l < data.length := by omega
    simp [lastByte_lineCells data hle, lineByte, ha, hin]
  · have habsent : lastByte (lineCells l data) a = none :=
      lastByte_none.mpr fun b hb => ha ((mem_lineCells_iff hsize hl hdata).mp hb).1
    rw [habsent, if_neg ha]
    rfl

theorem lineByte_readLine {size l a : Nat} (m : Memory) (hle : l ≤ a)
    (hlt : a < l + size) :
    lineByte (some (Memory.readLine m size l)) (a - l) = Memory.read m a := by
  have hin : a - l < size := by omega
  simp [lineByte, Memory.readLine, hin, hle]

/-- Bytes set in a line (R285): an address of the line reads as the last byte the list has for it. -/
theorem lineByte_setLineBytes {l a : Nat} {data : List Byte} {cells : List Host.Cell}
    (hle : l ≤ a) (hlt : a < l + data.length) (hcells : ∀ e ∈ cells, l ≤ e.1) :
    lineByte (some (setLineBytes l data cells)) (a - l)
      = (lastByte cells a).getD (lineByte (some data) (a - l)) := by
  induction cells using List.reverseRecOn with
  | nil => rfl
  | append_singleton cells e ih =>
    have hset : setLineBytes l data (cells ++ [e])
        = (setLineBytes l data cells).set (e.1 - l) e.2 := by
      simp [setLineBytes]
    have hel := hcells e (by simp)
    rw [lastByte_append_singleton]
    by_cases hea : e.1 = a
    · have hin : a - l < (setLineBytes l data cells).length := by
        rw [setLineBytes_length]
        omega
      simp only [hset, hea, lineByte, Option.bind_some, List.getElem?_set_self hin,
        Option.getD_some, if_true]
    · have hoff : e.1 - l ≠ a - l := by omega
      rw [if_neg hea, ← ih fun e he => hcells e (List.mem_append_left _ he), hset]
      simp [lineByte, hoff]

/-! ### What a line store finds -/

theorem lruFind_append_self {α : Type} {st : LruStore α} {l : LineAddr} (d : α)
    (h : lruContains st l = false) : lruFind (st ++ [(l, d)]) l = some d := by
  induction st with
  | nil => simp [lruFind, assocFind]
  | cons e st ih =>
    simp only [lruContains, List.any_cons, Bool.or_eq_false_iff, decide_eq_false_iff_not] at h
    obtain ⟨he, hst⟩ := h
    simpa [lruFind, assocFind, he] using ih hst

theorem lruFind_append_ne {α : Type} (st : LruStore α) {l j : LineAddr} (d : α) (h : j ≠ l) :
    lruFind (st ++ [(l, d)]) j = lruFind st j := by
  induction st with
  | nil => simp [lruFind, assocFind, Ne.symm h]
  | cons e st ih =>
    by_cases he : e.1 = j
    · simp [lruFind, assocFind, he]
    · simpa [lruFind, assocFind, he] using ih

theorem lruFind_remove_ne {α : Type} (st : LruStore α) {l j : LineAddr} (h : j ≠ l) :
    lruFind (lruRemove st l) j = lruFind st j := assocFind_erase_ne st h

theorem lruFind_renew_self {α : Type} (st : LruStore α) (l : LineAddr) (d : α) :
    lruFind (lruRemove st l ++ [(l, d)]) l = some d :=
  lruFind_append_self d (lruRemove_absent st l)

theorem lruFind_renew_ne {α : Type} (st : LruStore α) {l j : LineAddr} (d : α) (h : j ≠ l) :
    lruFind (lruRemove st l ++ [(l, d)]) j = lruFind st j := by
  rw [lruFind_append_ne _ d h, lruFind_remove_ne st h]

theorem lruFind_none {α : Type} {st : LruStore α} {l : LineAddr} :
    lruFind st l = none ↔ lruContains st l = false := by
  rw [← Bool.not_eq_true, ← lruFind_some_iff_contains, ← Option.ne_none_iff_exists', not_not]

/-- What a store finds after a push (R285): the new line; nothing under the victim, which it found
before; and every other line as before. -/
structure Pushed (l : LineAddr) (d : List Byte) (v : Option (LineAddr × List Byte))
    (st st' : LruStore (List Byte)) : Prop where
  new : lruFind st' l = some d
  kept : ∀ j, j ≠ l → (∀ x, v = some x → j ≠ x.1) → lruFind st' j = lruFind st j
  victim : ∀ x, v = some x → x.1 ≠ l ∧ lruFind st x.1 = some x.2 ∧ lruFind st' x.1 = none

theorem lruPush_pushed {cap : Nat} {st st' : LruStore (List Byte)} {l : LineAddr} {d : List Byte}
    {v : Option (LineAddr × List Byte)} (hst : (st.map Prod.fst).Nodup)
    (h : lruPush cap st l d = (st', v)) : Pushed l d v st st' := by
  have hvictim := (lruPush_contains hst h).2.2
  rcases lruPush_cases cap st l d with heq | ⟨habsent, w, rest, rfl, heq⟩ | ⟨habsent, heq⟩
  all_goals
    rw [heq] at h
    obtain ⟨rfl, rfl⟩ := Prod.mk.inj h
  · exact ⟨lruFind_renew_self st l d, fun j hj _ => lruFind_renew_ne st d hj,
      fun x hx => nomatch hx⟩
  · refine ⟨?_, fun j hj hjv => ?_, fun x hx => ?_⟩
    · simp only [lruContains, List.any_cons, Bool.or_eq_false_iff] at habsent
      exact lruFind_append_self d habsent.2
    · have hjw : w.1 ≠ j := Ne.symm (hjv w rfl)
      rw [lruFind_append_ne rest d hj]
      simp [lruFind, assocFind, hjw]
    · obtain ⟨hgone, hxl, -⟩ := hvictim x hx
      obtain rfl := Option.some.inj hx
      exact ⟨hxl, by simp [lruFind, assocFind], lruFind_none.mpr hgone⟩
  · exact ⟨lruFind_append_self d habsent, fun j hj _ => lruFind_append_ne st d hj,
      fun x hx => nomatch hx⟩

/-! ### The byte of the next level -/

/-- The byte of an address behind the L1Ds: in the shared cache, else in memory (R289). -/
def State.nextByte (s : State) (a : Nat) : Byte :=
  match lruFind s.l3 (lineOf s.cfg.lineSize a) with
  | some d => lineByte (some d) (a - lineOf s.cfg.lineSize a)
  | none => Memory.read s.mem a

theorem nextByte_congr {s t : State} (hcfg : t.cfg = s.cfg) (hl3 : t.l3 = s.l3)
    (hmem : t.mem = s.mem) (a : Nat) : t.nextByte a = s.nextByte a := by
  simp only [State.nextByte, hcfg, hl3, hmem]

theorem nextByte_of_find {s : State} {a : Nat} {d : List Byte}
    (h : lruFind s.l3 (lineOf s.cfg.lineSize a) = some d) :
    s.nextByte a = lineByte (some d) (a - lineOf s.cfg.lineSize a) := by
  simp only [State.nextByte, h]

theorem nextByte_of_absent {s : State} {a : Nat}
    (h : lruFind s.l3 (lineOf s.cfg.lineSize a) = none) : s.nextByte a = Memory.read s.mem a := by
  simp only [State.nextByte, h]

/-- Everything a push into the shared cache can do (R291). -/
theorem l3Push_cases (l : LineAddr) (data : List Byte) (s : State) :
    ∃ st v, lruPush s.cfg.l3Lines s.l3 l data = (st, v) ∧
      ((v = none ∧ l3Push l data s = { s with l3 := st }) ∨
        ∃ vl vd, v = some (vl, vd) ∧
          l3Push l data s = { s with l3 := st, mem := Memory.writeLine s.mem vl vd }) := by
  unfold l3Push
  rcases hpush : lruPush s.cfg.l3Lines s.l3 l data with ⟨st, _ | ⟨vl, vd⟩⟩
  · exact ⟨st, none, rfl, .inl ⟨rfl, rfl⟩⟩
  · exact ⟨st, some (vl, vd), rfl, .inr ⟨vl, vd, rfl, rfl⟩⟩

/-- A line pushed into the shared cache is read back there; its victim is read back from memory. -/
theorem nextByte_l3Push {s : State} {l : LineAddr} {data : List Byte} (h : SoundCaches s) (a : Nat) :
    (l3Push l data s).nextByte a
      = if lineOf s.cfg.lineSize a = l then lineByte (some data) (a - l) else s.nextByte a := by
  obtain ⟨st, v, hpush, hcases⟩ := l3Push_cases l data s
  obtain ⟨hnew, hkept, hvictim⟩ := lruPush_pushed h.l3.1 hpush
  by_cases ha : lineOf s.cfg.lineSize a = l
  · subst ha
    rw [if_pos rfl]
    rcases hcases with ⟨-, heq⟩ | ⟨vl, vd, -, heq⟩
    · rw [heq]
      exact nextByte_of_find (s := { s with l3 := st }) hnew
    · rw [heq]
      exact nextByte_of_find (s := { s with l3 := st, mem := Memory.writeLine s.mem vl vd }) hnew
  · rw [if_neg ha]
    rcases hcases with ⟨rfl, heq⟩ | ⟨vl, vd, rfl, heq⟩
    · simp only [heq, State.nextByte, hkept _ ha fun x hx => nomatch hx]
    · obtain ⟨-, hfind, hgone⟩ := hvictim _ rfl
      obtain ⟨hvl, hvd⟩ := h.l3.find hfind
      by_cases hav : lineOf s.cfg.lineSize a = vl
      · subst hav
        rw [heq, nextByte_of_absent hgone, nextByte_of_find hfind]
        exact (read_writeLine s.mem a h.line hvl hvd).trans (if_pos rfl)
      · simp only [heq, State.nextByte, hkept _ ha fun x hx => Option.some.inj hx ▸ hav,
          read_writeLine s.mem a h.line hvl hvd, if_neg hav]

/-- A line written to the next level is read back from it (R290). -/
theorem nextByte_writeNext {s : State} {l : LineAddr} {data : List Byte} (h : SoundCaches s)
    (hl : lineOf s.cfg.lineSize l = l) (hdata : data.length = s.cfg.lineSize) (a : Nat) :
    (writeNext l data s).nextByte a
      = if lineOf s.cfg.lineSize a = l then lineByte (some data) (a - l) else s.nextByte a := by
  by_cases hl3 : 0 < s.cfg.l3Lines
  · rw [writeNext, if_pos hl3]
    exact nextByte_l3Push h a
  · have hempty : s.l3 = [] := h.absent (Nat.eq_zero_of_not_pos hl3)
    rw [writeNext, if_neg hl3, nextByte_of_absent (by simp [hempty, lruFind, assocFind]),
      nextByte_of_absent (by simp [hempty, lruFind, assocFind])]
    exact read_writeLine s.mem a h.line hl hdata

/-- A read from the next level goes to memory only for a line that is not in the shared cache (R289). -/
theorem nextRead_source {l : LineAddr} {s t : State} {d : List Byte}
    (h : nextRead l s = .ok (d, t)) :
    (lruFind s.l3 l = some d ∧ t = { s with l3 := lruRemove s.l3 l ++ [(l, d)] }) ∨
      lruFind s.l3 l = none ∧ d = Memory.readLine s.mem s.cfg.lineSize l ∧
        (t = l3Push l d s ∨ t = s) := by
  cases hl : lruContains s.l3 l with
  | true =>
    simp only [nextRead, hl, if_true] at h
    obtain ⟨⟨d', st⟩, hread, h⟩ := bind_ok.mp h
    obtain ⟨rfl, rfl⟩ := Prod.mk.inj (Except.ok.inj h)
    obtain ⟨hfind, rfl⟩ := lruRead_ok.mp hread
    exact .inl ⟨hfind, rfl⟩
  | false =>
    rcases nextRead_ok h with ⟨st, hread, -⟩ | ⟨hd, ht⟩
    · exact nomatch (lruRead_ok.mp hread).1.symm.trans (lruFind_none.mpr hl)
    · exact .inr ⟨lruFind_none.mpr hl, hd, ht.imp And.right And.right⟩

/-- A read from the next level answers its bytes and leaves them as they were (R289). -/
theorem nextRead_nextByte {l : LineAddr} {s t : State} {d : List Byte} (hs : SoundCaches s)
    (h : nextRead l s = .ok (d, t)) :
    (∀ a, lineOf s.cfg.lineSize a = l → lineByte (some d) (a - l) = s.nextByte a) ∧
      ∀ a, t.nextByte a = s.nextByte a := by
  rcases nextRead_source h with ⟨hfind, rfl⟩ | ⟨hnone, rfl, ht⟩
  · refine ⟨fun a ha => ?_, fun a => ?_⟩
    · subst ha
      exact (nextByte_of_find hfind).symm
    · by_cases ha : lineOf s.cfg.lineSize a = l
      · simp only [State.nextByte, ha, lruFind_renew_self, hfind]
      · simp only [State.nextByte, lruFind_renew_ne s.l3 d ha]
  · have hbytes : ∀ a, lineOf s.cfg.lineSize a = l →
        lineByte (some (Memory.readLine s.mem s.cfg.lineSize l)) (a - l) = s.nextByte a := by
      rintro a rfl
      rw [nextByte_of_absent hnone]
      exact lineByte_readLine s.mem (lineOf_le _ a) (lt_lineOf_add a hs.line)
    refine ⟨hbytes, fun a => ?_⟩
    rcases ht with rfl | rfl
    · rw [nextByte_l3Push hs]
      split_ifs with ha
      · exact hbytes a ha
      · rfl
    · rfl

end Sys2Proof.Machine
end

section
/-! SUPPORT. The memory view (R86) through the cache controller (R289 to R312): a line that leaves an
L1D keeps its bytes in the view, and so do a fill and a snoop command; a completed WRITE changes its own
bytes. Settles O42, O43 and O44. -/

namespace Sys2Proof.Machine

/-! ### The view of a line -/

theorem modifiedOwner_some {s : State} {l : LineAddr} {c : CoreId}
    (h : modifiedOwner s l = some c) : c < s.cfg.numCores ∧ s.dirGet c l = .m :=
  ⟨List.mem_range.mp (List.mem_of_find?_eq_some h),
    of_decide_eq_true (List.find?_some (p := fun d => decide (s.dirGet d l = .m)) h)⟩

theorem modifiedOwner_none {s : State} {l : LineAddr} :
    modifiedOwner s l = none ↔ ∀ d, d < s.cfg.numCores → s.dirGet d l ≠ .m := by
  simp [modifiedOwner]

/-- The view of a line that no core has Modified is the next level's. -/
theorem memView_of_unowned {s : State} {a : Nat}
    (h : ∀ d, d < s.cfg.numCores → s.dirGet d (lineOf s.cfg.lineSize a) ≠ .m) :
    s.memView a = s.nextByte a := by
  cases hl3 : lruFind s.l3 (lineOf s.cfg.lineSize a) <;>
    simp only [State.memView, modifiedOwner_none.mpr h, State.nextByte, hl3]

/-- The view of a line that one core has Modified is that core's copy. -/
theorem memView_of_owner {s : State} {a : Nat} {c : CoreId} (hc : c < s.cfg.numCores)
    (hm : s.dirGet c (lineOf s.cfg.lineSize a) = .m)
    (halone : ∀ d, d < s.cfg.numCores → d ≠ c → s.dirGet d (lineOf s.cfg.lineSize a) ≠ .m) :
    s.memView a = lineByte (lruFind (s.core c).l1d (lineOf s.cfg.lineSize a))
      (a - lineOf s.cfg.lineSize a) := by
  cases howner : modifiedOwner s (lineOf s.cfg.lineSize a) with
  | none => exact absurd hm (modifiedOwner_none.mp howner c hc)
  | some d =>
    obtain ⟨hd, hdm⟩ := modifiedOwner_some howner
    obtain rfl : d = c := by_contra fun hdc => halone d hd hdc hdm
    simp only [State.memView, howner]

theorem MsiExclusive.alone {s : State} (hs : MsiExclusive s) {c d : CoreId} {l : LineAddr}
    (hc : c < s.cfg.numCores) (hm : s.dirGet c l = .m) (hd : d < s.cfg.numCores) (hdc : d ≠ c) :
    s.dirGet d l ≠ .m := by
  simp [hs c d l hc hd (Ne.symm hdc) hm]

/-- The view of an address stays when every core that has its line Modified had it so with the same
copy, and the next level has the byte when none has. -/
theorem memView_eq_of_owned {s t : State} {a : Nat} (hs : MsiExclusive s) (hcfg : t.cfg = s.cfg)
    (howned : ∀ d, t.dirGet d (lineOf s.cfg.lineSize a) = .m →
      s.dirGet d (lineOf s.cfg.lineSize a) = .m ∧
        lruFind (t.core d).l1d (lineOf s.cfg.lineSize a)
          = lruFind (s.core d).l1d (lineOf s.cfg.lineSize a))
    (hnext : (∀ d, d < s.cfg.numCores → t.dirGet d (lineOf s.cfg.lineSize a) ≠ .m) →
      t.nextByte a = s.memView a) : t.memView a = s.memView a := by
  cases howner : modifiedOwner t (lineOf s.cfg.lineSize a) with
  | none =>
    have hnone := modifiedOwner_none.mp howner
    rw [hcfg] at hnone
    rw [memView_of_unowned (by rwa [hcfg]), hnext hnone]
  | some c =>
    obtain ⟨hc, hm⟩ := modifiedOwner_some howner
    obtain ⟨hsm, hfind⟩ := howned c hm
    rw [hcfg] at hc
    rw [memView_of_owner hc hsm fun d => hs.alone hc hsm, ← hfind]
    simp only [State.memView, hcfg, howner]

/-- A core's copy of a line equals the view (R86). -/
def CopyAgrees (s : State) (c : CoreId) (l : LineAddr) : Prop :=
  ∃ d, lruFind (s.core c).l1d l = some d ∧
    ∀ a, lineOf s.cfg.lineSize a = l → lineByte (some d) (a - l) = s.memView a

theorem sharedAgree_iff {s : State} :
    SharedAgree s ↔ ∀ c l, c < s.cfg.numCores → s.dirGet c l = .s → CopyAgrees s c l := Iff.rfl

/-- A copy that stays equals the view where the view stays. -/
theorem CopyAgrees.keep {s t : State} {c : CoreId} {l : LineAddr} (h : CopyAgrees s c l)
    (hcfg : t.cfg = s.cfg) (hfind : lruFind (t.core c).l1d l = lruFind (s.core c).l1d l)
    (hview : ∀ a, lineOf s.cfg.lineSize a = l → t.memView a = s.memView a) : CopyAgrees t c l := by
  obtain ⟨d, hd, hbytes⟩ := h
  refine ⟨d, hfind.trans hd, fun a ha => ?_⟩
  rw [hcfg] at ha
  rw [hview a ha, hbytes a ha]

theorem MsiExclusive.of_shrinks {s t : State} (hs : MsiExclusive s) (hcfg : t.cfg = s.cfg)
    (h : ∀ d j, t.dirGet d j = s.dirGet d j ∨ t.dirGet d j = .i) : MsiExclusive t := by
  intro c d l hc hd hcd hm
  rw [hcfg] at hc hd
  rcases h c l with hcl | hcl
  · rcases h d l with hdl | hdl
    · rw [hdl]
      exact hs c d l hc hd hcd (hcl ▸ hm)
    · exact hdl
  · rw [hcl] at hm
    cases hm

/-! ### What keeps the view -/

/-- The view stays, and every copy but core c's of line l that stays in the directory stays as it
was. -/
structure ViewKept (c : CoreId) (l : LineAddr) (s t : State) : Prop where
  cfg : t.cfg = s.cfg
  view : ∀ a, t.memView a = s.memView a
  copies : ∀ d j, ¬(d = c ∧ j = l) → t.dirGet d j ≠ .i →
    t.dirGet d j = s.dirGet d j ∧ lruFind (t.core d).l1d j = lruFind (s.core d).l1d j

theorem ViewKept.refl (c : CoreId) (l : LineAddr) (s : State) : ViewKept c l s s :=
  ⟨rfl, fun _ => rfl, fun _ _ _ _ => ⟨rfl, rfl⟩⟩

theorem ViewKept.trans {c : CoreId} {l : LineAddr} {s t u : State} (h : ViewKept c l s t)
    (h' : ViewKept c l t u) : ViewKept c l s u where
  cfg := h'.cfg.trans h.cfg
  view a := (h'.view a).trans (h.view a)
  copies d j hdj hi := by
    obtain ⟨hdir', hfind'⟩ := h'.copies d j hdj hi
    obtain ⟨hdir, hfind⟩ := h.copies d j hdj (hdir' ▸ hi)
    exact ⟨hdir'.trans hdir, hfind'.trans hfind⟩

/-- The view reads neither the semaphores nor the commands. -/
theorem ViewKept.of_congr {s t : State} (c : CoreId) (l : LineAddr) (hcfg : t.cfg = s.cfg)
    (hdir : t.dir = s.dir) (hl3 : t.l3 = s.l3) (hmem : t.mem = s.mem)
    (hl1d : ∀ d, (t.core d).l1d = (s.core d).l1d) : ViewKept c l s t where
  cfg := hcfg
  view := memView_congr hcfg hdir hl3 hmem hl1d
  copies d j _ _ := ⟨dirGet_congr hdir d j, by rw [hl1d d]⟩

/-- Shared copies go on to equal a view that stays, when the one line that is free to change does. -/
theorem ViewKept.sharedAgree {c : CoreId} {l : LineAddr} {s t : State} (h : ViewKept c l s t)
    (hs : SharedAgree s) (hl : t.dirGet c l = .s → CopyAgrees t c l) : SharedAgree t := by
  refine sharedAgree_iff.mpr fun d j hd hj => ?_
  rw [h.cfg] at hd
  by_cases hdj : d = c ∧ j = l
  · obtain ⟨rfl, rfl⟩ := hdj
    exact hl hj
  · obtain ⟨hdir, hfind⟩ := h.copies d j hdj (by simp [hj])
    exact CopyAgrees.keep (hs d j hd (hdir ▸ hj)) h.cfg hfind fun a _ => h.view a

/-- A directory entry that is not Modified may become another one that is not. -/
theorem viewKept_dirSet {s : State} {c : CoreId} {l : LineAddr} {v : Msi} (hs : MsiExclusive s)
    (hm : s.dirGet c l ≠ .m) (hv : v ≠ .m) : ViewKept c l s (s.dirSet c l v) where
  cfg := rfl
  view a := by
    have hsame : ∀ d j, (s.dirSet c l v).dirGet d j = .m ↔ s.dirGet d j = .m := fun d j => by
      by_cases hdj : d = c ∧ j = l
      · obtain ⟨rfl, rfl⟩ := hdj
        simp [dirGet_dirSet_self, hm, hv]
      · rw [dirGet_dirSet_ne s v hdj]
    refine memView_eq_of_owned hs rfl (fun d hd => ⟨(hsame d _).mp hd, by rw [core_dirSet]⟩)
      fun hnone => ?_
    rw [memView_of_unowned fun d hd => mt (hsame d _).mpr (hnone d hd)]
    exact nextByte_congr rfl rfl rfl a
  copies d j hdj _ := ⟨dirGet_dirSet_ne s v hdj, by rw [core_dirSet]⟩

/-- A read from the next level (R289) keeps the view. -/
theorem viewKept_nextRead {s t : State} {c : CoreId} {l : LineAddr} {d : List Byte}
    (hs : SoundCaches s) (hmsi : MsiExclusive s) (h : nextRead l s = .ok (d, t)) :
    ViewKept c l s t := by
  have hnext := (nextRead_nextByte hs h).2
  obtain ⟨l3, mem, rfl⟩ := nextRead_levels h
  refine ⟨rfl, fun a => ?_, fun _ _ _ _ => ⟨rfl, rfl⟩⟩
  refine memView_eq_of_owned hmsi rfl (fun _ hd => ⟨hd, rfl⟩) fun hnone => ?_
  rw [hnext a, memView_of_unowned hnone]

/-! ### A line leaves an L1D -/

/-- Line l has left core c's L1D: its entry is I, its data is at the next level when it was Modified,
and all else is as it was but for core c's copy of line `new`. -/
structure LineLeft (c : CoreId) (l new : LineAddr) (s t : State) : Prop where
  cfg : t.cfg = s.cfg
  dropped : t.dirGet c l = .i
  dir : ∀ d j, ¬(d = c ∧ j = l) → t.dirGet d j = s.dirGet d j
  copies : ∀ d j, ¬(d = c ∧ (j = l ∨ j = new)) →
    lruFind (t.core d).l1d j = lruFind (s.core d).l1d j
  next : ∀ a, t.nextByte a = if s.dirGet c l = .m ∧ lineOf s.cfg.lineSize a = l then
    lineByte (lruFind (s.core c).l1d l) (a - l) else s.nextByte a

/-- A line that leaves an L1D keeps its bytes in the view: a Modified one at the next level, where any
other one had them already. -/
theorem LineLeft.viewKept {c : CoreId} {l new : LineAddr} {s t : State} (h : LineLeft c l new s t)
    (hs : MsiExclusive s) (hc : c < s.cfg.numCores) (hnew : s.dirGet c new = .m → new = l) :
    ViewKept c new s t where
  cfg := h.cfg
  view a := by
    have howned : ∀ d j, t.dirGet d j = .m → s.dirGet d j = .m ∧ ¬(d = c ∧ j = l) := by
      intro d j hm
      have hdj : ¬(d = c ∧ j = l) := fun hdj => by
        rw [hdj.1, hdj.2, h.dropped] at hm
        cases hm
      exact ⟨h.dir d j hdj ▸ hm, hdj⟩
    refine memView_eq_of_owned hs h.cfg (fun d hm => ?_) fun hnone => ?_
    · obtain ⟨hsm, hdl⟩ := howned d _ hm
      refine ⟨hsm, h.copies d _ fun ⟨hdc, hj⟩ => hj.elim (fun hj => hdl ⟨hdc, hj⟩) fun hj => ?_⟩
      exact hdl ⟨hdc, hj.trans (hnew (hdc ▸ hj ▸ hsm))⟩
    · rw [h.next a]
      split_ifs with hleft
      · obtain ⟨hm, rfl⟩ := hleft
        exact (memView_of_owner hc hm fun d => hs.alone hc hm).symm
      · refine (memView_of_unowned fun d hd hm => hnone d hd ?_).symm
        rwa [h.dir d _ fun hdl => hleft ⟨hdl.1 ▸ hdl.2 ▸ hm, hdl.2⟩]
  copies d j hdj hi := by
    have hdl : ¬(d = c ∧ j = l) := fun hdl => hi (hdl.1 ▸ hdl.2 ▸ h.dropped)
    exact ⟨h.dir d j hdl, h.copies d j fun ⟨hdc, hj⟩ =>
      hj.elim (fun hj => hdl ⟨hdc, hj⟩) fun hj => hdj ⟨hdc, hj⟩⟩

/-- A core's line is dropped after its data, when it was Modified, was written to the next level; the
L1D may gain line `new`. -/
theorem lineLeft_of_levels {s : State} {c : CoreId} {l new : LineAddr} {st : LruStore (List Byte)}
    {l3 : LruStore (List Byte)} {mem : Memory} (hc : c < s.cores.length)
    (hst : ∀ j, ¬(j = l ∨ j = new) → lruFind st j = lruFind (s.core c).l1d j)
    (hnext : ∀ a, ({ s with l3 := l3, mem := mem } : State).nextByte a
      = if s.dirGet c l = .m ∧ lineOf s.cfg.lineSize a = l then
          lineByte (lruFind (s.core c).l1d l) (a - l) else s.nextByte a) :
    LineLeft c l new s ((setL1d c st { s with l3 := l3, mem := mem }).dirSet c l .i) where
  cfg := rfl
  dropped := dirGet_dirSet_self _ c l .i
  dir d j hdj := dirGet_dirSet_ne _ .i hdj
  copies d j hdj := by
    rw [core_dirSet]
    by_cases hd : d = c
    · subst hd
      rw [core_setL1d_self (s := { s with l3 := l3, mem := mem }) hc]
      exact hst j fun hj => hdj ⟨rfl, hj⟩
    · rw [core_setL1d_ne hd]
      rfl
  next a := (nextByte_congr rfl rfl rfl a).trans (hnext a)

/-- Writing an L1D and writing the levels behind it are independent. -/
theorem l3Push_setL1d (c : CoreId) (st : LruStore (List Byte)) (l : LineAddr) (data : List Byte)
    (s : State) : l3Push l data (setL1d c st s) = setL1d c st (l3Push l data s) := by
  have hpush : lruPush (setL1d c st s).cfg.l3Lines (setL1d c st s).l3 l data
      = lruPush s.cfg.l3Lines s.l3 l data := rfl
  unfold l3Push
  rw [hpush]
  rcases lruPush s.cfg.l3Lines s.l3 l data with ⟨st', _ | ⟨vl, vd⟩⟩ <;> rfl

theorem writeNext_setL1d (c : CoreId) (st : LruStore (List Byte)) (l : LineAddr)
    (data : List Byte) (s : State) :
    writeNext l data (setL1d c st s) = setL1d c st (writeNext l data s) := by
  unfold writeNext
  rw [setL1d_cfg, apply_ite (setL1d c st), l3Push_setL1d]
  rfl

/-- Dropping a line from core c's L1D, with its write-back when it is Modified (R296, R312). -/
theorem lineLeft_drop {s : State} {c : CoreId} {l new : LineAddr} {st : LruStore (List Byte)}
    {d : List Byte} (hs : SoundCaches s) (hc : c < s.cores.length)
    (hfind : lruFind (s.core c).l1d l = some d)
    (hst : ∀ j, ¬(j = l ∨ j = new) → lruFind st j = lruFind (s.core c).l1d j) :
    LineLeft c l new s ((setL1d c st
      (if s.dirGet c l = .m then writeNext l d s else s)).dirSet c l .i) := by
  obtain ⟨hl, hd⟩ := (hs.l1d c).find hfind
  split_ifs with hm
  · obtain ⟨l3, mem, heq⟩ := writeNext_levels l d s
    rw [heq]
    refine lineLeft_of_levels hc hst fun a => ?_
    rw [← heq, nextByte_writeNext hs hl hd a, hfind]
    simp [hm]
  · refine lineLeft_of_levels (l3 := s.l3) (mem := s.mem) hc hst fun a => ?_
    simp [hm]

/-! ### A fill -/

/-- An L1D that changes at a line its core does not have Modified keeps the view. -/
theorem viewKept_setL1d {s : State} {c : CoreId} {l : LineAddr} {st : LruStore (List Byte)}
    (hmsi : MsiExclusive s) (hc : c < s.cores.length) (hm : s.dirGet c l ≠ .m)
    (hst : ∀ j, j ≠ l → lruFind st j = lruFind (s.core c).l1d j) :
    ViewKept c l s (setL1d c st s) := by
  have hcopies : ∀ d j, ¬(d = c ∧ j = l) →
      lruFind ((setL1d c st s).core d).l1d j = lruFind (s.core d).l1d j := by
    intro d j hdj
    by_cases hd : d = c
    · subst hd
      rw [core_setL1d_self hc]
      exact hst j fun hj => hdj ⟨rfl, hj⟩
    · rw [core_setL1d_ne hd]
  refine ⟨rfl, fun a => ?_, fun d j hdj _ => ⟨rfl, hcopies d j hdj⟩⟩
  refine memView_eq_of_owned hmsi rfl (fun d hd => ⟨hd, hcopies d _ fun hdl => ?_⟩) fun hnone => ?_
  · exact hm (hdl.1 ▸ hdl.2 ▸ hd)
  · rw [memView_of_unowned hnone]
    exact nextByte_congr rfl rfl rfl a

/-- Installing a line that its core does not have Modified keeps the view, whatever line it evicts
(R296). -/
theorem viewKept_install {s : State} {c : CoreId} {l : LineAddr} {data : List Byte}
    (hs : SoundCaches s) (hmsi : MsiExclusive s) (hcn : c < s.cfg.numCores)
    (hc : c < s.cores.length) (hm : s.dirGet c l ≠ .m) :
    ViewKept c l s (install c l data s) ∧
      lruFind ((install c l data s).core c).l1d l = some data := by
  rcases install_cases c l data s with ⟨st, hpush, heq⟩ | ⟨st, vl, vd, hpush, heq⟩
  all_goals obtain ⟨hnew, hkept, hvictim⟩ := lruPush_pushed (hs.l1d c).1 hpush
  · rw [heq]
    exact ⟨viewKept_setL1d hmsi hc hm fun j hj => hkept j hj fun x hx => (nomatch hx),
      by rwa [core_setL1d_self hc]⟩
  · obtain ⟨-, hfind, -⟩ := hvictim _ rfl
    have hwritten : (if s.dirGet c vl = .m then writeNext vl vd (setL1d c st s)
          else setL1d c st s)
        = setL1d c st (if s.dirGet c vl = .m then writeNext vl vd s else s) := by
      rw [writeNext_setL1d, apply_ite (setL1d c st)]
    have hc' : c < (if s.dirGet c vl = .m then writeNext vl vd s else s).cores.length := by
      obtain ⟨l3, mem, hlevels⟩ := writeNext_levels vl vd s
      rw [hlevels]
      split_ifs <;> exact hc
    rw [heq, hwritten]
    refine ⟨(lineLeft_drop hs hc hfind fun j hj => ?_).viewKept hmsi hcn fun h => absurd h hm, ?_⟩
    · exact hkept j (fun h => hj (.inr h)) fun x hx => Option.some.inj hx ▸ fun h => hj (.inl h)
    · rwa [core_dirSet, core_setL1d_self hc']

/-- What fetching line l with its data leaves: the view and every other copy, the line in core c's L1D
with the bytes the view has of it, and a directory that lost at most a victim. -/
structure Fetched (c : CoreId) (l : LineAddr) (d : List Byte) (s t : State) : Prop where
  kept : ViewKept c l s t
  present : lruFind (t.core c).l1d l = some d
  whole : d.length = s.cfg.lineSize
  bytes : ∀ a, lineOf s.cfg.lineSize a = l → lineByte (some d) (a - l) = s.memView a
  shrinks : ∀ e j, t.dirGet e j = s.dirGet e j ∨ t.dirGet e j = .i

/-- A line that no core has Modified is fetched with the bytes of the view (R83, R289, R296). -/
theorem install_fetched {s s1 : State} {c : CoreId} {l : LineAddr} {d : List Byte}
    (hs : SoundCaches s) (hmsi : MsiExclusive s) (hcn : c < s.cfg.numCores)
    (hc : c < s.cores.length) (hl : lineOf s.cfg.lineSize l = l)
    (hnone : ∀ e, e < s.cfg.numCores → s.dirGet e l ≠ .m) (h : nextRead l s = .ok (d, s1)) :
    Fetched c l d s (install c l d s1) := by
  obtain ⟨hs1, hwhole⟩ := hs.nextRead hl h
  have hread : ViewKept c l s s1 := viewKept_nextRead hs hmsi h
  have hbytes := (nextRead_nextByte hs h).1
  obtain ⟨l3, mem, rfl⟩ := nextRead_levels h
  obtain ⟨hinstall, hfind⟩ := viewKept_install (data := d) hs1 hmsi hcn hc (hnone c hcn)
  refine ⟨hread.trans hinstall, hfind, hwhole, fun a ha => ?_, fun e j => ?_⟩
  · rw [hbytes a ha, memView_of_unowned (by rwa [ha])]
  · exact (install_installed (s := { s with l3 := l3, mem := mem }) hc (hs1.l1d c).1).shrinks e j

theorem Fetched.msiExclusive {c : CoreId} {l : LineAddr} {d : List Byte} {s t : State}
    (h : Fetched c l d s t) (hs : MsiExclusive s) : MsiExclusive t :=
  hs.of_shrinks h.kept.cfg h.shrinks

/-- Settles O42: no core has the line Modified, so the next level has the view of it; what is evicted
on the way goes to the level behind. -/
theorem readFillReturnsAndKeepsTheMemoryView :
    Obligations.ReadFillReturnsAndKeepsTheMemoryView := by
  intro c r src s t cells hstores hmsi hcn hc hkind hsrc hl hnone h
  have hs := (soundStores_iff.mp hstores).1
  obtain ⟨m, -, ⟨-, d, s2, hread, hrelease, rfl⟩ | ⟨hwrite, -⟩⟩ := complete_ok h
  · obtain ⟨v, -, rfl⟩ := releaseLock_ok.mp hrelease
    obtain ⟨hl1, -⟩ | ⟨-, s1, hnext, rfl⟩ := readData_ok hread
    · exact absurd hl1 hsrc
    have hfetched := install_fetched hs hmsi hcn hc hl hnone hnext
    have hm : (install c r.line d s1).dirGet c r.line ≠ .m := by
      rcases hfetched.shrinks c r.line with heq | heq <;> simp [heq, hnone c hcn]
    have hkept : ViewKept c r.line s
        (((install c r.line d s1).dirSet c r.line .s).semSet r.line v) :=
      (hfetched.kept.trans (viewKept_dirSet (hfetched.msiExclusive hmsi) hm (by decide))).trans
        (.of_congr c r.line rfl rfl rfl rfl fun _ => rfl)
    have hcells : ∀ e : Host.Cell, e ∈ lineCells r.line d ↔
        lineOf s.cfg.lineSize e.1 = r.line ∧ e.2 = s.memView e.1 := fun e =>
      (mem_lineCells_iff hs.line hl hfetched.whole).trans
        (and_congr_right fun he => by rw [hfetched.bytes e.1 he])
    refine ⟨fun a ha => (hcells _).mpr ⟨ha, rfl⟩, fun e he => (hcells e).mp he, hkept.view,
      fun hshared => hkept.sharedAgree hshared fun _ => ⟨d, hfetched.present, fun a ha => ?_⟩⟩
    rw [hkept.cfg] at ha
    rw [hkept.view, hfetched.bytes a ha]
  · rw [hkind] at hwrite
    cases hwrite

/-! ### A completed WRITE -/

/-- The line a WRITE completes on (R305): in core c's L1D with the bytes of the view, and no peer has
it. -/
structure Writable (c : CoreId) (l : LineAddr) (d : List Byte) (s : State) : Prop where
  present : lruFind (s.core c).l1d l = some d
  whole : d.length = s.cfg.lineSize
  bytes : ∀ a, lineOf s.cfg.lineSize a = l → lineByte (some d) (a - l) = s.memView a
  alone : ∀ e, e < s.cfg.numCores → e ≠ c → s.dirGet e l = .i

/-- A line that a core holds, Shared or Modified, has the bytes of the view (R86). -/
theorem held_bytes_eq_view {s : State} {c : CoreId} {l : LineAddr} {d : List Byte}
    (hmsi : MsiExclusive s) (hshared : SharedAgree s) (hcn : c < s.cfg.numCores)
    (hheld : s.dirGet c l ≠ .i) (hfind : lruFind (s.core c).l1d l = some d) :
    ∀ a, lineOf s.cfg.lineSize a = l → lineByte (some d) (a - l) = s.memView a := by
  cases hdir : s.dirGet c l with
  | i => exact absurd hdir hheld
  | s =>
    obtain ⟨d', hd', hbytes⟩ := hshared c l hcn hdir
    obtain rfl : d' = d := by simpa [hfind, eq_comm] using hd'
    exact hbytes
  | m =>
    rintro a rfl
    rw [memView_of_owner hcn hdir fun e => hmsi.alone hcn hdir, hfind]

/-- The fetch of a line to be written, by its source (R305). -/
theorem fetchForWrite_source {c : CoreId} {src : Source} {l : LineAddr} {s t : State}
    (h : fetchForWrite c src l s = .ok t) :
    (src = .l1 ∧ t = s) ∨
      src ≠ .l1 ∧ ∃ d s1, nextRead l s = .ok (d, s1) ∧ t = install c l d s1 := by
  cases src with
  | l1 => exact .inl ⟨rfl, (Except.ok.inj h).symm⟩
  | l3 | mem =>
    obtain ⟨⟨d, s1⟩, hread, h⟩ := bind_ok.mp h
    exact .inr ⟨by decide, d, s1, hread, (Except.ok.inj h).symm⟩

/-- Everything the fetch of a line to be written leaves (R305). -/
theorem fetchForWrite_writable {s t : State} {c : CoreId} {src : Source} {l : LineAddr}
    {d : List Byte} (hs : SoundCaches s) (hmsi : MsiExclusive s) (hshared : SharedAgree s)
    (hcn : c < s.cfg.numCores) (hc : c < s.cores.length) (hl : lineOf s.cfg.lineSize l = l)
    (hsrc : src = .l1 ↔ s.dirGet c l ≠ .i) (hpeers : ∀ e ∈ peers s c, s.dirGet e l = .i)
    (h : fetchForWrite c src l s = .ok t) (hfind : lruFind (t.core c).l1d l = some d) :
    ViewKept c l s t ∧ MsiExclusive t ∧ SharedAgree t ∧ Writable c l d t := by
  have halone : ∀ e, e < s.cfg.numCores → e ≠ c → s.dirGet e l = .i := fun e he hec =>
    hpeers e (mem_peers.mpr ⟨he, hec⟩)
  rcases fetchForWrite_source h with ⟨hl1, rfl⟩ | ⟨hl1, d', s1, hnext, rfl⟩
  · exact ⟨.refl c l t, hmsi, hshared, hfind, ((hs.l1d c).find hfind).2,
      held_bytes_eq_view hmsi hshared hcn (hsrc.mp hl1) hfind, halone⟩
  · have hi : s.dirGet c l = .i := by_contra fun hi => hl1 (hsrc.mpr hi)
    have hnone : ∀ e, e < s.cfg.numCores → s.dirGet e l ≠ .m := fun e he => by
      by_cases hec : e = c
      · simp [hec, hi]
      · simp [halone e he hec]
    have hfetched := install_fetched hs hmsi hcn hc hl hnone hnext
    have hgone : ∀ e, s.dirGet e l = .i → (install c l d' s1).dirGet e l = .i := fun e he =>
      (hfetched.shrinks e l).elim (fun heq => heq.trans he) id
    obtain rfl : d' = d := Option.some.inj (hfetched.present.symm.trans hfind)
    refine ⟨hfetched.kept, hfetched.msiExclusive hmsi,
      hfetched.kept.sharedAgree hshared fun hshare => ?_, hfind, ?_, fun a ha => ?_, ?_⟩
    · rw [hgone c hi] at hshare
      cases hshare
    · rw [hfetched.kept.cfg, hfetched.whole]
    · rw [hfetched.kept.cfg] at ha
      rw [hfetched.bytes a ha, hfetched.kept.view]
    · rw [hfetched.kept.cfg]
      exact fun e he hec => hgone e (halone e he hec)

/-- Core c has taken line l Modified with these bytes; all else of the view is as it was. -/
structure LineTaken (c : CoreId) (l : LineAddr) (d : List Byte) (s t : State) : Prop where
  cfg : t.cfg = s.cfg
  own : t.dirGet c l = .m
  dir : ∀ e j, ¬(e = c ∧ j = l) → t.dirGet e j = s.dirGet e j
  line : lruFind (t.core c).l1d l = some d
  copies : ∀ e j, j ≠ l → lruFind (t.core e).l1d j = lruFind (s.core e).l1d j
  next : ∀ a, t.nextByte a = s.nextByte a

/-- What a WRITE writes once its line is there (R305). -/
theorem lineTaken_renew {s : State} {c : CoreId} (l : LineAddr) (d : List Byte) (v : Sem)
    (hc : c < s.cores.length) :
    LineTaken c l d s (((setL1d c (lruRemove (s.core c).l1d l ++ [(l, d)]) s).dirSet
      c l .m).semSet l v) where
  cfg := rfl
  own := dirGet_dirSet_self _ c l .m
  dir e j hej := dirGet_dirSet_ne _ .m hej
  line := by
    rw [core_semSet, core_dirSet, core_setL1d_self hc]
    exact lruFind_renew_self _ l d
  copies e j hj := by
    rw [core_semSet, core_dirSet]
    by_cases he : e = c
    · rw [he, core_setL1d_self hc, lruFind_renew_ne _ _ hj]
    · rw [core_setL1d_ne he]
  next := nextByte_congr rfl rfl rfl

theorem LineTaken.memView_other {s t : State} {c : CoreId} {l : LineAddr} {d : List Byte} {a : Nat}
    (h : LineTaken c l d s t) (hmsi : MsiExclusive s) (ha : lineOf s.cfg.lineSize a ≠ l) :
    t.memView a = s.memView a := by
  have hdir : ∀ e, t.dirGet e (lineOf s.cfg.lineSize a) = s.dirGet e (lineOf s.cfg.lineSize a) :=
    fun e => h.dir e _ fun hea => ha hea.2
  refine memView_eq_of_owned hmsi h.cfg (fun e he => ⟨hdir e ▸ he, h.copies e _ ha⟩)
    fun hnone => ?_
  rw [h.next, memView_of_unowned fun e he => hdir e ▸ hnone e he]

theorem LineTaken.memView_line {s t : State} {c : CoreId} {l : LineAddr} {d : List Byte} {a : Nat}
    (h : LineTaken c l d s t) (hcn : c < s.cfg.numCores)
    (halone : ∀ e, e < s.cfg.numCores → e ≠ c → s.dirGet e l = .i)
    (ha : lineOf s.cfg.lineSize a = l) : t.memView a = lineByte (some d) (a - l) := by
  rw [← h.cfg] at ha hcn halone
  rw [memView_of_owner hcn (by rw [ha, h.own]) fun e he hec => ?_, ha, h.line]
  rw [ha, h.dir e l fun hel => hec hel.1, halone e he hec]
  decide

/-- No Shared copy is of the line taken, so all go on to equal the view. -/
theorem LineTaken.sharedAgree {s t : State} {c : CoreId} {l : LineAddr} {d : List Byte}
    (h : LineTaken c l d s t) (hmsi : MsiExclusive s)
    (halone : ∀ e, e < s.cfg.numCores → e ≠ c → s.dirGet e l = .i) (hs : SharedAgree s) :
    SharedAgree t := by
  refine sharedAgree_iff.mpr fun e j he hj => ?_
  rw [h.cfg] at he
  have hjl : j ≠ l := by
    rintro rfl
    by_cases hec : e = c
    · rw [hec, h.own] at hj
      cases hj
    · rw [h.dir e j fun hej => hec hej.1, halone e he hec] at hj
      cases hj
  have hsj : CopyAgrees s e j := hs e j he (h.dir e j (fun hej => hjl hej.2) ▸ hj)
  exact hsj.keep h.cfg (h.copies e j hjl) fun a ha => h.memView_other hmsi (ha ▸ hjl)

/-- A line taken with bytes set in it changes the view at those bytes (R75, R305). -/
theorem LineTaken.memView {s t : State} {c : CoreId} {l : LineAddr} {d : List Byte}
    {cells : List Host.Cell} (h : LineTaken c l (setLineBytes l d cells) s t)
    (hmsi : MsiExclusive s) (hcn : c < s.cfg.numCores) (hsize : 0 < s.cfg.lineSize)
    (hl : lineOf s.cfg.lineSize l = l) (hcells : ∀ e ∈ cells, lineOf s.cfg.lineSize e.1 = l)
    (hw : Writable c l d s) (a : Nat) : t.memView a = (lastByte cells a).getD (s.memView a) := by
  have hin : ∀ {b : Nat}, lineOf s.cfg.lineSize b = l → l ≤ b ∧ b < l + d.length := fun hb =>
    hw.whole ▸ (lineOf_eq_iff hsize hl).mp hb
  by_cases ha : lineOf s.cfg.lineSize a = l
  · obtain ⟨hle, hlt⟩ := hin ha
    rw [h.memView_line hcn hw.alone ha,
      lineByte_setLineBytes hle hlt fun e he => (hin (hcells e he)).1, hw.bytes a ha]
  · have hnone : lastByte cells a = none := lastByte_none.mpr fun b hb => ha (hcells _ hb)
    rw [h.memView_other hmsi ha, hnone]
    rfl

/-- Settles O43: the line is in the L1D with the bytes of the view, and no other core has it. -/
theorem writeCompletionChangesOnlyItsBytesOfTheView :
    Obligations.WriteCompletionChangesOnlyItsBytesOfTheView := by
  intro c r src s t cells hstores hmsi hshared hcn hc hkind hl hbytes hsrc h
  have hs := (soundStores_iff.mp hstores).1
  obtain ⟨m, -, ⟨hread, -⟩ | ⟨-, s1, st, hfetch, hwrite, hpeers, hrelease, -⟩⟩ := complete_ok h
  · rw [hkind] at hread
    cases hread
  · obtain ⟨d, hfind, rfl⟩ := lruWrite_ok.mp hwrite
    obtain ⟨v, -, rfl⟩ := releaseLock_ok.mp hrelease
    obtain ⟨hkept, hmsi1, hshared1, hw⟩ :=
      fetchForWrite_writable hs hmsi hshared hcn hc hl hsrc hpeers hfetch hfind
    have htaken := lineTaken_renew (s := s1) r.line (setLineBytes r.line d r.bytes) v
      (by rwa [(fetchForWrite_writes hfetch).frame.length])
    have hsize := hs.line
    rw [← hkept.cfg] at hcn hsize hl hbytes
    refine ⟨fun a => ?_, htaken.sharedAgree hmsi1 hw.alone hshared1⟩
    rw [htaken.memView hmsi1 hcn hsize hl hbytes hw, hkept.view]
    rfl

/-! ### Snoop commands -/

theorem core_l1d_lt {s : State} {c : CoreId} {l : LineAddr} {d : List Byte}
    (h : lruFind (s.core c).l1d l = some d) : c < s.cores.length := by
  by_contra hc
  rw [State.core, List.getElem?_eq_none (not_lt.mp hc)] at h
  cases h

/-- A snoop command finds the line gone, or drops it after writing a Modified line back (R312). -/
theorem runCommand_drops {key : CmdKey} {s t : State} (h : runCommand key s = .ok t) :
    ∃ s1, t = { s1 with cmds := cmdDone key s1.cmds } ∧
      (s1 = s ∨ ∃ d st, lruFind (s.core key.target).l1d key.line = some d ∧
        (∀ j, j ≠ key.line → lruFind st j = lruFind (s.core key.target).l1d j) ∧
        s1 = (setL1d key.target st (if s.dirGet key.target key.line = .m then
          writeNext key.line d s else s)).dirSet key.target key.line .i) := by
  obtain ⟨s1, rfl, ⟨-, rfl⟩ | ⟨hdir, hin, rfl⟩ | ⟨hdir, d, st, hread, rfl⟩⟩ := runCommand_ok h
  · exact ⟨s1, rfl, .inl rfl⟩
  · obtain ⟨d, hd⟩ := (lruFind_some_iff_contains _ _).mpr hin
    exact ⟨_, rfl, .inr ⟨d, _, hd, fun j => lruFind_remove_ne _, by simp [hdir]⟩⟩
  · obtain ⟨hd, rfl⟩ := lruRead_ok.mp hread
    refine ⟨_, rfl, .inr ⟨d, _, hd, fun j hj => ?_, by rw [if_pos hdir]⟩⟩
    rw [lruFind_remove_ne _ hj, lruFind_renew_ne _ d hj]

/-- Settles O44: a command drops a line, and the view has its bytes at the next level. -/
theorem snoopCommandKeepsTheMemoryView : Obligations.SnoopCommandKeepsTheMemoryView := by
  intro key s t hstores hmsi hcn h
  have hs := (soundStores_iff.mp hstores).1
  obtain ⟨s1, rfl, hs1⟩ := runCommand_drops h
  have hdone : ViewKept key.target key.line s1 { s1 with cmds := cmdDone key s1.cmds } :=
    .of_congr _ _ rfl rfl rfl rfl fun _ => rfl
  rcases hs1 with rfl | ⟨d, st, hfind, hst, rfl⟩
  · exact ⟨hdone.view, fun hshared => hdone.sharedAgree hshared fun hshare =>
      CopyAgrees.keep (hshared _ _ hcn hshare) rfl rfl fun a _ => hdone.view a⟩
  · have hleft := lineLeft_drop (new := key.line) hs (core_l1d_lt hfind) hfind fun j hj =>
      hst j fun h => hj (.inl h)
    have hkept := (hleft.viewKept hmsi hcn fun _ => rfl).trans hdone
    exact ⟨hkept.view, fun hshared => hkept.sharedAgree hshared fun hshare =>
      nomatch hleft.dropped.symm.trans hshare⟩

end Sys2Proof.Machine
end

section
/-! SUPPORT. The header words (30_encoding.md): the encoder writes and the decoder reads exactly the
words of the table of R103, and a program with any other has no run (R117, R367). Settles O1, O2, O3
and O5. -/

namespace Sys2Proof.Machine

/-! ### The fields of a word -/

theorem headerField_eq (h : BitVec 32) (lo len : Nat) :
    headerField h lo len = h.toNat / 2 ^ lo % 2 ^ len := by
  rw [headerField, BitVec.extractLsb'_toNat, Nat.shiftRight_eq_div_pow]

theorem headerField_bit (h : BitVec 32) (lo : Nat) :
    headerField h lo 1 = 0 ∨ headerField h lo 1 = 1 := by
  have := headerField_lt h lo 1
  omega

/-- A register field with its valid bit below it is one field of six bits. -/
theorem headerField_six (h : BitVec 32) (lo : Nat) :
    headerField h lo 6 = headerField h lo 1 + 2 * headerField h (lo + 1) 5 := by
  simp only [headerField_eq, Nat.pow_succ, ← Nat.div_div_eq_div_mul]
  omega

/-- A word is its class code, its three register fields and its reserved bits, and nothing else. -/
theorem toNat_eq_iff_headerFields (h : BitVec 32) {code w r1 r2 : Nat} (hcode : code < 2 ^ 3)
    (hw : w < 2 ^ 6) (hr1 : r1 < 2 ^ 6) (hr2 : r2 < 2 ^ 6) :
    h.toNat = code + 2 ^ 3 * w + 2 ^ 9 * r1 + 2 ^ 15 * r2 ↔
      headerField h 0 3 = code ∧ headerField h 3 6 = w ∧ headerField h 9 6 = r1 ∧
        headerField h 15 6 = r2 ∧ headerField h 21 11 = 0 := by
  have := h.isLt
  simp only [headerField_eq]
  omega

/-! ### The words of the table (R103) -/

/-- The valid bit at `lo` and the register field above it hold this element of a register list
(R103). -/
def SlotHolds (h : BitVec 32) (lo : Nat) (q? : Option RegId) : Prop :=
  match q? with
  | some q => headerField h lo 1 = 1 ∧ headerField h (lo + 1) 5 = q
  | none => headerField h lo 1 = 0 ∧ headerField h (lo + 1) 5 = 0

/-- The encoder writes a slot as one number. -/
theorem slotHolds_iff_listField (h : BitVec 32) (lo : Nat) (l : List RegId) (k : Nat) :
    SlotHolds h lo l[k]? ↔ headerField h lo 6 = listField l k := by
  have hvalid := headerField_lt h lo 1
  rw [headerField_six]
  unfold SlotHolds listField
  cases l[k]? <;> dsimp only <;> omega

/-- The decoder reads one slot as a list, once it has refused a register without its valid bit. -/
theorem fieldList_eq_iff (h : BitVec 32) (lo : Nat) (l : List RegId) :
    (¬(headerField h lo 1 = 0 ∧ headerField h (lo + 1) 5 ≠ 0) ∧
        fieldList (headerField h lo 1) (headerField h (lo + 1) 5) = l) ↔
      l.length ≤ 1 ∧ SlotHolds h lo l[0]? := by
  have hbit := headerField_bit h lo
  match l with
  | [] | [_] | _ :: _ :: _ =>
    rcases hbit with hbit | hbit <;> simp [SlotHolds, fieldList, hbit]

/-- It reads two slots as one list, once it has refused a second register without a first. -/
theorem fieldList_append_eq_iff (h : BitVec 32) (lo lo' : Nat) (l : List RegId) :
    (¬(headerField h lo 1 = 0 ∧ headerField h (lo + 1) 5 ≠ 0) ∧
        ¬(headerField h lo' 1 = 0 ∧ headerField h (lo' + 1) 5 ≠ 0) ∧
        ¬(headerField h lo' 1 = 1 ∧ headerField h lo 1 = 0) ∧
        fieldList (headerField h lo 1) (headerField h (lo + 1) 5)
          ++ fieldList (headerField h lo' 1) (headerField h (lo' + 1) 5) = l) ↔
      l.length ≤ 2 ∧ SlotHolds h lo l[0]? ∧ SlotHolds h lo' l[1]? := by
  have hbit := headerField_bit h lo
  have hbit' := headerField_bit h lo'
  match l with
  | [] | [_] | [_, _] | _ :: _ :: _ :: _ =>
    rcases hbit with hbit | hbit <;> rcases hbit' with hbit' | hbit' <;>
      simp [SlotHolds, fieldList, hbit, hbit', and_comm]

/-- The header word of an instruction by the table of R103. -/
structure HeaderOf (h : BitVec 32) (i : Instr) : Prop where
  wf : i.wf = true
  hasHeader : i.hasHeader = true
  code : headerField h 0 3 = i.code
  write : SlotHolds h 3 i.writes[0]?
  read1 : SlotHolds h 9 i.reads[0]?
  read2 : SlotHolds h 15 i.reads[1]?
  reserved : headerField h 21 11 = 0

theorem registersExist_lt {l : List RegId} (h : registersExist l = true) {q : Nat} (hq : q ∈ l) :
    q < 32 :=
  of_decide_eq_true (List.all_eq_true.mp h q hq)

theorem listField_lt {l : List RegId} (h : registersExist l = true) (k : Nat) :
    listField l k < 2 ^ 6 := by
  unfold listField
  split
  · next q hq =>
    have hq32 := registersExist_lt h (List.mem_of_getElem? hq)
    omega
  · decide

theorem code_le (i : Instr) : i.code ≤ 5 := by
  cases i <;> simp [Instr.code]

theorem wf_iff {i : Instr} :
    i.wf = true ↔ registersExist i.reads = true ∧ registersExist i.writes = true ∧
      i.reads.Nodup ∧ i.writes.Nodup := by
  simp [Instr.wf, registersDistinct, and_assoc]

theorem hasHeader_iff {i : Instr} :
    i.hasHeader = true ↔ i.reads.length ≤ 2 ∧ i.writes.length ≤ 1 := by
  simp [Instr.hasHeader]

/-! ### The encoder -/

/-- The words of the table are the sums the encoder writes. -/
theorem headerOf_iff_toNat {h : BitVec 32} {i : Instr} (hwf : i.wf = true)
    (hheader : i.hasHeader = true) :
    HeaderOf h i ↔ h.toNat = i.code + 2 ^ 3 * listField i.writes 0 + 2 ^ 9 * listField i.reads 0
      + 2 ^ 15 * listField i.reads 1 := by
  obtain ⟨hreads, hwrites, -, -⟩ := wf_iff.mp hwf
  rw [toNat_eq_iff_headerFields h (Nat.lt_of_le_of_lt (code_le i) (by decide))
    (listField_lt hwrites 0) (listField_lt hreads 0) (listField_lt hreads 1)]
  simp only [← slotHolds_iff_listField]
  exact ⟨fun ht => ⟨ht.code, ht.write, ht.read1, ht.read2, ht.reserved⟩,
    fun ⟨hcode, hw, hr1, hr2, hreserved⟩ => ⟨hwf, hheader, hcode, hw, hr1, hr2, hreserved⟩⟩

/-- The sum is below 2^32, so the word holds all of it. -/
theorem encodeHeader_of_wf {i : Instr} (hwf : i.wf = true) (hheader : i.hasHeader = true) :
    ∃ h, encodeHeader i = some h ∧ HeaderOf h i := by
  refine ⟨_, by rw [encodeHeader, hwf, hheader]; rfl, (headerOf_iff_toNat hwf hheader).mpr ?_⟩
  obtain ⟨hreads, hwrites, -, -⟩ := wf_iff.mp hwf
  have hcode := code_le i
  have hw := listField_lt hwrites 0
  have hr1 := listField_lt hreads 0
  have hr2 := listField_lt hreads 1
  exact Nat.mod_eq_of_lt (by omega)

theorem wf_of_encodeHeader {i : Instr} {h : BitVec 32} (henc : encodeHeader i = some h) :
    i.wf = true ∧ i.hasHeader = true := by
  unfold encodeHeader at henc
  split at henc
  · next hi => exact Bool.and_eq_true_iff.mp hi
  · cases henc

/-- The encoder writes exactly the words of the table. -/
theorem encodeHeader_iff {i : Instr} {h : BitVec 32} :
    encodeHeader i = some h ↔ HeaderOf h i := by
  constructor
  · intro henc
    obtain ⟨hwf, hheader⟩ := wf_of_encodeHeader henc
    obtain ⟨h', henc', ht⟩ := encodeHeader_of_wf hwf hheader
    exact Option.some_inj.mp (henc'.symm.trans henc) ▸ ht
  · intro ht
    obtain ⟨h', henc', ht'⟩ := encodeHeader_of_wf ht.wf ht.hasHeader
    have hword := (headerOf_iff_toNat ht.wf ht.hasHeader).mp ht
    have hword' := (headerOf_iff_toNat ht.wf ht.hasHeader).mp ht'
    exact BitVec.eq_of_toNat_eq (hword.trans hword'.symm) ▸ henc'

/-! ### The decoder -/

theorem instrOfCode_eq_some {code : Nat} {r w : List RegId} {i : Instr} :
    instrOfCode code r w = some i ↔ code = i.code ∧ r = i.reads ∧ w = i.writes := by
  constructor
  · intro h
    unfold instrOfCode at h
    split at h <;> cases h <;> exact ⟨rfl, rfl, rfl⟩
  · rintro ⟨rfl, rfl, rfl⟩
    cases i <;> rfl

/-- A check passes exactly when its refusal does not apply. -/
theorem guard_eq_ok {ε α : Type} {p : Prop} [Decidable p] {e : ε} {x : Except ε α} {v : α} :
    (if p then .error e else x) = .ok v ↔ ¬p ∧ x = .ok v := by
  split <;> simp_all

/-- Everything the decoder asks of a word. -/
theorem decodeHeader_eq_ok {h : BitVec 32} {i : Instr} :
    decodeHeader h = .ok i ↔ headerField h 21 11 = 0 ∧
      ¬(headerField h 3 1 = 0 ∧ headerField h 4 5 ≠ 0) ∧
      ¬(headerField h 9 1 = 0 ∧ headerField h 10 5 ≠ 0) ∧
      ¬(headerField h 15 1 = 0 ∧ headerField h 16 5 ≠ 0) ∧
      ¬(headerField h 15 1 = 1 ∧ headerField h 9 1 = 0) ∧
      ¬(headerField h 15 1 = 1 ∧ headerField h 10 5 = headerField h 16 5) ∧
      headerField h 0 3 = i.code ∧
      fieldList (headerField h 9 1) (headerField h 10 5)
        ++ fieldList (headerField h 15 1) (headerField h 16 5) = i.reads ∧
      fieldList (headerField h 3 1) (headerField h 4 5) = i.writes := by
  rw [← instrOfCode_eq_some]
  simp only [decodeHeader, guard_eq_ok, not_or, and_assoc, ne_eq, not_not]
  cases instrOfCode (headerField h 0 3) _ _ <;> simp

/-- The decoder reads exactly the words of the table. -/
theorem decodeHeader_iff {h : BitVec 32} {i : Instr} :
    decodeHeader h = .ok i ↔ HeaderOf h i := by
  constructor
  · intro hi
    obtain ⟨hreserved, hw, hr1, hr2, hfirst, -, hcode, hreads, hwrites⟩ := decodeHeader_eq_ok.mp hi
    obtain ⟨hwlen, hwrite⟩ := (fieldList_eq_iff h 3 i.writes).mp ⟨hw, hwrites⟩
    obtain ⟨hrlen, hread1, hread2⟩ :=
      (fieldList_append_eq_iff h 9 15 i.reads).mp ⟨hr1, hr2, hfirst, hreads⟩
    exact ⟨decodeHeader_wf hi, hasHeader_iff.mpr ⟨hrlen, hwlen⟩, hcode, hwrite, hread1, hread2,
      hreserved⟩
  · intro ht
    obtain ⟨hrlen, hwlen⟩ := hasHeader_iff.mp ht.hasHeader
    obtain ⟨-, -, hdistinct, -⟩ := wf_iff.mp ht.wf
    obtain ⟨hw, hwrites⟩ := (fieldList_eq_iff h 3 i.writes).mpr ⟨hwlen, ht.write⟩
    obtain ⟨hr1, hr2, hfirst, hreads⟩ :=
      (fieldList_append_eq_iff h 9 15 i.reads).mpr ⟨hrlen, ht.read1, ht.read2⟩
    refine decodeHeader_eq_ok.mpr
      ⟨ht.reserved, hw, hr1, hr2, hfirst, ?_, ht.code, hreads, hwrites⟩
    rintro ⟨hsecond, heq⟩
    have hvalid : headerField h 9 1 = 1 :=
      (headerField_bit h 9).resolve_left fun hzero => hfirst ⟨hsecond, hzero⟩
    rw [← hreads, hvalid, hsecond, heq] at hdistinct
    simp [fieldList] at hdistinct

/-- Settles O1: the encoder writes a word of the table, and the decoder reads each of them. -/
theorem encodedHeaderDecodesToItsInstruction :
    Obligations.EncodedHeaderDecodesToItsInstruction := by
  intro i hwf hheader
  obtain ⟨h, henc, ht⟩ := encodeHeader_of_wf hwf hheader
  exact ⟨h, henc, decodeHeader_iff.mpr ht⟩

/-- Settles O2: a word the decoder reads is one of the table, which the encoder writes. -/
theorem decodedHeaderEncodesBackToItself : Obligations.DecodedHeaderEncodesBackToItself := by
  intro h i hi
  have ht := decodeHeader_iff.mp hi
  exact ⟨ht.wf, ht.hasHeader, encodeHeader_iff.mpr ht⟩

/-- Settles O3: an encoded word is the word of the table, and its instruction is of header form. -/
theorem headerFieldsStandWhereTheTableSays : Obligations.HeaderFieldsStandWhereTheTableSays := by
  refine ⟨fun i h henc => ?_, fun i hlarge => ?_⟩
  · have ht := encodeHeader_iff.mp henc
    exact ⟨ht.code, ht.write, ht.read1, ht.read2, ht.reserved⟩
  · refine Option.eq_none_iff_forall_ne_some.mpr fun h henc => ?_
    obtain ⟨hreads, hwrites⟩ := hasHeader_iff.mp (encodeHeader_iff.mp henc).hasHeader
    omega

/-! ### Refusals (R117, R367) -/

theorem inputRefusal_none {g : Cfg} {c : CoreId} {inp : CoreInput} :
    inputRefusal g c inp = none ↔
      programWf g inp.prog.length inp.entry = true ∧
        ∀ e ∈ inp.prog, e.descriptor?.isSome = true := by
  cases hp : programWf g inp.prog.length inp.entry <;> simp [inputRefusal, badDescriptor, hp]

theorem inputsRefusal_none {g : Cfg} {b : CoreId} {inputs : List CoreInput} :
    inputsRefusal g b inputs = none ↔
      ∀ inp ∈ inputs, programWf g inp.prog.length inp.entry = true ∧
        ∀ e ∈ inp.prog, e.descriptor?.isSome = true := by
  induction inputs generalizing b with
  | nil => simp [inputsRefusal]
  | cons inp rest ih =>
    rw [List.forall_mem_cons, ← inputRefusal_none (c := b), ← ih (b := b + 1), inputsRefusal]
    cases inputRefusal g b inp <;> simp

/-- The first core with an ill-formed input gives the refusal. -/
theorem inputsRefusal_first {g : Cfg} {inputs : List CoreInput} {b c : CoreId} {inp : CoreInput}
    {r : Refusal} (hc : inputs[c]? = some inp) (hr : inputRefusal g (b + c) inp = some r)
    (hbefore : ∀ d j, d < c → inputs[d]? = some j → inputRefusal g (b + d) j = none) :
    inputsRefusal g b inputs = some r := by
  induction inputs generalizing b c with
  | nil => simp at hc
  | cons j rest ih =>
    unfold inputsRefusal
    cases c with
    | zero =>
      obtain rfl : j = inp := by simpa using hc
      rw [show inputRefusal g b j = some r from hr]
    | succ c =>
      rw [show inputRefusal g b j = none from hbefore 0 j (Nat.succ_pos c) rfl]
      refine ih (c := c) (by simpa using hc) (by rwa [Nat.add_right_comm]) fun d j' hd hj' => ?_
      rw [Nat.add_right_comm]
      exact hbefore (d + 1) j' (Nat.succ_lt_succ hd) (by simpa using hj')

theorem badDescriptor_eq_some {prog : List ProgEntry} {n : Nat} {e : ProgEntry}
    (hn : prog[n]? = some e) (he : e.descriptor? = none)
    (hbefore : ∀ m e', m < n → prog[m]? = some e' → e'.descriptor?.isSome = true) :
    badDescriptor prog = some n := by
  obtain ⟨hlt, rfl⟩ := List.getElem?_eq_some_iff.mp hn
  refine List.findIdx?_eq_some_iff_getElem.mpr ⟨hlt, by simp [he], fun m hm => ?_⟩
  have := hbefore m _ hm (List.getElem?_eq_getElem (hm.trans hlt))
  simpa [← Option.isSome_iff_ne_none] using this

theorem step_of_loadRefusal {s : State} {r : Refusal} (hs : s.status = .running)
    (h : loadRefusal s = some r) : step s = .refused r := by
  simp [step, globalStep, hs, h]

theorem loadRefusal_of_wf {s : State} (hwf : s.cfg.wf = true) (hshape : s.shaped = true) :
    loadRefusal s = inputsRefusal s.cfg 0 s.inputs := by
  simp [loadRefusal, hwf, hshape]

theorem descriptor_none_of_illegal {h : BitVec 32} (hi : ∀ i, decodeHeader h ≠ .ok i)
    (ops : Oracle) : ProgEntry.descriptor? ⟨.header h, ops⟩ = none := by
  cases hh : decodeHeader h with
  | ok i => exact absurd hh (hi i)
  | error e => simp [ProgEntry.descriptor?, ProgEntry.instr?, hh, Except.toOption]

/-- R117: the table has no code above 5 and no reserved bit set. -/
theorem decodeHeader_illegal {h : BitVec 32}
    (hill : headerField h 0 3 = 6 ∨ headerField h 0 3 = 7 ∨ headerField h 21 11 ≠ 0) (i : Instr) :
    decodeHeader h ≠ .ok i := by
  intro hi
  have ht := decodeHeader_iff.mp hi
  have hcode := ht.code
  have hle := code_le i
  have hreserved := ht.reserved
  omega

/-- Settles O5: the entry has no descriptor, so the state is refused; where every other entry has
one, its core and index are the first that have none. -/
theorem illegalHeaderRefusesTheRun : Obligations.IllegalHeaderRefusesTheRun := by
  intro h hill
  refine ⟨decodeHeader_illegal hill, fun s c n inp ops hs hc hn => ?_⟩
  have hnone := descriptor_none_of_illegal (decodeHeader_illegal hill) ops
  refine ⟨?_, fun hwf hshape hprog hothers => ?_⟩
  · cases hr : loadRefusal s with
    | some r => exact ⟨r, step_of_loadRefusal hs hr⟩
    | none =>
      obtain ⟨hwf, hshape⟩ := loadRefusal_none hr
      rw [loadRefusal_of_wf hwf hshape] at hr
      obtain ⟨-, hsome⟩ := inputsRefusal_none.mp hr inp (List.mem_of_getElem? hc)
      simpa [hnone] using hsome _ (List.mem_of_getElem? hn)
  · refine step_of_loadRefusal hs ?_
    rw [loadRefusal_of_wf hwf hshape]
    have hbad : badDescriptor inp.prog = some n :=
      badDescriptor_eq_some hn hnone fun m e hm he =>
        hothers c m inp e hc he (by simp [Nat.ne_of_lt hm])
    refine inputsRefusal_first hc (r := .descriptor c n)
      (by simp [inputRefusal, hprog inp (List.mem_of_getElem? hc), hbad]) fun d j hd hj => ?_
    refine inputRefusal_none.mpr ⟨hprog j (List.mem_of_getElem? hj), fun e he => ?_⟩
    obtain ⟨m, hm⟩ := List.mem_iff_getElem?.mp he
    exact hothers d m j e hj hm (by simp [Nat.ne_of_lt hd])

end Sys2Proof.Machine
end

section
/-! SUPPORT. A header word placed at reset (notes/assumptions/4.md): the one step that runs its
instruction, with the empty result of a `nop`, part by part of the cycle. Settles O28. -/

namespace Sys2Proof.Machine

/-! ### A machine of one core and one unit (R340, R341) -/

theorem runCores_one (c : CoreId) (s : State) : runCores [c] s = coreCycle c s := by
  unfold runCores
  cases coreCycle c s with
  | error e => rfl
  | ok t => exact ite_self _

theorem unitsStep_one (c : CoreId) (i : Nat) (s : State) : unitsStep c [i] s = unitStep c i s := by
  unfold unitsStep
  cases unitStep c i s <;> rfl

theorem step_one_core {s : State} (hs : s.status = .running) (hload : loadRefusal s = none)
    (hcores : s.cfg.numCores = 1) : step s = concludeStep s (coreCycle 0 s) := by
  rw [step, globalStep, if_pos hs, hload, ← runCores_one, cycleStep, hcores]
  rfl

theorem coreCycle_one_unit {c : CoreId} {s : State} (hdone : (s.core c).done = false)
    (hunits : s.cfg.nEu = 1) :
    coreCycle c s = (do
      let s1 ← beforeExecute c s
      let s2 ← unitStep c 0 s1
      afterExecute c s2) := by
  have hrange : List.range 1 = [0] := rfl
  simp only [coreCycle, hdone, hunits, hrange, unitsStep_one, Bool.false_eq_true, if_false]

/-! ### The empty result (R117) -/

/-- A `nop` of a class that reads no memory answers the empty result, with no contract to break and
no value to deliver: its class step runs on it. -/
theorem startWork_nop {g : Cfg} {labels : Labels} {cr : ClassRule} {wl : List RegId}
    {assertStep : Core → Core} {classStep : ExecutionResult → Core → Res (Core × Option Flush)}
    {i : Nat} {w : Work} {k : Core} (hops : w.run.desc.ops = .nop)
    (hlinks : (assertStep k).links = []) :
    startWork g labels cr wl assertStep classStep i w k
      = classStep .empty { assertStep k with
          rob := robSetStatus (assertStep k).rob w.run.seq .executed } := by
  have hreads : readAddrs g w k.x = [] := by rw [readAddrs, hops]; rfl
  have hwrites : writeAddrs g w k.x = [] := by rw [writeAddrs, hops]; rfl
  have haddresses : addressContract g cr.mayRead cr.mayWrite w k.x = true := by
    simp [addressContract, hreads, hwrites]
  have hresult : resultContract g cr.mayWrite cr.mayJump wl w k.x .empty = true := by
    simp [resultContract, ExecutionResult.empty]
  have hanswer : oracleExec g.byteOrder w.run.desc.ops (viewOf w k.x) labels w.run.pc
      (restrictBytes [] (readAddrs g w k.x)) = .ok .empty := by rw [hops]; rfl
  simp only [startWork, runWork, haddresses, hwrites, hanswer, hresult, deliver, hlinks]
  rfl

/-- A CBR that falls through meets the guess it was issued with (R251). -/
theorem cbrStep_falls_through {g : Cfg} {i : Nat} {w : Work} {o : ExecutionResult} {k : Core}
    {redirected : Bool} (hpc : o.pcChange = none)
    (haligned : misaligned g (nextPc g w.run.pc) = false)
    (hexpect : assocFind w.run.seq k.expect = some (.known (nextPc g w.run.pc) redirected)) :
    cbrStep g i w o k = .ok (pushOk i w o (dropExpect w.run.seq k), none) := by
  have hflush : shouldFlush w.run.seq (nextPc g w.run.pc) k
      = .ok (dropExpect w.run.seq k, false) :=
    shouldFlush_ok.mpr ⟨rfl, _, hexpect, by simp⟩
  simp only [cbrStep, actualTarget, hpc, Option.getD_none, haligned, notifyConditional, hflush]
  rfl

theorem notifyJumpResolved_expect (g : Cfg) (b : Seq) (src dst : Word) (k : Core) :
    (notifyJumpResolved g b src dst k).expect = k.expect := by
  unfold notifyJumpResolved
  dsimp only
  split <;> rfl

/-- A JMP that found no target in the BTB was given no guess, so its unit flushes (R253). -/
theorem jmpStep_falls_through {g : Cfg} {i : Nat} {w : Work} {o : ExecutionResult} {k k' : Core}
    (hpc : o.pcChange = none) (haligned : misaligned g (nextPc g w.run.pc) = false)
    (hexpect : assocFind w.run.seq k.expect = some .unknown)
    (hk' : notifyJumpResolved g w.run.seq w.run.pc (nextPc g w.run.pc) k = k') :
    jmpStep g i w o k
      = .ok (pushOk i w o (dropExpect w.run.seq k'),
          some ⟨w.run.seq, some (nextPc g w.run.pc)⟩) := by
  have hkept : k'.expect = k.expect := hk' ▸ notifyJumpResolved_expect ..
  have hflush : shouldFlush w.run.seq (nextPc g w.run.pc) k'
      = .ok (dropExpect w.run.seq k', true) :=
    shouldFlush_ok.mpr ⟨rfl, _, hkept ▸ hexpect, rfl⟩
  simp only [jmpStep, actualTarget, hpc, Option.getD_none, haligned, hk', hflush]
  rfl

/-! ### The placed word -/

/-- The runner of an instruction placed at reset: it stands at pc 0 and is the first. -/
def placedRunner (i : Instr) : Runner := ⟨⟨i, .nop⟩, 0, 0⟩

/-- It in focus in the one unit of the one core. -/
def placedFocus (i : Instr) : Focus := ⟨0, 0, ⟨placedRunner i, none, none⟩, none⟩

/-- Core 0 of the reset state with an instruction placed at its pc (notes/assumptions/4.md). -/
def placedCore (i : Instr) : Core := issueAt Cfg.T ⟨i, .nop⟩ (Core.init Cfg.T CoreInput.blank)

/-- The reset state whose program is one header word, with a given core. -/
def wordState (w : BitVec 32) (k : Core) : State :=
  { State.reset with
    inputs := [{ CoreInput.blank with prog := [⟨.header w, .nop⟩] }]
    cores := [k] }

/-- The placed core before the execute units: the runner is visible on IE, fetch has met the end of
the program (R153), and the issue step had nothing to issue. -/
def visibleCore (i : Instr) : Core :=
  { placedCore i with
    complete := true
    ie := ⟨[], [], [⟨placedRunner i, none⟩]⟩
    prevIssued := []
    curIssued := [] }

/-- Its unit has taken the runner. -/
def takenCore (i : Instr) : Core := { visibleCore i with ie := .empty }

/-- The state in which the meaning is asked for. -/
def takenState (w : BitVec 32) (i : Instr) : State :=
  { wordState w (takenCore i) with focus := some (placedFocus i) }

/-- The flush a `nop` raises: a JMP alone, which was given no guess (R253). -/
def nopFlush : Instr → List Flush
  | .jmp _ _ => [⟨0, some 4⟩]
  | _ => []

/-- The core after the empty result: a JMP or RET lets decoding resume (R174), and a JMP has
redirected fetch to the next address and recorded it (R255). -/
def nopCore (i : Instr) : Core :=
  { ranCore (placedFocus i) .empty (takenCore i) with
    pendingBranch := false
    complete := (nopFlush i).isEmpty
    btb := match i with
      | .jmp _ _ => [(0, 4)]
      | _ => [] }

/-- The unit has given its result to EW. -/
def pushedCore (i : Instr) : Core :=
  { nopCore i with eu := [.idle], ew := ⟨[⟨0, .ok .empty⟩], [], []⟩ }

/-- The core at the end of the cycle: a flush has been applied and counted. -/
def endCore (i : Instr) : Core := { pushedCore i with flushCount := (nopFlush i).length }

theorem header_descriptor {w : BitVec 32} {i : Instr} (hi : decodeHeader w = .ok i) (ops : Oracle) :
    ProgEntry.descriptor? ⟨.header w, ops⟩ = some ⟨i, ops⟩ := by
  simp [ProgEntry.descriptor?, ProgEntry.instr?, hi, Except.toOption]

theorem withFetchWord_reset {w : BitVec 32} {i : Instr} (hi : decodeHeader w = .ok i) :
    State.reset.withFetchWord 32 w.toNat = wordState w (placedCore i) := by
  have hw : BitVec.ofNat 32 (w.toNat % 2 ^ 32) = w := by
    rw [Nat.mod_eq_of_lt w.isLt, BitVec.ofNat_toNat, BitVec.setWidth_eq]
  have hplace : placeEntry Cfg.T ⟨.header w, .nop⟩ (Core.init Cfg.T CoreInput.blank)
      = placedCore i := by
    rw [placeEntry, header_descriptor hi]
    rfl
  rw [State.withFetchWord, placeWord, hw, ← hplace]
  rfl

theorem loadRefusal_wordState {w : BitVec 32} {i : Instr} (hi : decodeHeader w = .ok i) :
    loadRefusal (wordState w (placedCore i)) = none := by
  rw [loadRefusal_of_wf (show Cfg.T.wf = true by decide) rfl]
  refine inputsRefusal_none.mpr (List.forall_mem_singleton.mpr
    ⟨rfl, List.forall_mem_singleton.mpr ?_⟩)
  rw [header_descriptor hi]
  rfl

theorem beforeExecute_placed (w : BitVec 32) (i : Instr) :
    beforeExecute 0 (wordState w (placedCore i)) = .ok (wordState w (visibleCore i)) := by
  cases i <;> rfl

theorem unitStep_placed (w : BitVec 32) (i : Instr) :
    unitStep 0 0 (wordState w (visibleCore i)) = (do
      let t ← ofOutcome (exec i (takenState w i))
      unitFinish 0 0 t) := rfl

theorem exec_placed (w : BitVec 32) (i : Instr) :
    exec i (takenState w i)
      = .next (ranState (takenState w i) (placedFocus i) (nopCore i) (nopFlush i)) := by
  have haligned : misaligned Cfg.T (nextPc Cfg.T 0) = false := by decide
  cases i with
  | alu r ws => rfl
  | load r ws => rfl
  | store r ws => rfl
  | cbr r ws =>
    rw [exec, execCbr, onFocus_next]
    exact ⟨_, _, none, rfl,
      (startWork_nop rfl rfl).trans (cbrStep_falls_through rfl haligned rfl), rfl⟩
  | jmp r ws =>
    rw [exec, execJmp, onFocus_next]
    exact ⟨_, _, some ⟨0, some 4⟩, rfl,
      (startWork_nop rfl rfl).trans (jmpStep_falls_through rfl haligned rfl rfl), rfl⟩
  | ret r ws => rfl

theorem unitFinish_placed (w : BitVec 32) (i : Instr) :
    unitFinish 0 0 (ranState (takenState w i) (placedFocus i) (nopCore i) (nopFlush i))
      = .ok { wordState w (pushedCore i) with raised := nopFlush i } := rfl

/-- The flush keeps the result on EW and its buffer entry, which are not younger than its boundary
(R346), and nothing is there to drain or commit. -/
theorem afterExecute_placed (w : BitVec 32) (i : Instr) :
    afterExecute 0 { wordState w (pushedCore i) with raised := nopFlush i }
      = .ok (wordState w (endCore i)) := by
  cases i <;> rfl

theorem brokenInvariant_placed (w : BitVec 32) {i : Instr} (hi : i.wf = true) :
    brokenInvariant (endStep (wordState w (endCore i))) = none := by
  have hcounts : CountsAgree (endCore i) := fun q _ => by
    change pwGet (pwRaise [] i.writes) q = writersOf [⟨0, 0, ⟨i, .nop⟩, .executed, 0⟩] q
    rw [pwGet_raise, writersOf_cons hi]
    rfl
  have hcaps : WithinCaps Cfg.T (endCore i) :=
    ⟨show 1 ≤ 16 by decide, show 0 ≤ 4 by decide, show 4 ≤ 4 by decide⟩
  refine brokenInvariant_none.mpr ⟨rfl, rfl, rfl, ?_, ?_⟩
  · exact List.all_eq_true.mpr (List.forall_mem_singleton.mpr (pwAgrees_iff.mpr hcounts))
  · exact List.all_eq_true.mpr (List.forall_mem_singleton.mpr (capsHold_iff.mpr hcaps))

/-- Settles O28: the cycle up to the unit brings the runner to it (`beforeExecute_placed`), its
meaning answers (`exec_placed`), and the rest of the cycle puts the result on EW and passes the check. -/
theorem placedWordIsRunByTheNextStep : Obligations.PlacedWordIsRunByTheNextStep := by
  intro w i hi
  rw [withFetchWord_reset hi]
  have hstep : step (wordState w (placedCore i)) = concludeStep (wordState w (placedCore i)) (do
      let u ← unitFinish 0 0 (ranState (takenState w i) (placedFocus i) (nopCore i) (nopFlush i))
      afterExecute 0 u) := by
    rw [step_one_core rfl (loadRefusal_wordState hi) rfl, coreCycle_one_unit rfl rfl,
      beforeExecute_placed]
    refine congrArg _ ?_
    change (unitStep 0 0 (wordState w (visibleCore i)) >>= afterExecute 0) = _
    rw [unitStep_placed, exec_placed]
    rfl
  have hend : step (wordState w (placedCore i)) = .next (endStep (wordState w (endCore i))) := by
    rw [hstep, unitFinish_placed]
    change concludeStep _ (afterExecute 0 _) = _
    rw [afterExecute_placed, concludeStep, brokenInvariant_placed w (decodeHeader_wf hi)]
  exact ⟨takenState w i, _, _, rfl, exec_placed w i, hstep, hend, rfl, rfl⟩

end Sys2Proof.Machine
end

section
/-! SUPPORT. A connect pours the values of one position into another three times (R133): free slots are
taken oldest value first, and what finds no slot stays behind. Settles O6. -/

namespace Sys2Proof.Machine

/-! ### Pouring one position into another -/

/-- The position `dst` once the oldest values of `src` have taken its free slots. -/
def topUp {α : Type} (cap : Nat) (dst src : List α) : List α := dst ++ src.take (cap - dst.length)

/-- The values of `src` that found no free slot in `dst`. -/
def leftOver {α : Type} (cap : Nat) (dst src : List α) : List α := src.drop (cap - dst.length)

section Pouring
variable {α : Type} {cap : Nat} {dst src : List α}

theorem topUp_append_leftOver : topUp cap dst src ++ leftOver cap dst src = dst ++ src := by
  rw [topUp, leftOver, List.append_assoc, List.take_append_drop]

theorem length_topUp_le (h : dst.length ≤ cap) : (topUp cap dst src).length ≤ cap := by
  rw [topUp, List.length_append, List.length_take]
  omega

theorem length_leftOver_le : (leftOver cap dst src).length ≤ src.length := by
  rw [leftOver, List.length_drop]
  omega

theorem le_length_topUp_of_leftOver_ne_nil (h : leftOver cap dst src ≠ []) :
    cap ≤ (topUp cap dst src).length := by
  have hrest : cap - dst.length < src.length := by
    simpa only [leftOver, ne_eq, List.drop_eq_nil_iff, Nat.not_le] using h
  rw [topUp, List.length_append, List.length_take]
  omega

theorem topUp_of_full (h : cap ≤ dst.length) : topUp cap dst src = dst := by
  rw [topUp, Nat.sub_eq_zero_of_le h, List.take_zero, List.append_nil]

theorem leftOver_of_full (h : cap ≤ dst.length) : leftOver cap dst src = src := by
  rw [leftOver, Nat.sub_eq_zero_of_le h, List.drop_zero]

theorem topUp_of_fits (h : dst.length + src.length ≤ cap) : topUp cap dst src = dst ++ src := by
  rw [topUp, List.take_of_length_le (by omega)]

end Pouring

/-! ### The connect as three pours -/

section Connect
variable {α : Type} {cap : Nat} {b : Bus α}

/-- R133: the buffer is poured into the visible position, then entry is, then entry into the buffer. -/
theorem connect_eq_pours (cap : Nat) (b : Bus α) :
    b.connect cap =
      { entry := leftOver cap (leftOver cap b.visible b.buffer)
          (leftOver cap (topUp cap b.visible b.buffer) b.entry)
        buffer := topUp cap (leftOver cap b.visible b.buffer)
          (leftOver cap (topUp cap b.visible b.buffer) b.entry)
        visible := topUp cap (topUp cap b.visible b.buffer) b.entry } := rfl

/-- No value of entry overtakes one of the buffer: while the buffer holds one, the visible position is
full. -/
theorem connect_keeps_age_order :
    (b.connect cap).visible ++ (b.connect cap).buffer ++ (b.connect cap).entry
      = b.visible ++ b.buffer ++ b.entry := by
  rw [connect_eq_pours, List.append_assoc, topUp_append_leftOver]
  by_cases hbuffer : leftOver cap b.visible b.buffer = []
  · calc topUp cap (topUp cap b.visible b.buffer) b.entry ++ (leftOver cap b.visible b.buffer
            ++ leftOver cap (topUp cap b.visible b.buffer) b.entry)
        = topUp cap b.visible b.buffer ++ b.entry := by
          rw [hbuffer, List.nil_append, topUp_append_leftOver]
      _ = topUp cap b.visible b.buffer ++ leftOver cap b.visible b.buffer ++ b.entry := by
          rw [hbuffer, List.append_nil]
      _ = b.visible ++ b.buffer ++ b.entry := by rw [topUp_append_leftOver]
  · have hfull := le_length_topUp_of_leftOver_ne_nil hbuffer
    rw [topUp_of_full hfull, leftOver_of_full hfull, ← List.append_assoc, topUp_append_leftOver]

theorem connect_visible_le (h : b.visible.length ≤ cap) : (b.connect cap).visible.length ≤ cap :=
  length_topUp_le (length_topUp_le h)

theorem connect_buffer_le (h : b.buffer.length ≤ cap) : (b.connect cap).buffer.length ≤ cap :=
  length_topUp_le (length_leftOver_le.trans h)

theorem connect_entry_le (h : b.entry.length ≤ cap) : (b.connect cap).entry.length ≤ cap :=
  length_leftOver_le.trans (length_leftOver_le.trans h)

theorem connect_entry_waits_behind_full_buffer (h : (b.connect cap).entry ≠ []) :
    cap ≤ (b.connect cap).buffer.length :=
  le_length_topUp_of_leftOver_ne_nil h

/-- A value waits past the visible position only if one of the first two pours left some over. -/
theorem connect_waits_behind_full_visible
    (h : (b.connect cap).buffer ≠ [] ∨ (b.connect cap).entry ≠ []) :
    cap ≤ (b.connect cap).visible.length := by
  by_cases hentry : leftOver cap (topUp cap b.visible b.buffer) b.entry = []
  · have hbuffer : leftOver cap b.visible b.buffer ≠ [] := by
      intro hnil
      rw [connect_eq_pours, hentry, hnil] at h
      simp [topUp, leftOver] at h
    have hfull := le_length_topUp_of_leftOver_ne_nil hbuffer
    rwa [connect_eq_pours, topUp_of_full hfull]
  · exact le_length_topUp_of_leftOver_ne_nil hentry

theorem connect_visible_of_fits
    (h : b.visible.length + b.buffer.length + b.entry.length ≤ cap) :
    (b.connect cap).visible = b.visible ++ b.buffer ++ b.entry := by
  calc (b.connect cap).visible
      = topUp cap (topUp cap b.visible b.buffer) b.entry := by rw [connect_eq_pours]
    _ = topUp cap (b.visible ++ b.buffer) b.entry := by
      rw [topUp_of_fits (dst := b.visible) (by omega)]
    _ = b.visible ++ b.buffer ++ b.entry := topUp_of_fits (by rwa [List.length_append])

/-- R132: the added value is the youngest of entry, so it shows last, at the next connect. -/
theorem connect_add_visible {v : α} {b' : Bus α} (hadd : b.add cap v = .ok b')
    (h : b.visible.length + b.buffer.length + b.entry.length < cap) :
    (b'.connect cap).visible = b.visible ++ b.buffer ++ b.entry ++ [v] := by
  obtain ⟨-, rfl⟩ := Bus.add_ok.mp hadd
  rw [connect_visible_of_fits, List.append_assoc _ b.entry]
  rw [List.length_append, List.length_singleton]
  exact h

theorem add_visible {v : α} {b' : Bus α} (hadd : b.add cap v = .ok b') : b'.visible = b.visible := by
  obtain ⟨-, rfl⟩ := Bus.add_ok.mp hadd
  rfl

end Connect

/-- Settles O6: each clause is a fact about the three pours of a connect (`connect_eq_pours`). -/
theorem busMovesValuesInAgeOrder : Obligations.BusMovesValuesInAgeOrder := fun _ _ _ =>
  ⟨connect_keeps_age_order, connect_visible_le, connect_buffer_le, connect_entry_le,
    connect_waits_behind_full_visible, connect_entry_waits_behind_full_buffer, rfl,
    fun _ _ hadd => ⟨add_visible hadd, connect_add_visible hadd⟩⟩

end Sys2Proof.Machine
end

section
/-! SUPPORT. The fetch unit (R153): what each branch of its loop and of its step answers. Settles O7. -/

namespace Sys2Proof.Machine

/-! ### The line store of a hit and of a fill (R285) -/

theorem lruPush_contains_pushed {α : Type} (cap : Nat) (st : LruStore α) (l : LineAddr) (d : α) :
    lruContains (lruPush cap st l d).1 l = true := by
  rcases lruPush_cases cap st l d with heq | ⟨-, _, rest, -, heq⟩ | ⟨-, heq⟩
  · rw [heq]
    exact (lruContains_renew st l l d).mpr (.inr rfl)
  · rw [heq]
    exact (lruContains_append rest l l d).mpr (.inr rfl)
  · rw [heq]
    exact (lruContains_append st l l d).mpr (.inr rfl)

/-- A line of the instruction cache holds no data (R154), so a touch only makes it the most recent. -/
theorem lruTouch_of_contains {st : LruStore Unit} {l : LineAddr} (h : lruContains st l = true) :
    lruTouch st l = .ok (lruRemove st l ++ [(l, ())]) := by
  obtain ⟨d, hd⟩ := (lruFind_some_iff_contains st l).mpr h
  exact lruTouch_ok.mpr ⟨d, hd, rfl⟩

/-! ### The loop (R153) -/

/-- The core once the loop has pushed its pc: the line touched, the address on FD, pc advanced. -/
def pcPushed (g : Cfg) (k : Core) : Core :=
  { k with
    l1i := lruRemove k.l1i (lineI g k.pc) ++ [(lineI g k.pc, ())]
    fd := { k.fd with entry := k.fd.entry ++ [k.pc] }
    pc := nextPc g k.pc }

theorem pcPushed_contains (g : Cfg) (k : Core) :
    lruContains (pcPushed g k).l1i (lineI g k.pc) = true :=
  (lruContains_renew k.l1i _ _ ()).mpr (.inr rfl)

section Loop
variable {g : Cfg} {size n : Nat} {k : Core}

theorem fetchLoop_zero (hrun : k.complete = false) :
    fetchLoop g size 0 k = .ok { k with complete := decide (endPc g size ≤ k.pc.toNat) } := by
  unfold fetchLoop
  by_cases hend : endPc g size ≤ k.pc.toNat
  · rw [if_pos hend, decide_eq_true hend]
  · rw [if_neg hend, decide_eq_false hend, ← hrun]

theorem fetchLoop_succ_of_end (hend : endPc g size ≤ k.pc.toNat) :
    fetchLoop g size (n + 1) k = .ok { k with complete := true } := by
  rw [fetchLoop, if_pos hend]

theorem fetchLoop_succ_of_miss (hpc : k.pc.toNat < endPc g size)
    (habsent : lruContains k.l1i (lineI g k.pc) = false) :
    fetchLoop g size (n + 1) k = .ok { k with fstate := .miss g.memLat } := by
  rw [fetchLoop, if_neg (Nat.not_le.mpr hpc), habsent]
  rfl

theorem fetchLoop_succ_of_full (hpc : k.pc.toNat < endPc g size)
    (hline : lruContains k.l1i (lineI g k.pc) = true) (hfull : g.busCap ≤ k.fd.entry.length) :
    fetchLoop g size (n + 1) k = .ok k := by
  have hno : k.fd.canAdd g.busCap = false := decide_eq_false (Nat.not_lt.mpr hfull)
  rw [fetchLoop, if_neg (Nat.not_le.mpr hpc), hline, hno]
  rfl

theorem fetchLoop_succ_of_hit (hpc : k.pc.toNat < endPc g size)
    (hline : lruContains k.l1i (lineI g k.pc) = true) (hfree : k.fd.entry.length < g.busCap) :
    fetchLoop g size (n + 1) k = fetchLoop g size n (pcPushed g k) := by
  have hcan : k.fd.canAdd g.busCap = true := decide_eq_true hfree
  have hadd : k.fd.add g.busCap k.pc = .ok { k.fd with entry := k.fd.entry ++ [k.pc] } :=
    Bus.add_ok.mpr ⟨hfree, rfl⟩
  rw [fetchLoop, if_neg (Nat.not_le.mpr hpc), hline, hcan, lruTouch_of_contains hline, hadd]
  rfl

/-- A loop of width 1 that hits pushes its pc and then looks for the end of the program. -/
theorem fetchLoop_one_of_hit (hrun : k.complete = false) (hpc : k.pc.toNat < endPc g size)
    (hline : lruContains k.l1i (lineI g k.pc) = true) (hfree : k.fd.entry.length < g.busCap) :
    fetchLoop g size 1 k = .ok { pcPushed g k with
      complete := decide (endPc g size ≤ (nextPc g k.pc).toNat) } := by
  rw [fetchLoop_succ_of_hit hpc hline hfree]
  exact fetchLoop_zero hrun

end Loop

/-! ### The step (R153) -/

/-- The core in the cycle the missed line arrives, before the loop. -/
def lineArrived (g : Cfg) (k : Core) : Core :=
  { k with l1i := (lruPush g.l1iLines k.l1i (lineI g k.pc) ()).1, fstate := .idle }

/-- The line that arrives is the one the loop then probes, so an arrival is a hit. -/
theorem lineArrived_contains (g : Cfg) (k : Core) :
    lruContains (lineArrived g k).l1i (lineI g (lineArrived g k).pc) = true :=
  lruPush_contains_pushed g.l1iLines k.l1i (lineI g k.pc) ()

section Step
variable {g : Cfg} {size n : Nat} {k : Core}

theorem fetchStep_of_complete (hdone : k.complete = true) : fetchStep g size k = .ok k := by
  rw [fetchStep, if_pos hdone]

theorem fetchStep_of_idle (hrun : k.complete = false) (hidle : k.fstate = .idle) :
    fetchStep g size k = fetchLoop g size g.fetchWidth k := by
  simp only [fetchStep, hrun, hidle, Bool.false_eq_true, if_false]

theorem fetchStep_of_waiting (hrun : k.complete = false) (hmiss : k.fstate = .miss n)
    (hn : 1 < n) : fetchStep g size k = .ok { k with fstate := .miss (n - 1) } := by
  simp only [fetchStep, hrun, hmiss, Bool.false_eq_true, if_false, if_pos hn]

theorem fetchStep_of_arrival (hrun : k.complete = false) (hmiss : k.fstate = .miss n)
    (hn : n ≤ 1) : fetchStep g size k = fetchLoop g size g.fetchWidth (lineArrived g k) := by
  simp only [fetchStep, hrun, hmiss, Bool.false_eq_true, if_false, if_neg (Nat.not_lt.mpr hn),
    lineArrived]

end Step

/-- Settles O7, one branch of the fetch step at a time; a hit and an arrival push the pc alike. -/
theorem fetchPushesHitsAndWaitsForMisses : Obligations.FetchPushesHitsAndWaitsForMisses := by
  intro g size k hwidth
  refine ⟨fetchStep_of_complete, fun hrun => ⟨fun hidle hend => ?atEnd,
    fun hidle hpc habsent => ?miss, fun hidle hpc hline hfull => ?full,
    fun _ hmiss hn => fetchStep_of_waiting hrun hmiss hn, fun hfetch hpc hfree => ?push⟩⟩
  case atEnd => rw [fetchStep_of_idle hrun hidle, hwidth, fetchLoop_succ_of_end hend]
  case miss => rw [fetchStep_of_idle hrun hidle, hwidth, fetchLoop_succ_of_miss hpc habsent]
  case full => rw [fetchStep_of_idle hrun hidle, hwidth, fetchLoop_succ_of_full hpc hline hfull]
  case push =>
    rcases hfetch with ⟨hidle, hline⟩ | ⟨n, hmiss, hn⟩
    · have hstep := (fetchStep_of_idle hrun hidle).trans
        (hwidth ▸ fetchLoop_one_of_hit hrun hpc hline hfree)
      exact ⟨_, hstep, hidle, rfl, rfl, pcPushed_contains g k, rfl, rfl⟩
    · have hstep := (fetchStep_of_arrival hrun hmiss hn).trans
        (hwidth ▸ fetchLoop_one_of_hit (k := lineArrived g k) hrun hpc
          (lineArrived_contains g k) hfree)
      exact ⟨_, hstep, rfl, rfl, rfl, pcPushed_contains g (lineArrived g k), rfl, rfl⟩

end Sys2Proof.Machine
end

section
/-! SUPPORT. The decode unit (R170 to R173): the descriptor a header word resolves to, and what a round
of the decode loop does. Settles O8. -/

namespace Sys2Proof.Machine

/-! ### What the unit reads -/

theorem hasVisible_of_head {α : Type} {b : Bus α} {v : α} {rest : List α}
    (hvisible : b.visible = v :: rest) : b.hasVisible = true := by
  rw [Bus.hasVisible, hvisible]
  rfl

theorem resolve_header {g : Cfg} {c : CoreId} {prog : List ProgEntry} {a : Word} {h : BitVec 32}
    {ops : Oracle} {i : Instr} (hentry : prog[a.toNat / g.iw]? = some ⟨.header h, ops⟩)
    (hdecode : decodeHeader h = .ok i) : resolve g c prog a = .ok ⟨i, ops⟩ := by
  rw [resolve, hentry]
  dsimp only
  rw [header_descriptor hdecode]

/-- R173: the classes that set the flag are JMP and RET, by their codes in the table of R102. -/
theorem setsPendingBranch_eq (i : Instr) :
    setsPendingBranch i = decide (i.code = 4 ∨ i.code = 5) := by
  cases i <;> rfl

/-! ### A round of the loop (R170) -/

/-- The core once the loop has handed descriptor `d`, read at the head `a` of FD, to DI. -/
def handedOver (d : Descriptor) (a : Word) (rest : List Word) (k : Core) : Core :=
  { k with
    fd := { k.fd with visible := rest }
    di := { k.di with entry := k.di.entry ++ [⟨d, a, k.nextSeq⟩] }
    nextSeq := k.nextSeq + 1
    pendingBranch := setsPendingBranch d.instr }

section Loop
variable {g : Cfg} {c : CoreId} {prog : List ProgEntry} {n : Nat} {k : Core}

theorem decodeLoop_of_pendingBranch (hpending : k.pendingBranch = true) :
    decodeLoop g c prog n k = .ok k := by
  cases n with
  | zero => rfl
  | succ n => rw [decodeLoop, hpending, Bool.true_or, Bool.true_or, if_pos rfl]

/-- A round with a visible address and room on DI hands over what the address resolves to, whether
the program entry is a header word or a record. -/
theorem decodeLoop_succ_of_resolve {a : Word} {rest : List Word} {d : Descriptor}
    (hclear : k.pendingBranch = false) (hvisible : k.fd.visible = a :: rest)
    (hroom : k.di.entry.length < g.busCap) (hresolve : resolve g c prog a = .ok d) :
    decodeLoop g c prog (n + 1) k = decodeLoop g c prog n (handedOver d a rest k) := by
  have hcan : k.di.canAdd g.busCap = true := decide_eq_true hroom
  have hget : k.fd.get = .ok (a, { k.fd with visible := rest }) := Bus.get_ok.mpr ⟨hvisible, rfl⟩
  have hadd : k.di.add g.busCap ⟨d, a, k.nextSeq⟩
      = .ok { k.di with entry := k.di.entry ++ [⟨d, a, k.nextSeq⟩] } :=
    Bus.add_ok.mpr ⟨hroom, rfl⟩
  rw [decodeLoop, hclear, hasVisible_of_head hvisible, hcan, hget]
  change (resolve g c prog a >>= _) = _
  rw [hresolve]
  change (k.di.add g.busCap ⟨d, a, k.nextSeq⟩ >>= _) = _
  rw [hadd]
  rfl

end Loop

/-- Settles O8: a header word that decodes resolves to its instruction, which the round hands over; a
set flag ends the loop before its first round. -/
theorem decodeUnitHandsOverTheDecodedHeader :
    Obligations.DecodeUnitHandsOverTheDecodedHeader := by
  refine ⟨fun g c prog n k a rest h ops i hclear hvisible hroom hentry hdecode => ?round,
    fun _ _ _ _ hpending => decodeLoop_of_pendingBranch hpending⟩
  case round =>
    rw [decodeLoop_succ_of_resolve hclear hvisible hroom (resolve_header hentry hdecode),
      handedOver, setsPendingBranch_eq]

end Sys2Proof.Machine
end

section
/-! SUPPORT. The verdict on a runner (R189 to R196): each of its stages said once as what it asks of
the scan. Settles O9 and O10. -/

namespace Sys2Proof.Machine

/-! ### Conflicts with the pending-write set (R185) -/

section Conflicts
variable {k : Core} {i : Instr} {q : RegId}

theorem mem_rawSet : q ∈ rawSet k i ↔ q ∈ i.reads ∧ 0 < pwGet k.pw q := by simp [rawSet]

theorem mem_wawSet : q ∈ wawSet k i ↔ q ∈ i.writes ∧ 0 < pwGet k.pw q := by simp [wawSet]

theorem rawSet_eq_nil_iff : rawSet k i = [] ↔ ∀ q ∈ i.reads, pwGet k.pw q = 0 := by simp [rawSet]

theorem wawSet_eq_nil_iff : wawSet k i = [] ↔ ∀ q ∈ i.writes, pwGet k.pw q = 0 := by simp [wawSet]

theorem wawSet_ne_nil_iff : wawSet k i ≠ [] ↔ ∃ q ∈ i.writes, 0 < pwGet k.pw q := by
  simp [wawSet_eq_nil_iff, Nat.pos_iff_ne_zero]

theorem eq_zero_of_rawSet_eq_singleton (hraw : rawSet k i = [q]) {j : RegId} (hj : j ∈ i.reads)
    (hne : j ≠ q) : pwGet k.pw j = 0 := by
  by_contra hpending
  have hmem : j ∈ rawSet k i := mem_rawSet.mpr ⟨hj, Nat.pos_of_ne_zero hpending⟩
  exact hne (List.mem_singleton.mp (hraw ▸ hmem))

theorem rawSet_eq_singleton (hnodup : i.reads.Nodup) (hq : q ∈ i.reads)
    (hpending : 0 < pwGet k.pw q) (hothers : ∀ j ∈ i.reads, j ≠ q → pwGet k.pw j = 0) :
    rawSet k i = [q] := by
  have hperm : (rawSet k i).Perm [q] := by
    refine (List.perm_ext_iff_of_nodup (hnodup.filter _) (List.nodup_singleton q)).mpr fun j => ?_
    rw [List.mem_singleton]
    constructor
    · intro hj
      obtain ⟨hread, hpos⟩ := mem_rawSet.mp hj
      by_contra hne
      exact hpos.ne' (hothers j hread hne)
    · rintro rfl
      exact mem_rawSet.mpr ⟨hq, hpending⟩
  exact List.perm_singleton.mp hperm

/-! ### Forwarding (R195) -/

/-- R195 on the entry `e` that writes `q`: it is the only pending write of `q`, issued in the
preceding cycle and not executed yet, and no link has it as producer. -/
def Forwards (k : Core) (q : RegId) (e : RobEntry) : Prop :=
  pwGet k.pw q = 1 ∧ e.seq ∈ k.prevIssued ∧ e.status = .issued ∧ ∀ l ∈ k.links, l.prod ≠ e.seq

theorem fwdProducer_eq_some_iff {p : Seq} : fwdProducer k q = some p ↔
    ∃ e, k.rob.find? (fun e => e.desc.instr.writes.contains q) = some e ∧ Forwards k q e ∧
      e.seq = p := by
  unfold fwdProducer
  by_cases hcount : pwGet k.pw q = 1
  · cases hfind : k.rob.find? (fun e => e.desc.instr.writes.contains q) with
    | none => simp [hcount]
    | some e => simp [hcount, Forwards, and_assoc]
  · simp [hcount, Forwards]

/-- A writer of `q` that is the only one in the buffer is the one R195 looks at. -/
theorem find_writer_of_unique {e : RobEntry} (he : e ∈ k.rob) (hq : q ∈ e.desc.instr.writes)
    (hunique : ∀ f ∈ k.rob, q ∈ f.desc.instr.writes → f = e) :
    k.rob.find? (fun f => f.desc.instr.writes.contains q) = some e := by
  cases hfind : k.rob.find? (fun f => f.desc.instr.writes.contains q) with
  | none => exact absurd (List.contains_iff_mem.mpr hq) (List.find?_eq_none.mp hfind e he)
  | some f =>
    have hwrites : q ∈ f.desc.instr.writes := by simpa using List.find?_some hfind
    rw [hunique f (List.mem_of_find?_eq_some hfind) hwrites]

end Conflicts

/-! ### The classification (R194) -/

section Classify
variable {g : Cfg} {k : Core} {i : Instr}

/-- What R194 asks of the pending-write set, the buffer and the slots where it gives a grant. -/
def Grant.Fits (g : Cfg) (k : Core) (i : Instr) : Grant → Prop
  | .plain => rawSet k i = [] ∧ wawSet k i = []
  | .fwd p q => rawSet k i = [q] ∧ wawSet k i = [] ∧ g.fwdEnabled = true ∧ fwdProducer k q = some p
  | .rename => rawSet k i = [] ∧ wawSet k i ≠ [] ∧ g.renameEnabled = true ∧
      i.writes.length ≤ k.freePhys

theorem classify_eq_issue_iff {gr : Grant} : classify g k i = .issue gr ↔ gr.Fits g k i := by
  constructor
  · intro h
    unfold classify at h
    split at h
    case h_1 hraw hwaw =>
      cases h
      exact ⟨hraw, hwaw⟩
    case h_2 _ _ q hraw hwaw =>
      split at h
      case isTrue hon =>
        split at h
        case h_1 p hproducer =>
          cases h
          exact ⟨hraw, hwaw, hon, hproducer⟩
        case h_2 => cases h
      case isFalse => cases h
    case h_3 hraw hwaw =>
      split at h
      case isTrue hroom =>
        cases h
        exact ⟨hraw, hwaw ▸ List.cons_ne_nil _ _, by simpa using hroom⟩
      case isFalse => cases h
    case h_4 => cases h
  · intro h
    cases gr with
    | plain =>
      obtain ⟨hraw, hwaw⟩ := h
      simp only [classify, hraw, hwaw]
    | fwd p q =>
      obtain ⟨hraw, hwaw, hon, hproducer⟩ := h
      simp only [classify, hraw, hwaw, hon, hproducer, if_true]
    | rename =>
      obtain ⟨hraw, hwaw, hon, hroom⟩ := h
      obtain ⟨j, rest, hcons⟩ := List.exists_cons_of_ne_nil hwaw
      simp [classify, hraw, hcons, hon, hroom]

end Classify

/-! ### Stops and holds (R189 to R193) -/

theorem mustStop_eq_false_iff {g : Cfg} {sc : Scan} : mustStop g sc = false ↔ StopsPassed g sc := by
  simp [mustStop, StopsPassed, Bus.canAdd, and_assoc]

theorem regHaz_eq_false_iff {r s : Instr} : regHaz r s = false ↔
    ∀ q, ¬(q ∈ r.reads ∧ q ∈ s.writes) ∧ ¬(q ∈ r.writes ∧ q ∈ s.writes) ∧
      ¬(q ∈ r.writes ∧ q ∈ s.reads) := by
  simp only [regHaz, ← Bool.not_eq_true, Bool.or_eq_true, meets_eq_true, not_or, not_exists,
    forall_and, and_assoc]

theorem isMem_eq_true_iff {i : Instr} : isMem i = true ↔ i.code = 1 ∨ i.code = 2 := by
  simp [isMem, isLoad_eq, isStore_eq]

theorem memHeld_eq_false_iff {k : Core} {skipped : List Runner} {r : Runner} :
    memHeld k skipped r = false ↔
      (r.desc.instr.code = 1 ∨ r.desc.instr.code = 2 →
        (∀ p ∈ skipped, p.desc.instr.code ≠ 1 ∧ p.desc.instr.code ≠ 2) ∧
        ∀ e ∈ k.rob, e.seq < r.seq →
          ¬(e.desc.instr.code = 1 ∧ e.status = .issued) ∧ e.desc.instr.code ≠ 2) := by
  have hskipped : skipped.any (fun s => isMem s.desc.instr) = false ↔
      ∀ p ∈ skipped, p.desc.instr.code ≠ 1 ∧ p.desc.instr.code ≠ 2 := by
    simp [isMem, isLoad_eq, isStore_eq]
  have hloads : k.rob.any (fun e =>
        decide (e.seq < r.seq) && isLoad e.desc.instr && decide (e.status = .issued)) = false ↔
      ∀ e ∈ k.rob, e.seq < r.seq → ¬(e.desc.instr.code = 1 ∧ e.status = .issued) := by
    simp [isLoad_eq]
  have hstores : k.rob.any (fun e => decide (e.seq < r.seq) && isStore e.desc.instr) = false ↔
      ∀ e ∈ k.rob, e.seq < r.seq → e.desc.instr.code ≠ 2 := by
    simp [isStore_eq]
  simp only [memHeld, Bool.and_eq_false_imp, isMem_eq_true_iff, Bool.or_eq_false_iff, hskipped,
    hloads, hstores, forall_and, and_assoc]

theorem skippedConflicts_eq_false_iff {skipped : List Runner} {r : Runner} :
    skipped.any (fun s => regHaz r.desc.instr s.desc.instr) = false ↔
      ∀ p ∈ skipped, ∀ q,
        ¬(q ∈ r.desc.instr.reads ∧ q ∈ p.desc.instr.writes) ∧
        ¬(q ∈ r.desc.instr.writes ∧ q ∈ p.desc.instr.writes) ∧
        ¬(q ∈ r.desc.instr.writes ∧ q ∈ p.desc.instr.reads) := by
  simp only [List.any_eq_false, Bool.not_eq_true, regHaz_eq_false_iff]

/-- A RET is a control instruction, so R190 already asks of it that nothing was skipped (R191). -/
theorem controlPassed_iff {k : Core} {skipped : List Runner} {i : Instr} :
    (isCtl i && !skipped.isEmpty || isRet i && (!k.rob.isEmpty || !skipped.isEmpty)) = false ↔
      (3 ≤ i.code → skipped = []) ∧ (i.code = 5 → k.rob = []) := by
  have hret : i.code = 5 → 3 ≤ i.code := by omega
  simp only [isCtl_eq, isRet_eq, Bool.or_eq_false_iff, Bool.and_eq_false_imp, decide_eq_true_eq,
    Bool.not_eq_false', List.isEmpty_iff]
  constructor
  · rintro ⟨hctl, hretHeld⟩
    exact ⟨hctl, fun h => (hretHeld h).1⟩
  · rintro ⟨hctl, hempty⟩
    exact ⟨hctl, fun h => ⟨hempty h, hctl (hret h)⟩⟩

theorem mustHold_eq_false_iff {sc : Scan} {r : Runner} :
    mustHold sc.core sc.skipped r = false ↔ HoldsPassed sc r := by
  rw [mustHold, Bool.or_eq_false_iff, Bool.or_eq_false_iff, controlPassed_iff,
    skippedConflicts_eq_false_iff, memHeld_eq_false_iff, HoldsPassed, and_assoc, and_assoc]

/-! ### The verdict (R189 to R194) -/

section Verdict
variable {g : Cfg} {sc : Scan} {r : Runner}

theorem verdict_eq_stop_iff : verdict g sc r = .stop ↔ ¬StopsPassed g sc := by
  rw [← mustStop_eq_false_iff, Bool.not_eq_false]
  rcases verdict_cases g sc r with ⟨hstop, hv⟩ | ⟨hstop, -, hv⟩ | ⟨hstop, -, hv⟩
  · simp [hstop, hv]
  · simp [hstop, hv]
  · simp [hstop, hv, classify_ne_stop]

theorem verdict_of_held (hstops : StopsPassed g sc) (hheld : ¬HoldsPassed sc r) :
    verdict g sc r = .hold := by
  rw [← mustStop_eq_false_iff] at hstops
  rw [← mustHold_eq_false_iff, Bool.not_eq_false] at hheld
  simp [verdict, hstops, hheld]

theorem verdict_of_passed (hstops : StopsPassed g sc) (hholds : HoldsPassed sc r) :
    verdict g sc r = classify g sc.core r.desc.instr := by
  rw [← mustStop_eq_false_iff] at hstops
  rw [← mustHold_eq_false_iff] at hholds
  simp [verdict, hstops, hholds]

/-- A grant is a verdict past every stop and hold, so it is the classification's. -/
theorem verdict_eq_issue_iff {gr : Grant} : verdict g sc r = .issue gr ↔
    StopsPassed g sc ∧ HoldsPassed sc r ∧ classify g sc.core r.desc.instr = .issue gr := by
  constructor
  · intro h
    by_cases hstops : StopsPassed g sc
    · by_cases hholds : HoldsPassed sc r
      · exact ⟨hstops, hholds, verdict_of_passed hstops hholds ▸ h⟩
      · rw [verdict_of_held hstops hholds] at h
        cases h
    · rw [verdict_eq_stop_iff.mpr hstops] at h
      cases h
  · rintro ⟨hstops, hholds, hclass⟩
    rw [verdict_of_passed hstops hholds, hclass]

theorem verdict_of_fits {gr : Grant} (hstops : StopsPassed g sc) (hholds : HoldsPassed sc r)
    (hfits : gr.Fits g sc.core r.desc.instr) : verdict g sc r = .issue gr :=
  verdict_eq_issue_iff.mpr ⟨hstops, hholds, classify_eq_issue_iff.mpr hfits⟩

end Verdict

/-- Settles O9: a grant is the classification's, so what R194 asks of it holds; and past every stop
and hold the classification answers. -/
theorem issueGrantsRespectRegisterHazards : Obligations.IssueGrantsRespectRegisterHazards := by
  refine ⟨fun g sc r gr hissue => ?granted, fun g sc r hstops hholds =>
    ⟨fun hraw hwaw => ?plain, fun e q hon hnodup hread hcount hraw hwaw he hwrites hunique hissued
      hprev hlinks => ?fwd, fun hon hraw hwaw hslots => ?rename⟩⟩
  case granted =>
    obtain ⟨-, -, hclass⟩ := verdict_eq_issue_iff.mp hissue
    have hfits := classify_eq_issue_iff.mp hclass
    refine ⟨?_, ?_, ?_⟩
    · rintro rfl
      obtain ⟨hraw, hwaw⟩ := hfits
      exact ⟨rawSet_eq_nil_iff.mp hraw, wawSet_eq_nil_iff.mp hwaw⟩
    · rintro p q rfl
      obtain ⟨hraw, hwaw, hon, hproducer⟩ := hfits
      obtain ⟨e, hfind, ⟨hcount, hprev, hstatus, hlinks⟩, rfl⟩ :=
        fwdProducer_eq_some_iff.mp hproducer
      have hread : q ∈ rawSet sc.core r.desc.instr := hraw ▸ List.mem_singleton_self q
      exact ⟨hon, (mem_rawSet.mp hread).1, hcount,
        fun j hj hne => eq_zero_of_rawSet_eq_singleton hraw hj hne, wawSet_eq_nil_iff.mp hwaw,
        ⟨e, List.mem_of_find?_eq_some hfind, rfl, by simpa using List.find?_some hfind, hstatus⟩,
        hprev, hlinks⟩
    · rintro rfl
      obtain ⟨hraw, hwaw, hon, hslots⟩ := hfits
      exact ⟨hon, rawSet_eq_nil_iff.mp hraw, wawSet_ne_nil_iff.mp hwaw, hslots⟩
  case plain =>
    exact verdict_of_fits hstops hholds ⟨rawSet_eq_nil_iff.mpr hraw, wawSet_eq_nil_iff.mpr hwaw⟩
  case fwd =>
    have hproducer : fwdProducer sc.core q = some e.seq := fwdProducer_eq_some_iff.mpr
      ⟨e, find_writer_of_unique he hwrites hunique, ⟨hcount, hprev, hissued, hlinks⟩, rfl⟩
    exact verdict_of_fits hstops hholds
      ⟨rawSet_eq_singleton hnodup hread (hcount ▸ Nat.one_pos) hraw, wawSet_eq_nil_iff.mpr hwaw,
        hon, hproducer⟩
  case rename =>
    exact verdict_of_fits hstops hholds
      ⟨rawSet_eq_nil_iff.mpr hraw, wawSet_ne_nil_iff.mpr hwaw, hon, hslots⟩

/-- Settles O10: a grant passed every stop and hold, which is what the two conditions say. -/
theorem issuedRunnerPassedEveryHold : Obligations.IssuedRunnerPassedEveryHold := by
  refine ⟨fun g sc r => ⟨verdict_eq_stop_iff, verdict_of_held⟩, fun g sc r gr hissue => ?_⟩
  obtain ⟨⟨hctl, hwidth, hroom, hrob⟩, hholds, -⟩ := verdict_eq_issue_iff.mp hissue
  exact ⟨hctl, hwidth, hroom, hrob, hholds⟩

end Sys2Proof.Machine
end

section
/-! SUPPORT. The issue step (R187, R188, R198): the record of an issued runner, and what each round
of the two phases does on each verdict. Settles O11 and O12. -/

namespace Sys2Proof.Machine

/-- An operation whose first part answers goes on with the answer. -/
theorem ok_bind {α β : Type} (a : α) (f : α → Res β) : ((.ok a : Res α) >>= f) = f a := rfl

theorem peek_of_head {α : Type} {b : Bus α} {v : α} {rest : List α}
    (hvisible : b.visible = v :: rest) : b.peek = .ok v := by
  rw [Bus.peek, hvisible]

theorem get_of_head {α : Type} {b : Bus α} {v : α} {rest : List α}
    (hvisible : b.visible = v :: rest) : b.get = .ok (v, { b with visible := rest }) := by
  rw [Bus.get, hvisible]

/-! ### Issuing a runner (R198) -/

/-- The core after a runner issued. -/
def issuedCore (gr : Grant) (r : Runner) (k : Core) : Core :=
  { k with
    ie := { k.ie with entry := k.ie.entry ++ [⟨r, gr.forward⟩] }
    rob := robInsert ⟨r.seq, r.pc, r.desc, .issued, gr.slots r.desc.instr.writes⟩ k.rob
    pw := pwRaise k.pw r.desc.instr.writes
    freePhys := k.freePhys - gr.slots r.desc.instr.writes
    links := k.links ++ gr.links r
    fwdCount := k.fwdCount + (gr.links r).length
    curIssued := k.curIssued ++ [r.seq] }

theorem doIssue_of_room {g : Cfg} {gr : Grant} {r : Runner} {k : Core}
    (hroom : k.ie.entry.length < g.busCap) : doIssue g gr r k = .ok (issuedCore gr r k) := by
  have hadd : k.ie.add g.busCap ⟨r, gr.forward⟩
      = .ok { k.ie with entry := k.ie.entry ++ [⟨r, gr.forward⟩] } := Bus.add_ok.mpr ⟨hroom, rfl⟩
  rw [doIssue, hadd, ok_bind, issuedCore]

theorem Grant.slots_eq (gr : Grant) (w : List RegId) :
    gr.slots w = if gr = .rename then w.length else 0 := by
  cases gr <;> rfl

theorem Grant.links_of_not_fwd {gr : Grant} {r : Runner} (h : ∀ p q, gr ≠ .fwd p q) :
    gr.links r = [] := by
  cases gr with
  | plain | rename => rfl
  | fwd p q => exact absurd rfl (h p q)

theorem granted_eq_scanAfter (sc : Scan) (r : Runner) (k : Core) :
    sc.granted r k = scanAfter sc r k := by
  rw [Scan.granted, scanAfter, isCtl_eq]

/-- Settles O11, field by field of the core after the issue. -/
theorem issueRecordsTheInstruction : Obligations.IssueRecordsTheInstruction := by
  intro g gr r k hroom
  refine ⟨issuedCore gr r k, doIssue_of_room hroom, rfl, by cases gr <;> rfl, ?rob,
    robInsert_ascending, pwGet_raise k.pw _, ?slots, ?link, ?noLink, rfl,
    fun sc => ⟨rfl, ?control⟩, rfl⟩
  case rob =>
    rw [← Grant.slots_eq]
    exact robInsert_perm _ _
  case slots =>
    rw [← Grant.slots_eq]
    rfl
  case link =>
    rintro p q rfl
    exact ⟨rfl, rfl⟩
  case noLink =>
    intro h
    simp only [issuedCore, Grant.links_of_not_fwd h, List.append_nil, List.length_nil, Nat.add_zero,
      and_self]
  case control =>
    simp only [Scan.granted, isCtl_eq, Bool.or_eq_true, decide_eq_true_eq]

/-! ### Phase 1 (R187) -/

section Pending
variable {g : Cfg} {sc : Scan} {r : Runner} {rest : List Runner}

theorem issuePending_cons_of_stop (hv : verdict g sc r = .stop) :
    issuePending g (r :: rest) sc = .ok (sc, true) := by
  rw [issuePending, hv]

theorem issuePending_cons_of_hold (hv : verdict g sc r = .hold) :
    issuePending g (r :: rest) sc = issuePending g rest (sc.heldBack r) := by
  rw [issuePending, hv]

theorem pendingRemove_append {front back : List Runner} (hfront : ∀ e ∈ front, e.seq ≠ r.seq) :
    pendingRemove (front ++ r :: back) r = front ++ back := by
  rw [pendingRemove, List.eraseP_append_right _ (by simpa using hfront),
    List.eraseP_cons_of_pos (by simp)]

theorem issuePending_cons_of_issue {gr : Grant} {k : Core} (hv : verdict g sc r = .issue gr)
    (hissue : doIssue g gr r { sc.core with pendingQ := pendingRemove sc.core.pendingQ r }
      = .ok k) :
    issuePending g (r :: rest) sc = issuePending g rest (scanAfter sc r k) := by
  simp only [issuePending, hv, hissue, ok_bind, granted_eq_scanAfter]

end Pending

/-! ### Phase 2 (R187, R188) -/

section Fresh
variable {g : Cfg} {sc : Scan} {n : Nat} {r : Runner} {rest : List Runner}

theorem issueFresh_of_empty (hempty : sc.core.di.visible = []) : issueFresh g n sc = .ok sc := by
  cases n with
  | zero => rfl
  | succ n =>
    have hno : sc.core.di.hasVisible = false := by simp [Bus.hasVisible, hempty]
    simp only [issueFresh, hno, Bool.not_false, if_true]

theorem issueFresh_succ_of_stop (hvisible : sc.core.di.visible = r :: rest)
    (hv : verdict g sc r = .stop) : issueFresh g (n + 1) sc = .ok sc := by
  simp only [issueFresh, hasVisible_of_head hvisible, peek_of_head hvisible, ok_bind, hv,
    Bool.not_true, Bool.false_eq_true, if_false]

theorem issueFresh_succ_of_hold {k : Core} (hvisible : sc.core.di.visible = r :: rest)
    (hv : verdict g sc r = .hold) (hpark : parkHeld g sc.core = .ok k) :
    issueFresh g (n + 1) sc = .ok { sc with core := k, held := true } := by
  simp only [issueFresh, hasVisible_of_head hvisible, peek_of_head hvisible, ok_bind, hv, hpark,
    Bool.not_true, Bool.false_eq_true, if_false]

theorem issueFresh_succ_of_issue {gr : Grant} {k : Core} (hvisible : sc.core.di.visible = r :: rest)
    (hv : verdict g sc r = .issue gr)
    (hissue : doIssue g gr r { sc.core with di := { sc.core.di with visible := rest } } = .ok k) :
    issueFresh g (n + 1) sc = issueFresh g n (scanAfter sc r k) := by
  simp only [issueFresh, hasVisible_of_head hvisible, peek_of_head hvisible, get_of_head hvisible,
    ok_bind, hv, hissue, granted_eq_scanAfter, Bool.not_true, Bool.false_eq_true, if_false]

end Fresh

/-- A held runner at the head of DI moves to the end of the pending queue (R188). -/
theorem parkHeld_of_room {g : Cfg} {k : Core} {r : Runner} {rest : List Runner}
    (hvisible : k.di.visible = r :: rest) (hroom : k.pendingQ.length < g.pqCap) :
    parkHeld g k = .ok { k with
      di := { k.di with visible := rest }, pendingQ := k.pendingQ ++ [r] } := by
  have hpush : pendingPush g.pqCap k.pendingQ r = .ok (k.pendingQ ++ [r]) := if_pos hroom
  simp only [parkHeld, if_pos hroom, get_of_head hvisible, hpush, ok_bind]

theorem parkHeld_of_full {g : Cfg} {k : Core} (hfull : g.pqCap ≤ k.pendingQ.length) :
    parkHeld g k = .ok k :=
  if_neg (Nat.not_lt.mpr hfull)

/-! ### The step (R187) -/

section Step
variable {g : Cfg} {k : Core} {sc sc' : Scan}

/-- The scan an issue step begins with. -/
def scanStart (k : Core) : Scan := ⟨{ k with curIssued := [] }, [], 0, false, false⟩

theorem issueStep_of_stopped (hpending : issuePending g k.pendingQ (scanStart k) = .ok (sc, true)) :
    issueStep g k = .ok (issueEnd sc) := by
  rw [scanStart] at hpending
  simp only [issueStep, hpending, ok_bind, if_true, issueEnd]

theorem issueStep_of_scanned (hpending : issuePending g k.pendingQ (scanStart k) = .ok (sc, false))
    (hfresh : issueFresh g sc.core.di.visible.length sc = .ok sc') :
    issueStep g k = .ok (issueEnd sc') := by
  rw [scanStart] at hpending
  simp only [issueStep, hpending, hfresh, ok_bind, Bool.false_eq_true, if_false, issueEnd]

/-- With nothing pending, phase 2 begins at the head of DI; held, it moves to the empty queue. -/
theorem issueStep_of_held_head {r : Runner} {rest : List Runner} (hnone : k.pendingQ = [])
    (hvisible : k.di.visible = r :: rest) (hcap : 1 ≤ g.pqCap)
    (hv : verdict g (scanStart k) r = .hold) :
    issueStep g k = .ok { k with
      di := { k.di with visible := rest }
      pendingQ := [r]
      prevIssued := []
      curIssued := []
      stallCount := k.stallCount + 1 } := by
  have hpending : issuePending g k.pendingQ (scanStart k) = .ok (scanStart k, false) := by
    rw [hnone]
    rfl
  have hroom : (scanStart k).core.pendingQ.length < g.pqCap := by
    change k.pendingQ.length < g.pqCap
    rw [hnone]
    exact hcap
  have hfresh := issueFresh_succ_of_hold (n := rest.length) (sc := scanStart k) hvisible hv
    (parkHeld_of_room hvisible hroom)
  rw [← List.length_cons (a := r), ← hvisible] at hfresh
  rw [issueStep_of_scanned hpending hfresh]
  simp only [issueEnd, scanStart, hnone, List.nil_append, if_true]

end Step

/-- Settles O12: each round of either phase by its verdict, and the step as its phases in order. -/
theorem issueStepActsOnEachVerdict : Obligations.IssueStepActsOnEachVerdict := by
  refine ⟨fun g sc r rest => ⟨issuePending_cons_of_stop, issuePending_cons_of_hold, ?pendingIssue⟩,
    fun g sc n r rest hvisible => ⟨issueFresh_succ_of_stop hvisible, fun hv hroom => ?freshRoom,
      fun hv hfull => ?freshFull, fun gr k hv hissue => ?freshIssue⟩,
    fun g sc => ⟨rfl, fun n hempty => issueFresh_of_empty hempty⟩,
    fun g k sc => issueStep_of_stopped, fun g k sc sc2 => issueStep_of_scanned,
    fun g k r rest => issueStep_of_held_head⟩
  case pendingIssue =>
    intro gr front back k hv hqueue hfront hissue
    rw [← pendingRemove_append hfront, ← hqueue] at hissue
    exact issuePending_cons_of_issue hv hissue
  case freshRoom => exact issueFresh_succ_of_hold hvisible hv (parkHeld_of_room hvisible hroom)
  case freshFull => exact issueFresh_succ_of_hold hvisible hv (parkHeld_of_full hfull)
  case freshIssue => exact issueFresh_succ_of_issue hvisible hv hissue

end Sys2Proof.Machine
end

section
/-! SUPPORT. Running an instruction (R223 to R228): the six meanings as one operation of a class's rule,
its assertion and its step, and what that operation answers to each answer of the oracle. Settles O13 to
O16, O20, O23 and O24. -/

namespace Sys2Proof.Machine

/-! ### Erasing a key -/

/-- Erasing a key forgets what was listed there last. -/
theorem assocErase_insert_self {α : Type} (k : Nat) (v : α) (m : List (Nat × α)) :
    assocErase k (assocInsert k v m) = assocErase k m := by
  have hself : ∀ (u : α) m, assocErase k ((k, u) :: m) = assocErase k m := fun u m => by
    simp [assocErase]
  induction m with
  | nil => exact hself v []
  | cons e m ih =>
    obtain ⟨j, u⟩ := e
    simp only [assocInsert]
    split
    · exact hself v _
    · split
      next hj =>
        subst hj
        rw [hself, hself]
      next hj =>
        have hother : ∀ m, assocErase k ((j, u) :: m) = (j, u) :: assocErase k m := fun m => by
          simp [assocErase, hj]
        rw [hother, hother, ih]

/-! ### A class (R102) -/

/-- What the class of an instruction may do under the contract (R223). -/
def classRule (i : Instr) : ClassRule := ⟨isLoad i, isStore i, isCtl i⟩

/-- `assert(run)` of the class of an instruction (R251): only the control classes assert. -/
def classAssert (g : Cfg) (r : Runner) : Instr → Core → Core
  | .alu _ _ => id
  | .load _ _ => id
  | .store _ _ => id
  | .cbr _ _ => assertCbr g r
  | .jmp _ _ => assertJmp r
  | .ret _ _ => assertRet r

/-- The class step of an instruction (R230 to R238). -/
def classStep (g : Cfg) (f : Focus) : Instr → ExecutionResult → Core → Res (Core × Option Flush)
  | .alu _ _ => plainStep f.unit f.work
  | .load _ _ => plainStep f.unit f.work
  | .store _ _ => plainStep f.unit f.work
  | .cbr _ _ => cbrStep g f.unit f.work
  | .jmp _ _ => jmpStep g f.unit f.work
  | .ret _ _ => retStep g f.unit f.work

/-- `run(i, w, got)` (R225) of the work item in focus. -/
def runClass (i : Instr) (got : ByteMap) (g : Cfg) (labels : Labels) (f : Focus) (k : Core) :
    Res (Core × Option Flush) :=
  runWork g labels (classRule i) i.writes (classAssert g f.work.run i) (classStep g f i) f.unit
    f.work got k

/-- `start(i, w)` (R224) of the work item in focus, for a class that reads no memory. -/
def startClass (i : Instr) (g : Cfg) (labels : Labels) (f : Focus) (k : Core) :
    Res (Core × Option Flush) :=
  startWork g labels (classRule i) i.writes (classAssert g f.work.run i) (classStep g f i) f.unit
    f.work k

/-- What an assertion writes of its core: its own expectation (R250), and for a JMP the fetch unit,
which heads to the target the branch-target buffer has, if any (R252). -/
theorem classAssert_writes (g : Cfg) (r : Runner) (i : Instr) (k : Core) :
    ∃ expect pc fd complete fstate,
      classAssert g r i k = { k with
        expect := expect, pc := pc, fd := fd, complete := complete, fstate := fstate } ∧
      assocErase r.seq expect = assocErase r.seq k.expect ∧
      (i.code ≠ 4 → pc = k.pc ∧ fd = k.fd) ∧
      (i.code = 4 → pc = (btbLookup k.btb r.pc).getD k.pc) := by
  have herase : ∀ e, assocErase r.seq (assocInsert r.seq e k.expect) = assocErase r.seq k.expect :=
    fun e => assocErase_insert_self r.seq e k.expect
  cases i with
  | alu | load | store =>
    exact ⟨_, _, _, _, _, rfl, rfl, fun _ => ⟨rfl, rfl⟩, fun hcode => nomatch hcode⟩
  | cbr | ret =>
    exact ⟨_, _, _, _, _, rfl, herase _, fun _ => ⟨rfl, rfl⟩, fun hcode => nomatch hcode⟩
  | jmp =>
    rw [classAssert, assertJmp]
    cases btbLookup k.btb r.pc with
    | some t => exact ⟨_, _, _, _, _, rfl, herase _, fun hcode => absurd rfl hcode, fun _ => rfl⟩
    | none => exact ⟨_, _, _, _, _, rfl, herase _, fun hcode => absurd rfl hcode, fun _ => rfl⟩

theorem classAssert_links (g : Cfg) (r : Runner) (i : Instr) (k : Core) :
    (classAssert g r i k).links = k.links := by
  obtain ⟨_, _, _, _, _, heq, -⟩ := classAssert_writes g r i k
  rw [heq]

/-! ### The contract (R223) -/

section Contract
variable {i : Instr} {s : State} {f : Focus}

/-- What is asked of a class that lacks a capability. -/
theorem or_eq_true_iff_imp {b c : Bool} : (b || c) = true ↔ (b = false → c = true) := by
  cases b <;> simp

theorem addressContract_iff :
    addressContract s.cfg (isLoad i) (isStore i) f.work (s.core f.core).x = true ↔
      (isLoad i = false → focusReads s f = []) ∧ (isStore i = false → focusWrites s f = []) := by
  simp only [addressContract, focusReads, focusWrites, Bool.and_eq_true, or_eq_true_iff_imp,
    List.isEmpty_iff]

theorem resultContract_iff {o : ExecutionResult} :
    resultContract s.cfg (isStore i) (isCtl i) i.writes f.work (s.core f.core).x o = true ↔
      keepsContract i s f o := by
  simp only [resultContract, keepsContract, focusWrites, Bool.and_eq_true, or_eq_true_iff_imp,
    List.isEmpty_iff, List.all_eq_true, List.contains_iff_mem, Option.isNone_iff_eq_none, and_assoc]
  refine and_congr ?register and_left_comm
  cases o.regChange with
  | none => exact iff_of_true rfl fun _ _ hno => nomatch hno
  | some p =>
    rw [List.contains_iff_mem]
    refine ⟨fun hp q v heq => ?_, fun hall => hall p.1 p.2 rfl⟩
    obtain rfl := Option.some.inj heq
    exact hp

end Contract

/-! ### Delivery (R228) -/

/-- A core whose instruction has run, with its forwarded value delivered, before its class step. -/
def deliveredCore (f : Focus) (o : ExecutionResult) (k : Core) : Core :=
  { k with
    rob := robSetStatus k.rob f.work.run.seq .executed
    links := deliveredLinks k f.work.run.seq o }

theorem pushOk_deliveredCore (f : Focus) (o : ExecutionResult) (k : Core) :
    pushOk f.unit f.work o (deliveredCore f o k) = ranCore f o k := rfl

theorem deliver_of_deliverable {b : Seq} {k : Core} (h : deliverable k b) (o : ExecutionResult) :
    deliver b o k = .ok { k with links := deliveredLinks k b o } := by
  unfold deliver
  cases hfind : k.links.find? (fun l => decide (l.prod = b)) with
  | none =>
    have hother : ∀ l ∈ k.links, l.prod ≠ b := by simpa using hfind
    have hkept : deliveredLinks k b o = k.links :=
      (List.map_congr_left fun l hl => if_neg (hother l hl)).trans (List.map_id _)
    rw [hkept]
  | some l =>
    have hprod : l.prod = b := by simpa using List.find?_some hfind
    simp only [h l (List.mem_of_find?_eq_some hfind) hprod]
    rfl

theorem deliver_of_written {b : Seq} {k : Core} {l : Link} {v : Word} (o : ExecutionResult)
    (hfind : k.links.find? (fun j => decide (j.prod = b)) = some l) (hcell : l.cell = some v) :
    deliver b o k = faultWith .oracle := by
  simp only [deliver, hfind, hcell]

/-! ### The unit in focus -/

section OnFocus
variable {s : State} {f : Focus} {op op' : Cfg → Labels → Focus → Core → Res (Core × Option Flush)}

theorem onFocus_of_ok {k : Core} {fl : Option Flush} (hf : s.focus = some f)
    (hop : op s.cfg (s.input f.core).labels f (s.core f.core) = .ok (k, fl)) :
    onFocus s op = .next (ranState s f k fl.toList) :=
  onFocus_next.mpr ⟨f, k, fl, hf, hop, rfl⟩

theorem onFocus_of_fault {e : Fault} (hf : s.focus = some f)
    (hop : op s.cfg (s.input f.core).labels f (s.core f.core) = faultWith e) :
    onFocus s op = .fault e := by
  simp only [onFocus, hf, hop, faultWith]

theorem onFocus_congr (hf : s.focus = some f)
    (hop : op s.cfg (s.input f.core).labels f (s.core f.core)
      = op' s.cfg (s.input f.core).labels f (s.core f.core)) : onFocus s op = onFocus s op' := by
  simp only [onFocus, hf, hop]

theorem onFocus_of_none (hf : s.focus = none) : onFocus s op = .refused .noUnit := by
  simp only [onFocus, hf]

end OnFocus

/-! ### Starting (R224) -/

/-- A class that reads no memory starts by its rule. -/
theorem exec_of_not_load {i : Instr} (hload : isLoad i = false) (s : State) :
    exec i s = onFocus s (startClass i) := by
  cases i with
  | load => cases hload
  | alu | store | cbr | jmp | ret => rfl

theorem exec_load_start {s : State} {f : Focus} (hf : s.focus = some f) (hgot : f.got = none)
    (r w : List RegId) :
    exec (.load r w) s = onFocus s (fun g labels f k => startLoad g labels w f.unit f.work k) := by
  rw [exec, execLoad]
  refine onFocus_congr hf ?_
  simp only [hgot]

theorem exec_load_resume {s : State} {f : Focus} {got : ByteMap} (hf : s.focus = some f)
    (hgot : f.got = some got) (r w : List RegId) :
    exec (.load r w) s = onFocus s (runClass (.load r w) got) := by
  rw [exec, execLoad]
  refine onFocus_congr hf ?_
  simp only [hgot]
  rfl

section Start
variable {g : Cfg} {labels : Labels} {k : Core}

theorem startClass_of_legal {i : Instr} {f : Focus}
    (hcontract : addressContract g (isLoad i) (isStore i) f.work k.x = true)
    (hlegal : firstIllegal g (writeAddrs g f.work k.x) = none) :
    startClass i g labels f k = runClass i [] g labels f k := by
  simp only [startClass, startWork, classRule, hcontract, if_true, hlegal, runClass]

theorem startLoad_of_no_address {r w : List RegId} {f : Focus}
    (hreads : readAddrs g f.work k.x = []) (hwrites : writeAddrs g f.work k.x = []) :
    startLoad g labels w f.unit f.work k = runClass (.load r w) [] g labels f k := by
  have hcontract : addressContract g true false f.work k.x = true := by
    simp [addressContract, hwrites]
  simp only [startLoad, hcontract, if_true, hreads]
  rfl

/-- A LOAD with legal addresses asks for the first of its lines (R224). -/
theorem startLoad_of_lines {wl : List RegId} {i : Nat} {w : Work} {l : LineAddr}
    {rest : List LineAddr} (hwrites : writeAddrs g w k.x = [])
    (hlegal : firstIllegal g (readAddrs g w k.x) = none)
    (hlines : linesOf g ((readAddrs g w k.x).map BitVec.toNat) = l :: rest) :
    startLoad g labels wl i w k = (do
      let k1 ← submit .read l (.eu i) w.run.seq [] k
      .ok ({ k1 with eu := k1.eu.set i (.memRd w (l :: rest) []) }, none)) := by
  have hcontract : addressContract g true false w k.x = true := by
    simp [addressContract, hwrites]
  simp only [startLoad, hcontract, if_true, hlegal, hlines]

end Start

/-- The class of an instruction that is ready to run and reads no memory. -/
theorem readyToRun_not_load {i : Instr} {s : State} {f : Focus} {got : ByteMap}
    (h : readyToRun i s f got) (hload : isLoad i = false) :
    got = [] ∧ focusReads s f = [] ∧ firstIllegal s.cfg (focusWrites s f) = none ∧
      (isStore i = false → focusWrites s f = []) := by
  obtain ⟨-, h⟩ := h
  cases i with
  | load => cases hload
  | store =>
    obtain ⟨hreads, hlegal, hgot⟩ := h
    exact ⟨hgot, hreads, hlegal, fun hstore => nomatch hstore⟩
  | alu | cbr | jmp | ret =>
    obtain ⟨hreads, hwrites, hgot⟩ := h
    exact ⟨hgot, hreads, by rw [hwrites]; rfl, fun _ => hwrites⟩

theorem readyToRun_addressContract {i : Instr} {s : State} {f : Focus} {got : ByteMap}
    (h : readyToRun i s f got) :
    addressContract s.cfg (isLoad i) (isStore i) f.work (s.core f.core).x = true := by
  rw [addressContract_iff]
  by_cases hload : isLoad i = false
  · obtain ⟨-, hreads, -, hwrites⟩ := readyToRun_not_load h hload
    exact ⟨fun _ => hreads, hwrites⟩
  · cases i with
    | load =>
      obtain ⟨-, hwrites, -⟩ := h
      exact ⟨fun hno => absurd hno hload, fun _ => hwrites⟩
    | alu | store | cbr | jmp | ret => exact absurd rfl hload

/-- An instruction that is ready to run runs, whatever its class (R224, R225). -/
theorem exec_of_ready {i : Instr} {s : State} {f : Focus} {got : ByteMap}
    (h : readyToRun i s f got) : exec i s = onFocus s (runClass i got) := by
  have hf : s.focus = some f := h.1
  by_cases hload : isLoad i = false
  · obtain ⟨rfl, -, hlegal, -⟩ := readyToRun_not_load h hload
    rw [exec_of_not_load hload]
    exact onFocus_congr hf (startClass_of_legal (readyToRun_addressContract h) hlegal)
  · cases i with
    | load r w =>
      obtain ⟨-, hwrites, hgot | ⟨hgot, hreads, rfl⟩⟩ := h
      · exact exec_load_resume hf hgot r w
      · rw [exec_load_start hf hgot]
        exact onFocus_congr hf (startLoad_of_no_address hreads hwrites)
    | alu | store | cbr | jmp | ret => exact absurd rfl hload

/-! ### Running (R225) -/

section Run
variable {i : Instr} {s : State} {f : Focus} {got : ByteMap} {o : ExecutionResult}

/-- The core on which the class step runs: asserted, its entry Executed and its value delivered. -/
def steppedCore (i : Instr) (s : State) (f : Focus) (o : ExecutionResult) : Core :=
  deliveredCore f o (classAssert s.cfg f.work.run i (s.core f.core))

theorem exec_of_error {e : OracleError} (hready : readyToRun i s f got)
    (hanswer : focusAnswer s f got = .err e) :
    exec i s = .next (ranState s f
      (erredCore f (.exec e) (classAssert s.cfg f.work.run i (s.core f.core)))
      [⟨f.work.run.seq, none⟩]) := by
  rw [exec_of_ready hready]
  refine onFocus_of_ok (fl := some _) hready.1 ?_
  rw [focusAnswer, focusReads] at hanswer
  simp only [runClass, runWork, hanswer]
  rfl

theorem exec_of_result (hready : readyToRun i s f got) (hanswer : focusAnswer s f got = .ok o)
    (hkeeps : keepsContract i s f o) :
    exec i s = onFocus s (fun g _ f k => do
      let k2 ← deliver f.work.run.seq o { classAssert g f.work.run i k with
        rob := robSetStatus (classAssert g f.work.run i k).rob f.work.run.seq .executed }
      classStep g f i o k2) := by
  rw [exec_of_ready hready]
  refine onFocus_congr hready.1 ?_
  rw [focusAnswer, focusReads] at hanswer
  simp only [runClass, runWork, hanswer, classRule, readyToRun_addressContract hready,
    resultContract_iff.mpr hkeeps, Bool.and_self, if_true]

theorem exec_of_broken_contract (hready : readyToRun i s f got)
    (hanswer : focusAnswer s f got = .ok o) (hbroken : ¬ keepsContract i s f o) :
    exec i s = .fault .oracle := by
  rw [exec_of_ready hready]
  refine onFocus_of_fault hready.1 ?_
  rw [focusAnswer, focusReads] at hanswer
  simp only [runClass, runWork, hanswer, classRule, Bool.and_eq_true, resultContract_iff, hbroken,
    and_false, if_false]

/-- An instruction that runs to a result does what its class step does with it. -/
theorem exec_of_runsTo {k : Core} {fl : Option Flush} (hruns : runsTo i s f got o)
    (hstep : classStep s.cfg f i o (steppedCore i s f o) = .ok (k, fl)) :
    exec i s = .next (ranState s f k fl.toList) := by
  obtain ⟨hready, hanswer, hkeeps, hdeliverable⟩ := hruns
  rw [exec_of_result hready hanswer hkeeps]
  refine onFocus_of_ok hready.1 ?_
  rw [deliver_of_deliverable (by rwa [deliverable, classAssert_links]), ok_bind]
  exact hstep

end Run

/-! ### The classes that only hold their result (R230 to R232) -/

/-- Settles O13: the class step of an ALU only pushes the result (R230). -/
theorem aluRunsAndHoldsItsResult : Obligations.AluRunsAndHoldsItsResult :=
  fun _ _ _ _ _ hruns => exec_of_runsTo hruns rfl

/-- Settles O15: the bytes are restricted to the LOAD's addresses in `focusAnswer`, as in `runWork`. -/
theorem loadRunsOnTheBytesOfItsAddresses : Obligations.LoadRunsOnTheBytesOfItsAddresses :=
  fun _ _ _ _ _ _ hruns => exec_of_runsTo hruns rfl

/-- Settles O16: nothing of a STORE's memory change is applied by its class step (R232). -/
theorem storeCarriesItsBytesToCommit : Obligations.StoreCarriesItsBytesToCommit :=
  fun _ _ _ _ _ hruns => exec_of_runsTo hruns rfl

/-! ### The request of a LOAD (R224, R298) -/

theorem submit_of_free {kind : ReqKind} {l : LineAddr} {who : Requester} {b : Seq}
    {bytes : List Host.Cell} {k : Core} (hfree : k.req = none) :
    submit kind l who b bytes k
      = .ok { k with req := some ⟨kind, l, who, b, bytes, none, .locking⟩ } :=
  submit_ok.mpr ⟨hfree, rfl⟩

theorem submit_of_busy {kind : ReqKind} {l : LineAddr} {who : Requester} {b : Seq}
    {bytes : List Host.Cell} {k : Core} {q : ReqState} (hbusy : k.req = some q) :
    submit kind l who b bytes k = faultWith .unreach := by
  rw [submit, hbusy]

/-- An operation whose first part faults goes no further. -/
theorem faultWith_bind {α β : Type} (e : Fault) (f : α → Res β) :
    ((faultWith e : Res α) >>= f) = faultWith e := rfl

/-- Settles O14: the request is the one `submit` makes where none is under way. -/
theorem loadRequestsItsFirstLine : Obligations.LoadRequestsItsFirstLine := by
  intro r w s f l rest hf hgot hwrites hlegal hlines hfree
  rw [exec_load_start hf hgot]
  refine onFocus_of_ok (fl := none) hf ?_
  rw [startLoad_of_lines hwrites hlegal hlines, submit_of_free hfree, ok_bind]

/-! ### Faults and errors (R223, R226, R228) -/

/-- Settles O20: the error is recorded on the asserted core, which differs in its expectation and, for
a JMP, in where fetch heads. -/
theorem oracleErrorIsRecordedInEveryClass : Obligations.OracleErrorIsRecordedInEveryClass := by
  intro i s f got e hready hanswer
  have hexec := exec_of_error hready hanswer
  obtain ⟨expect, pc, fd, complete, fstate, heq, hexpect, -⟩ :=
    classAssert_writes s.cfg f.work.run i (s.core f.core)
  rw [heq] at hexec
  refine ⟨_, hexec, rfl, rfl, hexpect, rfl, rfl, rfl, rfl, ?_⟩
  simp only [sameBesideExecution, erredCore, robSetStatus_static, and_self]

/-- An instruction that names addresses its class may not name does not start (R223). -/
theorem exec_of_broken_addresses {i : Instr} {s : State} {f : Focus} (hf : s.focus = some f)
    (hgot : f.got = none)
    (hbroken : ¬ addressContract s.cfg (isLoad i) (isStore i) f.work (s.core f.core).x = true) :
    exec i s = .fault .oracle := by
  cases i with
  | load =>
    rw [exec_load_start hf hgot]
    exact onFocus_of_fault hf (if_neg hbroken)
  | alu | store | cbr | jmp | ret =>
    rw [exec_of_not_load rfl]
    exact onFocus_of_fault hf (if_neg hbroken)

/-- Settles O23: the first part breaks the contract on addresses, the second the one on results. -/
theorem brokenOracleContractFaults : Obligations.BrokenOracleContractFaults := by
  refine ⟨fun i s f hf hgot hbroken => exec_of_broken_addresses hf hgot ?_,
    fun i s f got o hready hanswer hbroken => exec_of_broken_contract hready hanswer ?_⟩
  · rw [addressContract_iff]
    rintro ⟨hreads, hwrites⟩
    rcases hbroken with ⟨hload, hsome⟩ | ⟨hstore, hsome⟩
    · exact hsome (hreads hload)
    · exact hsome (hwrites hstore)
  · rintro ⟨hregister, hbytes, hstore, hctl⟩
    rcases hbroken with ⟨q, v, hq, hout⟩ | ⟨e, he, hout⟩ | ⟨hno, hsome⟩ | ⟨hno, hsome⟩
    · exact hout (hregister q v hq)
    · exact hout (hbytes e he)
    · exact hsome (hstore hno)
    · exact hsome (hctl hno)

/-- Settles O24: where the request, the cell or the unit is missing, nothing runs. -/
theorem impossibleExecutionsStop : Obligations.ImpossibleExecutionsStop := by
  refine ⟨?request, ?cell, ?focus⟩
  case request =>
    intro r w s f q l rest hf hgot hwrites hlegal hlines hbusy
    rw [exec_load_start hf hgot]
    refine onFocus_of_fault hf ?_
    rw [startLoad_of_lines hwrites hlegal hlines, submit_of_busy hbusy, faultWith_bind]
  case cell =>
    intro i s f got o l v hready hanswer hkeeps hfind hcell
    rw [exec_of_result hready hanswer hkeeps]
    refine onFocus_of_fault hready.1 ?_
    rw [deliver_of_written o (by rwa [classAssert_links]) hcell, faultWith_bind]
  case focus =>
    intro i s hf
    cases i with
    | load => rw [exec, execLoad, onFocus_of_none hf]
    | alu | store | cbr | jmp | ret => rw [exec_of_not_load rfl, onFocus_of_none hf]

end Sys2Proof.Machine
end

section
/-! SUPPORT. The control classes (R233 to R238): what becomes of the expectation an assertion made, what
a resolved jump does to fetch, and what each class step answers. Settles O17 to O19 and O22. -/

namespace Sys2Proof.Machine

/-! ### Expectations (R250 to R255) -/

/-- An expectation that is set and dropped leaves no trace (R250, R254). -/
theorem dropExpect_setExpect (f : Focus) (o : ExecutionResult) (e : Expect) (k : Core) :
    dropExpect f.work.run.seq (deliveredCore f o (setExpect f.work.run.seq e k))
      = deliveredCore f o (withoutExpect f.work.run.seq k) := by
  simp only [dropExpect, setExpect, deliveredCore, withoutExpect, deliveredLinks,
    assocErase_insert_self]

/-- Whether fetch guessed the target wrong (R253). -/
def wrongGuess (actual : Word) : Expect → Bool
  | .known t _ => decide (actual ≠ t)
  | .unknown => true

theorem shouldFlush_of_expect {b : Seq} {actual : Word} {k : Core} {e : Expect}
    (he : assocFind b k.expect = some e) :
    shouldFlush b actual k = .ok (dropExpect b k, wrongGuess actual e) := by
  cases e <;> exact shouldFlush_ok.mpr ⟨rfl, _, he, rfl⟩

theorem flushTo_eq (i : Nat) (w : Work) (o : ExecutionResult) (wrong : Bool) (t : Word) (k : Core) :
    flushTo i w o wrong t k = (pushOk i w o k, if wrong then some ⟨w.run.seq, some t⟩ else none) :=
  rfl

/-- The flush raised beside a result unless `p` holds. -/
theorem toList_flush_unless {p : Prop} [Decidable p] (fl : Flush) :
    (if decide (¬p) = true then some fl else none).toList = if p then [] else [fl] := by
  by_cases hp : p <;> simp [hp]

/-! ### CBR (R233) -/

theorem cbrStep_of_aligned {g : Cfg} {i : Nat} {w : Work} {o : ExecutionResult} {k : Core}
    {e : Expect} (haligned : misaligned g (actualTarget g w.run.pc o) = false)
    (he : assocFind w.run.seq k.expect = some e) :
    cbrStep g i w o k = .ok (flushTo i w o (wrongGuess (actualTarget g w.run.pc o) e)
      (actualTarget g w.run.pc o) (dropExpect w.run.seq k)) := by
  simp only [cbrStep, haligned, notifyConditional, shouldFlush_of_expect he]
  rfl

theorem misaligned_of_multiple {g : Cfg} {t : Word} (h : t.toNat % g.iw = 0) :
    misaligned g t = false := by
  simp [misaligned, h]

/-- Settles O17: a CBR expects the next instruction (R251), so it is wrong exactly when its target is
another. -/
theorem conditionalBranchFlushesWhenTaken : Obligations.ConditionalBranchFlushesWhenTaken := by
  rintro r w s f o actual hruns rfl haligned
  have hstep := cbrStep_of_aligned (i := f.unit) (k := steppedCore (.cbr r w) s f o)
    (misaligned_of_multiple haligned)
    (assocFind_insert_self f.work.run.seq _ (s.core f.core).expect)
  have hcore : dropExpect f.work.run.seq (steppedCore (.cbr r w) s f o)
      = deliveredCore f o (withoutExpect f.work.run.seq (s.core f.core)) :=
    dropExpect_setExpect f o _ _
  rw [hcore, flushTo_eq, pushOk_deliveredCore] at hstep
  rw [exec_of_runsTo hruns hstep]
  exact congrArg (fun fl => Host.Outcome.next (ranState s f _ fl)) (toList_flush_unless _)

/-! ### JMP (R234, R252, R255) -/

/-- What a JMP expects when it is decoded: the target of the branch-target buffer, to which fetch is
redirected (R251, R252). -/
def jumpGuess (btb : List (Word × Word)) (pc : Word) : Expect :=
  match btbLookup btb pc with
  | some t => .known t true
  | none => .unknown

theorem assertJmp_expect (r : Runner) (k : Core) :
    (assertJmp r k).expect = assocInsert r.seq (jumpGuess k.btb r.pc) k.expect := by
  unfold assertJmp jumpGuess
  cases btbLookup k.btb r.pc <;> rfl

theorem jumpGuess_known {btb : List (Word × Word)} {pc t : Word} :
    jumpGuess btb pc = .known t true ↔ btbLookup btb pc = some t := by
  unfold jumpGuess
  cases btbLookup btb pc <;> simp

/-- Resolving a jump leaves fetch heading to its target: it is redirected there, unless the guess has
redirected it there already (R255). -/
theorem notifyJumpResolved_of_heading {g : Cfg} {b : Seq} {src dst : Word} {k : Core}
    (hheading : assocFind b k.expect = some (.known dst true) → fetchReset dst k = k) :
    notifyJumpResolved g b src dst k
      = clearPendingBranch (fetchReset dst { k with btb := btbRecord g.btbCap k.btb src dst }) := by
  unfold notifyJumpResolved
  dsimp only
  split
  next hguess =>
    change _ = clearPendingBranch { fetchReset dst k with btb := btbRecord g.btbCap k.btb src dst }
    rw [hheading hguess]
  next => rfl

theorem jmpStep_of_aligned {g : Cfg} {i : Nat} {w : Work} {o : ExecutionResult} {k : Core}
    {e : Expect} (haligned : misaligned g (actualTarget g w.run.pc o) = false)
    (he : assocFind w.run.seq k.expect = some e) :
    jmpStep g i w o k = .ok (flushTo i w o (wrongGuess (actualTarget g w.run.pc o) e)
      (actualTarget g w.run.pc o) (dropExpect w.run.seq
        (notifyJumpResolved g w.run.seq w.run.pc (actualTarget g w.run.pc o) k))) := by
  have he' : assocFind w.run.seq (notifyJumpResolved g w.run.seq w.run.pc
      (actualTarget g w.run.pc o) k).expect = some e := by rwa [notifyJumpResolved_expect]
  simp only [jmpStep, haligned, shouldFlush_of_expect he']
  rfl

theorem wrongGuess_jumpGuess (actual : Word) (btb : List (Word × Word)) (pc : Word) :
    wrongGuess actual (jumpGuess btb pc) = decide (btbLookup btb pc ≠ some actual) := by
  unfold jumpGuess
  cases btbLookup btb pc with
  | none => rfl
  | some t => simp [wrongGuess, eq_comm]

section Jump
variable {r w : List RegId} {s : State} {f : Focus} {o : ExecutionResult}

theorem steppedCore_jmp_expect :
    assocFind f.work.run.seq (steppedCore (.jmp r w) s f o).expect
      = some (jumpGuess (s.core f.core).btb f.work.run.pc) := by
  rw [← assocFind_insert_self f.work.run.seq _ (s.core f.core).expect, ← assertJmp_expect]
  rfl

/-- A guess that was right has redirected fetch when the instruction was decoded (R252). -/
theorem steppedCore_jmp_heading {dst : Word}
    (hguess : assocFind f.work.run.seq (steppedCore (.jmp r w) s f o).expect
      = some (.known dst true)) :
    fetchReset dst (steppedCore (.jmp r w) s f o) = steppedCore (.jmp r w) s f o := by
  rw [steppedCore_jmp_expect, Option.some.injEq, jumpGuess_known] at hguess
  have hassert : assertJmp f.work.run (s.core f.core)
      = fetchReset dst (setExpect f.work.run.seq (.known dst true) (s.core f.core)) := by
    rw [assertJmp, hguess]
  rw [steppedCore, classAssert, hassert]
  rfl

/-- The core of a resolved jump: its guess is gone, and nothing else of the assertion is left. -/
theorem resolvedJump_core (btb : List (Word × Word)) (dst : Word) :
    dropExpect f.work.run.seq
        (clearPendingBranch (fetchReset dst { steppedCore (.jmp r w) s f o with btb := btb }))
      = deliveredCore f o
          { withoutExpect f.work.run.seq (s.core f.core) with
            btb := btb
            pendingBranch := false
            fd := Bus.empty
            pc := dst
            complete := false
            fstate := .idle } := by
  obtain ⟨expect, pc, fd, complete, fstate, heq, hexpect, -⟩ :=
    classAssert_writes s.cfg f.work.run (.jmp r w) (s.core f.core)
  rw [steppedCore, heq, withoutExpect, ← hexpect]
  rfl

theorem steppedCore_jmp_btb : (steppedCore (.jmp r w) s f o).btb = (s.core f.core).btb := by
  obtain ⟨_, _, _, _, _, heq, -⟩ := classAssert_writes s.cfg f.work.run (.jmp r w) (s.core f.core)
  rw [steppedCore, heq]
  rfl

end Jump

/-- Settles O18: where the guess was right it has redirected fetch already, and elsewhere the
resolution does (R252, R255). -/
theorem jumpRecordsItsTargetAndRedirectsFetch :
    Obligations.JumpRecordsItsTargetAndRedirectsFetch := by
  rintro r w s f o actual hruns rfl haligned
  have hstep := jmpStep_of_aligned (i := f.unit) (misaligned_of_multiple haligned)
    (steppedCore_jmp_expect (r := r) (w := w) (s := s) (f := f) (o := o))
  rw [notifyJumpResolved_of_heading steppedCore_jmp_heading, steppedCore_jmp_btb,
    resolvedJump_core, flushTo_eq, pushOk_deliveredCore, wrongGuess_jumpGuess] at hstep
  rw [exec_of_runsTo hruns hstep]
  exact congrArg (fun fl => Host.Outcome.next (ranState s f _ fl)) (toList_flush_unless _)

/-! ### RET (R238) -/

section Return
variable {g : Cfg} {i : Nat} {w : Work} {o : ExecutionResult} {k : Core}

theorem retStep_of_terminate (hend : o.terminate = true) :
    retStep g i w o k = .ok (pushOk i w o (dropExpect w.run.seq k), none) := if_pos hend

theorem retStep_of_aligned {t : Word} (hend : o.terminate = false) (ht : o.pcChange = some t)
    (haligned : misaligned g t = false) :
    retStep g i w o k = .ok (flushTo i w o true t (dropExpect w.run.seq k)) := by
  simp only [retStep, hend, ht, haligned, Bool.false_eq_true, if_false]

theorem retStep_of_no_target (hend : o.terminate = false) (ht : o.pcChange = none) :
    retStep g i w o k
      = .ok (pushOk i w o (clearPendingBranch (dropExpect w.run.seq k)), none) := by
  simp only [retStep, hend, ht, Bool.false_eq_true, if_false]

end Return

/-- Settles O19: the three outcomes are the three branches of the class step, and the expectation the
RET was given is dropped in each (R251, R254). -/
theorem returnTerminatesJumpsOrFallsThrough : Obligations.ReturnTerminatesJumpsOrFallsThrough := by
  intro r w s f o hruns
  have hcore : dropExpect f.work.run.seq (steppedCore (.ret r w) s f o)
      = deliveredCore f o (withoutExpect f.work.run.seq (s.core f.core)) :=
    dropExpect_setExpect f o _ _
  refine ⟨fun hend => ?_, fun t hend ht haligned => ?_, fun hend ht => ?_⟩
  · rw [exec_of_runsTo hruns (retStep_of_terminate hend), hcore]
    rfl
  · rw [exec_of_runsTo hruns (retStep_of_aligned hend ht (misaligned_of_multiple haligned)), hcore]
    rfl
  · rw [exec_of_runsTo hruns (retStep_of_no_target hend ht), hcore]
    rfl

/-! ### Misaligned targets (R236) -/

/-- A control transfer to a target that is no multiple of IW records the error on the core its class
step was given. -/
theorem classStep_of_misaligned {g : Cfg} {f : Focus} {i : Instr} {o : ExecutionResult} {t : Word}
    {k : Core}
    (htarget : ((i.code = 3 ∨ i.code = 4) ∧ t = actualTarget g f.work.run.pc o) ∨
      (i.code = 5 ∧ o.terminate = false ∧ o.pcChange = some t))
    (hmisaligned : misaligned g t = true) :
    classStep g f i o k = .ok (recordError f.unit f.work (.align t) k) := by
  cases i with
  | alu | load | store => simp [Instr.code] at htarget
  | cbr | jmp =>
    obtain ⟨-, rfl⟩ | ⟨hcode, -⟩ := htarget
    · exact if_pos hmisaligned
    · cases hcode
  | ret =>
    obtain ⟨hcode | hcode, -⟩ | ⟨-, hend, ht⟩ := htarget
    · cases hcode
    · cases hcode
    · simp only [classStep, retStep, hend, ht, hmisaligned, Bool.false_eq_true, if_false, if_true]

/-- Settles O22: the error is recorded on the asserted core, whose entry is Executed already. -/
theorem misalignedTargetIsRecorded : Obligations.MisalignedTargetIsRecorded := by
  intro i s f o t hruns htarget hmisaligned
  have hstep := classStep_of_misaligned (k := steppedCore i s f o) htarget
    (decide_eq_true hmisaligned)
  have hexec := exec_of_runsTo hruns hstep
  obtain ⟨expect, pc, fd, complete, fstate, heq, hexpect, hfetch, hjump⟩ :=
    classAssert_writes s.cfg f.work.run i (s.core f.core)
  rw [steppedCore, heq] at hexec
  refine ⟨_, hexec, rfl, robSetStatus_idem _ _ _, rfl, hexpect, rfl, hfetch, hjump, ?_⟩
  simp only [sameBesideExecution, deliveredCore, robSetStatus_static, and_self]

end Sys2Proof.Machine
end

section
/-! SUPPORT. What becomes of a result (R221, R265 to R271): a unit gives it to EW, the drain completes
its buffer entry, and an oldest instruction that only writes a register commits. Settles O32. -/

namespace Sys2Proof.Machine

/-! ### The units of a core (R48) -/

/-- A unit that is not idle stands on a core that exists. -/
theorem unit_exists {s : State} {c : CoreId} {i : Nat} {e : EuState} (he : s.euState c i = e)
    (hbusy : e ≠ .idle) : c < s.cores.length ∧ i < (s.core c).eu.length := by
  constructor
  · by_contra hc
    have hblank : s.core c = Core.init s.cfg CoreInput.blank := by
      rw [State.core, List.getElem?_eq_none (not_lt.mp hc)]
      rfl
    have hmem : e ∈ (Core.init s.cfg CoreInput.blank).eu := hblank ▸ Core.unit_mem he hbusy
    exact hbusy (List.eq_of_mem_replicate hmem)
  · by_contra hi
    rw [State.euState, List.getElem?_eq_none (not_lt.mp hi)] at he
    exact hbusy he.symm

section UnitSet
variable {k k' : Core} {i : Nat} {e : EuState}

theorem unit_of_set_self (heu : k'.eu = k.eu.set i e) (hi : i < k.eu.length) : k'.unit i = e := by
  rw [Core.unit, heu, List.getElem?_set_self hi, Option.getD_some]

theorem unit_of_set_ne (heu : k'.eu = k.eu.set i e) {j : Nat} (hj : j ≠ i) :
    k'.unit j = k.unit j := by
  rw [Core.unit, heu, List.getElem?_set_ne (Ne.symm hj), Core.unit]

end UnitSet

/-! ### A unit gives its result to EW (R221) -/

section Push
variable {c : CoreId} {i : Nat} {s : State} {w : Work} {v : Result}

theorem unitPush_of_room (he : s.euState c i = .push w v)
    (hroom : (s.core c).ew.entry.length < s.cfg.busCap) :
    unitPush c i s = .ok (s.setCore c { s.core c with
      ew := { (s.core c).ew with entry := (s.core c).ew.entry ++ [v] }
      eu := (s.core c).eu.set i .idle }) := by
  obtain ⟨hc, -⟩ := unit_exists he (by simp)
  have hcan : (s.core c).ew.canAdd s.cfg.busCap = true := decide_eq_true hroom
  have hadd : (s.core c).ew.add s.cfg.busCap v
      = .ok { (s.core c).ew with entry := (s.core c).ew.entry ++ [v] } := Bus.add_ok.mpr ⟨hroom, rfl⟩
  simp only [unitPush, he, hcan, if_true, hadd, ok_bind, setEu_eq, core_setCore_self s c _ hc,
    setCore_setCore]

theorem unitPush_of_full (he : s.euState c i = .push w v)
    (hfull : s.cfg.busCap ≤ (s.core c).ew.entry.length) : unitPush c i s = .ok s := by
  have hcan : (s.core c).ew.canAdd s.cfg.busCap = false := decide_eq_false (not_lt.mpr hfull)
  simp only [unitPush, he, hcan, Bool.false_eq_true, if_false]

end Push

/-! ### The drain (R266) -/

/-- The buffer after some results were drained, the oldest first. -/
def drainedRob (vs : List Result) (rob : List RobEntry) : List RobEntry :=
  vs.foldl (fun acc v => robSetStatus acc v.seq (.completed v.out)) rob

theorem drainedRob_static (vs : List Result) (rob : List RobEntry) :
    (drainedRob vs rob).map (fun e => (e.seq, e.pc, e.desc, e.slots))
      = rob.map (fun e => (e.seq, e.pc, e.desc, e.slots)) := by
  induction vs generalizing rob with
  | nil => rfl
  | cons v vs ih => exact (ih _).trans (robSetStatus_static rob v.seq _)

theorem mem_robSetStatus {rob : List RobEntry} {b : Seq} {st : RobStatus} {e : RobEntry}
    (h : e ∈ robSetStatus rob b st) : (e ∈ rob ∧ e.seq ≠ b) ∨ (e.seq = b ∧ e.status = st) := by
  obtain ⟨e', he', rfl⟩ := List.mem_map.mp h
  by_cases hb : e'.seq = b
  · exact .inr (by simp [hb])
  · exact .inl (by simp [hb, he'])

/-- An entry of the drained buffer is completed with one of the results, or none of them is its. -/
theorem mem_drainedRob {vs : List Result} {rob : List RobEntry} {e : RobEntry}
    (h : e ∈ drainedRob vs rob) :
    (e ∈ rob ∧ ∀ v ∈ vs, v.seq ≠ e.seq) ∨
      ∃ v ∈ vs, v.seq = e.seq ∧ e.status = .completed v.out := by
  induction vs generalizing rob with
  | nil => exact .inl ⟨h, fun _ hv => nomatch hv⟩
  | cons v vs ih =>
    rcases ih h with ⟨he, hothers⟩ | ⟨u, hu, hresult⟩
    · rcases mem_robSetStatus he with ⟨he, hv⟩ | ⟨hv, hstatus⟩
      · exact .inl ⟨he, List.forall_mem_cons.mpr ⟨Ne.symm hv, hothers⟩⟩
      · exact .inr ⟨v, List.mem_cons_self, hv.symm, hstatus⟩
    · exact .inr ⟨u, List.mem_cons_of_mem v hu, hresult⟩

theorem exists_seq_robSetStatus {rob : List RobEntry} {b q : Seq} {st : RobStatus} :
    (∃ e ∈ robSetStatus rob b st, e.seq = q) ↔ ∃ e ∈ rob, e.seq = q := by
  rw [← List.mem_map (f := fun e : RobEntry => e.seq), robSetStatus_seqs, List.mem_map]

section Drain
variable {n : Nat} {k : Core} {v : Result} {rest : List Result}

theorem drainLoop_of_empty (hempty : k.ew.visible = []) : drainLoop n k = .ok k := by
  have hno : k.ew.hasVisible = false := by simp [Bus.hasVisible, hempty]
  cases n with
  | zero => rfl
  | succ n => simp only [drainLoop, hno, Bool.not_false, if_true]

theorem drainLoop_succ_of_entry (hvisible : k.ew.visible = v :: rest)
    (hentry : ∃ e ∈ k.rob, e.seq = v.seq) :
    drainLoop (n + 1) k = drainLoop n { k with
      ew := { k.ew with visible := rest }
      rob := robSetStatus k.rob v.seq (.completed v.out) } := by
  obtain ⟨e, hfind⟩ : ∃ e, robFind k.rob v.seq = some e :=
    Option.isSome_iff_exists.mp (by simpa [robFind] using hentry)
  simp only [drainLoop, hasVisible_of_head hvisible, get_of_head hvisible, ok_bind, hfind,
    Bool.not_true, Bool.false_eq_true, if_false]

theorem drainLoop_succ_of_no_entry (hvisible : k.ew.visible = v :: rest)
    (hentry : ¬ ∃ e ∈ k.rob, e.seq = v.seq) : drainLoop (n + 1) k = faultWith .unreach := by
  have hfind : robFind k.rob v.seq = none := by simpa [robFind] using hentry
  simp only [drainLoop, hasVisible_of_head hvisible, get_of_head hvisible, ok_bind, hfind,
    Bool.not_true, Bool.false_eq_true, if_false]

end Drain

theorem drainLoop_of_entries {n : Nat} {k : Core}
    (h : ∀ v ∈ k.ew.visible.take n, ∃ e ∈ k.rob, e.seq = v.seq) :
    drainLoop n k = .ok { k with
      ew := { k.ew with visible := k.ew.visible.drop n }
      rob := drainedRob (k.ew.visible.take n) k.rob } := by
  induction n generalizing k with
  | zero => rfl
  | succ n ih =>
    cases hvisible : k.ew.visible with
    | nil =>
      have hsame : ({ k.ew with visible := [] } : Bus Result) = k.ew := by rw [← hvisible]
      rw [drainLoop_of_empty hvisible, List.take_nil, List.drop_nil, hsame]
      rfl
    | cons v rest =>
      rw [hvisible, List.take_succ_cons, List.forall_mem_cons] at h
      obtain ⟨hhead, hrest⟩ := h
      rw [drainLoop_succ_of_entry hvisible hhead,
        ih fun u hu => exists_seq_robSetStatus.mpr (hrest u hu)]
      rfl

theorem drainLoop_of_missing_entry {n : Nat} {k : Core}
    (h : ∃ v ∈ k.ew.visible.take n, ¬ ∃ e ∈ k.rob, e.seq = v.seq) :
    drainLoop n k = faultWith .unreach := by
  obtain ⟨v, hv, hmissing⟩ := h
  induction n generalizing k with
  | zero => cases hv
  | succ n ih =>
    cases hvisible : k.ew.visible with
    | nil => simp [hvisible] at hv
    | cons u rest =>
      by_cases hentry : ∃ e ∈ k.rob, e.seq = u.seq
      · rw [drainLoop_succ_of_entry hvisible hentry]
        rw [hvisible, List.take_succ_cons, List.mem_cons] at hv
        obtain rfl | hv := hv
        · exact absurd hentry hmissing
        · exact ih hv fun he => hmissing (exists_seq_robSetStatus.mp he)
      · exact drainLoop_succ_of_no_entry hvisible hentry

/-! ### A completed head commits (R268, R271) -/

/-- Counts that cover a list of registers can be lowered by it (R41). -/
theorem pwLower_of_counts {pw : List (RegId × Nat)} {w : List RegId}
    (h : ∀ q, w.count q ≤ pwGet pw q) : ∃ pw', pwLower pw w = .ok pw' := by
  induction w generalizing pw with
  | nil => exact ⟨pw, rfl⟩
  | cons p w ih =>
    have hp := h p
    rw [List.count_cons_self] at hp
    have hrest : ∀ q, w.count q ≤ pwGet (mapSet 0 pw p (pwGet pw p - 1)) q := by
      intro q
      by_cases hq : q = p
      · subst hq
        rw [pwGet, mapGet_set_self]
        exact Nat.le_sub_one_of_lt hp
      · rw [pwGet, mapGet_set_ne _ _ _ hq]
        exact (List.count_le_count_cons).trans (h q)
    obtain ⟨pw', hlower⟩ := ih hrest
    exact ⟨pw', pwLower_cons_ok.mpr ⟨Nat.ne_zero_of_lt hp, hlower⟩⟩

/-- The core after an entry retired with its counts lowered to `pw`. -/
def retiredCore (e : RobEntry) (o : ExecutionResult) (pw : List (RegId × Nat)) (k : Core) : Core :=
  { k with
    x := commitRegs o k.x
    pw := pw
    freePhys := k.freePhys + e.slots
    rob := robRemove k.rob e.seq
    sprog := none }

theorem retire_of_counts {e : RobEntry} {o : ExecutionResult} {k : Core}
    (h : ∀ q, e.desc.instr.writes.count q ≤ pwGet k.pw q) :
    ∃ pw, retire e o k = .ok (retiredCore e o pw k) := by
  obtain ⟨pw, hlower⟩ := pwLower_of_counts h
  exact ⟨pw, by rw [retire, hlower, ok_bind, retiredCore]⟩

/-- A completed head that changes no memory and does not terminate retires at once. -/
theorem commitOne_of_plain_head {c : CoreId} {s : State} {e : RobEntry} {o : ExecutionResult}
    {k : Core} (hstore : (s.core c).sprog = none) (hhead : commitHead (s.core c) = some e)
    (hstatus : e.status = .completed (.ok o)) (hbytes : o.memChange = [])
    (hend : o.terminate = false) (hretire : retire e o (s.core c) = .ok k) :
    commitOne c s = .ok (s.setCore c k, true) := by
  simp only [commitOne, hstore, hhead, hstatus, commitOk, hbytes, if_true, finish, hretire, ok_bind,
    hend, Bool.false_eq_true, if_false]

/-- Settles O32: the unit's push, the drain, the arbiter's step and the commit of the head. -/
theorem resultsDrainAndACompletedHeadCommits : Obligations.ResultsDrainAndACompletedHeadCommits := by
  refine ⟨fun c i s w v he => ⟨fun hroom => ?push, unitPush_of_full he⟩,
    fun n k => ⟨fun hmissing => ?missing, fun hentries => ?drain⟩, fun c s k hdrain => ?arbiter,
    ?commit⟩
  case push =>
    obtain ⟨hc, hi⟩ := unit_exists he (by simp)
    refine ⟨_, unitPush_of_room he hroom, ?_⟩
    simp only [euState_eq, core_setCore_self s c _ hc, true_and, and_true]
    exact ⟨unit_of_set_self rfl hi, fun j => unit_of_set_ne rfl⟩
  case missing =>
    obtain ⟨v, hv, hnone⟩ := hmissing
    exact drainLoop_of_missing_entry ⟨v, hv, fun ⟨e, he, hseq⟩ => hnone e he hseq⟩
  case drain =>
    exact ⟨_, drainLoop_of_entries hentries, rfl, drainedRob_static _ _, fun e => mem_drainedRob,
      rfl⟩
  case arbiter => rw [wbStep, hdrain, ok_bind]
  case commit =>
    intro c s e o hc hstore hhead hstatus hbytes hend hcounts
    obtain ⟨pw, hretire⟩ := retire_of_counts (o := o) hcounts
    have hcore := core_setCore_self s c (retiredCore e o pw (s.core c)) hc
    refine ⟨_, commitOne_of_plain_head hstore hhead hstatus hbytes hend hretire, ?_, ?_, rfl, rfl,
      rfl, rfl, rfl, fun d hd => core_setCore_ne s _ (Ne.symm hd)⟩
    · rw [hcore, retiredCore]
    · rw [hcore]
      exact fun f hf => of_decide_eq_true (List.mem_filter.mp hf).2

end Sys2Proof.Machine
end

section
/-! SUPPORT. The step of an execute unit (R221): which instruction it runs, on which state, from each of
the states a unit waits in. Settles O27. -/

namespace Sys2Proof.Machine

section Unit
variable {c : CoreId} {i : Nat} {s : State}

/-- An idle unit takes the head of IE and starts it, when it waits for no forwarded value. -/
theorem unitTake_of_head {run : Runner} {rest : List Issued} (he : s.euState c i = .idle)
    (hvisible : (s.core c).ie.visible = ⟨run, none⟩ :: rest) :
    unitTake c i s = runFocused c i ⟨run, none, none⟩ none
      (s.setCore c { s.core c with ie := { (s.core c).ie with visible := rest } }) := by
  simp only [unitTake, he, hasVisible_of_head hvisible, get_of_head hvisible, ok_bind,
    Bool.not_true, Bool.false_eq_true, if_false]

theorem unitStep_of_head {run : Runner} {rest : List Issued} (he : s.euState c i = .idle)
    (hvisible : (s.core c).ie.visible = ⟨run, none⟩ :: rest) :
    unitStep c i s = (do
      let t ← ofOutcome (exec run.desc.instr
        { s.setCore c { s.core c with ie := { (s.core c).ie with visible := rest } } with
          focus := some ⟨c, i, ⟨run, none, none⟩, none⟩ })
      unitFinish c i t) := by
  rw [unitStep, unitTake_of_head he hvisible, runFocused]

theorem unitForward_of_written {w : Work} {l : Link} {v : Word} (he : s.euState c i = .waitFwd w)
    (hfind : (s.core c).links.find? (fun j => decide (j.cons = w.run.seq)) = some l)
    (hcell : l.cell = some v) :
    unitForward c i s = runFocused c i { w with ov := some (l.reg, v) } none
      (s.setCore c { s.core c with
        links := (s.core c).links.filter (fun j => decide (j.cons ≠ w.run.seq)) }) := by
  simp only [unitForward, he, hfind, hcell]

section Memory
variable {s1 : State} {w : Work} {todo : List LineAddr} {got : ByteMap} {ph : Phase}

theorem unitMemory_of_waiting (he : s.euState c i = .memRd w todo got)
    (hpoll : poll c (.eu i) s = .ok (s1, ph)) (hwait : ∀ data, ph ≠ .finished data) :
    unitMemory c i s = .ok s1 := by
  cases ph with
  | finished data => exact absurd rfl (hwait data)
  | locking | waiting | access => simp only [unitMemory, he, hpoll, ok_bind]

theorem unitMemory_of_last_line {data : List Host.Cell} (he : s.euState c i = .memRd w todo got)
    (hpoll : poll c (.eu i) s = .ok (s1, .finished data)) (hlast : todo.tail = []) :
    unitMemory c i s = runFocused c i w (some (addBytes got data)) (setReq c none s1) := by
  simp only [unitMemory, he, hpoll, ok_bind, hlast]

end Memory

/-- A poll leaves the units of its core as they are. -/
theorem poll_eu {who : Requester} {t : State} {ph : Phase} (h : poll c who s = .ok (t, ph)) :
    (t.core c).eu = (s.core c).eu := (poll_writes h).frame.own_rob.2.1

/-- A unit that submits a request and polls it waits for it, whatever the poll answers (R221, R298). -/
theorem poll_after_submit {w : Work} {l : LineAddr} {todo : List LineAddr} {got : ByteMap}
    {k : Core} {t : State} {ph : Phase} (hc : c < s.cores.length) (hi : i < (s.core c).eu.length)
    (hsubmit : submit .read l (.eu i) w.run.seq [] (s.core c) = .ok k)
    (hpoll : poll c (.eu i) ((s.setCore c k).setEu c i (.memRd w todo got)) = .ok (t, ph)) :
    t.euState c i = .memRd w todo got ∧
      ∃ r, (t.core c).req = some r ∧ r.kind = .read ∧ r.line = l ∧ r.who = .eu i ∧
        r.seq = w.run.seq := by
  obtain ⟨-, rfl⟩ := submit_ok.mp hsubmit
  rw [setEu_eq, core_setCore_self s c _ hc, setCore_setCore] at hpoll
  have heu := poll_eu hpoll
  obtain ⟨r, mode, hr, ht⟩ := poll_req hpoll
  rw [core_setCore_self s c _ hc] at heu hr
  obtain rfl := Option.some.inj hr
  exact ⟨unit_of_set_self heu hi, _, ht, rfl, rfl, rfl, rfl⟩

/-- A unit whose line has arrived asks for the next one. -/
theorem unitMemory_next_line {s1 t : State} {w : Work} {todo rest : List LineAddr} {l : LineAddr}
    {got : ByteMap} {data : List Host.Cell} (he : s.euState c i = .memRd w todo got)
    (hpoll : poll c (.eu i) s = .ok (s1, .finished data)) (htail : todo.tail = l :: rest)
    (h : unitMemory c i s = .ok t) :
    t.euState c i = .memRd w (l :: rest) (addBytes got data) ∧
      ∃ r, (t.core c).req = some r ∧ r.kind = .read ∧ r.line = l ∧ r.who = .eu i ∧
        r.seq = w.run.seq := by
  obtain ⟨hc, hi⟩ := unit_exists he (by simp)
  have hframe : CacheFrame c s (setReq c none s1) := (CacheMove.finish hpoll).frame
  have heu : ((setReq c none s1).core c).eu = (s.core c).eu := hframe.own_rob.2.1
  obtain ⟨s1', ph, hpoll', hph⟩ := unitMemory_ok he h
  obtain ⟨rfl, rfl⟩ := Prod.mk.inj (Except.ok.inj (hpoll.symm.trans hpoll'))
  rcases hph with ⟨hwait, -⟩ | ⟨data', hdata, ⟨hlast, -⟩ |
    ⟨l', rest', k, ph2, htail', hsubmit, hpoll2⟩⟩
  · exact absurd rfl (hwait data)
  · exact absurd (htail.symm.trans hlast) (by simp)
  · obtain rfl := Phase.finished.inj hdata
    obtain ⟨rfl, rfl⟩ := List.cons.inj (htail.symm.trans htail')
    exact poll_after_submit (by rwa [hframe.length]) (by rwa [heu]) hsubmit hpoll2

end Unit

/-- Settles O27: the unit's step from each state it waits in, and the step of a machine of one core and
one unit around it (`step_one_core`, `coreCycle_one_unit`). -/
theorem stepRunsTheInstructionTheUnitTakes : Obligations.StepRunsTheInstructionTheUnitTakes := by
  refine ⟨fun c i s run rest => unitStep_of_head,
    fun c i s w l v he hfind hcell => unitForward_of_written he hfind hcell, ?memory, ?step⟩
  case memory =>
    intro c i s s1 w todo got ph he hpoll
    refine ⟨unitMemory_of_waiting he hpoll, ?_, ?_⟩
    · rintro data rfl hlast
      exact unitMemory_of_last_line he hpoll hlast
    · rintro data l rest t rfl htail h
      exact unitMemory_next_line he hpoll htail h
  case step =>
    intro s s1 run rest hs hload hcores hunits hdone hbefore he hvisible
    rw [step_one_core hs hload hcores, coreCycle_one_unit hdone hunits, hbefore, ok_bind,
      unitStep_of_head he hvisible, bind_assoc]

end Sys2Proof.Machine
end

section
/-! SUPPORT. The branch-target buffer (R257, R258): what a lookup finds after an entry is updated in
place and after a new entry is put last, and which entries stay. Settles O29. -/

namespace Sys2Proof.Machine

/-! ### Lookup -/

section Lookup
variable {btb : List (Word × Word)} {p src dst : Word}

@[simp] theorem btbLookup_nil (p : Word) : btbLookup [] p = none := rfl

@[simp] theorem btbLookup_cons (e : Word × Word) (btb : List (Word × Word)) (p : Word) :
    btbLookup (e :: btb) p = if e.1 = p then some e.2 else btbLookup btb p := by
  simp only [btbLookup, List.find?_cons]
  by_cases h : e.1 = p <;> simp [h]

/-- An entry put last is found where the entries before it have no answer. -/
theorem btbLookup_concat (btb : List (Word × Word)) (e : Word × Word) (p : Word) :
    btbLookup (btb ++ [e]) p = (btbLookup btb p).or (btbLookup [e] p) := by
  simp only [btbLookup, List.find?_append, Option.map_or]

theorem btbLookup_of_not_mem (h : p ∉ btb.map Prod.fst) : btbLookup btb p = none := by
  induction btb with
  | nil => rfl
  | cons e btb ih =>
    obtain ⟨hne, hrest⟩ := List.ne_and_not_mem_of_not_mem_cons h
    rw [btbLookup_cons, if_neg hne.symm, ih hrest]

theorem btbLookup_concat_self (h : src ∉ btb.map Prod.fst) :
    btbLookup (btb ++ [(src, dst)]) src = some dst := by
  simp [btbLookup_concat, btbLookup_of_not_mem h]

theorem btbLookup_concat_ne (h : p ≠ src) :
    btbLookup (btb ++ [(src, dst)]) p = btbLookup btb p := by
  simp [btbLookup_concat, h.symm]

/-- With one entry per source, a lookup answers exactly the pairs of the buffer. -/
theorem btbLookup_eq_some_iff (h : (btb.map Prod.fst).Nodup) {t : Word} :
    btbLookup btb p = some t ↔ (p, t) ∈ btb := by
  induction btb with
  | nil => simp
  | cons e btb ih =>
    obtain ⟨q, u⟩ := e
    obtain ⟨hq, hrest⟩ := List.nodup_cons.mp h
    rw [btbLookup_cons, List.mem_cons]
    by_cases hqp : q = p
    · subst hqp
      have hold : (q, t) ∉ btb := fun hmem => hq (List.mem_map.mpr ⟨_, hmem, rfl⟩)
      simp [hold, eq_comm]
    · simp [hqp, Ne.symm hqp, ih hrest]

end Lookup

/-! ### Updating in place -/

/-- The buffer with the target of the entries for `src` replaced, each at its position. -/
def btbUpdate (src dst : Word) (btb : List (Word × Word)) : List (Word × Word) :=
  btb.map (fun e => if e.1 = src then (src, dst) else e)

section Update
variable {btb : List (Word × Word)} {p src : Word} (dst : Word)

@[simp] theorem btbUpdate_cons (src dst : Word) (e : Word × Word) (btb : List (Word × Word)) :
    btbUpdate src dst (e :: btb)
      = (if e.1 = src then (src, dst) else e) :: btbUpdate src dst btb := rfl

@[simp] theorem btbUpdate_length (src dst : Word) (btb : List (Word × Word)) :
    (btbUpdate src dst btb).length = btb.length := List.length_map _

@[simp] theorem btbUpdate_sources (src dst : Word) (btb : List (Word × Word)) :
    (btbUpdate src dst btb).map Prod.fst = btb.map Prod.fst := by
  rw [btbUpdate, List.map_map]
  refine List.map_congr_left fun e _ => ?_
  by_cases h : e.1 = src <;> simp [h]

theorem btbLookup_update_self (h : src ∈ btb.map Prod.fst) :
    btbLookup (btbUpdate src dst btb) src = some dst := by
  induction btb with
  | nil => exact absurd h List.not_mem_nil
  | cons e btb ih =>
    by_cases he : e.1 = src
    · simp [he]
    · have hrest : src ∈ btb.map Prod.fst := (List.mem_cons.mp h).resolve_left (Ne.symm he)
      simp [he, ih hrest]

theorem btbLookup_update_ne (h : p ≠ src) :
    btbLookup (btbUpdate src dst btb) p = btbLookup btb p := by
  induction btb with
  | nil => rfl
  | cons e btb ih =>
    by_cases he : e.1 = src
    · simp [he, h.symm, ih]
    · simp [he, ih]

end Update

/-! ### Making room -/

/-- The buffer before a new source is put last: without its oldest entry when it is full. -/
def btbMakeRoom (cap : Nat) (btb : List (Word × Word)) : List (Word × Word) :=
  if btb.length = cap then btb.drop 1 else btb

section Room
variable {cap : Nat} {btb : List (Word × Word)} {src : Word}

theorem btbMakeRoom_of_full (h : btb.length = cap) : btbMakeRoom cap btb = btb.drop 1 := if_pos h

theorem btbMakeRoom_of_lt (h : btb.length < cap) : btbMakeRoom cap btb = btb := if_neg h.ne

theorem btbMakeRoom_length_lt (hcap : 1 ≤ cap) (h : btb.length ≤ cap) :
    (btbMakeRoom cap btb).length < cap := by
  rcases h.eq_or_lt with hfull | hlt
  · rw [btbMakeRoom_of_full hfull, List.length_drop]
    omega
  · rwa [btbMakeRoom_of_lt hlt]

theorem btbMakeRoom_sublist (cap : Nat) (btb : List (Word × Word)) :
    (btbMakeRoom cap btb).Sublist btb := by
  rw [btbMakeRoom]
  split
  · exact List.drop_sublist 1 btb
  · exact List.Sublist.refl btb

theorem btbMakeRoom_sources_sublist (cap : Nat) (btb : List (Word × Word)) :
    ((btbMakeRoom cap btb).map Prod.fst).Sublist (btb.map Prod.fst) :=
  (btbMakeRoom_sublist cap btb).map Prod.fst

theorem not_mem_btbMakeRoom (h : src ∉ btb.map Prod.fst) :
    src ∉ (btbMakeRoom cap btb).map Prod.fst :=
  fun hmem => h ((btbMakeRoom_sources_sublist cap btb).subset hmem)

end Room

/-! ### Recording -/

section Record
variable {cap : Nat} {btb : List (Word × Word)} {p src : Word} (dst : Word)

@[simp] theorem btbRecord_zero (btb : List (Word × Word)) (src dst : Word) :
    btbRecord 0 btb src dst = btb := if_pos rfl

theorem btbRecord_of_mem (hcap : 1 ≤ cap) (h : src ∈ btb.map Prod.fst) :
    btbRecord cap btb src dst = btbUpdate src dst btb := by
  have hany : btb.any (fun e => decide (e.1 = src)) = true := by
    simpa using h
  rw [btbRecord, if_neg (Nat.one_le_iff_ne_zero.mp hcap), if_pos hany, btbUpdate]

theorem btbRecord_of_not_mem (hcap : 1 ≤ cap) (h : src ∉ btb.map Prod.fst) :
    btbRecord cap btb src dst = btbMakeRoom cap btb ++ [(src, dst)] := by
  have hany : ¬ btb.any (fun e => decide (e.1 = src)) = true := by
    simpa using h
  rw [btbRecord, if_neg (Nat.one_le_iff_ne_zero.mp hcap), if_neg hany, btbMakeRoom]

/-- All that recording can do (R257): nothing, an update in place, or a new last entry. -/
theorem btbRecord_cases (cap : Nat) (btb : List (Word × Word)) (src dst : Word) :
    cap = 0 ∧ btbRecord cap btb src dst = btb ∨
    1 ≤ cap ∧ src ∈ btb.map Prod.fst ∧ btbRecord cap btb src dst = btbUpdate src dst btb ∨
    1 ≤ cap ∧ src ∉ btb.map Prod.fst ∧
      btbRecord cap btb src dst = btbMakeRoom cap btb ++ [(src, dst)] := by
  rcases Nat.eq_zero_or_pos cap with rfl | hcap
  · exact .inl ⟨rfl, btbRecord_zero btb src dst⟩
  · by_cases h : src ∈ btb.map Prod.fst
    · exact .inr (.inl ⟨hcap, h, btbRecord_of_mem dst hcap h⟩)
    · exact .inr (.inr ⟨hcap, h, btbRecord_of_not_mem dst hcap h⟩)

theorem btbLookup_record_self (hcap : 1 ≤ cap) :
    btbLookup (btbRecord cap btb src dst) src = some dst := by
  by_cases h : src ∈ btb.map Prod.fst
  · rw [btbRecord_of_mem dst hcap h, btbLookup_update_self dst h]
  · rw [btbRecord_of_not_mem dst hcap h, btbLookup_concat_self (not_mem_btbMakeRoom h)]

/-- Where no entry is evicted, every other source keeps its target. -/
theorem btbLookup_record_ne (hp : p ≠ src) (hstay : btb.length < cap ∨ src ∈ btb.map Prod.fst) :
    btbLookup (btbRecord cap btb src dst) p = btbLookup btb p := by
  rcases btbRecord_cases cap btb src dst with ⟨-, h⟩ | ⟨-, -, h⟩ | ⟨-, hnew, h⟩
  · rw [h]
  · rw [h, btbLookup_update_ne dst hp]
  · rw [h, btbLookup_concat_ne hp, btbMakeRoom_of_lt (hstay.resolve_right hnew)]

theorem btbLookup_record_of_full (hp : p ≠ src) (hcap : 1 ≤ cap) (hfull : btb.length = cap)
    (hnew : src ∉ btb.map Prod.fst) :
    btbLookup (btbRecord cap btb src dst) p = btbLookup (btb.drop 1) p := by
  rw [btbRecord_of_not_mem dst hcap hnew, btbLookup_concat_ne hp, btbMakeRoom_of_full hfull]

theorem btbRecord_length_le (hlen : btb.length ≤ cap) :
    (btbRecord cap btb src dst).length ≤ cap := by
  rcases btbRecord_cases cap btb src dst with ⟨-, h⟩ | ⟨-, -, h⟩ | ⟨hcap, -, h⟩
  · rwa [h]
  · rwa [h, btbUpdate_length]
  · rw [h, List.length_append]
    exact btbMakeRoom_length_lt hcap hlen

theorem btbRecord_sources_nodup (hnodup : (btb.map Prod.fst).Nodup) :
    ((btbRecord cap btb src dst).map Prod.fst).Nodup := by
  rcases btbRecord_cases cap btb src dst with ⟨-, h⟩ | ⟨-, -, h⟩ | ⟨-, hnew, h⟩
  · rwa [h]
  · rwa [h, btbUpdate_sources]
  · rw [h, List.map_append, List.map_singleton, ← List.concat_eq_append]
    exact ((btbMakeRoom_sources_sublist cap btb).nodup hnodup).concat (not_mem_btbMakeRoom hnew)

end Record

/-- Settles O29, from what recording does to a known and to a new source (`btbRecord_cases`). -/
theorem recordedBranchTargetIsFound : Obligations.RecordedBranchTargetIsFound := by
  intro cap btb src dst
  exact ⟨btbRecord_zero btb src dst,
    fun hcap h => by rw [btbRecord_of_mem dst hcap h, btbUpdate_sources],
    fun hcap h => btbRecord_of_not_mem dst hcap h,
    fun hcap => btbLookup_record_self dst hcap,
    fun _ hp hstay => btbLookup_record_ne dst hp hstay,
    fun _ hp hcap hfull hnew => btbLookup_record_of_full dst hp hcap hfull hnew,
    fun hlen => btbRecord_length_le dst hlen,
    fun hnodup => ⟨btbRecord_sources_nodup dst hnodup, fun _ _ => btbLookup_eq_some_iff hnodup⟩⟩

end Sys2Proof.Machine
end

section
/-! SUPPORT. Retirement and the commit head (R267, R268, R271, R272, R275): the one register that
retiring writes, that the head is the oldest live instruction, and a program error at it. Settles O30 and
O34. -/

namespace Sys2Proof.Machine

/-! ### The register file (R38, R272) -/

section Registers
variable {p q : RegId} {v : Word} {o : ExecutionResult} {x : Regs}

theorem regRead_write_self (hq : q < NREGS) : regRead (regWrite x q v) q = v := by
  simp [regRead, regWrite, hq]

theorem regRead_write_ne (hp : p ≠ q) : regRead (regWrite x q v) p = regRead x p := by
  simp [regRead, regWrite, Ne.symm hp]

theorem commitRegs_some (ho : o.regChange = some (q, v)) : commitRegs o x = regWrite x q v := by
  rw [commitRegs, ho]

theorem commitRegs_none (ho : o.regChange = none) : commitRegs o x = x := by
  rw [commitRegs, ho]

end Registers

/-- Settles O30: a retired core is `retiredCore`, and its parts are those of the counts and registers. -/
theorem retirementWritesOneRegister : Obligations.RetirementWritesOneRegister := by
  intro e o k hcounts
  obtain ⟨pw, hlower⟩ := pwLower_of_counts hcounts
  have hretire : retire e o k = .ok (retiredCore e o pw k) := by
    rw [retire, hlower, ok_bind, retiredCore]
  have hx : (retiredCore e o pw k).x = commitRegs o k.x := rfl
  refine ⟨_, hretire, fun q v ho => ?_, fun ho => ?_, pwGet_lower hlower, rfl, rfl, rfl⟩
  · rw [hx, commitRegs_some ho]
    exact ⟨regRead_write_self, fun p => regRead_write_ne⟩
  · rw [hx, commitRegs_none ho]

/-! ### The commit head (R267) -/

theorem oldestEntry_none {rob : List RobEntry} (h : oldestEntry rob = none) : rob = [] := by
  cases rob with
  | nil => rfl
  | cons e rest =>
    unfold oldestEntry at h
    split at h
    · cases h
    · split at h <;> cases h

/-- No entry is older than the oldest, whether or not two entries share an ID. -/
theorem oldestEntry_le {rob : List RobEntry} {h e : RobEntry} (hold : oldestEntry rob = some h)
    (he : e ∈ rob) : h.seq ≤ e.seq := by
  induction rob generalizing h with
  | nil => cases he
  | cons f rest ih =>
    unfold oldestEntry at hold
    split at hold
    · rename_i hrest
      obtain rfl := Option.some.inj hold
      rw [oldestEntry_none hrest] at he
      exact (congrArg RobEntry.seq (List.mem_singleton.mp he)).ge
    · rename_i g hg
      split at hold
      · rename_i hlt
        obtain rfl := Option.some.inj hold
        rcases List.mem_cons.mp he with rfl | he
        · exact Nat.le_of_lt hlt
        · exact ih hg he
      · rename_i hge
        obtain rfl := Option.some.inj hold
        rcases List.mem_cons.mp he with rfl | he
        · exact le_rfl
        · exact (not_lt.mp hge).trans (ih hg he)

/-- Nothing that is in the buffer or has not issued yet is older than an instruction with ID `b`. -/
def NothingOlder (b : Seq) (k : Core) : Prop :=
  (∀ f ∈ k.rob, b ≤ f.seq) ∧ ∀ r ∈ unissued k, b ≤ r.seq

theorem nothingOlder_commitHead {k : Core} {h : RobEntry} (hhead : commitHead k = some h) :
    NothingOlder h.seq k := by
  obtain ⟨hold, hyounger⟩ := commitHead_some.mp hhead
  exact ⟨fun f => oldestEntry_le hold, unissuedOlder_false.mp hyounger⟩

/-- A core with an entry in its buffer exists. -/
theorem core_rob_lt {s : State} {c : CoreId} {e : RobEntry} (he : e ∈ (s.core c).rob) :
    c < s.cores.length := by
  by_contra hc
  rw [State.core, List.getElem?_eq_none (not_lt.mp hc)] at he
  cases he

/-! ### A program error at the head (R275, R361) -/

theorem commitOne_of_error_head {c : CoreId} {s : State} {e : RobEntry} {err : ProgramError}
    (hstore : (s.core c).sprog = none) (hhead : commitHead (s.core c) = some e)
    (hstatus : e.status = .completed (.err err)) :
    commitOne c s = .ok (takeError c err s, false) := by
  simp only [commitOne, hstore, hhead, hstatus]

/-- Settles O34: the round takes the error and the loop ends with it. -/
theorem errorAtTheHeadStopsTheRun : Obligations.ErrorAtTheHeadStopsTheRun := by
  intro c n s e err hrunning hdone hstore hhead hstatus
  have hround := commitOne_of_error_head hstore hhead hstatus
  simp only [commitLoop, hrunning, hdone, and_self, if_true, hround, ok_bind, Bool.false_eq_true,
    if_false, takeError]

end Sys2Proof.Machine
end

section
/-! SUPPORT. The end of a commit (R271, R274) and the flush of a terminating one (R240, R307, R346): what
becomes of its core and of the controller request. Settles O35. -/

namespace Sys2Proof.Machine

/-! ### The core after a flush (R346) -/

/-- A core after a flush with boundary `b` and target `t` (R346), its request then `req` and its counts
lowered to `pw`. -/
def flushedCore (b : Seq) (t : Option Word) (req : Option ReqState) (pw : List (RegId × Nat))
    (k : Core) : Core :=
  { fetchFlush t k with
    pendingBranch := false
    di := k.di.filter (fun r => decide (r.seq ≤ b))
    ie := k.ie.filter (fun it => decide (it.run.seq ≤ b))
    ew := k.ew.filter (fun v => decide (v.seq ≤ b))
    pendingQ := k.pendingQ.filter (fun r => decide (r.seq ≤ b))
    prevIssued := []
    curIssued := []
    req := req
    eu := k.eu.map (fun e => if EuState.younger b e then .idle else e)
    pw := pw
    freePhys := k.freePhys + heldSlots (k.rob.filter (fun e => decide (b < e.seq)))
    rob := k.rob.filter (fun e => decide (e.seq ≤ b))
    links := k.links.filter (fun l => decide (l.prod ≤ b) && decide (l.cons ≤ b))
    expect := k.expect.filter (fun e => decide (e.1 ≤ b))
    flushCount := k.flushCount + if t.isSome then 1 else 0 }

/-- What a flush makes of the controller request of core c (R240, R307): it is given up where its unit's
instruction is younger than the boundary, and stays otherwise. -/
def requestFlushed (c : CoreId) (b : Seq) (s s1 : State) (req : Option ReqState) : Prop :=
  (requestYounger b (s.core c) = true ∧ abandon c s = .ok s1 ∧ req = none) ∨
    (requestYounger b (s.core c) = false ∧ s1 = s ∧ req = (s.core c).req)

/-- The parts of a flush after the front end has been flushed make the flushed core. -/
theorem flushBack_flushedCore {b : Seq} {t : Option Word} {req : Option ReqState} {k k' : Core}
    (h : flushBack b t { flushFront b t k with
      req := req
      eu := k.eu.map (fun e => if EuState.younger b e then .idle else e) } = .ok k') :
    ∃ pw, k' = flushedCore b t req pw k := by
  obtain ⟨pw, -, rfl⟩ := flushBack_ok h
  exact ⟨pw, by cases t <;> rfl⟩

/-- Everything a flush does (R346): the request is seen to, and the core is written. -/
theorem applyFlush_flushedCore {c : CoreId} {b : Seq} {t : Option Word} {s u : State}
    (hc : c < s.cores.length) (h : applyFlush c b t s = .ok u) :
    ∃ s1 req pw, requestFlushed c b s s1 req ∧
      u = s1.setCore c (flushedCore b t req pw (s.core c)) := by
  obtain ⟨s3, k, heu, hback, rfl⟩ := applyFlush_ok h
  obtain ⟨s2, hrequest, rfl⟩ := euFlush_ok heu
  have hself := core_setCore_self s c (flushFront b t (s.core c)) hc
  have hreq : (flushFront b t (s.core c)).req = (s.core c).req := by cases t <;> rfl
  have hyounger : requestYounger b (flushFront b t (s.core c)) = requestYounger b (s.core c) := by
    cases t <;> rfl
  have heus : (flushFront b t (s.core c)).eu = (s.core c).eu := by cases t <;> rfl
  rw [hself, hyounger] at hrequest
  have hfront : ∃ s1 req, requestFlushed c b s s1 req ∧ c < s1.cores.length ∧
      s2 = s1.setCore c { flushFront b t (s.core c) with req := req } := by
    rcases hrequest with ⟨htrue, habandon⟩ | ⟨hfalse, rfl⟩
    · obtain ⟨s1, hs1, -, rfl⟩ := abandon_setCore (fs := s.raised) hc hreq habandon
      have hframe := (abandon_writes hs1).frame
      refine ⟨s1, none, .inl ⟨htrue, hs1, rfl⟩, hframe.length ▸ hc, ?_⟩
      rw [State.withWork, ← hframe.raised]
      rfl
    · exact ⟨s, _, .inr ⟨hfalse, rfl, rfl⟩, hc, by rw [← hreq]⟩
  obtain ⟨s1, req, hflushed, hc1, rfl⟩ := hfront
  rw [core_setCore_self s1 c _ hc1, setCore_setCore, core_setCore_self s1 c _ hc1, heus] at hback
  obtain ⟨pw, rfl⟩ := flushBack_flushedCore hback
  exact ⟨s1, req, pw, hflushed, by rw [setCore_setCore, setCore_setCore]⟩

/-! ### What a flush leaves in flight (R349) -/

theorem mem_filter_held {α : Type} {keep : α → Bool} {bus : Bus α} {v : α}
    (h : v ∈ (bus.filter keep).held) : keep v = true := by
  have hheld : (bus.filter keep).held = bus.held.filter keep := by simp [Bus.held, Bus.filter]
  rw [hheld] at h
  exact (List.mem_filter.mp h).2

/-- A unit works on nothing younger than the boundary once the younger are idle (R240). -/
theorem seq_le_of_flushed_unit {b q : Seq} {e : EuState}
    (h : (if EuState.younger b e then .idle else e).seq? = some q) : q ≤ b := by
  split at h
  · cases h
  · rename_i hkept
    rw [EuState.younger, h] at hkept
    simpa using hkept

theorem onlyUpTo_flushedCore (b : Seq) (t : Option Word) (req : Option ReqState)
    (pw : List (RegId × Nat)) (k : Core) : OnlyUpTo b (flushedCore b t req pw k) := by
  refine ⟨fun e he => ?rob, fun r hr => ?di, fun it hit => ?ie, fun v hv => ?ew, fun r hr => ?queue,
    fun e he q hq => ?units, fun l hl => ?links, fun e he => ?expect⟩
  case rob => simpa using (List.mem_filter.mp he).2
  case di => simpa using mem_filter_held hr
  case ie => simpa using mem_filter_held hit
  case ew => simpa using mem_filter_held hv
  case queue => simpa using (List.mem_filter.mp hr).2
  case units =>
    obtain ⟨e', -, rfl⟩ := List.mem_map.mp he
    exact seq_le_of_flushed_unit hq
  case links => simpa using (List.mem_filter.mp hl).2
  case expect => simpa using (List.mem_filter.mp he).2

/-! ### The request of a flushed core (R240, R307) -/

theorem requestYounger_iff {b : Seq} {k : Core} :
    requestYounger b k = true ↔ ∃ r i e q, k.req = some r ∧ r.who = .eu i ∧ k.eu[i]? = some e ∧
      e.seq? = some q ∧ b < q := by
  have hunit : ∀ e : EuState, EuState.younger b e = true ↔ ∃ q, e.seq? = some q ∧ b < q := by
    intro e
    rw [EuState.younger]
    cases e.seq? <;> simp
  rw [requestYounger]
  cases hreq : k.req with
  | none => simp
  | some r =>
    cases hwho : r.who with
    | wb => simp [hwho]
    | eu i => cases hi : k.eu[i]? with
      | none => simp [hwho, hi, hunit, EuState.seq?]
      | some e => simp [hwho, hi, hunit]

theorem abandon_mem {c : CoreId} {s t : State} (h : abandon c s = .ok t) : t.mem = s.mem := by
  rcases abandon_ok h with ⟨r, -, m, v, -, -, rfl⟩ | ⟨r, -, -, rfl⟩ | ⟨-, rfl⟩ <;> rfl

/-- Giving a request up releases its lock in its mode, and no other (R307). -/
theorem abandon_lock {c : CoreId} {s t : State} {r : ReqState} (hr : (s.core c).req = some r)
    (h : abandon c s = .ok t) :
    (∀ m, r.mode = some m → (s.semGet r.line).release m = .ok (t.semGet r.line)) ∧
      (r.mode = none → t.sem = s.sem) ∧ ∀ l, l ≠ r.line → t.semGet l = s.semGet l := by
  rcases abandon_ok h with ⟨r', hr', m, v, hm, hv, rfl⟩ | ⟨r', hr', hm, rfl⟩ | ⟨hnone, -⟩
  · obtain rfl := Option.some.inj (hr.symm.trans hr')
    have hget := semGet_of_mapSet (s := s) (t := setReq c none (s.semSet r.line v)) rfl
    refine ⟨fun m' hm' => ?_, fun hnone => absurd (hm.symm.trans hnone) (by simp), fun l hl => ?_⟩
    · obtain rfl := Option.some.inj (hm.symm.trans hm')
      rw [hv, hget, if_pos rfl]
    · rw [hget, if_neg hl]
  · obtain rfl := Option.some.inj (hr.symm.trans hr')
    exact ⟨fun m hsome => absurd (hm.symm.trans hsome) (by simp), fun _ => rfl, fun _ _ => rfl⟩
  · exact absurd (hr.symm.trans hnone) (by simp)

section Flushed
variable {c : CoreId} {b : Seq} {s s1 : State} {req : Option ReqState}

theorem requestFlushed_frame (h : requestFlushed c b s s1 req) :
    s1.mem = s.mem ∧ CacheFrame c s s1 := by
  rcases h with ⟨-, habandon, -⟩ | ⟨-, rfl, -⟩
  · exact ⟨abandon_mem habandon, (abandon_writes habandon).frame⟩
  · exact ⟨rfl, .refl c _⟩

theorem requestAfterFlush_of_flushed {t : State} (h : requestFlushed c b s s1 req)
    (hreq : (t.core c).req = req) (hsem : t.sem = s1.sem) : requestAfterFlush c b s t := by
  subst hreq
  rcases h with ⟨htrue, habandon, hnone⟩ | ⟨hfalse, rfl, hkept⟩
  · obtain ⟨r, i, e, q, hr, hwho, he, hq, hyounger⟩ := requestYounger_iff.mp htrue
    refine ⟨fun r' _ _ _ hr' _ _ _ _ => ⟨hnone, ?_⟩,
      fun holder => absurd (holder r i e q hr hwho he hq) (not_le.mpr hyounger)⟩
    simpa only [semGet_congr hsem, hsem] using abandon_lock hr' habandon
  · refine ⟨fun r i e q hr hwho he hq hyounger => ?_, fun _ => ⟨hkept, hsem⟩⟩
    have htrue := requestYounger_iff.mpr ⟨r, i, e, q, hr, hwho, he, hq, hyounger⟩
    exact absurd (hfalse.symm.trans htrue) Bool.false_ne_true

end Flushed

/-- What becomes of a request in a flush is a matter of the request, the units and the locks before
it. -/
theorem requestAfterFlush_congr {c : CoreId} {b : Seq} {s s' t : State}
    (h : requestAfterFlush c b s' t) (hreq : (s'.core c).req = (s.core c).req)
    (heu : (s'.core c).eu = (s.core c).eu) (hsem : s'.sem = s.sem) :
    requestAfterFlush c b s t := by
  have hget : ∀ l, s'.semGet l = s.semGet l := semGet_congr hsem
  simpa only [requestAfterFlush, hreq, heu, hsem, hget] using h

/-! ### Finishing an instruction (R271, R274) -/

/-- The core of a terminating instruction that has retired, before its flush (R274). -/
def endedCore (e : RobEntry) (o : ExecutionResult) (pw : List (RegId × Nat)) (k : Core) : Core :=
  { retiredCore e o pw k with done := true }

section Finish
variable {c : CoreId} {e : RobEntry} {o : ExecutionResult} {s t : State}

theorem finish_of_continue (hgoes : o.terminate = false) (h : finish c e o s = .ok t) :
    ∃ pw, t = s.setCore c (retiredCore e o pw (s.core c)) := by
  obtain ⟨k, hretire, ⟨hends, -⟩ | ⟨-, rfl⟩⟩ := finish_ok h
  · exact absurd (hgoes.symm.trans hends) Bool.false_ne_true
  · obtain ⟨pw, -, rfl⟩ := retire_ok hretire
    exact ⟨pw, rfl⟩

/-- Everything a terminating commit does: the core is retired, done and flushed, and its request seen
to. -/
theorem finish_of_terminate (hc : c < s.cores.length) (hends : o.terminate = true)
    (h : finish c e o s = .ok t) :
    ∃ s1 req pw pw', requestFlushed c e.seq (s.setCore c (endedCore e o pw (s.core c))) s1 req ∧
      t = s1.setCore c (flushedCore e.seq none req pw' (endedCore e o pw (s.core c))) ∧
      t.core c = flushedCore e.seq none req pw' (endedCore e o pw (s.core c)) := by
  obtain ⟨k, hretire, ⟨-, hflush⟩ | ⟨hgoes, -⟩⟩ := finish_ok h
  · obtain ⟨pw, -, rfl⟩ := retire_ok hretire
    obtain ⟨s1, req, pw', hflushed, ht⟩ :=
      applyFlush_flushedCore (by rwa [cores_length_setCore]) hflush
    have hc1 : c < s1.cores.length := by
      rwa [(requestFlushed_frame hflushed).2.length, cores_length_setCore]
    rw [core_setCore_self s c _ hc] at ht
    exact ⟨s1, req, pw, pw', hflushed, ht, by rw [ht]; exact core_setCore_self s1 c _ hc1⟩
  · exact absurd (hgoes.symm.trans hends) Bool.false_ne_true

/-- What a commit leaves of the registers, the buffer and the store under way of its core, terminating
or not. -/
theorem core_finish (hc : c < s.cores.length) (h : finish c e o s = .ok t) :
    (t.core c).x = commitRegs o (s.core c).x ∧
      (t.core c).rob = (s.core c).rob.filter
        (fun f => decide (f.seq ≠ e.seq ∧ (o.terminate = true → f.seq ≤ e.seq))) ∧
      (t.core c).done = ((s.core c).done || o.terminate) ∧ (t.core c).sprog = none := by
  cases hterminate : o.terminate with
  | false =>
    obtain ⟨pw, rfl⟩ := finish_of_continue hterminate h
    rw [core_setCore_self s c _ hc]
    exact ⟨rfl, by simp [retiredCore, robRemove], (Bool.or_false _).symm, rfl⟩
  | true =>
    obtain ⟨-, req, pw, pw', -, -, hcore⟩ := finish_of_terminate hc hterminate h
    rw [hcore]
    refine ⟨rfl, ?_, (Bool.or_true _).symm, rfl⟩
    simp [flushedCore, endedCore, retiredCore, robRemove, Bool.and_comm]

end Finish

/-- Settles O35: what `finish_of_terminate` says, read field by field. -/
theorem terminatingCommitEndsTheCore : Obligations.TerminatingCommitEndsTheCore := by
  intro c e o s t hc hends h
  obtain ⟨s1, req, pw, pw', hflushed, ht, hcore⟩ := finish_of_terminate hc hends h
  obtain ⟨hmem, hframe⟩ := requestFlushed_frame hflushed
  have hself := core_setCore_self s c (endedCore e o pw (s.core c)) hc
  have hflush : requestAfterFlush c e.seq (s.setCore c (endedCore e o pw (s.core c))) t :=
    requestAfterFlush_of_flushed hflushed (by rw [hcore]; rfl) (by rw [ht]; rfl)
  have hrequest : requestAfterFlush c e.seq s t :=
    requestAfterFlush_congr hflush (by rw [hself]; rfl) (by rw [hself]; rfl) rfl
  have hothers : ∀ d, d ≠ c → t.core d = s.core d := fun d hd => by
    rw [ht, core_setCore_ne s1 _ (Ne.symm hd), hframe.others d hd, core_setCore_ne s _ (Ne.symm hd)]
  have hmemory : t.mem = s.mem := by rw [ht]; exact hmem
  rw [hcore]
  exact ⟨rfl, rfl, onlyUpTo_flushedCore _ _ _ _ _, rfl, rfl, hmemory, hothers, hrequest⟩

end Sys2Proof.Machine
end

section
/-! SUPPORT. The commit round (R267 to R273, R276, R298): the WRITE of one line and of the lines after it,
what writing lines leaves of its core, and which instruction commits. Settles O31 and O33. -/

namespace Sys2Proof.Machine

/-! ### The WRITE of a line (R273, R298) -/

/-- The WRITE request of one line of a memory change, as it is submitted. -/
def writeRequest (g : Cfg) (b : Seq) (l : LineAddr) (change : List (Word × Byte)) : ReqState :=
  ⟨.write, l, .wb, b, lineBytes g l change, none, .locking⟩

/-- The core asks for the WRITE of a line of a memory change, in whatever phase. -/
def AsksToWrite (g : Cfg) (b : Seq) (l : LineAddr) (change : List (Word × Byte)) (k : Core) : Prop :=
  ∃ mode ph, k.req = some { writeRequest g b l change with mode := mode, phase := ph }

section Ensure
variable {c : CoreId} {b : Seq} {l : LineAddr} {change : List (Word × Byte)} {s t : State}

theorem ensureWrite_of_busy {r : ReqState} (hreq : (s.core c).req = some r) :
    ensureWrite c b l change s = .ok s := by
  simp only [ensureWrite, hreq]

theorem ensureWrite_of_free (hfree : (s.core c).req = none) :
    ensureWrite c b l change s = .ok (setReq c (some (writeRequest s.cfg b l change)) s) := by
  simp only [ensureWrite, hfree, submit, ok_bind]
  rfl

theorem ensureWrite_frame (h : ensureWrite c b l change s = .ok t) : CacheFrame c s t := by
  cases hreq : (s.core c).req with
  | some r =>
    obtain rfl := Except.ok.inj ((ensureWrite_of_busy hreq).symm.trans h)
    exact .refl c s
  | none =>
    obtain rfl := Except.ok.inj ((ensureWrite_of_free hreq).symm.trans h)
    exact (CacheWrite.req _).frame

end Ensure

/-! ### The first poll of a request (R299, R302) -/

theorem not_modifiedBesideShared {s : State} {c : CoreId} (hmsi : MsiExclusive s)
    (hc : c < s.cfg.numCores) (r : ReqState) : ¬ modifiedBesideShared s c r := by
  rintro ⟨-, hshared, d, hd, hdc, hmodified⟩
  have hinvalid := hmsi d c r.line hd hc hdc hmodified
  rw [hinvalid] at hshared
  cases hshared

theorem commands_of_not_modified {s : State} {c : CoreId} {r : ReqState}
    (h : ¬ modifiedBesideShared s c r) :
    ∃ t keys, commands c r.kind r.line s = .ok (t, keys) := by
  have hno : ¬(r.kind = .write ∧ s.dirGet c r.line = .s ∧
      (peers s c).any (fun d => decide (s.dirGet d r.line = .m)) = true) := by
    rintro ⟨hkind, hshared, hpeer⟩
    obtain ⟨d, hd, hm⟩ := List.any_eq_true.mp hpeer
    obtain ⟨hd, hdc⟩ := mem_peers.mp hd
    exact h ⟨hkind, hshared, d, hd, hdc, of_decide_eq_true hm⟩
  exact ⟨_, _, if_neg hno⟩

/-- A request in Locking is polled without a fault where no peer holds Modified a line to be written
that the core shares, and its first poll leaves memory as it is. -/
theorem poll_of_locking {s : State} {c : CoreId} {r : ReqState} (hreq : (s.core c).req = some r)
    (hphase : r.phase = .locking) (hmsi : ¬ modifiedBesideShared s c r) :
    ∃ t ph, poll c r.who s = .ok (t, ph) ∧ t.mem = s.mem := by
  simp only [poll, hreq, ne_eq, not_true_eq_false, if_false]
  split
  · simp only [advanceCached, hphase]
    cases hlock : (s.semGet r.line).tryLock (lockMode r.kind (s.dirGet c r.line)) with
    | none => exact ⟨s, .locking, rfl, rfl⟩
    | some v =>
      obtain ⟨t, keys, hcommands⟩ :=
        commands_of_not_modified (s := s.semSet r.line v) (r := r) hmsi
      obtain ⟨-, ht⟩ := commands_ok hcommands
      simp only [hcommands, ok_bind, moveTo]
      exact ⟨_, _, rfl, by rw [setReq_mem, ht]; rfl⟩
  · simp only [advanceUncached, hphase, moveTo]
    exact ⟨_, _, rfl, rfl⟩

/-! ### The lines of a store (R273) -/

section Lines
variable {c : CoreId} {b : Seq} {l : LineAddr} {rest : List LineAddr} {change : List (Word × Byte)}
  {s s1 s2 t : State} {ph : Phase} {all : Bool}

theorem storeLines_cons_of_wait (hensure : ensureWrite c b l change s = .ok s1)
    (hpoll : poll c .wb s1 = .ok (s2, ph)) (hwait : ∀ data, ph ≠ .finished data) :
    storeLines c b change (l :: rest) s = .ok (s2, false) := by
  simp only [storeLines, hensure, hpoll, ok_bind]
  cases ph with
  | finished data => exact absurd rfl (hwait data)
  | locking | waiting | access => rfl

theorem storeLines_cons_of_written {data : List Host.Cell}
    (hensure : ensureWrite c b l change s = .ok s1)
    (hpoll : poll c .wb s1 = .ok (s2, .finished data)) :
    storeLines c b change (l :: rest) s
      = storeLines c b change rest (setSprog c (some ⟨b, rest, 0⟩) (setReq c none s2)) := by
  simp only [storeLines, hensure, hpoll, ok_bind]

/-- A line that is asked for anew is not written in the same round: its request is under way. -/
theorem storeLines_cons_of_free (hc : c < s.cores.length) (hfree : (s.core c).req = none)
    (h : storeLines c b change (l :: rest) s = .ok (t, all)) :
    all = false ∧ CacheFrame c s t ∧ AsksToWrite s.cfg b l change (t.core c) := by
  obtain ⟨s1, s2, ph, hensure, hpoll, hend⟩ := storeLines_cons_ok h
  have hsubmit := ensureWrite_frame hensure
  obtain rfl := Except.ok.inj ((ensureWrite_of_free hfree).symm.trans hensure)
  have hreq := req_setReq hc (some (writeRequest s.cfg b l change))
  rcases hend with ⟨data, rfl, -⟩ | ⟨-, rfl, hall⟩
  · exact absurd hpoll (poll_locking_not_finished hreq rfl)
  · obtain ⟨r, mode, hr, ht⟩ := poll_req hpoll
    obtain rfl := Option.some.inj (hreq.symm.trans hr)
    exact ⟨hall, hsubmit.trans (poll_writes hpoll).frame, mode, ph, ht⟩

/-- Where no line is Modified beside another copy, asking for a line does not fault. -/
theorem storeLines_begins (hc : c < s.cores.length) (hfree : (s.core c).req = none)
    (hmsi : MsiExclusive s) (hcores : c < s.cfg.numCores) :
    ∃ t, storeLines c b change (l :: rest) s = .ok (t, false) ∧ t.mem = s.mem := by
  have hreq := req_setReq hc (some (writeRequest s.cfg b l change))
  obtain ⟨t, ph, hpoll, hmem⟩ := poll_of_locking hreq rfl
    (not_modifiedBesideShared (s := setReq c (some (writeRequest s.cfg b l change)) s) hmsi hcores _)
  have hwait : ∀ data, ph ≠ .finished data := by
    rintro data rfl
    exact poll_locking_not_finished hreq rfl hpoll
  exact ⟨t, storeLines_cons_of_wait (ensureWrite_of_free hfree) hpoll hwait, hmem⟩

end Lines

/-! ### What writing lines leaves of its core -/

/-- What the lines of a store leave of their core: all but its L1D, its request and the progress of the
store. -/
structure StoringFrame (c : CoreId) (s t : State) : Prop where
  length : t.cores.length = s.cores.length
  own : ∃ l1d req sprog, t.core c = { s.core c with l1d := l1d, req := req, sprog := sprog }

theorem StoringFrame.trans {c : CoreId} {s t u : State} (h : StoringFrame c s t)
    (h' : StoringFrame c t u) : StoringFrame c s u where
  length := h'.length.trans h.length
  own := by
    obtain ⟨l1d, req, sprog, hown⟩ := h.own
    obtain ⟨l1d', req', sprog', hown'⟩ := h'.own
    exact ⟨l1d', req', sprog', by rw [hown', hown]⟩

theorem CacheFrame.storing {c : CoreId} {s t : State} (h : CacheFrame c s t) :
    StoringFrame c s t where
  length := h.length
  own := by
    obtain ⟨l1d, req, hown⟩ := h.own
    exact ⟨l1d, req, (s.core c).sprog, hown⟩

theorem setSprog_storing (c : CoreId) (p : Option StoreProg) (s : State) :
    StoringFrame c s (setSprog c p s) where
  length := cores_length_setCore s c _
  own := by
    rcases core_setCore_cases s c c { s.core c with sprog := p } with h | ⟨-, h⟩
    · exact ⟨(s.core c).l1d, (s.core c).req, (s.core c).sprog, h⟩
    · exact ⟨(s.core c).l1d, (s.core c).req, p, h⟩

theorem storeLines_storing {c : CoreId} {b : Seq} {change : List (Word × Byte)}
    {todo : List LineAddr} {s t : State} {all : Bool}
    (h : storeLines c b change todo s = .ok (t, all)) : StoringFrame c s t := by
  induction todo generalizing s with
  | nil =>
    obtain ⟨rfl, -⟩ := Prod.mk.inj (Except.ok.inj h)
    exact (CacheFrame.refl c s).storing
  | cons l rest ih =>
    obtain ⟨s1, s2, ph, hensure, hpoll, hend⟩ := storeLines_cons_ok h
    have hpolled : CacheFrame c s s2 := (ensureWrite_frame hensure).trans (poll_writes hpoll).frame
    rcases hend with ⟨data, -, hrest⟩ | ⟨-, rfl, -⟩
    · have hgone : CacheFrame c s2 (setReq c none s2) := (CacheWrite.req none).frame
      exact ((hpolled.trans hgone).storing.trans (setSprog_storing c _ _)).trans (ih hrest)
    · exact hpolled.storing

/-! ### A round with a store under way (R268, R273) -/

section Store
variable {c : CoreId} {s s1 : State} {p : StoreProg} {e : RobEntry} {o : ExecutionResult}

theorem commitOne_of_store_waiting (hstore : (s.core c).sprog = some p)
    (hfind : robFind (s.core c).rob p.seq = some e) (hstatus : e.status = .completed (.ok o))
    (hlines : storeLines c p.seq o.memChange p.todo s = .ok (s1, false)) :
    commitOne c s = .ok (s1, false) := by
  simp only [commitOne, hstore, hfind, hstatus, entryResult, hlines, ok_bind, Bool.false_eq_true,
    if_false]

theorem commitOne_of_store_written (hstore : (s.core c).sprog = some p)
    (hfind : robFind (s.core c).rob p.seq = some e) (hstatus : e.status = .completed (.ok o))
    (hlines : storeLines c p.seq o.memChange p.todo s = .ok (s1, true)) :
    commitOne c s = (do
      let t ← finish c e o s1
      .ok (t, true)) := by
  simp only [commitOne, hstore, hfind, hstatus, entryResult, hlines, ok_bind, if_true]

/-- A round with a store under way writes lines of it. -/
theorem commitOne_store_lines {t : State} {more : Bool} (hstore : (s.core c).sprog = some p)
    (hfind : robFind (s.core c).rob p.seq = some e) (hstatus : e.status = .completed (.ok o))
    (h : commitOne c s = .ok (t, more)) :
    ∃ s1 all, storeLines c p.seq o.memChange p.todo s = .ok (s1, all) ∧
      (all = false → t = s1 ∧ more = false) := by
  rcases commitOne_ok h with ⟨p', e', o', s1, all, hp, he, ho, hlines, hend⟩ | ⟨hnone, -⟩ |
    ⟨e', hnone, -⟩
  · obtain rfl := Option.some.inj (hstore.symm.trans hp)
    obtain rfl := Option.some.inj (hfind.symm.trans he)
    obtain rfl : o = o' := by simpa [hstatus] using entryResult_some ho
    refine ⟨s1, all, hlines, fun hall => ?_⟩
    rcases hend with ⟨htrue, -⟩ | ⟨-, hmore, ht⟩
    · exact absurd (hall.symm.trans htrue) Bool.false_ne_true
    · exact ⟨ht, hmore⟩
  · exact absurd (hstore.symm.trans hnone) (by simp)
  · exact absurd (hstore.symm.trans hnone) (by simp)

end Store

/-! ### A STORE at the head (R268, R273) -/

section Begin
variable {c : CoreId} {s t : State} {e : RobEntry} {o : ExecutionResult}

/-- A completed STORE at the head becomes the store under way and goes through its lines. -/
theorem commitOne_of_store_head {lines : List LineAddr} (hstore : (s.core c).sprog = none)
    (hhead : commitHead (s.core c) = some e) (hstatus : e.status = .completed (.ok o))
    (hbytes : o.memChange ≠ [])
    (hlines : linesOf s.cfg (o.memChange.map (fun p => p.1.toNat)) = lines)
    (h : storeLines c e.seq o.memChange lines (setSprog c (some ⟨e.seq, lines, 0⟩) s)
      = .ok (t, false)) : commitOne c s = .ok (t, false) := by
  subst hlines
  simp only [commitOne, hstore, hhead, hstatus, commitOk, if_neg hbytes, h, ok_bind,
    Bool.false_eq_true, if_false]

end Begin

/-- The first round of a STORE: its first line is asked for, and nothing else of its core changes but the
record that it is under way. -/
theorem store_head_asks_for_first_line {c : CoreId} {s : State} {e : RobEntry} {o : ExecutionResult}
    {l : LineAddr} {rest : List LineAddr} (hmsi : MsiExclusive s) (hcores : c < s.cfg.numCores)
    (hstore : (s.core c).sprog = none) (hfree : (s.core c).req = none)
    (hhead : commitHead (s.core c) = some e) (hstatus : e.status = .completed (.ok o))
    (hlines : linesOf s.cfg (o.memChange.map (fun p => p.1.toNat)) = l :: rest) :
    ∃ t l1d req, commitOne c s = .ok (t, false) ∧ t.mem = s.mem ∧
      t.core c = { s.core c with l1d := l1d, req := req, sprog := some ⟨e.seq, l :: rest, 0⟩ } ∧
      AsksToWrite s.cfg e.seq l o.memChange (t.core c) := by
  have hc := core_rob_lt (commitHead_mem hhead)
  have hself := core_setCore_self s c { s.core c with sprog := some ⟨e.seq, l :: rest, 0⟩ } hc
  have hc1 : c < (setSprog c (some ⟨e.seq, l :: rest, 0⟩) s).cores.length := by simpa using hc
  have hfree1 : ((setSprog c (some ⟨e.seq, l :: rest, 0⟩) s).core c).req = none := by
    rw [setSprog_eq, hself]
    exact hfree
  have hbytes : o.memChange ≠ [] := by
    intro hnil
    rw [hnil] at hlines
    cases hlines
  obtain ⟨t, ht, hmem⟩ := storeLines_begins (b := e.seq) (l := l) (rest := rest)
    (change := o.memChange) hc1 hfree1 hmsi hcores
  obtain ⟨-, hframe, hasks⟩ := storeLines_cons_of_free hc1 hfree1 ht
  obtain ⟨l1d, req, hown⟩ := hframe.own
  rw [setSprog_eq, hself] at hown
  exact ⟨t, l1d, req, commitOne_of_store_head hstore hhead hstatus hbytes hlines ht, hmem, hown,
    hasks⟩

/-- A line of the store under way is written: the round asks for the next. -/
theorem store_asks_for_next_line {c : CoreId} {s s1 t : State} {b : Seq} {l l2 : LineAddr}
    {rest : List LineAddr} {e : RobEntry} {o : ExecutionResult} {q : ReqState}
    {data : List Host.Cell} {more : Bool} (hstore : (s.core c).sprog = some ⟨b, l :: l2 :: rest, 0⟩)
    (hfind : robFind (s.core c).rob b = some e) (hstatus : e.status = .completed (.ok o))
    (hreq : (s.core c).req = some q) (hpoll : poll c .wb s = .ok (s1, .finished data))
    (h : commitOne c s = .ok (t, more)) :
    more = false ∧ AsksToWrite s.cfg b l2 o.memChange (t.core c) ∧
      ∃ l1d req, t.core c
        = { s.core c with l1d := l1d, req := req, sprog := some ⟨b, l2 :: rest, 0⟩ } := by
  obtain ⟨s2, all, hlines, hend⟩ := commitOne_store_lines hstore hfind hstatus h
  rw [storeLines_cons_of_written (ensureWrite_of_busy hreq) hpoll] at hlines
  have hgone : CacheFrame c s (setReq c none s1) :=
    (poll_writes hpoll).frame.trans (CacheWrite.req none).frame
  have hc : c < (setReq c none s1).cores.length := by
    rw [hgone.length]
    exact core_req_lt hreq
  have hnone : ((setReq c none s1).core c).req = none := req_setReq (by simpa using hc) none
  obtain ⟨l1d, req, hown⟩ := hgone.own
  have hcfg := hgone.cfg
  generalize setReq c none s1 = s3 at *
  have hself := core_setCore_self s3 c { s3.core c with sprog := some ⟨b, l2 :: rest, 0⟩ } hc
  obtain ⟨rfl, hframe, hasks⟩ := storeLines_cons_of_free (by simpa using hc)
    (by rw [setSprog_eq, hself]; exact hnone) hlines
  obtain ⟨rfl, rfl⟩ := hend rfl
  rw [setSprog_cfg, hcfg] at hasks
  obtain ⟨l1d', req', hown'⟩ := hframe.own
  rw [setSprog_eq, hself, hown] at hown'
  exact ⟨rfl, hasks, l1d', req', hown'⟩

/-- Settles O33: the first round of a STORE, and a round for each answer of the poll of its line. -/
theorem storeCommitWritesItsLinesInOrder : Obligations.StoreCommitWritesItsLinesInOrder := by
  constructor
  · intro c s e o l rest hmsi hcores hstore hfree hhead hstatus hlines
    obtain ⟨t, l1d, req, hround, hmem, hown, mode, ph, hasks⟩ :=
      store_head_asks_for_first_line hmsi hcores hstore hfree hhead hstatus hlines
    refine ⟨t, _, hround, ?_, hasks, rfl, rfl, rfl, rfl, rfl, ?_, ?_, hmem⟩ <;> rw [hown]
  · intro c s s1 e o b l rest q ph hstore hfind hstatus hreq hpoll
    have hbusy := ensureWrite_of_busy (b := b) (l := l) (change := o.memChange) hreq
    refine ⟨fun hwait => ?waits, fun data hph hrest => ?last,
      fun data l2 rest2 t more hph hrest h => ?next⟩
    case waits =>
      exact commitOne_of_store_waiting hstore hfind hstatus
        (storeLines_cons_of_wait hbusy hpoll hwait)
    case last =>
      subst hph hrest
      exact commitOne_of_store_written hstore hfind hstatus
        (storeLines_cons_of_written hbusy hpoll)
    case next =>
      subst hph hrest
      obtain ⟨hmore, ⟨mode, ph, hasks⟩, l1d, req, hown⟩ :=
        store_asks_for_next_line hstore hfind hstatus hreq hpoll h
      refine ⟨hmore, ?_, ?_, ?_, _, hasks, rfl, rfl, rfl, rfl, rfl⟩ <;> rw [hown]

/-! ### Which instruction commits (R267 to R271, R276) -/

/-- A round that commits finishes a completed instruction, after its lines if it is a store: the store
under way, or the commit head when there is none. -/
theorem commitOne_commits {c : CoreId} {s t : State} (h : commitOne c s = .ok (t, true)) :
    ∃ e o s1, e ∈ (s.core c).rob ∧ e.status = .completed (.ok o) ∧ StoringFrame c s s1 ∧
      finish c e o s1 = .ok t ∧
      ((∃ p, (s.core c).sprog = some p ∧ e.seq = p.seq) ∨
        ((s.core c).sprog = none ∧ commitHead (s.core c) = some e)) := by
  rcases commitOne_ok h with ⟨p, e, o, s1, all, hp, he, ho, hlines, ⟨-, -, hfinish⟩ | ⟨-, hmore, -⟩⟩ |
    ⟨-, -, -, hmore⟩ |
    ⟨e, hnone, hhead, ⟨-, -, hmore⟩ | ⟨err, -, -, hmore⟩ | ⟨o, hstatus, hcommit⟩⟩
  · exact ⟨e, o, s1, List.mem_of_find?_eq_some he, entryResult_some ho, storeLines_storing hlines,
      hfinish, .inl ⟨p, hp, by simpa using List.find?_some he⟩⟩
  · cases hmore
  · cases hmore
  · cases hmore
  · cases hmore
  · rcases commitOk_ok hcommit with ⟨-, -, hfinish⟩ |
      ⟨s1, all, -, hlines, ⟨-, -, hfinish⟩ | ⟨-, hmore, -⟩⟩
    · exact ⟨e, o, s, commitHead_mem hhead, hstatus, (CacheFrame.refl c s).storing, hfinish,
        .inr ⟨hnone, hhead⟩⟩
    · exact ⟨e, o, s1, commitHead_mem hhead, hstatus,
        (setSprog_storing c _ s).trans (storeLines_storing hlines), hfinish, .inr ⟨hnone, hhead⟩⟩
    · cases hmore

/-- Settles O31: which instruction commits (`commitOne_commits`) and what finishing it leaves
(`core_finish`). -/
theorem commitTakesTheOldestInstruction : Obligations.CommitTakesTheOldestInstruction := by
  intro c s t h
  obtain ⟨e, o, s1, he, hstatus, hframe, hfinish, hwhich⟩ := commitOne_commits h
  have hc : c < s1.cores.length := hframe.length ▸ core_rob_lt he
  obtain ⟨l1d, req, sprog, hown⟩ := hframe.own
  have hend := core_finish hc hfinish
  rw [hown] at hend
  refine ⟨e, o, he, hstatus, fun hstore => ?_, fun p hp => ?_, hend⟩
  · have holdest : NothingOlder e.seq (s.core c) := by
      rcases hwhich with ⟨p, hp, hseq⟩ | ⟨-, hhead⟩
      · obtain ⟨h, hhead, hhseq⟩ := hstore p hp
        rw [hseq, ← hhseq]
        exact nothingOlder_commitHead hhead
      · exact nothingOlder_commitHead hhead
    obtain ⟨hrob, hunissued⟩ := holdest
    simp only [unissued, List.append_assoc, List.forall_mem_append] at hunissued ⊢
    exact ⟨hrob, hunissued⟩
  · rcases hwhich with ⟨p', hp', hseq⟩ | ⟨hnone, -⟩
    · obtain rfl := Option.some.inj (hp.symm.trans hp')
      exact hseq
    · exact absurd (hp.symm.trans hnone) (by simp)

end Sys2Proof.Machine
end

section
/-! SUPPORT. What every step keeps of the line stores and of a core that is done (R285, R352), and
what a core's cycle makes of the run's status (R275, R354). Settles O56, O52 and O51. -/

namespace Sys2Proof.Machine

/-- Settles O56: every move of a core's cycle keeps the line stores sound (`Move.soundStores`). -/
theorem everyStepKeepsLineStoresSound : Obligations.EveryStepKeepsLineStoresSound := fun _ _ hs h =>
  step_keep (fun _ _ _ => id) (fun _ _ _ hc hcycle =>
    Moves.keep (fun _ _ hc hmove => hmove.soundStores hc) hc (coreCycle_moves hc hcycle).1) h hs

/-! ### A core that is done (R352, R353) -/

/-- A snoop step visits commands for its own core alone (R313). -/
theorem pendingKeys_target {d : CoreId} {t : List (CmdKey × CmdStatus)} {key : CmdKey}
    (h : key ∈ pendingKeys d t) : key.target = d := by
  obtain ⟨e, he, rfl⟩ := List.mem_map.mp h
  have hpending := (List.mem_filter.mp he).2
  simp only [Bool.and_eq_true, decide_eq_true_eq] at hpending
  exact hpending.1

theorem runCommands_cons_ok {d : CoreId} {key : CmdKey} {rest : List CmdKey} {s t : State}
    (h : runCommands d (key :: rest) s = .ok t) :
    (holdsLock (s.core d) key.line = true ∧ runCommands d rest s = .ok t) ∨
      (holdsLock (s.core d) key.line = false ∧
        ∃ s1, runCommand key s = .ok s1 ∧ runCommands d rest s1 = .ok t) := by
  unfold runCommands at h
  split at h
  · exact .inl ⟨by assumption, h⟩
  · exact .inr ⟨by simp_all, bind_ok.mp h⟩

theorem runCommands_writes {c : CoreId} {keys : List CmdKey} {s t : State}
    (hkeys : ∀ key ∈ keys, key.target = c) (h : runCommands c keys s = .ok t) :
    CacheWrites c s t := by
  induction keys generalizing s with
  | nil =>
    obtain rfl := Except.ok.inj h
    exact .refl
  | cons key rest ih =>
    have hrest := fun k hk => hkeys k (List.mem_cons_of_mem key hk)
    rcases runCommands_cons_ok h with ⟨-, h⟩ | ⟨-, s1, hcommand, h⟩
    · exact ih hrest h
    · have hfirst : CacheWrites c s s1 := hkeys key List.mem_cons_self ▸ runCommand_writes hcommand
      exact hfirst.trans (ih hrest h)

theorem snoopStep_writes {c : CoreId} {s t : State} (h : snoopStep c s = .ok t) :
    CacheWrites c s t := runCommands_writes (fun _ => pendingKeys_target) h

/-- A core's cycle writes no other core. -/
theorem coreCycle_others {c d : CoreId} {s t : State} (hc : c < s.cores.length) (hd : d ≠ c)
    (h : coreCycle c s = .ok t) : t.core d = s.core d :=
  Moves.keep (P := fun u => u.core d = s.core d) (fun _ _ _ hmove => (hmove.others hd).trans) hc
    (coreCycle_moves hc h).1 rfl

/-- The cycle of a core that is done is its snoop step (R353). -/
theorem coreCycle_of_done {c : CoreId} {s t : State} (hdone : (s.core c).done = true)
    (h : coreCycle c s = .ok t) :
    (t.core c).done = (s.core c).done ∧ (t.core c).x = (s.core c).x := by
  rcases coreCycle_ok h with ⟨-, hsnoop⟩ | ⟨hrunning, -⟩
  · obtain ⟨l1d, req, hown⟩ := (snoopStep_writes hsnoop).frame.own
    rw [hown]
    exact ⟨rfl, rfl⟩
  · exact absurd (hdone.symm.trans hrunning) (by simp)

/-- Settles O52: a core is written by its own cycle alone, which only snoops once the core is
done. -/
theorem doneCoreStaysDone : Obligations.DoneCoreStaysDone := by
  intro s t c h hdone
  refine step_keep (P := fun u => (u.core c).done = true ∧ (u.core c).x = (s.core c).x)
    (fun _ _ _ => id) (fun d u v hd hcycle hu => ?_) h ⟨hdone, rfl⟩
  by_cases hcd : c = d
  · subst hcd
    obtain ⟨hdone', hx⟩ := coreCycle_of_done hu.1 hcycle
    exact ⟨hdone'.trans hu.1, hx.trans hu.2⟩
  · rwa [coreCycle_others hd hcd hcycle]

/-! ### The status of the run (R31, R275) -/

theorem CacheWrites.status {c : CoreId} {s t : State} (h : CacheWrites c s t) :
    t.status = s.status := by
  induction h with
  | refl => rfl
  | tail _ hwrite ih => exact Eq.trans (by cases hwrite <;> rfl) ih

theorem runFocused_status {c : CoreId} {i : Nat} {w : Work} {got : Option ByteMap} {s t : State}
    (h : runFocused c i w got s = .ok t) : t.status = s.status := by
  obtain ⟨f, k, fl, -, rfl⟩ := exec_next (ofOutcome_ok.mp h)
  rfl

theorem unitTake_status {c : CoreId} {i : Nat} {s t : State} (h : unitTake c i s = .ok t) :
    t.status = s.status := by
  unfold unitTake at h
  split at h
  case h_1 =>
    split at h
    · rw [Except.ok.inj h]
    obtain ⟨⟨it, ie⟩, -, h⟩ := bind_ok.mp h
    dsimp only at h
    split at h
    · obtain rfl := Except.ok.inj h
      rfl
    · exact (runFocused_status h).trans rfl
  all_goals rw [Except.ok.inj h]

theorem unitForward_status {c : CoreId} {i : Nat} {s t : State} (h : unitForward c i s = .ok t) :
    t.status = s.status := by
  unfold unitForward at h
  split at h
  case h_1 =>
    split at h
    · simp at h
    split at h
    · rw [Except.ok.inj h]
    · exact (runFocused_status h).trans rfl
  all_goals rw [Except.ok.inj h]

theorem unitMemory_status {c : CoreId} {i : Nat} {s t : State} (h : unitMemory c i s = .ok t) :
    t.status = s.status := by
  cases he : s.euState c i with
  | memRd w todo got =>
    obtain ⟨s1, ph, hpoll, hnext⟩ := unitMemory_ok he h
    have hs1 : s1.status = s.status := (poll_writes hpoll).status
    rcases hnext with ⟨-, rfl⟩ | ⟨data, -, ⟨-, hrun⟩ | ⟨l, rest, k, ph2, -, -, hpoll2⟩⟩
    · exact hs1
    · exact (runFocused_status hrun).trans hs1
    · exact (poll_writes hpoll2).status.trans hs1
  | idle | waitFwd | push =>
    simp only [unitMemory, he] at h
    rw [Except.ok.inj h]

theorem unitPush_status {c : CoreId} {i : Nat} {s t : State} (h : unitPush c i s = .ok t) :
    t.status = s.status := by
  cases he : s.euState c i with
  | push w v =>
    rcases unitPush_ok he h with ⟨ew, -, rfl⟩ | ⟨-, rfl⟩
    · rfl
    · rfl
  | idle | waitFwd | memRd =>
    simp only [unitPush, he] at h
    rw [Except.ok.inj h]

theorem unitsStep_status {c : CoreId} {units : List Nat} {s t : State}
    (h : unitsStep c units s = .ok t) : t.status = s.status := by
  induction units generalizing s with
  | nil => rw [Except.ok.inj h]
  | cons i rest ih =>
    obtain ⟨s4, hunit, hrest⟩ := bind_ok.mp h
    obtain ⟨s1, htake, hunit⟩ := bind_ok.mp hunit
    obtain ⟨s2, hforward, hunit⟩ := bind_ok.mp hunit
    obtain ⟨s3, hmemory, hpush⟩ := bind_ok.mp hunit
    calc t.status = s4.status := ih hrest
      _ = s3.status := unitPush_status hpush
      _ = s2.status := unitMemory_status hmemory
      _ = s1.status := unitForward_status hforward
      _ = s.status := unitTake_status htake

theorem applyFlush_status {c : CoreId} {b : Seq} {t : Option Word} {s u : State}
    (h : applyFlush c b t s = .ok u) : u.status = s.status := by
  obtain ⟨s1, k, heu, -, rfl⟩ := applyFlush_ok h
  obtain ⟨s2, ⟨-, habandon⟩ | ⟨-, rfl⟩, rfl⟩ := euFlush_ok heu
  · exact (abandon_writes habandon).status
  · rfl

theorem applyRaised_status {c : CoreId} {s t : State} (h : applyRaised c s = .ok t) :
    t.status = s.status := by
  unfold applyRaised at h
  split at h
  · rw [Except.ok.inj h]
  · exact (applyFlush_status h).trans rfl

theorem ensureWrite_status {c : CoreId} {b : Seq} {l : LineAddr} {change : List (Word × Byte)}
    {s t : State} (h : ensureWrite c b l change s = .ok t) : t.status = s.status := by
  cases hreq : (s.core c).req with
  | some r => rw [Except.ok.inj ((ensureWrite_of_busy hreq).symm.trans h)]
  | none =>
    obtain rfl := Except.ok.inj ((ensureWrite_of_free hreq).symm.trans h)
    rfl

theorem storeLines_status {c : CoreId} {b : Seq} {change : List (Word × Byte)}
    {todo : List LineAddr} {s t : State} {all : Bool}
    (h : storeLines c b change todo s = .ok (t, all)) : t.status = s.status := by
  induction todo generalizing s with
  | nil =>
    obtain ⟨rfl, -⟩ := Prod.mk.inj (Except.ok.inj h)
    rfl
  | cons l rest ih =>
    obtain ⟨s1, s2, ph, hensure, hpoll, hend⟩ := storeLines_cons_ok h
    have hs2 : s2.status = s.status := (poll_writes hpoll).status.trans (ensureWrite_status hensure)
    rcases hend with ⟨data, -, hrest⟩ | ⟨-, rfl, -⟩
    · exact (ih hrest).trans hs2
    · exact hs2

theorem finish_status {c : CoreId} {e : RobEntry} {o : ExecutionResult} {s t : State}
    (h : finish c e o s = .ok t) : t.status = s.status := by
  obtain ⟨k, -, ⟨-, hflush⟩ | ⟨-, rfl⟩⟩ := finish_ok h
  · exact (applyFlush_status hflush).trans rfl
  · rfl

/-- Between two states of core c's cycle the status stays, or core c takes its program's error. -/
def StatusKept (c : CoreId) (s t : State) : Prop :=
  t.status = s.status ∨ ∃ e, t.status = .error c e

theorem StatusKept.trans {c : CoreId} {s t u : State} (h : StatusKept c s t)
    (h' : StatusKept c t u) : StatusKept c s u := by
  rcases h' with hu | herror
  · unfold StatusKept
    rwa [hu]
  · exact .inr herror

theorem StatusKept.not_completed {c : CoreId} {s t : State} (h : StatusKept c s t)
    (hs : s.status ≠ .completed) : t.status ≠ .completed := by
  rcases h with ht | ⟨e, ht⟩
  · rwa [ht]
  · simp [ht]

theorem storeEnd_status {c : CoreId} {e : RobEntry} {o : ExecutionResult} {s s1 t : State}
    {all more : Bool} (hs1 : s1.status = s.status)
    (h : (all = true ∧ more = true ∧ finish c e o s1 = .ok t) ∨
      (all = false ∧ more = false ∧ t = s1)) : StatusKept c s t := by
  rcases h with ⟨-, -, hfinish⟩ | ⟨-, -, rfl⟩
  · exact .inl ((finish_status hfinish).trans hs1)
  · exact .inl hs1

theorem commitOne_status {c : CoreId} {s t : State} {more : Bool}
    (h : commitOne c s = .ok (t, more)) : StatusKept c s t := by
  rcases commitOne_ok h with ⟨p, e, o, s1, all, -, -, -, hlines, hend⟩ | ⟨-, -, rfl, -⟩ |
    ⟨e, -, -, ⟨-, rfl, -⟩ | ⟨err, -, rfl, -⟩ | ⟨o, -, hcommit⟩⟩
  · exact storeEnd_status (storeLines_status hlines) hend
  · exact .inl rfl
  · exact .inl rfl
  · exact .inr ⟨err, rfl⟩
  · rcases commitOk_ok hcommit with ⟨-, -, hfinish⟩ | ⟨s1, all, -, hlines, hend⟩
    · exact .inl (finish_status hfinish)
    · exact storeEnd_status ((storeLines_status hlines).trans rfl) hend

theorem commitLoop_status {c : CoreId} {n : Nat} {s t : State} (h : commitLoop c n s = .ok t) :
    StatusKept c s t := by
  induction n generalizing s with
  | zero => exact .inl (by rw [Except.ok.inj h])
  | succ n ih =>
    rcases commitLoop_succ_ok h with ⟨-, rfl⟩ | ⟨s1, more, hone, ⟨-, hrest⟩ | ⟨-, rfl⟩⟩
    · exact .inl rfl
    · exact (commitOne_status hone).trans (ih hrest)
    · exact commitOne_status hone

theorem settle_status (c : CoreId) (s : State) : (settle c s).status = s.status := by
  unfold settle
  split <;> rfl

theorem coreCycle_status {c : CoreId} {s t : State} (h : coreCycle c s = .ok t) :
    StatusKept c s t := by
  rcases coreCycle_ok h with ⟨-, hsnoop⟩ | ⟨-, s1, s2, hbefore, hunits, hafter⟩
  · exact .inl (snoopStep_writes hsnoop).status
  · obtain ⟨k, -, hsnoop⟩ := beforeExecute_ok hbefore
    obtain ⟨s3, s4, hflush, hwb, rfl⟩ := afterExecute_ok hafter
    obtain ⟨k', -, hcommit⟩ := wbStep_ok hwb
    have hs3 : s3.status = s.status :=
      calc s3.status = s2.status := applyRaised_status hflush
        _ = s1.status := unitsStep_status hunits
        _ = s.status := (snoopStep_writes hsnoop).status
    have hcommitted : StatusKept c (s3.setCore c k') s4 := commitLoop_status hcommit
    exact StatusKept.trans (.inl hs3) (hcommitted.trans (.inl (settle_status c s4)))

/-- Settles O51: no core's cycle completes the run, so it completes at the end of a step, where
every core is done. -/
theorem runCompletesWhenEveryCoreIsDone : Obligations.RunCompletesWhenEveryCoreIsDone := by
  intro s t hs h
  rcases step_next h with ⟨hstop, -⟩ | ⟨-, -, f, rfl⟩ | ⟨-, hload, u, hrun, -, rfl⟩
  · exact absurd hs hstop
  · exact ⟨fun h => (nomatch h), fun h => nomatch h⟩
  have hu : u.status ≠ .completed :=
    runCores_keep (P := fun v => v.status ≠ .completed)
      (fun _ _ _ _ hcycle => (coreCycle_status hcycle).not_completed) (range_cores hload) hrun
      (by simp [hs])
  by_cases hall : u.status = .running ∧ u.cores.all (fun k => k.done) = true
  · refine ⟨fun _ => by simpa [endStep] using hall.2, fun hrunning => ?_⟩
    simp [endStep, hall] at hrunning
  · have hstatus : (endStep u).status = u.status := if_neg hall
    refine ⟨fun hcompleted => absurd (hstatus ▸ hcompleted) hu, fun hrunning => ?_⟩
    rw [hstatus] at hrunning
    simpa [endStep, hrunning] using hall

end Sys2Proof.Machine
end

section
/-! SUPPORT. A push into a line store (R285) by its three branches, and the semaphore operations
(R294). Settles O37 and O38. -/

namespace Sys2Proof.Machine

/-! ### Line stores (R285) -/

section Push
variable {α : Type} {cap : Nat} {st : LruStore α} {l : LineAddr}

theorem lruPush_of_present (d : α) (hpresent : lruContains st l = true) :
    lruPush cap st l d = (lruRemove st l ++ [(l, d)], none) := if_pos hpresent

theorem lruPush_of_full {v : LineAddr × α} {rest : LruStore α} (d : α)
    (habsent : lruContains (v :: rest) l = false) (hfull : (v :: rest).length = cap) :
    lruPush cap (v :: rest) l d = (rest ++ [(l, d)], some v) := by
  simp only [lruPush, habsent, hfull, if_true, Bool.false_eq_true, if_false]

theorem lruPush_of_room (d : α) (habsent : lruContains st l = false)
    (hroom : st.length ≠ cap ∨ st = []) : lruPush cap st l d = (st ++ [(l, d)], none) := by
  unfold lruPush
  rw [habsent, if_neg Bool.false_ne_true]
  split
  · rename_i hfull
    rw [hroom.resolve_left (not_not.mpr hfull)]
    rfl
  · rfl

theorem lruContains_cons_false {v : LineAddr × α} {rest : LruStore α} :
    lruContains (v :: rest) l = false ↔ v.1 ≠ l ∧ lruContains rest l = false := by
  simp only [lruContains, List.any_cons, Bool.or_eq_false_iff, decide_eq_false_iff_not, ne_eq]

theorem nodup_keys_add (d : α) (hst : (st.map Prod.fst).Nodup)
    (habsent : lruContains st l = false) : ((st ++ [(l, d)]).map Prod.fst).Nodup := by
  rw [List.map_append, List.map_cons, List.map_nil]
  refine List.nodup_append.mpr ⟨hst, List.nodup_singleton l, fun j hj i hi heq => ?_⟩
  obtain rfl : i = l := List.mem_singleton.mp hi
  exact not_mem_keys_of_absent habsent (heq ▸ hj)

theorem length_remove_lt (hpresent : lruContains st l = true) :
    (lruRemove st l).length < st.length := by
  obtain ⟨d, hd⟩ := lruContains_iff.mp hpresent
  exact List.length_filter_lt_length_iff_exists.mpr ⟨(l, d), hd, by simp⟩

end Push

/-- Settles O37, one branch of the push at a time: the line is there and is renewed, or the store is
full and its least recent line leaves, or there is room. -/
theorem linePushEvictsTheLeastRecent : Obligations.LinePushEvictsTheLeastRecent := by
  intro cap st st' l d v hpush
  have hrecent : ∀ st : LruStore (List Byte), (st ++ [(l, d)]).getLast? = some (l, d) :=
    fun st => List.getLast?_concat
  cases hcontains : lruContains st l with
  | true =>
    rw [lruPush_of_present d hcontains] at hpush
    obtain ⟨rfl, rfl⟩ := Prod.mk.inj hpush
    refine ⟨lruFind_renew_self st l d, hrecent _, fun _ hcap => ?_, fun hst => ?_,
      fun _ he => (nomatch he), fun j hj _ => lruFind_renew_ne st d hj⟩
    · rw [List.length_append]
      exact (length_remove_lt hcontains).trans_le hcap
    · exact nodup_keys_add d (hst.sublist (List.filter_sublist.map _)) (lruRemove_absent st l)
  | false =>
    by_cases hroom : st.length ≠ cap ∨ st = []
    · rw [lruPush_of_room d hcontains hroom] at hpush
      obtain ⟨rfl, rfl⟩ := Prod.mk.inj hpush
      refine ⟨lruFind_append_self d hcontains, hrecent _, fun hpos hcap => ?_,
        fun hst => nodup_keys_add d hst hcontains, fun _ he => (nomatch he),
        fun j hj _ => lruFind_append_ne st d hj⟩
      rw [List.length_append]
      rcases hroom with hne | rfl
      · exact lt_of_le_of_ne hcap hne
      · exact hpos
    · obtain ⟨hfull, hne⟩ := not_or.mp hroom
      obtain ⟨w, rest, rfl⟩ := List.exists_cons_of_ne_nil hne
      rw [lruPush_of_full d hcontains (not_not.mp hfull)] at hpush
      obtain ⟨rfl, rfl⟩ := Prod.mk.inj hpush
      have habsent := (lruContains_cons_false.mp hcontains).2
      refine ⟨lruFind_append_self d habsent, hrecent _, fun _ hcap => by simpa using hcap,
        fun hst => nodup_keys_add d (List.nodup_cons.mp hst).2 habsent, fun e he => ?_,
        fun j hj hvictim => ?_⟩
      · exact ⟨he, not_not.mp hfull, rfl⟩
      · rw [lruFind_append_ne rest d hj]
        exact (if_neg (hvictim w rfl)).symm

/-! ### Semaphores (R294) -/

section Semaphores
variable {v v' : Sem} {m : LockMode}

/-- A lock that was granted can be given back. -/
theorem Sem.release_of_tryLock (h : v.tryLock m = some v') : v'.release m = .ok v := by
  obtain ⟨hwriter, ⟨rfl, rfl⟩ | ⟨rfl, hreaders, rfl⟩⟩ := Sem.tryLock_some.mp h
  · exact Sem.release_ok.mpr (.inl ⟨rfl, Nat.succ_pos _, rfl⟩)
  · exact Sem.release_ok.mpr (.inr ⟨rfl, rfl, by rw [← hwriter]⟩)

theorem Sem.exclusive_of_tryLock (h : v.tryLock m = some v') :
    v'.writer = true → v'.readers = 0 := by
  obtain ⟨hwriter, ⟨-, rfl⟩ | ⟨-, hreaders, rfl⟩⟩ := Sem.tryLock_some.mp h
  · exact fun hheld => absurd (hwriter.symm.trans hheld) Bool.false_ne_true
  · exact fun _ => hreaders

theorem Sem.exclusive_of_release (hv : v.writer = true → v.readers = 0)
    (h : v.release m = .ok v') : v'.writer = true → v'.readers = 0 := by
  rcases Sem.release_ok.mp h with ⟨-, -, rfl⟩ | ⟨-, -, rfl⟩
  · exact fun hheld => Nat.sub_eq_zero_of_le ((hv hheld).trans_le (Nat.zero_le 1))
  · exact fun hheld => nomatch hheld

theorem Sem.release_write_of_free (h : v.writer = false) :
    v.release .write = .error (.fault .sem) := by
  simp only [Sem.release, Sem.releaseWrite, h, Bool.false_eq_true, if_false, faultWith]

end Semaphores

/-- Settles O38: what each operation grants and refuses, and that none breaks the exclusion. -/
theorem semaphoreKeepsReadersAndWriterApart :
    Obligations.SemaphoreKeepsReadersAndWriterApart := fun _ =>
  ⟨fun hfree => Sem.tryLock_some.mpr ⟨hfree, .inl ⟨rfl, rfl⟩⟩,
    fun hheld => if_pos hheld,
    fun ⟨hreaders, hfree⟩ => Sem.tryLock_some.mpr ⟨hfree, .inr ⟨rfl, hreaders, rfl⟩⟩,
    fun hheld => if_neg hheld,
    fun hreaders => Sem.release_ok.mpr (.inl ⟨rfl, hreaders, rfl⟩),
    fun hnone => if_pos hnone,
    fun hheld => Sem.release_ok.mpr (.inr ⟨rfl, hheld, rfl⟩),
    Sem.release_write_of_free,
    fun hv _ _ => ⟨fun h => ⟨Sem.exclusive_of_tryLock h, Sem.release_of_tryLock h⟩,
      Sem.exclusive_of_release hv⟩⟩

end Sys2Proof.Machine
end

section
/-! SUPPORT. Snoop commands (R302, R312): which commands a request arms, what carrying one out
writes, and which of them a snoop step carries out. Settles O40 and O45. -/

namespace Sys2Proof.Machine

/-! ### The commands of a request (R302) -/

/-- Core c needs no command for a request: it holds the line in the state its kind asks for. -/
def LocalHit (s : State) (c : CoreId) (kind : ReqKind) (l : LineAddr) : Prop :=
  s.dirGet c l = .m ∨ (kind = .read ∧ s.dirGet c l = .s)

theorem commandKeys_of_hit {s : State} {c : CoreId} {kind : ReqKind} {l : LineAddr}
    (h : LocalHit s c kind l) : commandKeys c kind l s = [] := by
  rcases h with hm | ⟨rfl, hs⟩
  · cases kind <;> simp only [commandKeys, hm]
  · simp only [commandKeys, hs]

theorem commandKeys_of_miss {s : State} {c : CoreId} {kind : ReqKind} {l : LineAddr}
    (h : ¬ LocalHit s c kind l) :
    commandKeys c kind l s = (peers s c).flatMap (fun d => peerCommand d l (s.dirGet d l)) := by
  obtain ⟨hm, hs⟩ := not_or.mp h
  cases hdir : s.dirGet c l with
  | i => cases kind <;> simp only [commandKeys, hdir]
  | s => cases kind with
    | read => exact absurd ⟨rfl, hdir⟩ hs
    | write => simp only [commandKeys, hdir]
  | m => exact absurd hdir hm

theorem mem_peerCommand {d : CoreId} {l : LineAddr} {v : Msi} {key : CmdKey} :
    key ∈ peerCommand d l v ↔ key.target = d ∧ key.line = l ∧
      ((v = .m ∧ key.kind = .writeBack) ∨ (v = .s ∧ key.kind = .evict)) := by
  obtain ⟨target, line, kind⟩ := key
  cases v <;> simp [peerCommand]

theorem peerCommand_pairwise (R : CmdKey → CmdKey → Prop) (d : CoreId) (l : LineAddr) (v : Msi) :
    (peerCommand d l v).Pairwise R := by
  cases v <;> simp [peerCommand]

theorem peers_ascending (s : State) (c : CoreId) : (peers s c).Pairwise (· < ·) :=
  List.pairwise_lt_range.filter _

/-- Commands stand in the order of the peers they are for, at most one for each. -/
theorem peerCommands_ascending (s : State) (c : CoreId) (l : LineAddr) :
    ((peers s c).flatMap (fun d => peerCommand d l (s.dirGet d l))).Pairwise
      (fun a b => a.target < b.target) := by
  refine List.pairwise_flatMap.mpr ⟨fun d _ => peerCommand_pairwise _ d l _, ?_⟩
  refine (peers_ascending s c).imp fun hlt a ha b hb => ?_
  rwa [(mem_peerCommand.mp ha).1, (mem_peerCommand.mp hb).1]

theorem commandKeys_line {s : State} {c : CoreId} {kind : ReqKind} {l : LineAddr} {key : CmdKey}
    (h : key ∈ commandKeys c kind l s) : key.line = l := by
  by_cases hhit : LocalHit s c kind l
  · rw [commandKeys_of_hit hhit] at h
    cases h
  · rw [commandKeys_of_miss hhit] at h
    obtain ⟨d, -, hkey⟩ := List.mem_flatMap.mp h
    exact (mem_peerCommand.mp hkey).2.1

/-- Settles O40: the keys are those of the peers that hold the line, in their order. -/
theorem requestArmsOneCommandPerPeer : Obligations.RequestArmsOneCommandPerPeer := by
  intro c kind l s t keys h
  obtain ⟨rfl, ht⟩ := commands_ok h
  have hcmds : t.cmds = (commandKeys c kind l s).foldl (fun t k => armCmd k t) s.cmds := by rw [ht]
  refine ⟨commandKeys_of_hit, fun hmiss => ?_, fun key hkey => ⟨commandKeys_line hkey, ?_⟩, ?_⟩
  · rw [commandKeys_of_miss hmiss]
    refine ⟨peerCommands_ascending s c l, fun d cmd => ?_⟩
    simp only [List.mem_flatMap, mem_peerCommand, mem_peers]
    constructor
    · rintro ⟨e, ⟨he, hec⟩, rfl, -, hcmd⟩
      exact ⟨he, hec, hcmd⟩
    · rintro ⟨hd, hdc, hcmd⟩
      exact ⟨d, ⟨hd, hdc⟩, rfl, trivial, hcmd⟩
  · rw [hcmds]
    exact armed_pending hkey s.cmds
  · rw [hcmds]
    exact ht

/-! ### Carrying out one command (R312) -/

theorem cmdFind_cmdDone_self {key : CmdKey} {t : List (CmdKey × CmdStatus)}
    (h : cmdFind key t ≠ none) : cmdFind key (cmdDone key t) = some .done := by
  induction t with
  | nil => exact absurd rfl h
  | cons e t ih =>
    unfold cmdDone at ih ⊢
    by_cases he : e.1 = key
    · simp only [List.map_cons, if_pos he, cmdFind]
    · simp only [cmdFind, if_neg he] at h
      simp only [List.map_cons, if_neg he, cmdFind]
      exact ih h

/-- What dropping a line from a core's L1D and directory row leaves of the machine, the levels
behind aside. -/
structure LineDropped (c : CoreId) (l : LineAddr) (s t : State) : Prop where
  dropped : t.dirGet c l = .i
  absent : lruContains (t.core c).l1d l = false
  sem : t.sem = s.sem
  dir : ∀ d j, (d, j) ≠ (c, l) → t.dirGet d j = s.dirGet d j
  own : t.core c = { s.core c with l1d := (t.core c).l1d }

theorem lineDropped_of_set {s s1 : State} {c : CoreId} {l : LineAddr} {st : LruStore (List Byte)}
    (hc : c < s.cores.length) (hlevels : LevelFrame s s1) (hst : lruContains st l = false) :
    LineDropped c l s ((setL1d c st s1).dirSet c l .i) := by
  obtain ⟨l3, mem, rfl⟩ := hlevels
  have hcore : (setL1d c st { s with l3 := l3, mem := mem }).core c = { s.core c with l1d := st } :=
    core_setCore_self { s with l3 := l3, mem := mem } c _ hc
  exact {
    dropped := dirGet_dirSet_self _ c l .i
    absent := by rw [core_dirSet, hcore]; exact hst
    sem := rfl
    dir := fun d j hdj => dirGet_dirSet_ne _ .i fun heq => hdj (Prod.ext heq.1 heq.2)
    own := by rw [core_dirSet, hcore] }

/-- A command drops the line wherever L1D and directory agree on it. -/
theorem runCommand_lineDropped {key : CmdKey} {s t : State}
    (hagree : AgreeAt s key.target key.line) (h : runCommand key s = .ok t) :
    LineDropped key.target key.line s t := by
  obtain ⟨s1, rfl, hs1⟩ := runCommand_ok h
  suffices hdropped : LineDropped key.target key.line s s1 from
    ⟨hdropped.dropped, hdropped.absent, hdropped.sem, hdropped.dir, hdropped.own⟩
  rcases hs1 with ⟨hi, rfl⟩ | ⟨-, hpresent, rfl⟩ | ⟨-, d, st, hread, rfl⟩
  · refine ⟨hi, ?_, rfl, fun _ _ _ => rfl, rfl⟩
    rw [← Bool.not_eq_true]
    exact fun hpresent => hagree.mp hpresent hi
  · obtain ⟨d, hfind⟩ := (lruFind_some_iff_contains _ _).mpr hpresent
    exact lineDropped_of_set (core_l1d_lt hfind) ⟨s.l3, s.mem, rfl⟩ (lruRemove_absent _ _)
  · exact lineDropped_of_set (core_l1d_lt (lruRead_ok.mp hread).1)
      (writeNext_levels key.line d s) (lruRemove_absent _ _)

/-! ### A snoop step (R312) -/

theorem runCommand_cmds {key : CmdKey} {s t : State} (h : runCommand key s = .ok t) :
    t.cmds = cmdDone key s.cmds := by
  obtain ⟨s1, rfl, hs1⟩ := runCommand_ok h
  rcases hs1 with ⟨-, rfl⟩ | ⟨-, -, rfl⟩ | ⟨-, d, st, -, rfl⟩
  · rfl
  · rfl
  · obtain ⟨l3, mem, heq⟩ := writeNext_levels key.line d s
    rw [heq]
    rfl

theorem runCommand_holdsLock {key : CmdKey} {s t : State} (h : runCommand key s = .ok t)
    (d : CoreId) (l : LineAddr) : holdsLock (t.core d) l = holdsLock (s.core d) l := by
  simp only [holdsLock, runCommand_req h]

theorem holdsLock_eq_false {k : Core} {l : LineAddr} :
    holdsLock k l = false ↔ ∀ r, k.req = some r → r.line = l → r.mode = none := by
  rw [holdsLock]
  cases k.req <;> simp

theorem mem_pendingKeys {d : CoreId} {t : List (CmdKey × CmdStatus)} {key : CmdKey}
    (htarget : key.target = d) (h : cmdFind key t = some .pending) : key ∈ pendingKeys d t := by
  have hmem : (key, .pending) ∈ t := by
    induction t with
    | nil => cases h
    | cons e t ih =>
      unfold cmdFind at h
      split at h
      · rename_i he
        rw [← he, ← Option.some.inj h]
        exact List.mem_cons_self
      · exact List.mem_cons_of_mem e (ih h)
  exact List.mem_map.mpr ⟨_, List.mem_filter.mpr ⟨hmem, by simpa using htarget⟩, rfl⟩

/-- A command on a line that the core's own request holds is left for later. -/
theorem runCommands_deferred {d : CoreId} {keys : List CmdKey} {key : CmdKey} {s t : State}
    (hheld : holdsLock (s.core d) key.line = true) (h : runCommands d keys s = .ok t) :
    cmdFind key t.cmds = cmdFind key s.cmds := by
  induction keys generalizing s with
  | nil => rw [Except.ok.inj h]
  | cons j rest ih =>
    rcases runCommands_cons_ok h with ⟨-, hrest⟩ | ⟨hfree, s1, hcommand, hrest⟩
    · exact ih hheld hrest
    · have hkey : key ≠ j := fun heq => by
        rw [heq, hfree] at hheld
        cases hheld
      rw [ih (by rwa [runCommand_holdsLock hcommand]) hrest, runCommand_cmds hcommand,
        cmdFind_cmdDone_ne hkey]

/-- A command that is not deferred is done once its key was visited, and stays so. -/
theorem runCommands_done {d : CoreId} {keys : List CmdKey} {key : CmdKey} {s t : State}
    (hfree : holdsLock (s.core d) key.line = false) (h : runCommands d keys s = .ok t)
    (hkey : cmdFind key s.cmds = some .done ∨ (key ∈ keys ∧ cmdFind key s.cmds ≠ none)) :
    cmdFind key t.cmds = some .done := by
  induction keys generalizing s with
  | nil =>
    obtain rfl := Except.ok.inj h
    exact hkey.resolve_right fun hmem => nomatch hmem.1
  | cons j rest ih =>
    rcases runCommands_cons_ok h with ⟨hheld, hrest⟩ | ⟨-, s1, hcommand, hrest⟩
    · have hne : key ≠ j := fun heq => by
        rw [heq, hheld] at hfree
        cases hfree
      exact ih hfree hrest (hkey.imp_right fun hmem => ⟨List.mem_of_ne_of_mem hne hmem.1, hmem.2⟩)
    · refine ih (by rwa [runCommand_holdsLock hcommand]) hrest ?_
      rw [runCommand_cmds hcommand]
      by_cases heq : key = j
      · subst heq
        refine .inl (cmdFind_cmdDone_self ?_)
        rcases hkey with hdone | ⟨-, hlisted⟩
        · simp [hdone]
        · exact hlisted
      · rw [cmdFind_cmdDone_ne heq]
        exact hkey.imp_right fun hmem => ⟨List.mem_of_ne_of_mem heq hmem.1, hmem.2⟩

/-- Settles O45: a step visits every pending command of its core, and leaves those deferred; a
command drops its line (`runCommand_lineDropped`). -/
theorem snoopCommandDropsTheLine : Obligations.SnoopCommandDropsTheLine := by
  refine ⟨fun d s t key h htarget hpending => ⟨fun r hr hline hmode => ?_, fun hfree => ?_⟩,
    fun key s t hagree hc hpending h => ?_⟩
  · have hheld : holdsLock (s.core d) key.line = true := by
      rw [← Bool.not_eq_false, holdsLock_eq_false]
      exact fun hfree => hmode (hfree r hr hline)
    exact (runCommands_deferred hheld h).trans hpending
  · exact runCommands_done (holdsLock_eq_false.mpr hfree) h
      (.inr ⟨mem_pendingKeys htarget hpending, by simp [hpending]⟩)
  · have hdropped := runCommand_lineDropped (hagree key.target key.line hc) h
    have hdone : cmdFind key t.cmds = some .done := by
      rw [runCommand_cmds h]
      exact cmdFind_cmdDone_self (by simp [hpending])
    exact ⟨hdropped.dropped, hdropped.absent, hdone, hdropped.sem, hdropped.dir,
      (runCommand_writes h).frame.others, hdropped.own⟩

end Sys2Proof.Machine
end

section
/-! SUPPORT. The completion of a request (R303, R305, R309): what it leaves of directory, L1D and
locks, and that it answers when its lock is held, its line is there and no peer has a line to be
written. Settles O41. -/

namespace Sys2Proof.Machine

/-! ### What stays beside a core's own row -/

/-- The semaphores and the directory rows of the other cores are as before. -/
structure OwnRow (c : CoreId) (s t : State) : Prop where
  sem : t.sem = s.sem
  rows : ∀ d j, d ≠ c → t.dirGet d j = s.dirGet d j

theorem OwnRow.trans {c : CoreId} {s t u : State} (h : OwnRow c s t) (h' : OwnRow c t u) :
    OwnRow c s u :=
  ⟨h'.sem.trans h.sem, fun d j hd => (h'.rows d j hd).trans (h.rows d j hd)⟩

theorem setL1d_ownRow (c : CoreId) (st : LruStore (List Byte)) (s : State) :
    OwnRow c s (setL1d c st s) := ⟨rfl, fun _ _ _ => rfl⟩

theorem dirSet_ownRow (c : CoreId) (l : LineAddr) (v : Msi) (s : State) :
    OwnRow c s (s.dirSet c l v) := ⟨rfl, fun _ _ hd => dirGet_dirSet_ne s v fun heq => hd heq.1⟩

theorem LevelFrame.ownRow {c : CoreId} {s t : State} (h : LevelFrame s t) : OwnRow c s t := by
  obtain ⟨l3, mem, rfl⟩ := h
  exact ⟨rfl, fun _ _ _ => rfl⟩

theorem install_ownRow (c : CoreId) (l : LineAddr) (data : List Byte) (s : State) :
    OwnRow c s (install c l data s) := by
  rcases install_cases c l data s with ⟨st, -, heq⟩ | ⟨st, vl, vd, -, heq⟩ <;> rw [heq]
  · exact setL1d_ownRow c st s
  · refine OwnRow.trans ?_ (dirSet_ownRow c vl .i _)
    split
    · exact (setL1d_ownRow c st s).trans (writeNext_levels vl vd _).ownRow
    · exact setL1d_ownRow c st s

theorem readData_ownRow {c : CoreId} {src : Source} {l : LineAddr} {s t : State} {d : List Byte}
    (h : readData c src l s = .ok (d, t)) : OwnRow c s t := by
  rcases readData_ok h with ⟨-, st, -, rfl⟩ | ⟨-, s1, hnext, rfl⟩
  · exact setL1d_ownRow c st s
  · exact ((nextRead_levels hnext).ownRow.trans (install_ownRow c l d s1)).trans
      (dirSet_ownRow c l .s _)

theorem fetchForWrite_ownRow {c : CoreId} {src : Source} {l : LineAddr} {s t : State}
    (h : fetchForWrite c src l s = .ok t) : OwnRow c s t := by
  rcases fetchForWrite_ok h with rfl | ⟨d, s1, hnext, rfl⟩
  · exact ⟨rfl, fun _ _ _ => rfl⟩
  · exact (nextRead_levels hnext).ownRow.trans (install_ownRow c l d s1)

/-! ### The line is in the L1D -/

theorem lruPush_present {cap : Nat} {st st' : LruStore (List Byte)} {l : LineAddr} {d : List Byte}
    {v : Option (LineAddr × List Byte)} (h : lruPush cap st l d = (st', v)) :
    lruContains st' l = true :=
  (lruFind_some_iff_contains st' l).mp ⟨d, (linePushEvictsTheLeastRecent cap st st' l d v h).1⟩

/-- A line brought in is there, whatever was there before (R296). -/
theorem install_present {s : State} {c : CoreId} (hc : c < s.cores.length) (l : LineAddr)
    (data : List Byte) : lruContains ((install c l data s).core c).l1d l = true := by
  rcases install_cases c l data s with ⟨st, hpush, heq⟩ | ⟨st, vl, vd, hpush, heq⟩ <;>
    rw [heq]
  · rw [core_setL1d_self hc]
    exact lruPush_present hpush
  · have hlevels : ((if s.dirGet c vl = .m then writeNext vl vd (setL1d c st s)
        else setL1d c st s).core c).l1d = st := by
      split
      · obtain ⟨l3, mem, hwritten⟩ := writeNext_levels vl vd (setL1d c st s)
        rw [hwritten]
        exact core_setL1d_self hc st
      · exact core_setL1d_self hc st
    rw [core_dirSet, hlevels]
    exact lruPush_present hpush

theorem readData_present {c : CoreId} {src : Source} {l : LineAddr} {s t : State} {d : List Byte}
    (hc : c < s.cores.length) (h : readData c src l s = .ok (d, t)) :
    lruContains (t.core c).l1d l = true := by
  rcases readData_ok h with ⟨-, st, hread, rfl⟩ | ⟨-, s1, hnext, rfl⟩
  · rw [core_setL1d_self hc, (lruRead_ok.mp hread).2]
    exact (lruContains_renew _ l l d).mpr (.inr rfl)
  · exact install_present ((nextRead_writes c hnext).frame.length ▸ hc) l d

/-! ### What a completion leaves (R309) -/

theorem releaseLock_semGet {l : LineAddr} {m : LockMode} {s s1 t : State} (hsem : s1.sem = s.sem)
    (h : releaseLock l m s1 = .ok t) : (s.semGet l).release m = .ok (t.semGet l) := by
  obtain ⟨v, hv, rfl⟩ := releaseLock_ok.mp h
  rw [← semGet_congr hsem, hv, semGet_of_mapSet rfl, if_pos rfl]

theorem releaseLock_beside {l : LineAddr} {m : LockMode} {s t : State}
    (h : releaseLock l m s = .ok t) : t.dir = s.dir ∧ ∀ c, t.core c = s.core c := by
  obtain ⟨v, -, rfl⟩ := releaseLock_ok.mp h
  exact ⟨rfl, fun _ => rfl⟩

/-- Settles O41: a READ leaves what taking its data leaves, a WRITE its line Modified; the release
of the lock touches neither L1D nor directory. -/
theorem completionSetsTheDirectory : Obligations.CompletionSetsTheDirectory := by
  intro c r src m s t cells hc hm h
  have hx := complete_sameRegs h
  obtain ⟨m', hm', ⟨hkind, d, s1, hread, hrelease, -⟩ |
    ⟨hkind, s1, st, hfetch, hwrite, hpeers, hrelease, -⟩⟩ := complete_ok h
  all_goals
    obtain rfl := Option.some.inj (hm.symm.trans hm')
    obtain ⟨hdir, hcore⟩ := releaseLock_beside hrelease
  · have hrow := readData_ownRow hread
    refine ⟨fun _ hsrc => ?_, fun _ hsrc => ?_, fun hw => ?_, ?_,
      releaseLock_semGet hrow.sem hrelease, fun e j he => ?_, hx⟩
    · rw [dirGet_congr hdir]
      rcases readData_ok hread with ⟨hl1, -⟩ | ⟨-, s2, -, rfl⟩
      · exact absurd hl1 hsrc
      · exact dirGet_dirSet_self _ c r.line .s
    · rcases readData_ok hread with ⟨-, st, -, rfl⟩ | ⟨hnext, -⟩
      · exact hdir
      · exact absurd hsrc hnext
    · exact nomatch hkind.symm.trans hw
    · rw [hcore]
      exact readData_present hc hread
    · rw [dirGet_congr hdir]
      exact hrow.rows e j he
  · have hrow : OwnRow c s ((setL1d c st s1).dirSet c r.line .m) :=
      ((fetchForWrite_ownRow hfetch).trans (setL1d_ownRow c st s1)).trans
        (dirSet_ownRow c r.line .m _)
    have hothers : ∀ e j, e ≠ c → t.dirGet e j = s.dirGet e j := fun e j he =>
      (dirGet_congr hdir e j).trans (hrow.rows e j he)
    refine ⟨fun hread => (nomatch hkind.symm.trans hread),
      fun hread => (nomatch hkind.symm.trans hread), fun _ => ⟨?_, fun e he hec => ?_⟩, ?_,
      releaseLock_semGet hrow.sem hrelease, hothers, hx⟩
    · rw [dirGet_congr hdir]
      exact dirGet_dirSet_self _ c r.line .m
    · have hfree := hpeers e (mem_peers.mpr ⟨he, hec⟩)
      exact ⟨hfree, (hothers e r.line hec).trans hfree⟩
    · have hc1 : c < s1.cores.length := (fetchForWrite_writes hfetch).frame.length ▸ hc
      obtain ⟨d, -, rfl⟩ := lruWrite_ok.mp hwrite
      rw [hcore, core_dirSet, core_setL1d_self hc1]
      exact (lruContains_renew _ _ _ _).mpr (.inr rfl)

/-! ### When a completion answers (R303, R305) -/

theorem nextRead_answers (l : LineAddr) (s : State) : ∃ d t, nextRead l s = .ok (d, t) := by
  unfold nextRead
  split
  · rename_i hcontains
    obtain ⟨d, hfind⟩ := (lruFind_some_iff_contains s.l3 l).mpr hcontains
    rw [lruRead_ok.mpr ⟨hfind, rfl⟩]
    exact ⟨_, _, rfl⟩
  · exact ⟨_, _, rfl⟩

theorem releaseLock_answers {l : LineAddr} {m : LockMode} {s s1 : State} {v : Sem}
    (hsem : s1.sem = s.sem) (h : (s.semGet l).release m = .ok v) :
    ∃ t, releaseLock l m s1 = .ok t :=
  ⟨_, releaseLock_ok.mpr ⟨v, by rwa [semGet_congr hsem], rfl⟩⟩

theorem readData_answers {c : CoreId} {src : Source} {l : LineAddr} {s : State}
    (hline : src = .l1 → lruContains (s.core c).l1d l = true) :
    ∃ d t, readData c src l s = .ok (d, t) := by
  cases src with
  | l1 =>
    obtain ⟨d, hfind⟩ := (lruFind_some_iff_contains _ _).mpr (hline rfl)
    simp only [readData, lruRead_ok.mpr ⟨hfind, rfl⟩, ok_bind]
    exact ⟨_, _, rfl⟩
  | l3 | mem =>
    obtain ⟨d, t, hnext⟩ := nextRead_answers l s
    simp only [readData, hnext, ok_bind]
    exact ⟨_, _, rfl⟩

/-- A line to be written is there once it was fetched. -/
theorem fetchForWrite_answers {c : CoreId} {src : Source} {l : LineAddr} {s : State}
    (hc : c < s.cores.length) (hline : src = .l1 → lruContains (s.core c).l1d l = true) :
    ∃ t, fetchForWrite c src l s = .ok t ∧ lruContains (t.core c).l1d l = true := by
  cases src with
  | l1 => exact ⟨s, rfl, hline rfl⟩
  | l3 | mem =>
    obtain ⟨d, t, hnext⟩ := nextRead_answers l s
    simp only [fetchForWrite, hnext, ok_bind]
    exact ⟨_, rfl, install_present ((nextRead_writes c hnext).frame.length ▸ hc) l d⟩

theorem complete_answers {c : CoreId} {r : ReqState} {src : Source} {s : State}
    (hc : c < s.cores.length) (hready : readyToComplete s c r src) :
    ∃ t cells, complete c r src s = .ok (t, cells) := by
  obtain ⟨⟨m, v, hm, hv⟩, hline, hpeers⟩ := hready
  cases hkind : r.kind with
  | read =>
    obtain ⟨d, s1, hread⟩ := readData_answers (c := c) hline
    obtain ⟨t, hrelease⟩ := releaseLock_answers (readData_ownRow hread).sem hv
    simp only [complete, hm, hkind, hread, ok_bind, hrelease]
    exact ⟨_, _, rfl⟩
  | write =>
    obtain ⟨s1, hfetch, hpresent⟩ := fetchForWrite_answers hc hline
    obtain ⟨d, hfind⟩ := (lruFind_some_iff_contains _ _).mpr hpresent
    obtain ⟨st, hwrite⟩ : ∃ st, lruWrite (s1.core c).l1d r.line r.bytes = .ok st :=
      ⟨_, lruWrite_ok.mpr ⟨d, hfind, rfl⟩⟩
    have hfree : ¬(peers s c).any (fun d => decide (s.dirGet d r.line ≠ .i)) = true := by
      rw [List.any_eq_true]
      rintro ⟨e, he, hheld⟩
      obtain ⟨hen, hec⟩ := mem_peers.mp he
      exact of_decide_eq_true hheld (hpeers hkind e hen hec)
    obtain ⟨t, hrelease⟩ := releaseLock_answers (s1 := (setL1d c st s1).dirSet c r.line .m)
      (fetchForWrite_ownRow hfetch).sem hv
    simp only [complete, hm, hkind, hfetch, ok_bind, hwrite, if_neg hfree, hrelease]
    exact ⟨_, _, rfl⟩

end Sys2Proof.Machine
end

section
/-! SUPPORT. What a poll answers in each phase of a request, with data caches (R295, R299, R300,
R304) and without them (R310). Settles O39 and O46. -/

namespace Sys2Proof.Machine

/-! ### Locks and latencies (R295, R304) -/

theorem lockMode_eq (kind : ReqKind) (st : Msi) :
    lockMode kind st = if kind = .write ∨ st = .m then .write else .read := by
  cases kind <;> cases st <;> rfl

theorem lockMode_eq_write {kind : ReqKind} {st : Msi} (h : lockMode kind st = .write) :
    kind = .write ∨ st = .m := by
  rw [lockMode_eq] at h
  by_contra hread
  rw [if_neg hread] at h
  cases h

theorem Sem.tryLock_of_writer {v : Sem} (h : v.writer = true) (m : LockMode) :
    v.tryLock m = none := by
  refine Option.eq_none_iff_forall_ne_some.mpr fun v' hv' => ?_
  exact Bool.false_ne_true ((Sem.tryLock_some.mp hv').1.symm.trans h)

theorem Sem.tryLock_of_free {v : Sem} {m : LockMode} (hwriter : v.writer = false)
    (hreaders : m = .write → v.readers = 0) : ∃ v', v.tryLock m = some v' := by
  cases m with
  | read => exact ⟨_, Sem.tryLock_some.mpr ⟨hwriter, .inl ⟨rfl, rfl⟩⟩⟩
  | write => exact ⟨_, Sem.tryLock_some.mpr ⟨hwriter, .inr ⟨rfl, hreaders rfl, rfl⟩⟩⟩

/-- The phase in which a request enters Access is that of the table (R304). -/
theorem enterAccess_eq (c : CoreId) (l : LineAddr) (s : State) :
    enterAccess c l s = accessPhase s c l := by
  have hlisted : lruContains s.l3 l = true ↔ ∃ e ∈ s.l3, e.1 = l := by
    simp [lruContains]
  unfold enterAccess latencyAndSource accessPhase
  cases hdir : s.dirGet c l with
  | s | m => rfl
  | i =>
    by_cases hl3 : lruContains s.l3 l = true
    · simp only [hl3, if_true, ne_eq, not_true_eq_false, if_false, if_pos (hlisted.mp hl3)]
    · simp only [hl3, if_false, ne_eq, not_true_eq_false, if_neg (mt hlisted.mpr hl3),
        Bool.false_eq_true]

theorem commands_of_modified {s : State} {c : CoreId} {r : ReqState}
    (h : modifiedBesideShared s c r) : commands c r.kind r.line s = faultWith .msi := by
  obtain ⟨hkind, hshared, d, hd, hdc, hm⟩ := h
  exact if_pos ⟨hkind, hshared,
    List.any_eq_true.mpr ⟨d, mem_peers.mpr ⟨hd, hdc⟩, decide_eq_true hm⟩⟩

/-! ### With data caches (R299) -/

section Cached
variable {c : CoreId} {r : ReqState} {s t : State} {ph : Phase}

theorem poll_of_cached (hcached : s.cfg.l1dPresent = true) (hreq : (s.core c).req = some r) :
    poll c r.who s = advanceCached c r s := by
  simp only [poll, hreq, ne_eq, not_true_eq_false, if_false, hcached, if_true]

theorem advanceCached_of_refused (hphase : r.phase = .locking)
    (hlock : (s.semGet r.line).tryLock (lockMode r.kind (s.dirGet c r.line)) = none) :
    advanceCached c r s = .ok (s, .locking) := by
  simp only [advanceCached, hphase, hlock]

/-- With its lock granted a request arms its commands and goes on. -/
theorem advanceCached_of_granted {v : Sem} (hphase : r.phase = .locking)
    (hlock : (s.semGet r.line).tryLock (lockMode r.kind (s.dirGet c r.line)) = some v) :
    advanceCached c r s = commands c r.kind r.line (s.semSet r.line v) >>= fun p =>
      moveTo c { r with mode := some (lockMode r.kind (s.dirGet c r.line)) }
        (if p.2 = [] then enterAccess c r.line p.1 else .waiting p.2) p.1 := by
  simp only [advanceCached, hphase, hlock]

theorem advanceCached_of_modified {v : Sem} (hphase : r.phase = .locking)
    (hlock : (s.semGet r.line).tryLock (lockMode r.kind (s.dirGet c r.line)) = some v)
    (hmsi : modifiedBesideShared s c r) : advanceCached c r s = faultWith .msi := by
  rw [advanceCached_of_granted hphase hlock,
    commands_of_modified (s := s.semSet r.line v) hmsi]
  rfl

/-- Arming commands is no matter of the semaphores. -/
theorem advanceCached_arms {v : Sem} (hphase : r.phase = .locking)
    (hlock : (s.semGet r.line).tryLock (lockMode r.kind (s.dirGet c r.line)) = some v)
    (hmsi : ¬ modifiedBesideShared s c r) :
    ∃ t ph s1 keys, advanceCached c r s = .ok (t, ph) ∧
      commands c r.kind r.line s = .ok (s1, keys) ∧ t.cmds = s1.cmds ∧
      ph = if keys = [] then accessPhase s c r.line else .waiting keys := by
  obtain ⟨s1, keys, hcommands⟩ := commands_of_not_modified hmsi
  obtain ⟨s2, keys', hlocked⟩ := commands_of_not_modified (s := s.semSet r.line v) (r := r) hmsi
  rw [advanceCached_of_granted hphase hlock, hlocked]
  obtain ⟨rfl, rfl⟩ := commands_ok hcommands
  obtain ⟨rfl, rfl⟩ := commands_ok hlocked
  refine ⟨_, _, _, _, rfl, hcommands, rfl, ?_⟩
  rw [enterAccess_eq]
  rfl

/-- A request that leaves Locking has taken its lock, in the mode of R295, and no other. -/
theorem advanceCached_leaves (hc : c < s.cores.length) (hphase : r.phase = .locking)
    (h : advanceCached c r s = .ok (t, ph)) (hleft : ph ≠ .locking) :
    ∃ v, (s.semGet r.line).tryLock (lockMode r.kind (s.dirGet c r.line)) = some v ∧
      (t.core c).req = some { r with
        mode := some (lockMode r.kind (s.dirGet c r.line)), phase := ph } ∧
      t.sem = mapSet .free s.sem r.line v := by
  rcases advanceCached_ok h with ⟨-, -, hstays, -⟩ | ⟨v, s1, keys, -, hlock, hcommands, -, rfl⟩ |
    ⟨_, hph, -⟩ | ⟨_, hph, -⟩ | ⟨_, _, hph, -⟩ | ⟨_, _, _, _, hph, -⟩ | ⟨_, hph, -⟩
  case inl => exact absurd hstays hleft
  case inr.inl =>
    obtain ⟨-, rfl⟩ := commands_ok hcommands
    exact ⟨v, hlock, req_setReq (by exact hc) _, rfl⟩
  all_goals exact nomatch hphase.symm.trans hph

theorem advanceCached_of_waiting {keys : List CmdKey} (hphase : r.phase = .waiting keys) :
    advanceCached c r s =
      if ∃ k ∈ keys, cmdFind k s.cmds = some .pending then .ok (s, .waiting keys)
      else .ok (setReq c (some { r with phase := accessPhase s c r.line }) s,
        accessPhase s c r.line) := by
  simp only [advanceCached, hphase, enterAccess_eq, moveTo, List.any_eq_true, decide_eq_true_eq]

theorem advanceCached_of_access {n : Nat} {src : Source} (hphase : r.phase = .access n src)
    (hn : 1 < n) : advanceCached c r s =
      .ok (setReq c (some { r with phase := .access (n - 1) src }) s, .access (n - 1) src) := by
  simp only [advanceCached, hphase, hn, if_true, moveTo]

theorem advanceCached_of_complete {n : Nat} {src : Source} {cells : List Host.Cell}
    (hphase : r.phase = .access n src) (hn : n ≤ 1) (h : complete c r src s = .ok (t, cells)) :
    advanceCached c r s =
      .ok (setReq c (some { r with phase := .finished cells }) t, .finished cells) := by
  simp only [advanceCached, hphase, if_neg (not_lt.mpr hn), h, ok_bind, moveTo]

/-- What the lock taken leaves of the semaphores, in the words of R294 and R295. -/
theorem semaphores_of_lock {v : Sem}
    (hlock : (s.semGet r.line).tryLock (lockMode r.kind (s.dirGet c r.line)) = some v)
    (hsem : t.sem = mapSet .free s.sem r.line v) :
    (s.semGet r.line).writer = false ∧
      (if r.kind = .write ∨ s.dirGet c r.line = .m then
          (s.semGet r.line).readers = 0 ∧ (t.semGet r.line).writer = true
        else (t.semGet r.line).readers = (s.semGet r.line).readers + 1) ∧
      ∀ l, l ≠ r.line → t.semGet l = s.semGet l := by
  have hget := semGet_of_mapSet hsem
  obtain ⟨hwriter, hgranted⟩ := Sem.tryLock_some.mp hlock
  refine ⟨hwriter, ?_, fun l hl => by rw [hget, if_neg hl]⟩
  rw [lockMode_eq] at hgranted
  rw [hget, if_pos rfl]
  split at hgranted <;> rename_i hwrite
  · obtain ⟨hmode, -⟩ | ⟨-, hreaders, rfl⟩ := hgranted
    · cases hmode
    · rw [if_pos hwrite]
      exact ⟨hreaders, rfl⟩
  · obtain ⟨-, rfl⟩ | ⟨hmode, -⟩ := hgranted
    · rw [if_neg hwrite]
    · cases hmode

end Cached

/-- Settles O39, phase by phase: the poll is the transition of the request (`poll_of_cached`). -/
theorem cachedRequestMovesThroughItsPhases : Obligations.CachedRequestMovesThroughItsPhases := by
  intro c r s hc hcached hreq
  rw [poll_of_cached hcached hreq]
  refine ⟨fun hphase => ⟨fun hheld => ?held, fun hmsi hwriter hreaders => ?modified,
    fun hmsi hwriter hreaders => ?armed, fun t ph h hleft => ?left⟩,
    fun keys hphase => ?waiting,
    fun n src hphase => ⟨advanceCached_of_access hphase, fun hn hready => ?finished⟩⟩
  case held => exact advanceCached_of_refused hphase (Sem.tryLock_of_writer hheld _)
  case modified =>
    obtain ⟨v, hlock⟩ := Sem.tryLock_of_free hwriter fun _ => hreaders
    exact advanceCached_of_modified hphase hlock hmsi
  case armed =>
    obtain ⟨v, hlock⟩ :=
      Sem.tryLock_of_free hwriter fun hmode => hreaders (lockMode_eq_write hmode)
    exact advanceCached_arms hphase hlock hmsi
  case left =>
    obtain ⟨v, hlock, hmoved, hsem⟩ := advanceCached_leaves hc hphase h hleft
    obtain ⟨hwriter, htaken, hothers⟩ := semaphores_of_lock hlock hsem
    rw [lockMode_eq] at hmoved
    exact ⟨hwriter, hmoved, htaken, hothers⟩
  case waiting =>
    rw [advanceCached_of_waiting hphase]
    exact ⟨fun hpending => if_pos hpending,
      fun hnone => if_neg fun ⟨k, hk, hpending⟩ => hnone k hk hpending⟩
  case finished =>
    obtain ⟨t, cells, hcomplete⟩ := complete_answers hc hready
    exact ⟨t, cells, hcomplete, advanceCached_of_complete hphase hn hcomplete⟩

/-! ### Without data caches (R310) -/

theorem lineCells_readLine (m : Memory) (size : Nat) (l : LineAddr) :
    lineCells l (Memory.readLine m size l)
      = (List.range size).map (fun j => (l + j, Memory.read m (l + j))) := by
  have hzip : (List.range size).zip (Memory.readLine m size l)
      = (List.range size).map (fun j => (j, Memory.read m (l + j))) :=
    List.map_prod_left_eq_zip.symm
  rw [lineCells, readLine_length, hzip, List.map_map]
  rfl

section Uncached
variable {c : CoreId} {r : ReqState} {s t : State} {ph : Phase}

theorem poll_of_uncached (huncached : s.cfg.l1dPresent = false)
    (hreq : (s.core c).req = some r) : poll c r.who s = advanceUncached c r s := by
  simp only [poll, hreq, ne_eq, not_true_eq_false, if_false, huncached, Bool.false_eq_true]

/-- Without data caches no request touches the shared cache, and a READ leaves memory. -/
theorem advanceUncached_levels (h : advanceUncached c r s = .ok (t, ph)) :
    t.l3 = s.l3 ∧ (r.kind = .read → t.mem = s.mem) := by
  rcases advanceUncached_ok h with ⟨-, -, rfl⟩ | ⟨n, src, -, -, -, rfl⟩ |
    ⟨n, src, -, -, -, -, rfl⟩ | ⟨n, src, -, -, hwrite, -, rfl⟩ | ⟨data, -, rfl, -⟩
  case inr.inr.inr.inl => exact ⟨rfl, fun hread => nomatch hwrite.symm.trans hread⟩
  all_goals exact ⟨rfl, fun _ => rfl⟩

end Uncached

/-- Settles O46: each phase of R310 as the transition has it, and the frame of every transition. -/
theorem uncachedRequestReadsAndWritesMemory :
    Obligations.UncachedRequestReadsAndWritesMemory := by
  intro c r s huncached hreq
  rw [poll_of_uncached huncached hreq]
  refine ⟨fun hphase => ?_, fun n hphase hn => ?_,
    fun n hphase hn hkind => ⟨_, ?_, lineCells_readLine s.mem s.cfg.lineSize r.line⟩,
    fun n hphase hn hkind => ?_, fun t ph h => ?_⟩
  · simp only [advanceUncached, hphase, moveTo]
  · simp only [advanceUncached, hphase, hn, if_true, moveTo]
  · simp only [advanceUncached, hphase, if_neg (not_lt.mpr hn), hkind, moveTo]
  · simp only [advanceUncached, hphase, if_neg (not_lt.mpr hn), hkind, moveTo]
  · have hshared := advanceUncached_shared h
    obtain ⟨hl3, hmem⟩ := advanceUncached_levels h
    exact ⟨hshared.dir, hshared.sem, hshared.cmds, hl3, hmem,
      fun d => ⟨hshared.l1d d, advanceUncached_sameRegs h d⟩⟩

end Sys2Proof.Machine
end

section
/-! SUPPORT. A flush (R157, R346, R349), read field by field off the flushed core
(`applyFlush_flushedCore`). Settles O47 and O48. -/

namespace Sys2Proof.Machine

section Flush
variable {c : CoreId} {b : Seq} {t : Option Word} {s u : State}

/-- Giving a request up touches semaphores and its core alone (R307). -/
theorem abandon_beside (h : abandon c s = .ok u) :
    u.l3 = s.l3 ∧ u.dir = s.dir ∧ u.cmds = s.cmds ∧ u.status = s.status := by
  rcases abandon_ok h with ⟨r, -, m, v, -, -, rfl⟩ | ⟨r, -, -, rfl⟩ | ⟨-, rfl⟩ <;>
    exact ⟨rfl, rfl, rfl, rfl⟩

/-- Everything a flush leaves beside its core and the semaphores. -/
structure FlushFrame (c : CoreId) (s u : State) : Prop where
  mem : u.mem = s.mem
  l3 : u.l3 = s.l3
  dir : u.dir = s.dir
  cmds : u.cmds = s.cmds
  status : u.status = s.status
  cycle : u.cycle = s.cycle
  others : ∀ d, d ≠ c → u.core d = s.core d

theorem requestFlushed_flushFrame {s1 : State} {req : Option ReqState} {k : Core}
    (h : requestFlushed c b s s1 req) : FlushFrame c s (s1.setCore c k) := by
  have hothers : ∀ d, d ≠ c → (s1.setCore c k).core d = s1.core d := fun d hd =>
    core_setCore_ne s1 k (Ne.symm hd)
  rcases h with ⟨-, habandon, -⟩ | ⟨-, rfl, -⟩
  · have hmem := abandon_mem habandon
    obtain ⟨hl3, hdir, hcmds, hstatus⟩ := abandon_beside habandon
    have hframe := (abandon_writes habandon).frame
    exact ⟨hmem, hl3, hdir, hcmds, hstatus, hframe.cycle,
      fun d hd => (hothers d hd).trans (hframe.others d hd)⟩
  · exact ⟨rfl, rfl, rfl, rfl, rfl, rfl, hothers⟩

/-- A flush writes its core, where the request is seen to, and nothing else but the lock given
up. -/
theorem applyFlush_flushes (hc : c < s.cores.length) (h : applyFlush c b t s = .ok u) :
    FlushFrame c s u ∧ ∃ req pw, u.core c = flushedCore b t req pw (s.core c) ∧
      requestAfterFlush c b s u := by
  obtain ⟨s1, req, pw, hflushed, rfl⟩ := applyFlush_flushedCore hc h
  have hc1 : c < s1.cores.length := (requestFlushed_frame hflushed).2.length ▸ hc
  have hcore := core_setCore_self s1 c (flushedCore b t req pw (s.core c)) hc1
  exact ⟨requestFlushed_flushFrame hflushed, req, pw, hcore,
    requestAfterFlush_of_flushed hflushed (by rw [hcore]; rfl) rfl⟩

/-- The counts of a flushed core are those from which the discarded entries took theirs (R346). -/
theorem applyFlush_discards (hc : c < s.cores.length) (h : applyFlush c b t s = .ok u) :
    discardEntries ((s.core c).rob.filter (fun e => decide (b < e.seq))) (s.core c).pw
      = .ok (u.core c).pw := by
  obtain ⟨s1, k, heu, hback, rfl⟩ := applyFlush_ok h
  obtain ⟨s2, habandon, rfl⟩ := euFlush_ok heu
  have hframe : CacheFrame c (s.setCore c (flushFront b t (s.core c))) s2 := by
    rcases habandon with ⟨-, habandon⟩ | ⟨-, rfl⟩
    · exact (abandon_writes habandon).frame
    · exact .refl c _
  have hc2 : c < s2.cores.length := by rwa [hframe.length, cores_length_setCore]
  obtain ⟨l1d, req, hown⟩ := hframe.own
  rw [core_setCore_self s2 c _ hc2, hown, core_setCore_self s c _ hc] at hback
  obtain ⟨pw, hdiscard, rfl⟩ := flushBack_ok hback
  rw [core_setCore_self _ c _ (by rwa [cores_length_setCore])]
  cases t <;> exact hdiscard

end Flush

/-! ### The flushed core (R346) -/

section FlushedCore
variable {b : Seq} {t : Option Word} {req : Option ReqState} {pw : List (RegId × Nat)} {k k' : Core}

/-- Where fetch stands after a flush, and what is counted of it (R157, R372). -/
theorem fetch_of_flushed (h : k' = flushedCore b t req pw k) :
    k'.fd = Bus.empty ∧ k'.fstate = .idle ∧
    (∀ a, t = some a → k'.pc = a ∧ k'.complete = false ∧ k'.flushCount = k.flushCount + 1) ∧
    (t = none → k'.pc = k.pc ∧ k'.complete = true ∧ k'.flushCount = k.flushCount) := by
  subst h
  cases t with
  | none => exact ⟨rfl, rfl, fun a ha => (nomatch ha), fun _ => ⟨rfl, rfl, rfl⟩⟩
  | some a =>
    refine ⟨rfl, rfl, fun a' ha => ?_, fun hnone => nomatch hnone⟩
    obtain rfl := Option.some.inj ha
    exact ⟨rfl, rfl, rfl⟩

/-- What a flush leaves of the architectural state, the caches, the predictor and the counters of
its core. -/
theorem kept_of_flushed (h : k' = flushedCore b t req pw k) :
    k'.x = k.x ∧ k'.l1d = k.l1d ∧ k'.l1i = k.l1i ∧ k'.btb = k.btb ∧ k'.nextSeq = k.nextSeq ∧
    k'.fwdCount = k.fwdCount ∧ k'.stallCount = k.stallCount ∧ k'.done = k.done ∧
    k'.sprog = k.sprog := by
  subst h
  cases t <;> exact ⟨rfl, rfl, rfl, rfl, rfl, rfl, rfl, rfl, rfl⟩

/-- A flush splits the rename slots held at its boundary (R349). -/
theorem freePhys_of_flushed (h : k' = flushedCore b t req pw k) {n : Nat}
    (hsum : k.freePhys + heldSlots k.rob = n) : k'.freePhys = n - heldSlots k'.rob := by
  have hsplit := heldSlots_perm (flush_perm k.rob b)
  have hfree : k'.freePhys = k.freePhys + heldSlots (k.rob.filter (fun e => decide (b < e.seq))) :=
    h ▸ rfl
  have hrob : k'.rob = k.rob.filter (fun e => decide (e.seq ≤ b)) := h ▸ rfl
  rw [heldSlots, List.map_append, List.sum_append] at hsplit
  rw [hfree, hrob]
  unfold heldSlots at *
  omega

/-- A flush leaves the counts of the buffer it leaves (R41, R346). -/
theorem countsAgree_of_flushed (h : k' = flushedCore b t req pw k) (hk : CountsAgree k)
    (hwf : ∀ e ∈ k.rob, e.desc.instr.wf = true)
    (hdiscard : discardEntries (k.rob.filter (fun e => decide (b < e.seq))) k.pw = .ok k'.pw) :
    CountsAgree k' := by
  intro q hq
  have hlowered := pwGet_discardEntries
    (fun e he => hwf e (List.mem_of_mem_filter he)) hdiscard q
  have hsplit := writersOf_perm (flush_perm k.rob b) q
  have hrob : k'.rob = k.rob.filter (fun e => decide (e.seq ≤ b)) := h ▸ rfl
  rw [writersOf_append, ← hk q hq] at hsplit
  rw [hrob]
  omega

/-- A unit with a younger instruction is idle, every other one as it was (R240). -/
theorem unit_of_flushed (h : k' = flushedCore b t req pw k) {i : Nat} {e : EuState}
    (he : k.eu[i]? = some e) :
    (∀ q, e.seq? = some q → b < q → k'.eu[i]? = some .idle) ∧
      ((∀ q, e.seq? = some q → q ≤ b) → k'.eu[i]? = some e) := by
  have heu : k'.eu = k.eu.map (fun e => if EuState.younger b e then .idle else e) := h ▸ rfl
  have hunit : k'.eu[i]? = some (if EuState.younger b e then .idle else e) := by
    rw [heu, List.getElem?_map, he]
    rfl
  rw [hunit, EuState.younger]
  refine ⟨fun q hq hyounger => ?_, fun holder => ?_⟩
  · simp only [hq, hyounger, decide_true, if_true]
  · cases hq : e.seq? with
    | none => rfl
    | some q => simp only [not_lt.mpr (holder q hq), decide_false, Bool.false_eq_true, if_false]

end FlushedCore

/-- Settles O47: the flushed core read field by field, and the frame of the flush. -/
theorem flushMovesFetchAndKeepsArchitecturalState :
    Obligations.FlushMovesFetchAndKeepsArchitecturalState := by
  intro c b t s u hc h
  obtain ⟨hframe, req, pw, hcore, -⟩ := applyFlush_flushes hc h
  obtain ⟨hfd, hfstate, htarget, hstop⟩ := fetch_of_flushed hcore
  obtain ⟨hx, hl1d, hl1i, hbtb, hnextSeq, hfwd, hstall, hdone, -⟩ := kept_of_flushed hcore
  exact ⟨hfd, hcore ▸ rfl, hfstate, hcore ▸ rfl, htarget, hstop, hframe.mem, hframe.l3, hframe.dir,
    hframe.cmds, hframe.status, hframe.cycle, hframe.others, hx, hl1d, hl1i, hbtb, hnextSeq, hfwd,
    hstall, hdone, hcore ▸ rfl⟩

/-- Settles O48: what is in flight was filtered at the boundary, the counts and slots of the
discarded entries are given back, and the request is seen to (`requestAfterFlush_of_flushed`). -/
theorem flushLeavesOnlyOlderWork : Obligations.FlushLeavesOnlyOlderWork := by
  intro c b t s u hc h
  obtain ⟨hframe, req, pw, hcore, hrequest⟩ := applyFlush_flushes hc h
  obtain ⟨-, hl1d, -, -, -, -, -, -, hsprog⟩ := kept_of_flushed hcore
  have holder : OnlyUpTo b (u.core c) := hcore ▸ onlyUpTo_flushedCore b t req pw _
  have hlinks : (u.core c).links
      = (s.core c).links.filter (fun l => decide (l.prod ≤ b ∧ l.cons ≤ b)) := by
    rw [hcore]
    simp only [flushedCore, Bool.decide_and]
  have hlength : (u.core c).eu.length = (s.core c).eu.length := by
    rw [hcore]
    exact List.length_map _
  exact ⟨holder, hcore ▸ rfl, hcore ▸ rfl, hcore ▸ rfl, hcore ▸ rfl, hlinks, hcore ▸ rfl, hsprog,
    fun hk hwf => countsAgree_of_flushed hcore hk hwf (applyFlush_discards hc h),
    freePhys_of_flushed hcore, hlength, fun _ _ => unit_of_flushed hcore, hrequest, hl1d,
    hframe.dir, hframe.cmds⟩

end Sys2Proof.Machine
end

section
/-! SUPPORT. The sample words of 95_test_vectors.md. Settles O4. -/

namespace Sys2Proof.Machine

/-- Settles O4: the decoder evaluated on each word. -/
theorem sampleHeaderWordsDecode : Obligations.SampleHeaderWordsDecode :=
  ⟨rfl, rfl, rfl, rfl, rfl, rfl⟩

end Sys2Proof.Machine
end
